-- ==== Sys2Proof/Word.lean ====
section
/-! DEFINITION. Widths and index types of the DZ4256: bytes, and the numbers of ports, shares, handles, frames and
frame map slots (spec/00_scope.md, Store geometry and Ports). -/

namespace Sys2Proof

/-- A byte, as it stands in the store and on a link. -/
abbrev Byte := BitVec 8

/-- A port number, 0..3 (00_scope.md, Ports). -/
abbrev Port := Fin 4

/-- An index of the Share Table, 0..63 (R1). -/
abbrev ShareIdx := Fin 64

/-- A number of a handle entry within its table, 0..31 (R27). -/
abbrev HandleNo := Fin 32

/-- A frame number, 0..255 (R46). -/
abbrev FrameNo := Fin 256

/-- A slot of a frame map, 0..31 (R4). -/
abbrev SlotNo := Fin 32

/-- The ports in ascending order. -/
def allPorts : List Port := [0, 1, 2, 3]

/-- The share entries in ascending index order. -/
def allShares : List ShareIdx := List.finRange 64

/-- The handle entries of a table in ascending number order. -/
def allHandles : List HandleNo := List.finRange 32

/-- The slots of a frame map in ascending order. -/
def allSlots : List SlotNo := List.finRange 32

/-- The frames in ascending order. -/
def allFrames : List FrameNo := List.finRange 256

end Sys2Proof
end

