-- ==== Sys2Proof/Syntax.lean ====
section
/-! DEFINITION. The commands of the DZ4256: one constructor per row of spec/opcode_table.json. Each is one whole,
indivisible event of the device (spec/95_what_each_step_holds.md).

A host's link gives SELECT_FALLING_EDGE, FIRST_BYTE_END and, at the rise of select, POLL, FETCH, REQUEST_FRAME or HELLO.
The request events (DETACH .. UNKNOWN_REQUEST) are the takes of the Request Taker of a port: the request itself is the
frame at the head of that port's Request Queue. The rest are events of the device's own units, of its timers and of
the RESET input. -/

namespace Sys2Proof

/-- A command: one row of the table with what the outside decides about it. -/
inductive Instr
  /-- SELECT_FALLING_EDGE (R179): select of the port's link falls. -/
  | selectFallingEdge (p : Port)
  /-- POLL (R178): select rises on a POLL; `clocks` clocks have run since the first byte was complete. -/
  | poll (p : Port) (clocks : Nat)
  /-- FETCH (R184): select rises on a FETCH; `clocks` clocks have run since the first byte was complete. -/
  | fetch (p : Port) (clocks : Nat)
  /-- REQUEST_FRAME (R180): select rises on a request frame; `bytes` are the complete bytes received after the kind
  byte, and `bits` the clocks of a last byte left incomplete (0 when select rises on a byte boundary). -/
  | requestFrame (p : Port) (bytes : List Byte) (bits : Nat)
  /-- HELLO (R145): select rises on a complete HELLO frame (kind 0x01, body length 0) with this tag. -/
  | hello (p : Port) (tag : Byte)
  /-- DETACH is taken (R151). -/
  | detach (p : Port)
  /-- CREATE is taken (R14). -/
  | create (p : Port)
  /-- ATTACH is taken (R16). -/
  | attach (p : Port)
  /-- CLOSE is taken (R17). -/
  | close (p : Port)
  /-- REVOKE is taken (R19). -/
  | revoke (p : Port)
  /-- INFO is taken (R22). -/
  | info (p : Port)
  /-- GRANT is taken (R36). -/
  | grant (p : Port)
  /-- DROP is taken (R39). -/
  | drop (p : Port)
  /-- LIST is taken (R41). -/
  | list (p : Port)
  /-- READ is taken (R87). -/
  | read (p : Port)
  /-- WRITE is taken (R89). -/
  | write (p : Port)
  /-- CAS is taken (R91). -/
  | cas (p : Port)
  /-- POST is taken (R94). -/
  | post (p : Port)
  /-- POST_RELEASE (R97): the Data Engine releases the head post of the port. -/
  | postRelease (p : Port)
  /-- FLUSH is taken (R101). -/
  | flush (p : Port)
  /-- CLAIM is taken (R128). -/
  | claim (p : Port)
  /-- RELEASE is taken (R129). -/
  | release (p : Port)
  /-- RENEW is taken (R130). -/
  | renew (p : Port)
  /-- NOTICES is taken (R173). -/
  | notices (p : Port)
  /-- PROPOSE is taken (R158). -/
  | propose (p : Port)
  /-- VOTE is taken (R159). -/
  | vote (p : Port)
  /-- SETTINGS is taken (R165). -/
  | settings (p : Port)
  /-- UNKNOWN_REQUEST (R103): a frame of a kind the device does not define is taken. -/
  | unknownRequest (p : Port)
  /-- GRANT_DECISION (R116) of the Store Arbiter. -/
  | grantDecision
  /-- BURST_COMPLETION (R85): the burst in flight of the port's data stage completes. -/
  | burstCompletion (p : Port)
  /-- SCRUB_BURST_COMPLETION (R51). -/
  | scrubBurstCompletion
  /-- LEASE_EXPIRY (R131): the lease timer of the share's claim record reaches its deadline. -/
  | leaseExpiry (i : ShareIdx)
  /-- POST_DELAY_EXPIRY (R96) of the port's post delay timer. -/
  | postDelayExpiry (p : Port)
  /-- NOTICE_DELAY_EXPIRY (R174) of the port's notice delay timer. -/
  | noticeDelayExpiry (p : Port)
  /-- VOTE_WINDOW_EXPIRY (R160). -/
  | voteWindowExpiry
  /-- REST_COUNTDOWN_EXPIRY (R189). -/
  | restCountdownExpiry
  /-- WARM_UP_EXPIRY (R190). -/
  | warmUpExpiry
  /-- RESET_ASSERT (R192): the RESET input falls. -/
  | resetAssert
  /-- POWER_ON (R192): RESET rises, or power becomes valid with RESET high. -/
  | powerOn
  /-- FIRST_BYTE_END (R184, R179): the eighth clock of a transaction; `first` is the byte the host shifted in. -/
  | firstByteEnd (p : Port) (first : Byte)
  deriving DecidableEq, Repr

end Sys2Proof
end

