-- ==== Sys2Proof/Decode.lean ====
section
/-! DEFINITION. Reading a command from a word of spec/opcode_table.json's bits. The table gives no row any bits (every
row has an empty list of fields and no fixed bits), so no word spells a command. What hosts put on a link is decoded by
the Link Interface and the owning blocks (Machine/Operands.lean). -/

namespace Sys2Proof

/-- The command that the low `nbits` bits of `w` spell by the table: none, since no row of the table has bits. -/
def decodeTableWord (_nbits _w : Nat) : Option Instr := none

end Sys2Proof
end

