-- ==== Sys2Proof/Config.lean ====
section
/-! DEFINITION. What is fixed for the device (its sizes) and the one free value of the model. -/

namespace Sys2Proof

/-- The store is 262,144 bytes (00_scope.md, Store geometry). -/
def Config.storeBytes : Nat := 262144

/-- A frame is 1,024 bytes. -/
def Config.frameBytes : Nat := 1024

/-- A block is 64 bytes; a burst lies within one block. -/
def Config.blockBytes : Nat := 64

/-- Entries of a Request Queue (R182). -/
def Config.requestEntries : Nat := 4

/-- Entries of a Response Queue (R183). -/
def Config.responseEntries : Nat := 4

/-- Places of a Post Buffer (R93). -/
def Config.postPlaces : Nat := 8

/-- Places of a Notice Queue (R169). -/
def Config.noticePlaces : Nat := 16

/-- The largest body length a request frame may state (R181). -/
def Config.maxBody : Nat := 264

/-- FREE VALUE. A byte of the block of a writing burst that was in flight when RESET fell: "the bytes of its block are
whatever the memory holds" (R123). Nothing is known of it. The argument is a count of the free bytes drawn so far, so
no two draws are tied together (log 7). -/
opaque Config.freeByte : Nat → Byte

end Sys2Proof
end

