-- ==== Sys2Proof/Machine/State.lean ====
section
/-! DEFINITION. The state of the DZ4256: every table, queue, record, timer and flag the spec gives it, as plain data;
the fault and refusal reasons; and the state right after reset. Each field cites the rule that names it. -/

namespace Sys2Proof.Machine

/-- A timer: `none` when stopped, `some d` when running with a deadline `d` µs after its last start. The model counts no
time: an expiry may come at any point while the timer runs (log 3). -/
abbrev Timer := Option Nat

/-- The store: address and byte, in the canonical form of `Memory.wf` (Machine/Ops.lean). -/
abbrev Memory := List Host.Cell

/-! ## Shares and handles -/

/-- A set of rights (R28). -/
structure Rights where
  read : Bool
  write : Bool
  grant : Bool
  admin : Bool
  deriving DecidableEq, Repr

/-- The phase of a share entry's life (R1, section 1.2). -/
inductive ShareState
  | free | opened | orphaned | closing
  deriving DecidableEq, Repr

/-- PRIVATE or COMMON (R3). -/
inductive Scope
  | privateScope | common
  deriving DecidableEq, Repr

/-- A port queued in a claim record, with the handle it queued through (R124). -/
structure Waiter where
  port : Port
  handle : HandleNo
  deriving DecidableEq, Repr

/-- A claim record (R124). -/
structure Claim where
  holder : Port
  handle : HandleNo
  /-- the lease timer (R126); it runs while the record exists, and is stopped only while RESET is low -/
  lease : Timer
  /-- oldest at the head -/
  waiters : List Waiter
  deriving DecidableEq, Repr

/-- A share entry (R1). -/
structure Share where
  state : ShareState
  generation : Nat
  creator : Option Port
  scope : Option Scope
  name : Option (BitVec 32)
  commonRights : Rights
  size : Option Nat
  /-- a slot holds a frame, or is UNBACKED (`none`) -/
  frameMap : Vector (Option FrameNo) 32
  /-- the current-handle count (R5) -/
  handleCount : Nat
  /-- the in-use count (R6) -/
  inUse : Nat
  claim : Option Claim
  deriving DecidableEq, Repr

/-- How a handle was made (R30). -/
inductive Origin
  | created | attached | granted (granter : Port)
  deriving DecidableEq, Repr

/-- A VALID handle entry (R27); an EMPTY entry is `none` in its table. -/
structure Handle where
  share : ShareIdx
  generation : Nat
  rights : Rights
  base : Nat
  length : Nat
  origin : Origin
  deriving DecidableEq, Repr

/-! ## The Frame Pool -/

/-- The scrub frame and how many of its blocks are zeroed (section 3.4). -/
structure ScrubFrame where
  frame : FrameNo
  progress : Nat
  deriving DecidableEq, Repr

/-- The Frame Pool (R47, R48, R49). -/
structure Pool where
  clean : List FrameNo
  dirty : List FrameNo
  scrub : Option ScrubFrame
  deriving DecidableEq, Repr

/-! ## The Data Engine -/

/-- What an admitted operation does, with its own data (R72). -/
inductive OpKind
  /-- READ, with the bytes delivered so far -/
  | read (delivered : List Byte)
  /-- WRITE, with the bytes to write -/
  | write (data : List Byte)
  /-- CAS, with its expected and new words, four bytes each -/
  | cas (expected new : List Byte)
  /-- a released post, with the bytes to write -/
  | post (data : List Byte)
  deriving DecidableEq, Repr

/-- The operation record of a data stage (R72, R83): the share and generation found at admission, the share span
`start .. start + length - 1`, and the first share offset of the piece reached. -/
structure Operation where
  kind : OpKind
  share : ShareIdx
  generation : Nat
  start : Nat
  length : Nat
  pos : Nat
  deriving DecidableEq, Repr

/-- The states of a data stage (R83). -/
inductive Stage
  | empty
  | waiting (op : Operation)
  /-- a burst in flight on `frame`, with the bytes it read from the store at its grant (R88, R91) -/
  | bursting (op : Operation) (frame : FrameNo) (captured : List Byte)
  deriving DecidableEq, Repr

/-- A data stage with its abandon mark (R83). -/
structure DataStage where
  stage : Stage
  abandon : Bool
  deriving DecidableEq, Repr

/-- A post record (R93): the body as it was taken, malformed or not, and its ordinal. -/
structure PostRecord where
  body : List Byte
  ordinal : BitVec 16
  deriving DecidableEq, Repr

/-- HOLDING or DRAINING (R93). -/
inductive PostMode
  | holding | draining
  deriving DecidableEq, Repr

/-- A Post Buffer (R93). -/
structure PostBuffer where
  /-- oldest at the head -/
  posts : List PostRecord
  mode : PostMode
  timer : Timer
  ordinal : BitVec 16
  faults : Nat
  deriving DecidableEq, Repr

/-! ## The Store Arbiter -/

/-- The five requesters of the store data path (section 6.1). -/
inductive Requester
  | port (p : Port) | scrub
  deriving DecidableEq, Repr

/-- The store data path (R111): FREE, or BUSY with the burst of this requester in flight. -/
inductive Path
  | free | busy (holder : Requester)
  deriving DecidableEq, Repr

/-- The Store Arbiter (R113). -/
structure Arbiter where
  table : Vector Requester 16
  pointer : Fin 16
  path : Path
  deriving DecidableEq, Repr

/-! ## Agreement and settings -/

/-- SHORT (250 µs) or LONG (1000 µs) (R155). -/
inductive WarmUp
  | short | long
  deriving DecidableEq, Repr

/-- The settings record (R155). Lease duration, vote window and rest delay are in ms; the delays in µs. -/
structure Settings where
  phaseTable : Vector Requester 16
  leaseDuration : Nat
  postThreshold : Nat
  postDelay : Nat
  noticeThreshold : Nat
  noticeDelay : Nat
  voteWindow : Nat
  restDelay : Nat
  warmUp : WarmUp
  isolation : Vector Bool 4
  deriving DecidableEq, Repr

/-- A set of ports, one flag per port. -/
abbrev PortSet := Vector Bool 4

/-- What the adoption of a proposal does (R156). -/
inductive ProposalAction
  | settings (record : Settings) | clearAll
  deriving DecidableEq, Repr

/-- A proposal record (R156). -/
structure Proposal where
  id : Nat
  proposer : Port
  action : ProposalAction
  voters : PortSet
  accepted : PortSet
  timer : Timer
  deriving DecidableEq, Repr

/-- The outcomes of a proposal (R162). -/
inductive ProposalOutcome
  | pending | adopted | rejected | lapsed | withdrawn | voterRestarted
  deriving DecidableEq, Repr

/-! ## Attachment -/

/-- The attachment state of a port (R143). -/
inductive AttachState
  | detached | attached | cleaning
  deriving DecidableEq, Repr

/-- A HELLO that arrived outside RUN (R146). -/
structure PendingHello where
  tag : Byte
  arrival : Nat
  deriving DecidableEq, Repr

/-- The peer notice that the end of the current cleanup will push (R143). -/
inductive Announcement
  | none | attached | restarted
  deriving DecidableEq, Repr

/-- An attachment record (R143). -/
structure Attachment where
  state : AttachState
  pendingHello : Option PendingHello
  announcement : Announcement
  emptied : Nat
  helloTag : Byte
  deriving DecidableEq, Repr

/-! ## Notices -/

/-- The kinds of notice (R170). -/
inductive NoticeKind
  | grantReceived | revoked | shareClosed | claimGranted | claimEnded | leaseLost | postFault | proposalOpened
  | proposalDecided | peerAttached | peerRestarted | peerDetached
  deriving DecidableEq, Repr

/-- A notice record (R170). The handle is a byte: that of a POST_FAULT is the byte the post carried. -/
structure Notice where
  kind : NoticeKind
  peer : Option Port
  handle : Option Byte
  share : Option ShareIdx
  value : BitVec 32
  deriving DecidableEq, Repr

/-- A Notice Queue (R169). -/
structure NoticeQueue where
  /-- oldest at the head -/
  records : List Notice
  overflow : Bool
  timer : Timer
  aged : Bool
  threshold : Nat
  deriving DecidableEq, Repr

/-! ## Responses and links -/

/-- The result codes (section 11.6, Result codes). -/
inductive Result
  | ok | queued | alreadyHeld | alreadyWaiting | unknownRequest | badFrame | notAttached | handleRange | handleEmpty
  | shareGone | stale | rights | align | window | claimed | poolEmpty | poolBusy | isolated | shareTableFull
  | handleTableFull | nameTaken | noSuchName | selfGrant | targetDetached | targetFull | claimBusy | notHolder
  | proposalPending | badSettings | noProposal | notVoter | alreadyVoted
  deriving DecidableEq, Repr

/-- The three endings (00_scope.md, Endings). -/
inductive Ending
  | done | refused | cut
  deriving DecidableEq, Repr

/-- One record of a LIST response (R41). -/
structure ListRecord where
  number : HandleNo
  handle : Handle
  current : Bool
  deriving DecidableEq, Repr

/-- The body of an INFO response (R22). -/
structure InfoBody where
  index : ShareIdx
  state : ShareState
  scope : Option Scope
  size : Nat
  backed : Nat
  handleCount : Nat
  holder : Option Port
  waiters : Nat
  creator : Option Port
  deriving DecidableEq, Repr

/-- The proposal summary of a SETTINGS response (R165). -/
structure ProposalSummary where
  id : Nat
  proposer : Port
  clearAll : Bool
  voters : PortSet
  accepted : PortSet
  deriving DecidableEq, Repr

/-- The place of a port in a claim record as CLAIM reports it (R128): 0 holder, 1..3 waiter, absent when neither. -/
abbrev ClaimPlace := Option Nat

/-- The bodies of responses (section 11.6, Response bodies). -/
inductive ResponseBody
  | empty
  | hello (clean : Nat)
  | created (index : ShareIdx) (number : HandleNo) (generation : Nat)
  | attached (number : HandleNo) (index : ShareIdx) (generation : Nat)
  | revoked (generation : Nat)
  | info (body : InfoBody)
  | granted (number : HandleNo)
  | listed (records : List ListRecord)
  | data (bytes : List Byte)
  | cas (old : List Byte) (swapped : Bool)
  | flushed (faults : Nat)
  | claim (holder : Option Port) (place : ClaimPlace)
  | notices (removed : List Notice) (remaining : Nat) (overflow : Bool)
  | vote (id : Nat) (outcome : ProposalOutcome)
  | settings (record : Settings) (summary : Option ProposalSummary)
  deriving DecidableEq, Repr

/-- What a block answers to a request: result, ending and body. -/
structure Reply where
  result : Result
  ending : Ending
  body : ResponseBody
  deriving DecidableEq, Repr

/-- A response frame: the echo of kind and tag, and the answer (R183). -/
structure Response where
  kind : Byte
  tag : Byte
  reply : Reply
  deriving DecidableEq, Repr

/-- An entry of the Response Queue that is not FREE (R183). -/
inductive Entry
  | reserved (kind tag : Byte)
  | completed (response : Response)
  deriving DecidableEq, Repr

/-- An admitted request frame (R180, R182); its body length is the length of `body`. -/
structure Frame where
  kind : Byte
  tag : Byte
  body : List Byte
  deriving DecidableEq, Repr

/-- How far an open transaction has come (R178, R184). -/
inductive Phase
  | firstByte
  | poll
  /-- a FETCH, with the response it shifts out; `none`: it shifts out zeros -/
  | fetch (chosen : Option Response)
  | request (kind : Byte)
  deriving DecidableEq, Repr

/-- An open transaction: the status byte captured at its falling edge (R179), and its phase. -/
structure Transaction where
  status : Byte
  phase : Phase
  deriving DecidableEq, Repr

/-- The Link Interface of a port (section 11). -/
structure Link where
  /-- `none` while select is high, and from the loss of a transaction at RESET to the next falling edge (log 29) -/
  transaction : Option Transaction
  /-- the Request Queue, oldest at the head -/
  requests : List Frame
  /-- the Response Queue: its entries that are not FREE, oldest at the head -/
  responses : List Entry
  /-- the sticky REFUSED flag -/
  refused : Bool
  /-- the sticky FRAME_ERROR flag -/
  frameError : Bool
  /-- the whole bytes shifted out on data out in the latest transaction: the model's record of an output (log 9) -/
  dataOut : List Byte
  deriving DecidableEq, Repr

/-! ## The whole state -/

/-- What the device keeps for one port. -/
structure PortState where
  link : Link
  attach : Attachment
  handles : Vector (Option Handle) 32
  stage : DataStage
  posts : PostBuffer
  notices : NoticeQueue
  /-- the attention line: asserted (driven low) or released (R176) -/
  attention : Bool
  deriving DecidableEq, Repr

/-- The broker power state (R187). -/
inductive Power
  | run | resting | warming
  deriving DecidableEq, Repr

/-- The state of the broker. -/
structure State where
  mem : Memory
  ports : Vector PortState 4
  shares : Vector Share 64
  pool : Pool
  arbiter : Arbiter
  settings : Settings
  proposal : Option Proposal
  /-- the id counter of proposals (R156) -/
  proposalCounter : Nat
  power : Power
  restCountdown : Timer
  warmUpTimer : Timer
  /-- the RESET input is low (R192) -/
  resetLow : Bool
  /-- MODEL: free bytes drawn so far (log 7) -/
  freeCount : Nat
  /-- MODEL: the commands that wait, first in first out -/
  pending : List Instr
  deriving DecidableEq, Repr

/-- Why a step can stop in a fault. -/
inductive Fault
  /-- Raised by GRANT_DECISION alone: the burst granted falls in a frame map slot that holds no frame. Every slot that a
  burst piece lies in is backed (R84, R74), so no run reaches it. Safe: the model stops where the spec says nothing. -/
  | unbackedBurst
  deriving DecidableEq, Repr

/-- Why a step can be refused. -/
inductive Refusal
  /-- Raised by `exec` for a command that has no meaning yet; no arm raises it now. Safe. -/
  | notModelled (mnemonic : String)
  deriving DecidableEq, Repr

/-! ## The state right after reset (R192 and the rules it gathers) -/

/-- No right. -/
def Rights.none : Rights := ⟨false, false, false, false⟩

/-- A share entry at power-on (R1). -/
def Share.reset : Share :=
  { state := .free, generation := 1, creator := none, scope := none, name := none, commonRights := Rights.none,
    size := none, frameMap := Vector.replicate 32 none, handleCount := 0, inUse := 0, claim := none }

/-- The default Phase Table: P0, P1, P2, P3 four times (R113). -/
def defaultPhaseTable : Vector Requester 16 :=
  #v[.port 0, .port 1, .port 2, .port 3, .port 0, .port 1, .port 2, .port 3,
     .port 0, .port 1, .port 2, .port 3, .port 0, .port 1, .port 2, .port 3]

/-- The default settings record (R155). -/
def Settings.default : Settings :=
  { phaseTable := defaultPhaseTable, leaseDuration := 100, postThreshold := 4, postDelay := 128, noticeThreshold := 4,
    noticeDelay := 256, voteWindow := 50, restDelay := 0, warmUp := .short,
    isolation := #v[false, false, false, false] }

/-- A port at power-on: R179, R182, R183 (link), R143 (attachment; the HELLO tag is a DESIGN CHOICE, log 8), R27
(handles), R83 (data stage), R93 (Post Buffer), R169 (notices), R176 (attention line). -/
def PortState.reset : PortState :=
  { link := { transaction := none, requests := [], responses := [], refused := false, frameError := false, dataOut := [] }
    attach := { state := .detached, pendingHello := none, announcement := .none, emptied := 0, helloTag := 0 }
    handles := Vector.replicate 32 none
    stage := { stage := .empty, abandon := false }
    posts := { posts := [], mode := .holding, timer := none, ordinal := 0, faults := 0 }
    notices := { records := [], overflow := false, timer := none, aged := false, threshold := 4 }
    attention := false }

/-- The Frame Pool at power-on: frame 0 is the scrub frame, frames 1..255 are dirty (R60). -/
def Pool.reset : Pool :=
  { clean := [], dirty := allFrames.drop 1, scrub := some ⟨0, 0⟩ }

/-- The machine right after reset (R192). Memory lists nothing (log 5). -/
def State.reset : State :=
  { mem := []
    ports := Vector.replicate 4 PortState.reset
    shares := Vector.replicate 64 Share.reset
    pool := Pool.reset
    arbiter := { table := defaultPhaseTable, pointer := 0, path := .free }
    settings := Settings.default
    proposal := none
    proposalCounter := 0
    power := .run
    restCountdown := none
    warmUpTimer := none
    resetLow := false
    freeCount := 0
    pending := [] }

end Sys2Proof.Machine
end

