-- ==== Sys2Proof/Machine/Ops.lean ====
section
/-! DEFINITION. The named operations that every block uses: reading and changing one port's, share's or handle's record;
the store; notice pushes; response entries; handle resolution. -/

namespace Sys2Proof.Machine

/-- The outcome of a command of this machine. -/
abbrev Out := Host.Outcome State Fault Refusal

/-! ## Reading and changing records -/

/-- The record of port `p`. -/
def State.port (s : State) (p : Port) : PortState := s.ports[p]

/-- Change the record of port `p` by `f`. -/
def State.modPort (s : State) (p : Port) (f : PortState → PortState) : State :=
  { s with ports := s.ports.set p (f s.ports[p]) }

/-- Change the records of all four ports. -/
def State.mapPorts (s : State) (f : Port → PortState → PortState) : State :=
  { s with ports := Vector.ofFn fun p => f p s.ports[p] }

/-- Share entry `i`. -/
def State.share (s : State) (i : ShareIdx) : Share := s.shares[i]

/-- Change share entry `i` by `f`. -/
def State.modShare (s : State) (i : ShareIdx) (f : Share → Share) : State :=
  { s with shares := s.shares.set i (f s.shares[i]) }

def State.modLink (s : State) (p : Port) (f : Link → Link) : State :=
  s.modPort p fun q => { q with link := f q.link }

def State.modAttach (s : State) (p : Port) (f : Attachment → Attachment) : State :=
  s.modPort p fun q => { q with attach := f q.attach }

def State.modPosts (s : State) (p : Port) (f : PostBuffer → PostBuffer) : State :=
  s.modPort p fun q => { q with posts := f q.posts }

def State.modNotices (s : State) (p : Port) (f : NoticeQueue → NoticeQueue) : State :=
  s.modPort p fun q => { q with notices := f q.notices }

def State.setStage (s : State) (p : Port) (d : DataStage) : State :=
  s.modPort p fun q => { q with stage := d }

/-- Handle entry `h` of port `p`'s table; `none` when it is EMPTY (R27). -/
def State.handle (s : State) (p : Port) (h : HandleNo) : Option Handle := (s.port p).handles[h]

/-- Set handle entry `h` of port `p`'s table. -/
def State.setHandle (s : State) (p : Port) (h : HandleNo) (v : Option Handle) : State :=
  s.modPort p fun q => { q with handles := q.handles.set h v }

/-- Port `p` is ATTACHED. -/
def State.isAttached (s : State) (p : Port) : Bool := (s.port p).attach.state == .attached

/-- The broker runs: it is in RUN and RESET is not low (R187, R192). -/
def State.running (s : State) : Bool := !s.resetLow && s.power == .run

/-! ## The store (section head of 03_the_frame_pool.md) -/

/-- The byte at address `x`. An address the list does not name reads as 0 (log 5). -/
def Memory.read : Memory → Nat → Byte
  | [], _ => 0
  | (a, b) :: m, x => if x = a then b else Memory.read m x

/-- Store byte `v` at address `x`, keeping the canonical form: the list stays rising, and 0 is not listed. -/
def Memory.write : Memory → Nat → Byte → Memory
  | [], x, v => if v = 0 then [] else [(x, v)]
  | (a, b) :: m, x, v =>
    if x < a then (if v = 0 then (a, b) :: m else (x, v) :: (a, b) :: m)
    else if x = a then (if v = 0 then m else (x, v) :: m)
    else (a, b) :: Memory.write m x v

/-- The `n` bytes from address `x` on. -/
def Memory.readBytes (m : Memory) (x : Nat) : Nat → List Byte
  | 0 => []
  | n + 1 => m.read x :: Memory.readBytes m (x + 1) n

/-- Store the bytes `vs` from address `x` on. -/
def Memory.writeBytes (m : Memory) (x : Nat) : List Byte → Memory
  | [] => m
  | v :: vs => Memory.writeBytes (m.write x v) (x + 1) vs

/-- Every listed address is at least `lo`, they rise strictly, none holds 0, and all lie in the store. -/
def Memory.wfFrom : Nat → Memory → Bool
  | _, [] => true
  | lo, (a, b) :: m => decide (lo ≤ a) && decide (a < Config.storeBytes) && decide (b ≠ 0) && Memory.wfFrom (a + 1) m

/-- The canonical form of the store: equal contents are equal data. -/
def Memory.wf (m : Memory) : Bool := Memory.wfFrom 0 m

/-- The store address of byte `offset` of frame `f` (03_the_frame_pool.md). -/
def frameAddress (f : FrameNo) (offset : Nat) : Nat := f.val * Config.frameBytes + offset

/-! ## Shares -/

/-- The entry is OPEN or ORPHANED: it serves its current handles (R7). -/
def Share.live (sh : Share) : Bool := sh.state == .opened || sh.state == .orphaned

/-- The frame bound to slot `k` of the entry, `none` when the slot is UNBACKED or there is no such slot (R4). -/
def Share.frameAt (sh : Share) (k : Nat) : Option FrameNo := if h : k < 32 then sh.frameMap[k] else none

/-- The frames of the entry's backed slots, in ascending slot order (R11). -/
def Share.frames (sh : Share) : List FrameNo := allSlots.filterMap fun k => sh.frameMap[k]

/-- The handle is current: its generation is its share entry's, and that entry is OPEN or ORPHANED (R32). -/
def State.current (s : State) (h : Handle) : Bool :=
  (s.share h.share).live && h.generation == (s.share h.share).generation

/-- The generation after a step: 4095 steps to 1 (R2). -/
def nextGeneration (g : Nat) : Nat := if g = 4095 then 1 else g + 1

/-- The lowest-numbered EMPTY entry of port `p`'s table (R31). -/
def State.emptyHandle? (s : State) (p : Port) : Option HandleNo :=
  allHandles.find? fun h => (s.handle p h).isNone

/-! ## Handle resolution (R33) -/

/-- Resolve handle number `b` for port `p`: HANDLE_RANGE, HANDLE_EMPTY, SHARE_GONE, STALE, or the current handle and
its number. -/
def State.resolve (s : State) (p : Port) (b : Byte) : Except Result (HandleNo × Handle) :=
  if hb : b.toNat < 32 then
    match s.handle p ⟨b.toNat, hb⟩ with
    | none => .error .handleEmpty
    | some h =>
      if (s.share h.share).live = false then .error .shareGone
      else if h.generation ≠ (s.share h.share).generation then .error .stale
      else .ok (⟨b.toNat, hb⟩, h)
  else .error .handleRange

/-! ## Notices (R171, R174, R175) -/

/-- Push a notice to port `q`: nothing when `q` is not ATTACHED; appended, with the threshold renewed and the delay
timer restarted, when fewer than 16 records wait; else discarded with the overflow flag set. -/
def State.push (s : State) (q : Port) (n : Notice) : State :=
  if s.isAttached q then
    s.modNotices q fun nq =>
      if nq.records.length < Config.noticePlaces then
        { nq with records := nq.records ++ [n], threshold := s.settings.noticeThreshold,
                  timer := some s.settings.noticeDelay }
      else { nq with overflow := true }
  else s

/-- Empty a Notice Queue (R172). The threshold in use keeps its value. -/
def NoticeQueue.emptied (nq : NoticeQueue) : NoticeQueue :=
  { nq with records := [], overflow := false, timer := none, aged := false }

/-- The byte of a handle number. -/
def handleByte (h : HandleNo) : Byte := BitVec.ofNat 8 h.val

/-- A notice about a share, naming a handle of the recipient, whose value is a plain number: the low bytes of the value
(section 11.6, Notice record). -/
def shareNotice (k : NoticeKind) (peer : Option Port) (h : HandleNo) (i : ShareIdx) (value : Nat) : Notice :=
  { kind := k, peer := peer, handle := some (handleByte h), share := some i, value := BitVec.ofNat 32 value }

/-- A peer notice, whose value is the emptied-handle count (R153). -/
def peerNotice (k : NoticeKind) (peer : Port) (emptied : Nat) : Notice :=
  { kind := k, peer := some peer, handle := none, share := none, value := BitVec.ofNat 32 emptied }

/-- A proposal notice: the id in byte 4 of the record and a code in byte 5 (section 11.6, Notice record). -/
def proposalNotice (k : NoticeKind) (proposer : Port) (id code : Nat) : Notice :=
  { kind := k, peer := some proposer, handle := none, share := none,
    value := BitVec.ofNat 32 (id * 16777216 + code * 65536) }

/-! ## Responses (R183) -/

/-- The answer of a check that failed: REFUSED with an empty body (R12, R71). -/
def Reply.refusal (r : Result) : Reply := { result := r, ending := .refused, body := .empty }

/-- The answer OK, DONE with this body. -/
def Reply.ok (b : ResponseBody) : Reply := { result := .ok, ending := .done, body := b }

/-- Complete the reserved entry of a request of this kind; nothing when it has none (R86, log 14). -/
def completeReserved (kind : Byte) (r : Reply) : List Entry → List Entry
  | [] => []
  | .completed x :: es => .completed x :: completeReserved kind r es
  | .reserved k t :: es =>
    if k = kind then .completed { kind := k, tag := t, reply := r } :: es
    else .reserved k t :: completeReserved kind r es

/-- Place the answer in port `p`'s entry reserved for a request of this kind. -/
def State.placeResponse (s : State) (p : Port) (kind : Byte) (r : Reply) : State :=
  s.modLink p fun l => { l with responses := completeReserved kind r l.responses }

/-! ## The close of an event: attention lines and the rest countdown -/

/-- The conditions that assert a port's attention line in RUN (R176). -/
def PortState.calls (q : PortState) : Bool :=
  q.link.responses.any (fun e => match e with | .completed _ => true | .reserved _ _ => false)
    || decide (q.notices.threshold ≤ q.notices.records.length)
    || q.notices.aged

/-- In RUN each attention line follows its conditions; outside RUN it keeps its level (R176). -/
def State.driveAttention (s : State) : State :=
  if s.running then s.mapPorts fun _ q => { q with attention := q.calls } else s

/-- The part of idleness that concerns one port (R188). Select counts as high when no transaction is open, also on a port whose
transaction was lost at RESET and whose select has not risen since (log 29, the model's choice). -/
def PortState.idle (q : PortState) : Bool :=
  q.link.requests.isEmpty && q.link.responses.isEmpty && q.stage.stage == .empty && q.posts.posts.isEmpty
    && q.notices.records.isEmpty && q.link.transaction.isNone

/-- The broker is idle (R188). -/
def State.idle (s : State) : Bool :=
  allPorts.all (fun p => (s.port p).idle) && allShares.all (fun i => (s.share i).claim.isNone)
    && s.proposal.isNone && s.pool.dirty.isEmpty && s.pool.scrub.isNone

/-- The rest countdown runs exactly while the broker is in RUN, idle, and the rest delay is not 0. It starts with a full
rest delay, keeps its deadline while idleness lasts, and stops with it (R188). -/
def State.driveCountdown (s : State) : State :=
  if s.running && s.settings.restDelay != 0 && s.idle then
    { s with restCountdown := some (s.restCountdown.getD (s.settings.restDelay * 1000)) }
  else { s with restCountdown := none }

/-- The close of every event: the attention lines and the rest countdown follow the new state (R176, R188; log 19). -/
def State.settle (s : State) : State := s.driveAttention.driveCountdown

/-- An event that took place, with the state it leaves. -/
def took (s : State) : Out := .next s.settle

end Sys2Proof.Machine
end

