-- ==== Sys2Proof/Machine/Operands.lean ====
section
/-! DEFINITION. What the bytes of a request frame say: request kinds, field codes and body layouts (section 11.6 and
R186). A body that does not match, or a code with no meaning, reads as `none`, which its owner refuses BAD_FRAME. -/

namespace Sys2Proof.Machine

/-- Two bytes, most significant first (00_scope.md, Byte order). -/
def be16 (hi lo : Byte) : Nat := hi.toNat * 256 + lo.toNat

/-- Four bytes, most significant first. -/
def be32 (b3 b2 b1 b0 : Byte) : BitVec 32 :=
  BitVec.ofNat 32 (be16 b3 b2 * 65536 + be16 b1 b0)

/-! ## Request kinds -/

def kindHello : Byte := 0x01
def kindDetach : Byte := 0x02
def kindCreate : Byte := 0x10
def kindAttach : Byte := 0x11
def kindClose : Byte := 0x12
def kindRevoke : Byte := 0x13
def kindInfo : Byte := 0x14
def kindGrant : Byte := 0x20
def kindDrop : Byte := 0x21
def kindList : Byte := 0x22
def kindRead : Byte := 0x30
def kindWrite : Byte := 0x31
def kindPost : Byte := 0x32
def kindFlush : Byte := 0x33
def kindCas : Byte := 0x34
def kindClaim : Byte := 0x40
def kindRelease : Byte := 0x41
def kindRenew : Byte := 0x42
def kindNotices : Byte := 0x50
def kindPropose : Byte := 0x60
def kindVote : Byte := 0x61
def kindSettings : Byte := 0x62

/-- The kinds the device defines. -/
def definedKinds : List Byte :=
  [kindHello, kindDetach, kindCreate, kindAttach, kindClose, kindRevoke, kindInfo, kindGrant, kindDrop, kindList,
   kindRead, kindWrite, kindPost, kindFlush, kindCas, kindClaim, kindRelease, kindRenew, kindNotices, kindPropose,
   kindVote, kindSettings]

/-- The first byte of a POLL (R178). -/
def pollByte : Byte := 0x00

/-- The first byte of a FETCH (R178). -/
def fetchByte : Byte := 0xF5

/-! ## Field codes (R186) -/

/-- Rights: bit 0 READ, bit 1 WRITE, bit 2 GRANT, bit 3 ADMIN; a bit among 4 to 7 set has no meaning. -/
def rightsOfByte (b : Byte) : Option Rights :=
  if b.toNat < 16 then
    some { read := b.getLsbD 0, write := b.getLsbD 1, grant := b.getLsbD 2, admin := b.getLsbD 3 }
  else none

/-- The byte of a set of rights. -/
def Rights.toByte (r : Rights) : Byte :=
  BitVec.ofNat 8 (r.read.toNat + r.write.toNat * 2 + r.grant.toNat * 4 + r.admin.toNat * 8)

/-- No right is in the set. -/
def Rights.isEmpty (r : Rights) : Bool := !(r.read || r.write || r.grant || r.admin)

/-- Every right of `a` is in `b`. -/
def Rights.subset (a b : Rights) : Bool :=
  (!a.read || b.read) && (!a.write || b.write) && (!a.grant || b.grant) && (!a.admin || b.admin)

def scopeOfByte (b : Byte) : Option Scope :=
  if b = 0 then some .privateScope else if b = 1 then some .common else none

def portOfByte (b : Byte) : Option Port := if h : b.toNat < 4 then some ⟨b.toNat, h⟩ else none

/-- A field that is 0 or 1. -/
def flagOfByte (b : Byte) : Option Bool := if b = 0 then some false else if b = 1 then some true else none

/-! ## Bodies -/

/-- The fields of CREATE. -/
structure CreateFields where
  scope : Scope
  name : BitVec 32
  size : Nat
  /-- ON_DEMAND backing; else EAGER -/
  onDemand : Bool
  rights : Rights
  deriving DecidableEq, Repr

/-- CREATE: scope (1), name (4), size (1), backing (1), common rights (1); 8 bytes. -/
def createFields : List Byte → Option CreateFields
  | [sc, n3, n2, n1, n0, sz, bk, rt] =>
    match scopeOfByte sc, flagOfByte bk, rightsOfByte rt with
    | some scope, some backing, some rights =>
      some { scope := scope, name := be32 n3 n2 n1 n0, size := sz.toNat, onDemand := backing, rights := rights }
    | _, _, _ => none
  | _ => none

/-- ATTACH: name (4), rights wanted (1); 5 bytes. -/
def attachFields : List Byte → Option (BitVec 32 × Rights)
  | [n3, n2, n1, n0, rt] => (rightsOfByte rt).map fun r => (be32 n3 n2 n1 n0, r)
  | _ => none

/-- A body of one handle: CLOSE, REVOKE, INFO, DROP, RELEASE, RENEW. -/
def handleField : List Byte → Option Byte
  | [h] => some h
  | _ => none

/-- The fields of GRANT. -/
structure GrantFields where
  source : Byte
  target : Port
  rights : Rights
  base : Nat
  length : Nat
  deriving DecidableEq, Repr

/-- GRANT: source handle (1), target port (1), rights (1), window base (2), window length (2); 7 bytes. -/
def grantFields : List Byte → Option GrantFields
  | [h, t, r, b1, b0, l1, l0] =>
    match portOfByte t, rightsOfByte r with
    | some target, some rights =>
      some { source := h, target := target, rights := rights, base := be16 b1 b0, length := be16 l1 l0 }
    | _, _ => none
  | _ => none

/-- The fixed fields of READ, WRITE, POST and CAS, and the bytes after them. -/
structure DataFields where
  handle : Byte
  offset : Nat
  length : Nat
  payload : List Byte
  deriving DecidableEq, Repr

/-- handle (1), offset (2), length (2), then the rest. -/
def dataFields : List Byte → Option DataFields
  | h :: o1 :: o0 :: l1 :: l0 :: rest =>
    some { handle := h, offset := be16 o1 o0, length := be16 l1 l0, payload := rest }
  | _ => none

/-- CLAIM: handle (1), wait flag (1). -/
def claimFields : List Byte → Option (Byte × Bool)
  | [h, w] => (flagOfByte w).map fun f => (h, f)
  | _ => none

/-- VOTE: id (1), choice (1): 1 accept, 0 reject. -/
def voteFields : List Byte → Option (Nat × Bool)
  | [i, c] => (flagOfByte c).map fun f => (i.toNat, f)
  | _ => none

/-- What PROPOSE carries: the 28 bytes of a settings record, or nothing for CLEAR_ALL. -/
inductive ProposeFields
  | settings (record : List Byte) | clearAll
  deriving DecidableEq, Repr

/-- PROPOSE: kind (1), then the settings record (28) for SETTINGS alone. -/
def proposeFields : List Byte → Option ProposeFields
  | k :: rest =>
    if k = 0 && rest.length == 28 then some (.settings rest)
    else if k = 1 && rest.isEmpty then some .clearAll
    else none
  | [] => none

/-! ## The settings record (section 11.6, Settings record) -/

/-- The requester of a phase code; 4 is SCRUB. -/
def requesterOfCode (b : Byte) : Requester :=
  if h : b.toNat < 4 then .port ⟨b.toNat, h⟩ else .scrub

def Requester.code : Requester → Byte
  | .port p => BitVec.ofNat 8 p.val
  | .scrub => 4

/-- Byte `k` of a record. -/
def byteAt (bytes : List Byte) (k : Nat) : Byte := bytes.getD k 0

/-- The two-byte field at offset `k` of a record. -/
def fieldAt (bytes : List Byte) (k : Nat) : Nat := be16 (byteAt bytes k) (byteAt bytes (k + 1))

/-- The settings record its 28 bytes spell, before any range check. -/
def settingsOfBytes (b : List Byte) : Settings :=
  { phaseTable := Vector.ofFn fun i : Fin 16 => requesterOfCode (byteAt b i.val)
    leaseDuration := fieldAt b 16
    postThreshold := (byteAt b 18).toNat
    postDelay := fieldAt b 19
    noticeThreshold := (byteAt b 21).toNat
    noticeDelay := fieldAt b 22
    voteWindow := (byteAt b 24).toNat
    restDelay := (byteAt b 25).toNat
    warmUp := if byteAt b 26 = 0 then .short else .long
    isolation := Vector.ofFn fun p : Fin 4 => (byteAt b 27).getLsbD p.val }

/-- Every code of the record has a meaning: phases 0..4, warm-up 0 or 1, isolation bits 4 to 7 clear (R186). -/
def settingsCodesOk (b : List Byte) : Bool :=
  (b.take 16).all (fun c => decide (c.toNat ≤ 4)) && decide ((byteAt b 26).toNat ≤ 1) && decide ((byteAt b 27).toNat < 16)

/-- The phase table names port `p` (R114). -/
def tableNames (t : Vector Requester 16) (p : Port) : Bool := t.toList.contains (.port p)

/-- Every field lies in its range of R155, and every port is named by a phase. -/
def Settings.legal (r : Settings) : Bool :=
  allPorts.all (tableNames r.phaseTable)
    && decide (1 ≤ r.leaseDuration) && decide (r.leaseDuration ≤ 1000)
    && decide (1 ≤ r.postThreshold) && decide (r.postThreshold ≤ 8)
    && decide (8 ≤ r.postDelay) && decide (r.postDelay ≤ 1024) && decide (r.postDelay % 8 = 0)
    && decide (1 ≤ r.noticeThreshold) && decide (r.noticeThreshold ≤ 16)
    && decide (16 ≤ r.noticeDelay) && decide (r.noticeDelay ≤ 4096) && decide (r.noticeDelay % 16 = 0)
    && decide (1 ≤ r.voteWindow) && decide (r.voteWindow ≤ 255)
    && decide (r.restDelay ≤ 255)

/-- The settings record of a PROPOSE, or `none` where R157 says BAD_SETTINGS. -/
def proposedSettings (b : List Byte) : Option Settings :=
  if settingsCodesOk b && (settingsOfBytes b).legal then some (settingsOfBytes b) else none

end Sys2Proof.Machine
end

