-- ==== Sys2Proof/Machine/PoolOps.lean ====
section
/-! DEFINITION. Shared operations of the Frame Pool and the Share Table: allocation, return of frames, generation steps,
entry into CLOSING and retirement, and the making and emptying of handles. -/

namespace Sys2Proof.Machine

/-! ## The Frame Pool -/

/-- When no scrub frame is present and the dirty list is nonempty, its head becomes the scrub frame with progress 0, in
the event that brings this about (R49). -/
def Pool.nextScrub (q : Pool) : Pool :=
  match q.scrub, q.dirty with
  | none, f :: rest => { q with scrub := some ⟨f, 0⟩, dirty := rest }
  | _, _ => q

/-- Returned frames join the tail of the dirty list; the first moves on at once when no scrub frame is present (R57). -/
def Pool.giveBack (q : Pool) (fs : List FrameNo) : Pool := Pool.nextScrub { q with dirty := q.dirty ++ fs }

/-- The frames on the clean list, on the dirty list and in the scrub frame together (R53). -/
def Pool.supply (q : Pool) : Nat := q.clean.length + q.dirty.length + q.scrub.isSome.toNat

/-- The pool's decision on a need of `n` frames: `none` when it is served, else POOL_BUSY or POOL_EMPTY (R53). A need of
0 is always served (R53, last sentence). -/
def Pool.verdict (q : Pool) (n : Nat) : Option Result :=
  if n ≤ q.clean.length then none
  else if n ≤ q.supply then some .poolBusy
  else some .poolEmpty

/-- Remove `n` frames from the head of the clean list (R53). -/
def Pool.take (q : Pool) (n : Nat) : Pool := { q with clean := q.clean.drop n }

/-- Bind frames to slots, the first frame to the first slot and so on (R55, R56). -/
def bindSlots (m : Vector (Option FrameNo) 32) : List SlotNo → List FrameNo → Vector (Option FrameNo) 32
  | k :: ks, f :: fs => bindSlots (m.set k (some f)) ks fs
  | _, _ => m

/-- The slots that hold at least one byte of the span of `length` bytes from share offset `start` and are UNBACKED, in
ascending order: the need of a write-type request (R70). -/
def Share.unbackedSlots (sh : Share) (start length : Nat) : List SlotNo :=
  allSlots.filter fun k =>
    decide (k.val * Config.frameBytes < start + length) && decide (start < (k.val + 1) * Config.frameBytes)
      && (sh.frameMap[k]).isNone

/-! ## Generations (R2, R42) -/

/-- The handle names entry `i` and records generation `g`. -/
def Handle.records (h : Handle) (i : ShareIdx) (g : Nat) : Bool := h.share == i && h.generation == g

/-- Empty a VALID handle that names the entry and records the new generation (R2). -/
def Handle.afterStep (i : ShareIdx) (g : Nat) : Option Handle → Option Handle
  | some h => if h.records i g then none else some h
  | none => none

/-- An admitted READ on the entry whose copy of the generation equals the new generation has that copy set to 0 (R2). -/
def Operation.afterStep (i : ShareIdx) (g : Nat) (op : Operation) : Operation :=
  match op.kind with
  | .read _ => if op.share == i && op.generation == g then { op with generation := 0 } else op
  | .write _ | .cas _ _ | .post _ => op

def Stage.afterStep (i : ShareIdx) (g : Nat) : Stage → Stage
  | .empty => .empty
  | .waiting op => .waiting (op.afterStep i g)
  | .bursting op f bs => .bursting (op.afterStep i g) f bs

/-- The generation of entry `i` steps, with the search of all four Handle Tables and of the data stages (R2). -/
def State.stepGeneration (s : State) (i : ShareIdx) : State :=
  let g := nextGeneration (s.share i).generation
  (s.modShare i fun sh => { sh with generation := g }).mapPorts fun _ q =>
    { q with handles := Vector.ofFn fun h : Fin 32 => Handle.afterStep i g q.handles[h]
             stage := { q.stage with stage := q.stage.stage.afterStep i g } }

/-! ## Entry into CLOSING and retirement -/

/-- Retirement of entry `i` (R11): its frames go to the dirty list in slot order, its slots become UNBACKED, its
generation steps, any claim record is removed, creator, scope and size become absent, and it is FREE. The common rights
are not named by R11 and stay (log 15). -/
def State.retire (s : State) (i : ShareIdx) : State :=
  let fs := (s.share i).frames
  let s := { s with pool := s.pool.giveBack fs }
  let s := s.modShare i fun sh =>
    { sh with state := .free, frameMap := Vector.replicate 32 none, claim := none, creator := none, scope := none,
              size := none }
  s.stepGeneration i

/-- A CLOSING entry with an in-use count of 0 retires (R11). -/
def State.retireIfDone (s : State) (i : ShareIdx) : State :=
  if (s.share i).state == .closing && (s.share i).inUse == 0 then s.retire i else s

/-- The entry enters CLOSING: its name is released and its current-handle count is 0 (R10). Retirement is apart, since
CLOSE tells the claim's ports before it (R17, log 20). -/
def State.markClosing (s : State) (i : ShareIdx) : State :=
  s.modShare i fun sh => { sh with state := .closing, name := none, handleCount := 0 }

/-- Entry into CLOSING with the retirement that may follow at once (R9, R10, R26). -/
def State.enterClosing (s : State) (i : ShareIdx) : State := (s.markClosing i).retireIfDone i

/-- The in-use count falls by one as an operation ends; a CLOSING entry whose count reaches 0 retires (R6, R86). -/
def State.releaseUse (s : State) (i : ShareIdx) : State :=
  (s.modShare i fun sh => { sh with inUse := sh.inUse - 1 }).retireIfDone i

/-! ## Making and emptying handles -/

/-- Make a handle in entry `h` of port `p`'s table; the entry's current-handle count rises (R31, R5). -/
def State.makeHandle (s : State) (p : Port) (h : HandleNo) (v : Handle) : State :=
  (s.setHandle p h (some v)).modShare v.share fun sh => { sh with handleCount := sh.handleCount + 1 }

/-- What the emptying of a current handle does to its share entry: the count falls, and an OPEN entry that loses its
ADMIN handle becomes ORPHANED (R5, R8). -/
def Share.loseHandle (sh : Share) (admin : Bool) : Share :=
  { sh with handleCount := sh.handleCount - 1
            state := if admin && sh.state == .opened then .orphaned else sh.state }

/-- An ORPHANED entry without current handles closes (R9). -/
def State.closeIfUnused (s : State) (i : ShareIdx) : State :=
  if (s.share i).state == .orphaned && (s.share i).handleCount == 0 then s.enterClosing i else s

/-- Empty handle entry `h` of port `p`, with the effects on its share entry when the handle was current (R31, R39). -/
def State.emptyHandle (s : State) (p : Port) (h : HandleNo) : State :=
  match s.handle p h with
  | none => s
  | some v =>
    let s' := s.setHandle p h none
    if s.current v then
      (s'.modShare v.share fun sh => sh.loseHandle v.rights.admin).closeIfUnused v.share
    else s'

/-- Port cleanup's part of the Handle Tables: empty every VALID entry of `p` in ascending order, counting them (R43,
R147). -/
def State.emptyTable (s : State) (p : Port) : State :=
  allHandles.foldl (fun s h =>
    if (s.handle p h).isSome then
      (s.emptyHandle p h).modAttach p fun a => { a with emptied := a.emptied + 1 }
    else s) s

/-! ## Who is told of a REVOKE or a CLOSE -/

/-- The lowest-numbered current handle of port `q` on entry `i` (R17, R19). -/
def State.lowestCurrent? (s : State) (q : Port) (i : ShareIdx) : Option HandleNo :=
  allHandles.find? fun h =>
    match s.handle q h with
    | some v => v.share == i && s.current v
    | none => false

/-- Every port other than `p` that holds a current handle of entry `i`, with its lowest one, in port order (R17, R19). -/
def State.told (s : State) (p : Port) (i : ShareIdx) : List (Port × HandleNo) :=
  allPorts.filterMap fun q => if q = p then none else (s.lowestCurrent? q i).map fun h => (q, h)

/-- Push a notice about entry `i` to each port told, naming that port's handle (R18, R20). -/
def State.pushTold (s : State) (k : NoticeKind) (p : Port) (i : ShareIdx) (value : Nat) :
    List (Port × HandleNo) → State
  | [] => s
  | (q, h) :: rest => (s.push q (shareNotice k (some p) h i value)).pushTold k p i value rest

end Sys2Proof.Machine
end

