-- ==== Sys2Proof/Machine/ClaimOps.lean ====
section
/-! DEFINITION. Shared operations of the Claim Unit: lease starts, handover, endings of a whole claim, and its parts of
DROP and port cleanup. -/

namespace Sys2Proof.Machine

/-- The deadline a lease timer is started with: one lease duration of the current settings (R126). -/
def State.lease (s : State) : Timer := some (s.settings.leaseDuration * 1000)

/-- Set the claim record of entry `i`. -/
def State.setClaim (s : State) (i : ShareIdx) (c : Option Claim) : State :=
  s.modShare i fun sh => { sh with claim := c }

/-- The waiters without port `p`; the ones behind it move up in the same order (R129). -/
def withoutPort (p : Port) (ws : List Waiter) : List Waiter := ws.filter fun w => w.port != p

/-- The handover (R132) of claim record `c` of entry `i`: the waiter at the head becomes the holder through its recorded
handle, its lease starts, and it receives CLAIM_GRANTED with the former holder as peer; with no waiter the record is
removed. R124 keeps every waiter able to hold the claim (log 21). -/
def State.handover (s : State) (i : ShareIdx) (c : Claim) : State :=
  match c.waiters with
  | [] => s.setClaim i none
  | w :: ws =>
    (s.setClaim i (some { holder := w.port, handle := w.handle, lease := s.lease, waiters := ws })).push w.port
      (shareNotice .claimGranted (some c.holder) w.handle i (s.share i).generation)

/-- Tell each port of a record that its place ended, except the requesting port `p` (R136). -/
def State.pushEnded (s : State) (p : Port) (i : ShareIdx) (cause : Nat) : List (Port × HandleNo) → State
  | [] => s
  | (q, h) :: rest =>
    (if q = p then s else s.push q (shareNotice .claimEnded (some p) h i cause)).pushEnded p i cause rest

/-- The ports of a claim record with their recorded handles, the holder first. -/
def Claim.places (c : Claim) : List (Port × HandleNo) := (c.holder, c.handle) :: c.waiters.map fun w => (w.port, w.handle)

/-- A REVOKE (cause 1) or CLOSE (cause 2) of port `p` removes the record, and each other port in it receives CLAIM_ENDED;
no handover runs (R133, R136). -/
def State.endClaim (s : State) (p : Port) (i : ShareIdx) (cause : Nat) : State :=
  match (s.share i).claim with
  | none => s
  | some c => (s.setClaim i none).pushEnded p i cause c.places

/-- The Claim Unit's part of a DROP of handle `h` of port `p`, which names entry `i` (R40, R138). -/
def State.claimDrop (s : State) (p : Port) (h : HandleNo) (i : ShareIdx) : State :=
  match (s.share i).claim with
  | none => s
  | some c =>
    if c.holder = p then (if c.handle = h then s.handover i c else s)
    else s.setClaim i (some { c with waiters := c.waiters.filter fun w => !(w.port == p && w.handle == h) })

/-- First pass of cleanup's part: `p` leaves the waiters of entry `i`, with no notice (R139). -/
def State.leaveWaiters (p : Port) (s : State) (i : ShareIdx) : State :=
  match (s.share i).claim with
  | none => s
  | some c => s.setClaim i (some { c with waiters := withoutPort p c.waiters })

/-- Second pass: a claim that `p` holds on entry `i` is handed over (R139). -/
def State.yieldClaim (p : Port) (s : State) (i : ShareIdx) : State :=
  match (s.share i).claim with
  | none => s
  | some c => if c.holder = p then s.handover i c else s

/-- The Claim Unit's part of the cleanup of port `p`, over the records in ascending share index order (R139). -/
def State.claimCleanup (s : State) (p : Port) : State :=
  allShares.foldl (State.yieldClaim p) (allShares.foldl (State.leaveWaiters p) s)

/-- The position of port `p` among the waiters, counted from 1 at the head (R128). -/
def waiterPlace (p : Port) : List Waiter → Option Nat
  | [] => none
  | w :: ws => if w.port = p then some 1 else (waiterPlace p ws).map (· + 1)

/-- The place of port `p` in a claim record: 0 when it holds, its position when it waits (R128). -/
def Claim.place (c : Claim) (p : Port) : ClaimPlace := if c.holder = p then some 0 else waiterPlace p c.waiters

end Sys2Proof.Machine
end

