-- ==== Sys2Proof/Machine/DataOps.lean ====
section
/-! DEFINITION. Shared operations of the Access Checker and the Data Engine: the ordered checks of a data request,
admission, the pieces of an operation, the rechecks of a READ, the end of an operation, and the Post Buffer. -/

namespace Sys2Proof.Machine

/-! ## Operations and their pieces (R74, R84) -/

/-- The request kind an operation answers; a post has its own kind and no response. -/
def OpKind.requestKind : OpKind → Byte
  | .read _ => kindRead
  | .write _ => kindWrite
  | .cas _ _ => kindCas
  | .post _ => kindPost

def OpKind.isRead : OpKind → Bool
  | .read _ => true
  | .write _ | .cas _ _ | .post _ => false

/-- The share offset after the share span. -/
def Operation.stop (op : Operation) : Nat := op.start + op.length

/-- The length of the burst piece at the offset reached: the bytes of the span that lie in its 64-byte block (R84). -/
def Operation.pieceLength (op : Operation) : Nat :=
  min (op.stop - op.pos) (Config.blockBytes - op.pos % Config.blockBytes)

/-- The frame map slot of the offset reached (R84). -/
def Operation.slot (op : Operation) : Nat := op.pos / Config.frameBytes

/-- The store address of the piece reached, once its slot holds frame `f` (R84). -/
def Operation.address (op : Operation) (f : FrameNo) : Nat := frameAddress f (op.pos % Config.frameBytes)

/-- The bytes of the span that lie in the UNBACKED slot of the offset reached (R74). -/
def Operation.unbackedLength (op : Operation) : Nat :=
  min op.stop ((op.slot + 1) * Config.frameBytes) - op.pos

/-- The recheck of a READ against its share entry: `none` when it passes (R75). -/
def Share.recheck (sh : Share) (op : Operation) : Option Result :=
  if sh.live = false then some .shareGone
  else if sh.generation ≠ op.generation then some .stale
  else none

/-- Bytes delivered to a READ; other operations deliver none. -/
def Operation.deliver (op : Operation) (bs : List Byte) (n : Nat) : Operation :=
  match op.kind with
  | .read delivered => { op with kind := .read (delivered ++ bs), pos := op.pos + n }
  | .write _ | .cas _ _ | .post _ => { op with pos := op.pos + n }

/-- The bytes a READ has delivered. -/
def Operation.delivered (op : Operation) : List Byte :=
  match op.kind with
  | .read delivered => delivered
  | .write _ | .cas _ _ | .post _ => []

/-- What the data stage finds at the offset reached: a burst to request, the end of the operation, or the end of a READ
by a failed recheck. -/
inductive Reached
  | burst (op : Operation)
  | finished (op : Operation)
  | cut (op : Operation) (code : Result)
  deriving DecidableEq, Repr

/-- The data stage reaches the next piece (R74, R76, R85). A burst is requested; an unbacked span of a READ is rechecked
and delivered as zeros, and the piece after it is reached in turn. Each unbacked span ends at the end of its slot or of
the share span, so `fuel` pieces are enough when it exceeds the bytes left. -/
def reachPiece (sh : Share) : Nat → Operation → Reached
  | 0, op => .burst op
  | fuel + 1, op =>
    if op.stop ≤ op.pos then .finished op
    else if op.kind.isRead && (sh.frameAt op.slot).isNone then
      match sh.recheck op with
      | some code => .cut op code
      | none => reachPiece sh fuel (op.deliver (List.replicate op.unbackedLength 0) op.unbackedLength)
    else .burst op

/-- The answer of an operation that carried out every piece: a READ its bytes, a WRITE no body, a post none (R78, R86). -/
def Operation.doneReply (op : Operation) : Option Reply :=
  match op.kind with
  | .read delivered => some (Reply.ok (.data delivered))
  | .write _ => some (Reply.ok .empty)
  | .cas _ _ => some (Reply.ok .empty)
  | .post _ => none

/-- The answer of a READ cut by a failed recheck: the bytes delivered before it (R78). -/
def Operation.cutReply (op : Operation) (code : Result) : Reply :=
  { result := code, ending := .cut, body := .data op.delivered }

/-- The end of port `p`'s operation `op` (R86): the in-use count falls, which may retire a CLOSING entry; the answer, if
any, is placed in the entry reserved for it; the data stage becomes EMPTY and the abandon mark clear. -/
def State.endOperation (s : State) (p : Port) (op : Operation) (answer : Option Reply) : State :=
  let s := s.releaseUse op.share
  let s := match answer with
    | some r => s.placeResponse p op.kind.requestKind r
    | none => s
  s.setStage p { stage := .empty, abandon := false }

/-- Port `p`'s data stage goes on with `op` at the offset it has reached (R85). -/
def State.advance (s : State) (p : Port) (op : Operation) : State :=
  match reachPiece (s.share op.share) (op.stop - op.pos + 1) op with
  | .burst op' => s.setStage p { (s.port p).stage with stage := .waiting op' }
  | .finished op' => s.endOperation p op' op'.doneReply
  | .cut op' code => s.endOperation p op' (some (op'.cutReply code))

/-! ## The Access Checker -/

/-- The data requests (section 4.1). -/
inductive DataKind
  | read | write | cas | post
  deriving DecidableEq, Repr

/-- The largest length field (R65). -/
def DataKind.maxLength : DataKind → Nat
  | .read => 256
  | .write => 256
  | .cas => 4
  | .post => 64

/-- The bytes after the fixed fields that the kind requires for this length field (section 11.6). -/
def DataKind.payloadLength (k : DataKind) (length : Nat) : Nat :=
  match k with
  | .read => 0
  | .write => length
  | .cas => 8
  | .post => length

/-- The fields of a body that passes BAD_FRAME for this kind (R65): the body has the length required, and the length
field is 1..256 for READ and WRITE, 1..64 for a post, 4 for CAS. -/
def DataKind.fields (k : DataKind) (body : List Byte) : Option DataFields :=
  match dataFields body with
  | none => none
  | some f =>
    if f.payload.length = k.payloadLength f.length ∧ 1 ≤ f.length ∧ f.length ≤ k.maxLength
        ∧ (k = .cas → f.length = 4) then some f
    else none

/-- The handle carries the rights the request needs (R67). -/
def DataKind.permitted (k : DataKind) (r : Rights) : Bool :=
  match k with
  | .read => r.read
  | .write => r.write
  | .cas => r.read && r.write
  | .post => r.write

/-- The share has a claim record whose holder is another port (R69). -/
def Share.claimedAgainst (sh : Share) (p : Port) : Bool :=
  match sh.claim with
  | some c => c.holder != p
  | none => false

/-- What the checker found for a request that passes every check. -/
structure Admit where
  handle : Handle
  fields : DataFields
  /-- the UNBACKED slots the share span touches; none for a READ -/
  need : List SlotNo
  deriving DecidableEq, Repr

/-- Priorities 7 to 12 for a request whose handle resolved (R64, R67 to R70). -/
def State.checkAccess (s : State) (p : Port) (k : DataKind) (f : DataFields) (h : Handle) : Except Result Admit :=
  let sh := s.share h.share
  let need := if k = .read then [] else sh.unbackedSlots (h.base + f.offset) f.length
  if k.permitted h.rights = false then .error .rights
  else if k = .cas ∧ f.offset % 4 ≠ 0 then .error .align
  else if h.length < f.offset + f.length then .error .window
  else if k ≠ .read ∧ sh.claimedAgainst p then .error .claimed
  else match s.pool.verdict need.length with
    | some code => .error code
    | none => .ok { handle := h, fields := f, need := need }

/-- The ordered checks of a data request (R64): NOT_ATTACHED, BAD_FRAME, handle resolution, then priorities 7 to 12. -/
def State.checkData (s : State) (p : Port) (k : DataKind) (body : List Byte) : Except Result Admit :=
  if s.isAttached p = false then .error .notAttached
  else match k.fields body with
    | none => .error .badFrame
    | some f =>
      match s.resolve p f.handle with
      | .error code => .error code
      | .ok (_, h) => s.checkAccess p k f h

/-- The operation's own data (R72). -/
def DataKind.opKind (k : DataKind) (f : DataFields) : OpKind :=
  match k with
  | .read => .read []
  | .write => .write f.payload
  | .cas => .cas (f.payload.take 4) (f.payload.drop 4)
  | .post => .post f.payload

/-- The operation record an admission makes (R72). -/
def Admit.operation (a : Admit) (k : DataKind) : Operation :=
  { kind := k.opKind a.fields, share := a.handle.share, generation := a.handle.generation,
    start := a.handle.base + a.fields.offset, length := a.fields.length, pos := a.handle.base + a.fields.offset }

/-- Demand backing: the frames at the head of the clean list are bound to the slots needed, in order (R56, R72). -/
def State.bindNeed (s : State) (i : ShareIdx) (need : List SlotNo) : State :=
  let fs := s.pool.clean.take need.length
  { s with pool := s.pool.take need.length }.modShare i fun sh =>
    { sh with frameMap := bindSlots sh.frameMap need fs }

/-- Admission (R72): bind the frames needed, raise the in-use count, and put the operation in port `p`'s data stage,
which reaches its first piece. -/
def State.startOperation (s : State) (p : Port) (k : DataKind) (a : Admit) : State :=
  let s := s.bindNeed a.handle.share a.need
  let s := s.modShare a.handle.share fun sh => { sh with inUse := sh.inUse + 1 }
  s.advance p (a.operation k)

/-! ## The Post Buffer (R93 to R98) -/

/-- The switch to DRAINING, which stops the timer (R95). -/
def PostBuffer.drain (b : PostBuffer) : PostBuffer := { b with mode := .draining, timer := none }

/-- A HOLDING, nonempty buffer switches to DRAINING. -/
def PostBuffer.drainHeld (b : PostBuffer) : PostBuffer :=
  if b.mode = .holding ∧ b.posts ≠ [] then b.drain else b

/-- The buffer emptied by cleanup or CLEAR_ALL: HOLDING, with its timer stopped (R109, R110). -/
def PostBuffer.cleared (b : PostBuffer) : PostBuffer := { b with posts := [], mode := .holding, timer := none }

/-- A taken post is appended with the next ordinal. A HOLDING buffer restarts its timer, and switches to DRAINING when
the count reaches the threshold (R94, R95, R96). -/
def PostBuffer.append (b : PostBuffer) (body : List Byte) (threshold delay : Nat) : PostBuffer :=
  let b' := { b with posts := b.posts ++ [{ body := body, ordinal := b.ordinal }], ordinal := b.ordinal + 1 }
  if b.mode = .holding then
    if threshold ≤ b'.posts.length then b'.drain else { b' with timer := some delay }
  else b'

/-- A non-POST request that stands at the head of port `p`'s Request Queue switches a nonempty HOLDING buffer to DRAINING
(R95, third row). Used in the two events that bring a request to the head with posts held (log 23). -/
def State.drainForHead (s : State) (p : Port) : State :=
  match (s.port p).link.requests with
  | [] => s
  | f :: _ => if f.kind = kindPost then s else s.modPosts p PostBuffer.drainHeld

/-- The POST_FAULT notice: the handle byte as taken or 0xFF, the ordinal in bytes 4-5 and the code in byte 7 (R98). -/
def postFaultNotice (r : PostRecord) (code : Byte) : Notice :=
  { kind := .postFault, peer := none, handle := some (r.body.headD 0xFF), share := none,
    value := BitVec.ofNat 32 (r.ordinal.toNat * 65536 + code.toNat) }

/-- The post fault count rises by one and stays at 65535 (R98). -/
def PostBuffer.countFault (b : PostBuffer) : PostBuffer := { b with faults := min 65535 (b.faults + 1) }

/-- Cleanup's part of the Data Engine (R108, R109): the Post Buffer is emptied and its fault count is 0; a WAITING READ
is abandoned at once, a BURSTING READ is marked, and a write-type operation runs on. -/
def State.dataCleanup (s : State) (p : Port) : State :=
  let s := s.modPosts p fun b => { b.cleared with faults := 0 }
  match (s.port p).stage.stage with
  | .empty => s
  | .waiting op => if op.kind.isRead then s.endOperation p op none else s
  | .bursting op f bs =>
    if op.kind.isRead then s.setStage p { stage := .bursting op f bs, abandon := true } else s

end Sys2Proof.Machine
end

