-- ==== Sys2Proof/Machine/Layout.lean ====
section
/-! DEFINITION. The bytes of response frames (section 11.6): headers, response bodies, settings record, notice record and
result codes. Every multi-byte field goes most significant byte first; an absent port, handle or share is 0xFF. -/

namespace Sys2Proof.Machine

/-- One byte. -/
def byte (n : Nat) : Byte := BitVec.ofNat 8 n

/-- Two bytes, most significant first. -/
def bytes16 (n : Nat) : List Byte := [byte (n / 256), byte n]

/-- Four bytes, most significant first. -/
def bytes32 (v : BitVec 32) : List Byte :=
  [byte (v.toNat / 16777216), byte (v.toNat / 65536), byte (v.toNat / 256), byte v.toNat]

/-- A port, or 0xFF when absent. -/
def portByte : Option Port → Byte
  | some p => byte p.val
  | none => 0xFF

def Result.code : Result → Byte
  | .ok => 0x00
  | .queued => 0x01
  | .alreadyHeld => 0x02
  | .alreadyWaiting => 0x03
  | .unknownRequest => 0x10
  | .badFrame => 0x11
  | .notAttached => 0x12
  | .handleRange => 0x20
  | .handleEmpty => 0x21
  | .shareGone => 0x22
  | .stale => 0x23
  | .rights => 0x24
  | .align => 0x25
  | .window => 0x26
  | .claimed => 0x27
  | .poolEmpty => 0x28
  | .poolBusy => 0x29
  | .isolated => 0x30
  | .shareTableFull => 0x31
  | .handleTableFull => 0x32
  | .nameTaken => 0x33
  | .noSuchName => 0x34
  | .selfGrant => 0x35
  | .targetDetached => 0x36
  | .targetFull => 0x37
  | .claimBusy => 0x40
  | .notHolder => 0x41
  | .proposalPending => 0x50
  | .badSettings => 0x51
  | .noProposal => 0x52
  | .notVoter => 0x53
  | .alreadyVoted => 0x54

def Ending.code : Ending → Byte
  | .done => 0
  | .refused => 1
  | .cut => 2

/-- Outcome codes (R162). -/
def ProposalOutcome.code : ProposalOutcome → Nat
  | .pending => 0
  | .adopted => 1
  | .rejected => 2
  | .lapsed => 3
  | .withdrawn => 4
  | .voterRestarted => 5

def NoticeKind.code : NoticeKind → Byte
  | .grantReceived => 0x01
  | .revoked => 0x02
  | .shareClosed => 0x03
  | .claimGranted => 0x10
  | .claimEnded => 0x11
  | .leaseLost => 0x12
  | .postFault => 0x20
  | .proposalOpened => 0x30
  | .proposalDecided => 0x31
  | .peerAttached => 0x40
  | .peerRestarted => 0x41
  | .peerDetached => 0x42

/-- The 8 bytes of a notice record: kind, peer port, handle, share index, value. -/
def Notice.bytes (n : Notice) : List Byte :=
  [n.kind.code, portByte n.peer, n.handle.getD 0xFF, (n.share.map fun i => byte i.val).getD 0xFF] ++ bytes32 n.value

/-- A set of ports: bit p for port p. -/
def portSetByte (v : PortSet) : Byte :=
  byte (v[0].toNat + v[1].toNat * 2 + v[2].toNat * 4 + v[3].toNat * 8)

/-- The 28 bytes of a settings record. -/
def Settings.bytes (r : Settings) : List Byte :=
  r.phaseTable.toList.map Requester.code ++ bytes16 r.leaseDuration ++ [byte r.postThreshold] ++ bytes16 r.postDelay
    ++ [byte r.noticeThreshold] ++ bytes16 r.noticeDelay
    ++ [byte r.voteWindow, byte r.restDelay, (match r.warmUp with | .short => 0 | .long => 1), portSetByte r.isolation]

/-- INFO's state code: 1 OPEN, 2 ORPHANED. INFO reports no other state (R22), and no other has a code. -/
def ShareState.code : ShareState → Byte
  | .free => 0
  | .opened => 1
  | .orphaned => 2
  | .closing => 0

def Scope.code : Scope → Byte
  | .privateScope => 0
  | .common => 1

/-- A LIST record, 12 bytes. -/
def ListRecord.bytes (r : ListRecord) : List Byte :=
  [byte r.number.val, byte r.handle.share.val] ++ bytes16 r.handle.generation ++ [r.handle.rights.toByte]
    ++ bytes16 r.handle.base ++ bytes16 r.handle.length
    ++ (match r.handle.origin with
        | .created => [0, 0xFF]
        | .attached => [1, 0xFF]
        | .granted q => [2, byte q.val])
    ++ [byte r.current.toNat]

/-- The proposal summary of SETTINGS: present flag, id, proposer, kind, voter set, accepted set; zeros when absent (R165,
section 11.6). R162 names the SETTINGS body among those that report an outcome; these two give it no such field, and the model
follows them (log 28, the model's choice). -/
def summaryBytes : Option ProposalSummary → List Byte
  | none => [0, 0, 0, 0, 0, 0]
  | some m => [1, byte m.id, byte m.proposer.val, byte m.clearAll.toNat, portSetByte m.voters, portSetByte m.accepted]

/-- The bytes of a response body. -/
def ResponseBody.bytes : ResponseBody → List Byte
  | .empty => []
  | .hello clean => [0x2D] ++ bytes16 256 ++ [64, 32] ++ bytes16 clean
  | .created i h g => [byte i.val, byte h.val] ++ bytes16 g
  | .attached h i g => [byte h.val, byte i.val] ++ bytes16 g
  | .revoked g => bytes16 g
  | .info b =>
    [byte b.index.val, b.state.code, (b.scope.map Scope.code).getD 0xFF, byte b.size, byte b.backed, byte b.handleCount,
     portByte b.holder, byte b.waiters, portByte b.creator]
  | .granted h => [byte h.val]
  | .listed rs => byte rs.length :: rs.flatMap ListRecord.bytes
  | .data bs => bs
  | .cas old swapped => old ++ [byte swapped.toNat]
  | .flushed n => bytes16 n
  | .claim holder place => [portByte holder, (place.map byte).getD 0xFF]
  | .notices removed remaining overflow =>
    byte removed.length :: removed.flatMap Notice.bytes ++ [byte remaining, byte overflow.toNat]
  | .vote id outcome => [byte id, byte outcome.code]
  | .settings r summary => r.bytes ++ summaryBytes summary

/-- The bytes of a response frame: a 6-byte header, then the body. -/
def Response.bytes (r : Response) : List Byte :=
  [r.kind, r.tag, r.reply.result.code, r.reply.ending.code] ++ bytes16 r.reply.body.bytes.length ++ r.reply.body.bytes

end Sys2Proof.Machine
end

