-- ==== Sys2Proof/Machine/AgreementOps.lean ====
section
/-! DEFINITION. Shared operations of the Agreement Unit: the adoption of settings and of CLEAR_ALL, the ending of a
proposal, and the unit's part of port cleanup. -/

namespace Sys2Proof.Machine

/-! ## Adoption -/

/-- The adoption of a settings record (R163): the record is replaced whole, and the Store Arbiter installs its phase
table with the pointer at 0 (R120). Every other block reads the new record at its own next use. -/
def State.adoptSettings (s : State) (r : Settings) : State :=
  { s with settings := r, arbiter := { s.arbiter with table := r.phaseTable, pointer := 0 } }

/-- Every OPEN or ORPHANED entry enters CLOSING, in ascending share index order (R26). -/
def State.closeLive (s : State) (i : ShareIdx) : State := if (s.share i).live then s.enterClosing i else s

/-- The adoption of CLEAR_ALL (R164), with no notices: the shares close, every handle entry becomes EMPTY, every claim
record is removed, and every Post Buffer is emptied with its counts kept. -/
def State.adoptClearAll (s : State) : State :=
  let s := allShares.foldl State.closeLive s
  let s := s.mapPorts fun _ q => { q with handles := Vector.replicate 32 none, posts := q.posts.cleared }
  { s with shares := Vector.ofFn fun i : Fin 64 => { s.shares[i] with claim := none } }

/-- What the adoption of a proposal does (R162, step 2). -/
def State.adopt (s : State) : ProposalAction → State
  | .settings r => s.adoptSettings r
  | .clearAll => s.adoptClearAll

/-! ## Endings -/

/-- PROPOSAL_DECIDED goes to the proposer and the remaining voters, and to every other port too at a CLEAR_ALL adoption
(R162, step 4). -/
def Proposal.hears (pr : Proposal) (outcome : ProposalOutcome) (q : Port) : Bool :=
  q == pr.proposer || pr.voters[q] || (outcome == .adopted && pr.action == .clearAll)

/-- Push PROPOSAL_DECIDED to the ports of a list that hear it. -/
def State.pushDecided (s : State) (pr : Proposal) (outcome : ProposalOutcome) : List Port → State
  | [] => s
  | q :: qs =>
    (if pr.hears outcome q then
        s.push q (proposalNotice .proposalDecided pr.proposer pr.id outcome.code)
      else s).pushDecided pr outcome qs

/-- Proposal `pr` ends with this outcome (R162): its timer stops with its record, an adoption takes place, the record is
removed, and PROPOSAL_DECIDED is pushed in ascending port order. -/
def State.endProposal (s : State) (pr : Proposal) (outcome : ProposalOutcome) : State :=
  let s := if outcome = .adopted then s.adopt pr.action else s
  { s with proposal := none }.pushDecided pr outcome allPorts

/-- No port is in the set. -/
def PortSet.isEmpty (v : PortSet) : Bool := allPorts.all fun q => !v[q]

/-- The request that causes a cleanup. -/
inductive CleanupCause
  | hello | detach
  deriving DecidableEq, Repr

/-- The Agreement Unit's part of the cleanup of port `p` (R161). -/
def State.agreementCleanup (s : State) (p : Port) (cause : CleanupCause) : State :=
  match s.proposal with
  | none => s
  | some pr =>
    if pr.proposer = p then s.endProposal pr .withdrawn
    else if pr.voters[p] then
      match cause with
      | .hello => s.endProposal pr .voterRestarted
      | .detach =>
        let pr' := { pr with voters := pr.voters.set p false, accepted := pr.accepted.set p false }
        if pr'.voters.isEmpty || pr'.accepted == pr'.voters then s.endProposal pr' .adopted
        else { s with proposal := some pr' }
    else s

end Sys2Proof.Machine
end

