-- ==== Sys2Proof/Machine/AttachOps.lean ====
section
/-! DEFINITION. Shared operations of Attachment Control: cleanup of a port, its completion after a HELLO, and the taking
of a HELLO. -/

namespace Sys2Proof.Machine

/-- Cleanup of port `p` (R147): the parts of the Claim Unit, the Handle Tables, the Data Engine and the Agreement Unit,
in this order. -/
def State.cleanup (s : State) (p : Port) (cause : CleanupCause) : State :=
  (((s.claimCleanup p).emptyTable p).dataCleanup p).agreementCleanup p cause

/-- Push a notice about `p` to the ports of a list other than `p`; one that is not ATTACHED receives none (R148, R151). -/
def State.pushPeers (s : State) (p : Port) (n : Notice) : List Port → State
  | [] => s
  | q :: qs => (if q = p then s else s.push q n).pushPeers p n qs

/-- The peer notice that the end of a cleanup pushes for an announcement (R143, R148). -/
def Announcement.kind? : Announcement → Option NoticeKind
  | .none => Option.none
  | .attached => some .peerAttached
  | .restarted => some .peerRestarted

/-- The end of cleanup after a HELLO (R148): `p` is ATTACHED, its ordinal counter is 0, the HELLO's response is placed
with the clean-list count, and the other ATTACHED ports are told. -/
def State.becomeAttached (s : State) (p : Port) : State :=
  let a := (s.port p).attach
  let s := s.modAttach p fun a => { a with state := .attached }
  let s := s.modPosts p fun b => { b with ordinal := 0 }
  let s := s.placeResponse p kindHello (Reply.ok (.hello s.pool.clean.length))
  let s := match a.announcement.kind? with
    | some k => s.pushPeers p (peerNotice k p a.emptied) allPorts
    | none => s
  s.modAttach p fun a => { a with emptied := 0, announcement := .none }

/-- Cleanup of a CLEANING port is complete when its data stage is EMPTY (R147, R148). -/
def State.finishCleanup (s : State) (p : Port) : State :=
  if (s.port p).attach.state == .cleaning && (s.port p).stage.stage == .empty then s.becomeAttached p else s

/-- The flush of port `p`'s queues at a HELLO with this tag (R145, steps 1 to 3; R149): `stay` are the request frames that
stay, none but those after the arrival point of a pending HELLO (R146). -/
def State.flushQueues (s : State) (p : Port) (tag : Byte) (stay : List Frame) : State :=
  s.modPort p fun q =>
    { q with link := { q.link with requests := stay, responses := [.reserved kindHello tag] }
             attach := { q.attach with helloTag := tag, pendingHello := none }
             notices := q.notices.emptied }

/-- The announcement a HELLO sets (R145, step 4; R149). -/
def AttachState.announcement : AttachState → Announcement
  | .detached => .attached
  | .attached => .restarted
  | .cleaning => .restarted

/-- A HELLO is taken on port `p` (R145, R149): the queues are flushed, the announcement is set, and a port that is not
CLEANING yet becomes CLEANING and is cleaned up. When nothing is left to wait for, the port becomes ATTACHED in the same
event. -/
def State.takeHello (s : State) (p : Port) (tag : Byte) (stay : List Frame) : State :=
  let before := (s.port p).attach.state
  let s := (s.flushQueues p tag stay).modAttach p fun a =>
    { a with announcement := before.announcement, state := .cleaning }
  let s := if before = .cleaning then s else s.cleanup p .hello
  s.finishCleanup p

/-- A HELLO frame arrives on port `p`: it is taken at once in RUN (R145), else recorded as the pending HELLO with the
number of frames in the Request Queue as its arrival point (R146). -/
def State.arriveHello (s : State) (p : Port) (tag : Byte) : State :=
  if s.power = .run then s.takeHello p tag []
  else s.modAttach p fun a =>
    { a with pendingHello := some { tag := tag, arrival := (s.port p).link.requests.length } }

/-- The pending HELLO of port `p`, if any, is taken on the return to RUN (R146). -/
def State.takePending (s : State) (p : Port) : State :=
  match (s.port p).attach.pendingHello with
  | none => s
  | some h => s.takeHello p h.tag ((s.port p).link.requests.drop h.arrival)

end Sys2Proof.Machine
end

