-- ==== Sys2Proof/Machine/TakeOps.lean ====
section
/-! DEFINITION. The Request Taker (R102): when the request at the head of a port's Request Queue is taken, and what a
take does to the queues. -/

namespace Sys2Proof.Machine

/-- The conditions of R102 for the request `f` at the head of port `p`'s Request Queue, with the broker in RUN (R189). -/
def State.mayTake (s : State) (p : Port) (f : Frame) : Bool :=
  s.running && (s.port p).attach.state != .cleaning && (s.port p).stage.stage == .empty &&
    (if f.kind = kindPost then decide ((s.port p).posts.posts.length < Config.postPlaces)
     else (s.port p).posts.posts.isEmpty && decide ((s.port p).link.responses.length < Config.responseEntries))

/-- The request that the Request Taker of port `p` takes now: the head of the queue, when R102's conditions hold. -/
def State.nextRequest (s : State) (p : Port) : Option Frame :=
  match (s.port p).link.requests with
  | [] => none
  | f :: _ => if s.mayTake p f then some f else none

/-- The request leaves the Request Queue; a non-POST request reserves a Response Queue entry (R102). -/
def State.dequeue (s : State) (p : Port) (f : Frame) : State :=
  s.modLink p fun l =>
    { l with requests := l.requests.drop 1
             responses := if f.kind = kindPost then l.responses else l.responses ++ [.reserved f.kind f.tag] }

/-- The take of a request of this kind on port `p`: `act` is what its block does, once the request has left the queue.
When the conditions do not hold, or another request is at the head, the take does not take place (log 1). -/
def State.takeBy (s : State) (p : Port) (isKind : Byte → Bool) (act : Frame → State → State) : Out :=
  match s.nextRequest p with
  | some f => if isKind f.kind then took (act f (s.dequeue p f)) else .next s
  | none => .next s

/-- A block's service of a request: from the body and the state, the state after its effects and its answer. -/
abbrev Service := List Byte → State → State × Reply

/-- The take of a request that its block completes at the take: its effects, then its answer in the reserved entry
(R12, R103). -/
def State.takeAndAnswer (s : State) (p : Port) (kind : Byte) (serve : Service) : Out :=
  s.takeBy p (fun k => k == kind) fun f t =>
    let (t', r) := serve f.body t
    t'.placeResponse p kind r

/-- A failed check: nothing changes but the answer (R12). -/
def refuse (r : Result) (s : State) : State × Reply := (s, Reply.refusal r)

end Sys2Proof.Machine
end

