-- ==== Sys2Proof/Machine/AgreementUnit.lean ====
section
/-! DEFINITION. The Agreement Unit: PROPOSE, VOTE, SETTINGS and VOTE_WINDOW_EXPIRY (chapter 9). -/

namespace Sys2Proof.Machine

/-- The id counter steps by one, 255 stepping to 1 (R156). -/
def nextProposalId (n : Nat) : Nat := if n = 255 then 1 else n + 1

/-- The voter set fixed at a PROPOSE: every ATTACHED port other than the proposer (R158). -/
def State.votersFor (s : State) (p : Port) : PortSet := Vector.ofFn fun q : Fin 4 => q != p && s.isAttached q

/-- The kind code of a proposal: 0 SETTINGS, 1 CLEAR_ALL (R186). -/
def ProposalAction.code : ProposalAction → Nat
  | .settings _ => 0
  | .clearAll => 1

/-- The answer to PROPOSE and VOTE: the id and the outcome (R158, R159). -/
def proposalReply (r : Result) (pr : Proposal) (o : ProposalOutcome) : Reply :=
  { result := r, ending := .done, body := .vote pr.id o }

/-- Push PROPOSAL_OPENED to the voters of a list of ports (R158). -/
def State.pushOpened (s : State) (pr : Proposal) : List Port → State
  | [] => s
  | q :: qs =>
    (if pr.voters[q] then s.push q (proposalNotice .proposalOpened pr.proposer pr.id pr.action.code) else s).pushOpened pr
      qs

/-- The proposal a PROPOSE of port `p` makes: the stepped id, the voter set, nobody accepting yet, and the vote window
timer one vote window of the current settings ahead (R156, R158). -/
def State.newProposal (s : State) (p : Port) (a : ProposalAction) : Proposal :=
  { id := nextProposalId s.proposalCounter, proposer := p, action := a, voters := s.votersFor p,
    accepted := Vector.replicate 4 false, timer := some (s.settings.voteWindow * 1000) }

/-- A PROPOSE that passes its checks (R158): adopted at once when there are no voters, else it opens. -/
def State.openProposal (s : State) (p : Port) (a : ProposalAction) : State × Reply :=
  let pr := s.newProposal p a
  let s := { s with proposalCounter := pr.id }
  if pr.voters.isEmpty then (s.endProposal pr .adopted, proposalReply .ok pr .adopted)
  else ({ s with proposal := some pr }.pushOpened pr allPorts, proposalReply .queued pr .pending)

/-- PROPOSE's checks in R157's order, then its effects. -/
def servePropose (p : Port) : Service := fun body s =>
  if s.isAttached p = false then refuse .notAttached s
  else match proposeFields body with
    | none => refuse .badFrame s
    | some f =>
      if s.proposal.isSome then refuse .proposalPending s
      else match f with
        | .clearAll => s.openProposal p .clearAll
        | .settings bytes =>
          match proposedSettings bytes with
          | none => refuse .badSettings s
          | some r => s.openProposal p (.settings r)

/-- PROPOSE is taken (R157, R158). -/
def execPropose (p : Port) (s : State) : Out := s.takeAndAnswer p kindPropose (servePropose p)

/-- A VOTE that passes its checks on proposal `pr` (R159): a reject ends it; an accept is recorded, and ends it when the
accepted set is the voter set. -/
def State.castVote (s : State) (p : Port) (pr : Proposal) (accept : Bool) : State × Reply :=
  if accept then
    let pr' := { pr with accepted := pr.accepted.set p true }
    if pr'.accepted == pr'.voters then (s.endProposal pr' .adopted, proposalReply .ok pr .adopted)
    else ({ s with proposal := some pr' }, proposalReply .ok pr .pending)
  else (s.endProposal pr .rejected, proposalReply .ok pr .rejected)

/-- VOTE's checks in R159's order, then its effects. -/
def serveVote (p : Port) : Service := fun body s =>
  if s.isAttached p = false then refuse .notAttached s
  else match voteFields body with
    | none => refuse .badFrame s
    | some (id, accept) =>
      match s.proposal with
      | none => refuse .noProposal s
      | some pr =>
        if pr.id ≠ id then refuse .noProposal s
        else if pr.voters[p] = false then refuse .notVoter s
        else if pr.accepted[p] then refuse .alreadyVoted s
        else s.castVote p pr accept

/-- VOTE is taken (R159). -/
def execVote (p : Port) (s : State) : Out := s.takeAndAnswer p kindVote (serveVote p)

/-- The summary of a pending proposal (R165). -/
def Proposal.summary (pr : Proposal) : ProposalSummary :=
  { id := pr.id, proposer := pr.proposer, clearAll := pr.action == .clearAll, voters := pr.voters,
    accepted := pr.accepted }

/-- SETTINGS' service (R165). -/
def serveSettings (p : Port) : Service := fun body s =>
  if s.isAttached p = false then refuse .notAttached s
  else if body ≠ [] then refuse .badFrame s
  else (s, Reply.ok (.settings s.settings (s.proposal.map Proposal.summary)))

/-- SETTINGS is taken (R165). -/
def execSettings (p : Port) (s : State) : Out := s.takeAndAnswer p kindSettings (serveSettings p)

/-- VOTE_WINDOW_EXPIRY (R160): the proposal ends LAPSED. -/
def execVoteWindowExpiry (s : State) : Out :=
  match s.proposal with
  | some pr => if s.running && pr.timer.isSome then took (s.endProposal pr .lapsed) else .next s
  | none => .next s

end Sys2Proof.Machine
end

