-- ==== Sys2Proof/Machine/AttachmentControl.lean ====
section
/-! DEFINITION. DETACH, taken by Attachment Control (chapter 8), and the Request Taker's own answer UNKNOWN_REQUEST
(R103). HELLO is in LinkInterface.lean, where its frame arrives. -/

namespace Sys2Proof.Machine

/-- The effects of a DETACH that passes its checks (R151): cleanup with the port CLEANING, then DETACHED, the Notice
Queue emptied, PEER_DETACHED to the other ATTACHED ports, and the emptied-handle count 0. -/
def State.detachPort (s : State) (p : Port) : State :=
  let s := s.modAttach p fun a => { a with state := .cleaning }
  let s := s.cleanup p .detach
  let s := s.modAttach p fun a => { a with state := .detached }
  let s := s.modNotices p NoticeQueue.emptied
  let s := s.pushPeers p (peerNotice .peerDetached p (s.port p).attach.emptied) allPorts
  s.modAttach p fun a => { a with emptied := 0 }

/-- DETACH's service (R151). -/
def serveDetach (p : Port) : Service := fun body s =>
  if s.isAttached p = false then refuse .notAttached s
  else if body ≠ [] then refuse .badFrame s
  else (s.detachPort p, Reply.ok .empty)

/-- DETACH is taken (R151). -/
def execDetach (p : Port) (s : State) : Out := s.takeAndAnswer p kindDetach (serveDetach p)

/-- UNKNOWN_REQUEST (R103): a frame of a kind the device does not define is answered in every attachment state. -/
def execUnknownRequest (p : Port) (s : State) : Out :=
  s.takeBy p (fun k => !definedKinds.contains k) fun f t =>
    t.placeResponse p f.kind (Reply.refusal .unknownRequest)

end Sys2Proof.Machine
end

