-- ==== Sys2Proof/Machine/ClaimUnit.lean ====
section
/-! DEFINITION. The Claim Unit: CLAIM, RELEASE, RENEW and LEASE_EXPIRY (chapter 7). -/

namespace Sys2Proof.Machine

/-- The checks of CLAIM, RELEASE and RENEW (R127) on a handle field: NOT_ATTACHED, BAD_FRAME, handle resolution, RIGHTS
without WRITE. -/
def State.checkClaimant (s : State) (p : Port) (field : Option Byte) : Except Result (HandleNo × Handle) :=
  if s.isAttached p = false then .error .notAttached
  else match field with
    | none => .error .badFrame
    | some b =>
      match s.resolve p b with
      | .error code => .error code
      | .ok (h, v) => if v.rights.write then .ok (h, v) else .error .rights

/-- CLAIM's answer (R128): the holder of the record after the request, and the port's place in it. -/
def claimReply (r : Result) (c : Claim) (p : Port) : Reply :=
  { result := r, ending := .done, body := .claim (some c.holder) (c.place p) }

/-- The answer CLAIM_BUSY: REFUSED, with holder and place absent (R128, R183). -/
def claimBusy : Reply := { result := .claimBusy, ending := .refused, body := .claim none none }

/-- A CLAIM that passes its checks acts on the record of entry `i` (R127, R128). -/
def State.claimShare (s : State) (p : Port) (h : HandleNo) (i : ShareIdx) (wait : Bool) : State × Reply :=
  match (s.share i).claim with
  | none =>
    let c : Claim := { holder := p, handle := h, lease := s.lease, waiters := [] }
    (s.setClaim i (some c), claimReply .ok c p)
  | some c =>
    if c.holder = p then (s, claimReply .alreadyHeld c p)
    else if (waiterPlace p c.waiters).isSome then (s, claimReply .alreadyWaiting c p)
    else if wait then
      let c' := { c with waiters := c.waiters ++ [{ port := p, handle := h }] }
      (s.setClaim i (some c'), claimReply .queued c' p)
    else (s, claimBusy)

/-- CLAIM's service. -/
def serveClaim (p : Port) : Service := fun body s =>
  match s.checkClaimant p ((claimFields body).map Prod.fst) with
  | .error code => refuse code s
  | .ok (h, v) => s.claimShare p h v.share (((claimFields body).map Prod.snd).getD false)

/-- CLAIM is taken (R128). -/
def execClaim (p : Port) (s : State) : Out := s.takeAndAnswer p kindClaim (serveClaim p)

/-- A RELEASE that passes its checks (R129): a handover for the holder, the withdrawal of a waiter, else NOT_HOLDER. -/
def State.releaseClaim (s : State) (p : Port) (i : ShareIdx) : State × Reply :=
  match (s.share i).claim with
  | none => refuse .notHolder s
  | some c =>
    if c.holder = p then (s.handover i c, Reply.ok .empty)
    else if (waiterPlace p c.waiters).isSome then
      (s.setClaim i (some { c with waiters := withoutPort p c.waiters }), Reply.ok .empty)
    else refuse .notHolder s

/-- RELEASE's service. -/
def serveRelease (p : Port) : Service := fun body s =>
  match s.checkClaimant p (handleField body) with
  | .error code => refuse code s
  | .ok (_, v) => s.releaseClaim p v.share

/-- RELEASE is taken (R129). -/
def execRelease (p : Port) (s : State) : Out := s.takeAndAnswer p kindRelease (serveRelease p)

/-- A RENEW that passes its checks restarts the holder's lease timer (R130). -/
def State.renewClaim (s : State) (p : Port) (i : ShareIdx) : State × Reply :=
  match (s.share i).claim with
  | none => refuse .notHolder s
  | some c =>
    if c.holder = p then (s.setClaim i (some { c with lease := s.lease }), Reply.ok .empty)
    else refuse .notHolder s

/-- RENEW's service. -/
def serveRenew (p : Port) : Service := fun body s =>
  match s.checkClaimant p (handleField body) with
  | .error code => refuse code s
  | .ok (_, v) => s.renewClaim p v.share

/-- RENEW is taken (R130). -/
def execRenew (p : Port) (s : State) : Out := s.takeAndAnswer p kindRenew (serveRenew p)

/-- The effects of a lease expiry on claim record `c` of entry `i`: LEASE_LOST to the holder, then the handover (R131). -/
def State.expireLease (s : State) (i : ShareIdx) (c : Claim) : State :=
  (s.push c.holder (shareNotice .leaseLost none c.handle i (s.share i).generation)).handover i c

/-- LEASE_EXPIRY (R131): the running lease timer of entry `i` reaches its deadline. -/
def execLeaseExpiry (i : ShareIdx) (s : State) : Out :=
  match (s.share i).claim with
  | some c => if s.running && c.lease.isSome then took (s.expireLease i c) else .next s
  | none => .next s

end Sys2Proof.Machine
end

