-- ==== Sys2Proof/Machine/DataEngine.lean ====
section
/-! DEFINITION. The data requests and the Data Engine: READ, WRITE, CAS, POST, POST_RELEASE, FLUSH, BURST_COMPLETION and
POST_DELAY_EXPIRY (chapters 4 and 5). -/

namespace Sys2Proof.Machine

/-- A READ, WRITE or CAS is taken: the Access Checker refuses it, with the answer in the reserved entry, or admits it to
the data stage (R63, R71, R72). -/
def State.takeData (s : State) (p : Port) (kind : Byte) (k : DataKind) : Out :=
  s.takeBy p (fun b => b == kind) fun f t =>
    match t.checkData p k f.body with
    | .error code => t.placeResponse p kind (Reply.refusal code)
    | .ok a => t.startOperation p k a

/-- READ is taken (R87). -/
def execRead (p : Port) (s : State) : Out := s.takeData p kindRead .read

/-- WRITE is taken (R89). -/
def execWrite (p : Port) (s : State) : Out := s.takeData p kindWrite .write

/-- CAS is taken (R91). -/
def execCas (p : Port) (s : State) : Out := s.takeData p kindCas .cas

/-- A taken POST joins the Post Buffer; one taken on a DETACHED port is discarded (R94). -/
def State.takePost (s : State) (p : Port) (body : List Byte) : State :=
  if s.isAttached p then
    s.modPosts p fun b => b.append body s.settings.postThreshold s.settings.postDelay
  else s

/-- POST is taken (R94). It may leave a non-POST request at the head of the queue (R95). -/
def execPost (p : Port) (s : State) : Out :=
  s.takeBy p (fun b => b == kindPost) fun f t => (t.takePost p f.body).drainForHead p

/-- The post to release: the head of a DRAINING buffer whose port's data stage is EMPTY, with the broker in RUN (R97,
R189). -/
def State.nextPost (s : State) (p : Port) : Option PostRecord :=
  let q := s.port p
  if s.running && q.posts.mode == .draining && q.stage.stage == .empty then q.posts.posts.head? else none

/-- The head post leaves the buffer; a buffer left empty returns to HOLDING (R97). -/
def PostBuffer.release (b : PostBuffer) : PostBuffer :=
  let rest := b.posts.drop 1
  { b with posts := rest, mode := if rest = [] then .holding else b.mode }

/-- A released post is refused: POST_FAULT is pushed to its own port and the count rises (R98). -/
def State.faultPost (s : State) (p : Port) (r : PostRecord) (code : Result) : State :=
  (s.push p (postFaultNotice r code.code)).modPosts p PostBuffer.countFault

/-- POST_RELEASE (R97): the head post is checked as a write-type request and admitted or refused. -/
def execPostRelease (p : Port) (s : State) : Out :=
  match s.nextPost p with
  | none => .next s
  | some r =>
    let t := s.modPosts p PostBuffer.release
    match t.checkData p .post r.body with
    | .error code => took (t.faultPost p r code)
    | .ok a => took (t.startOperation p .post a)

/-- FLUSH's service (R101): it reports the post fault count and resets it. -/
def serveFlush (p : Port) : Service := fun body s =>
  if s.isAttached p = false then refuse .notAttached s
  else if body ≠ [] then refuse .badFrame s
  else (s.modPosts p fun b => { b with faults := 0 }, Reply.ok (.flushed (s.port p).posts.faults))

/-- FLUSH is taken (R101). -/
def execFlush (p : Port) (s : State) : Out := s.takeAndAnswer p kindFlush (serveFlush p)

/-- POST_DELAY_EXPIRY (R95, R96): the timer stops, and a HOLDING, nonempty buffer switches to DRAINING. -/
def execPostDelayExpiry (p : Port) (s : State) : Out :=
  if s.running && (s.port p).posts.timer.isSome then
    took (s.modPosts p fun b => { b.drainHeld with timer := none })
  else .next s

/-! ## The completion of a burst -/

/-- The bytes of the span that fall in the piece reached (R89). -/
def Operation.pieceData (op : Operation) (data : List Byte) : List Byte :=
  (data.drop (op.pos - op.start)).take op.pieceLength

/-- What a completed burst on frame `f` writes to the store: a WRITE or post its bytes, a CAS its new word when the word
read equals the expected word, a READ nothing (R85, R89, R91). -/
def Operation.written (op : Operation) (captured : List Byte) : List Byte :=
  match op.kind with
  | .read _ => []
  | .write data => op.pieceData data
  | .post data => op.pieceData data
  | .cas expected new => if captured = expected then new.take op.pieceLength else []

/-- The answer of a CAS: the old word and the swapped flag (R91). -/
def casReply (expected captured : List Byte) : Reply :=
  Reply.ok (.cas captured (captured == expected))

/-- The store path falls free (R119). -/
def State.freePath (s : State) : State := { s with arbiter := { s.arbiter with path := .free } }

/-- The burst of `op` on frame `f` has completed (R85, R119): its bytes are in the store or delivered, and the data stage
reaches the next piece or the operation ends. An abandoned READ ends without an answer and its bytes are discarded
(R108). -/
def State.completeBurst (s : State) (p : Port) (op : Operation) (f : FrameNo) (captured : List Byte) : State :=
  if (s.port p).stage.abandon && op.kind.isRead then s.endOperation p op none
  else
    let s := { s with mem := s.mem.writeBytes (op.address f) (op.written captured) }
    match op.kind with
    | .cas expected _ => s.endOperation p op (some (casReply expected captured))
    | .read _ | .write _ | .post _ => s.advance p (op.deliver captured op.pieceLength)

/-- BURST_COMPLETION (R85): the burst in flight of port `p` completes. A port whose cleanup waited for it becomes
ATTACHED (R148). -/
def execBurstCompletion (p : Port) (s : State) : Out :=
  match (s.port p).stage.stage with
  | .bursting op f captured =>
    if s.running && s.arbiter.path == .busy (.port p) then
      took ((s.freePath.completeBurst p op f captured).finishCleanup p)
    else .next s
  | _ => .next s

end Sys2Proof.Machine
end

