-- ==== Sys2Proof/Machine/HandleTables.lean ====
section
/-! DEFINITION. The Handle Tables' requests: GRANT, DROP and LIST (chapter 2). -/

namespace Sys2Proof.Machine

/-- The fields of a GRANT that pass BAD_FRAME (R35, step 2): the window in steps of 64, and not empty. -/
def GrantFields.ok (f : GrantFields) : Bool :=
  decide (f.base % 64 = 0) && decide (f.length % 64 = 0) && decide (f.length ≠ 0)

/-- The rights to give are non-empty, without ADMIN, and a subset of the source's, which holds GRANT (R35, step 4). -/
def GrantFields.rightsOk (f : GrantFields) (v : Handle) : Bool :=
  v.rights.grant && !f.rights.isEmpty && !f.rights.admin && f.rights.subset v.rights

/-- The handle a GRANT by port `p` makes from source handle `v` (R36). -/
def GrantFields.handle (f : GrantFields) (p : Port) (v : Handle) : Handle :=
  { share := v.share, generation := v.generation, rights := f.rights, base := v.base + f.base, length := f.length,
    origin := .granted p }

/-- The effects of a GRANT (R36, R37): the handle is made and the target is told of it. -/
def State.grantHandle (s : State) (p : Port) (f : GrantFields) (v : Handle) (h : HandleNo) : State :=
  (s.makeHandle f.target h (f.handle p v)).push f.target
    (shareNotice .grantReceived (some p) h v.share v.generation)

/-- GRANT's checks in R35's order, then its effects. -/
def serveGrant (p : Port) : Service := fun body s =>
  if s.isAttached p = false then refuse .notAttached s
  else match grantFields body with
    | none => refuse .badFrame s
    | some f =>
      if f.ok = false then refuse .badFrame s
      else match s.resolve p f.source with
        | .error code => refuse code s
        | .ok (_, v) =>
          if f.rightsOk v = false then refuse .rights s
          else if v.length < f.base + f.length then refuse .window s
          else if f.target = p then refuse .selfGrant s
          else if s.isAttached f.target = false then refuse .targetDetached s
          else if (s.share v.share).scope = some .common ∧ s.settings.isolation[f.target] then refuse .isolated s
          else match s.emptyHandle? f.target with
            | none => refuse .targetFull s
            | some h => (s.grantHandle p f v h, Reply.ok (.granted h))

/-- GRANT is taken (R35, R36). -/
def execGrant (p : Port) (s : State) : Out := s.takeAndAnswer p kindGrant (serveGrant p)

/-- DROP's service (R39): the Claim Unit's part first (R40), then the emptying with its effects on the share. -/
def serveDrop (p : Port) : Service := fun body s =>
  if s.isAttached p = false then refuse .notAttached s
  else match handleField body with
    | none => refuse .badFrame s
    | some b =>
      if hb : b.toNat < 32 then
        match s.handle p ⟨b.toNat, hb⟩ with
        | none => refuse .handleEmpty s
        | some v =>
          ((s.claimDrop p ⟨b.toNat, hb⟩ v.share).emptyHandle p ⟨b.toNat, hb⟩, Reply.ok .empty)
      else refuse .handleRange s

/-- DROP is taken (R39, R40). -/
def execDrop (p : Port) (s : State) : Out := s.takeAndAnswer p kindDrop (serveDrop p)

/-- The VALID entries of port `p`'s table in ascending order, as LIST reports them (R41). -/
def State.listOf (s : State) (p : Port) : List ListRecord :=
  allHandles.filterMap fun h => (s.handle p h).map fun v => { number := h, handle := v, current := s.current v }

/-- LIST's service (R41). -/
def serveList (p : Port) : Service := fun body s =>
  if s.isAttached p = false then refuse .notAttached s
  else if body ≠ [] then refuse .badFrame s
  else (s, Reply.ok (.listed (s.listOf p)))

/-- LIST is taken (R41). -/
def execList (p : Port) (s : State) : Out := s.takeAndAnswer p kindList (serveList p)

end Sys2Proof.Machine
end

