-- ==== Sys2Proof/Machine/Flags.lean ====
section
/-! DEFINITION. The status byte and the sticky flags of a link (R179). -/

namespace Sys2Proof.Machine

/-- The Response Queue holds a completed response. -/
def Link.responseReady (l : Link) : Bool :=
  l.responses.any fun e => match e with | .completed _ => true | .reserved _ _ => false

/-- The status byte of port `p` as the state stands (R179): bit 7 ATTACHED, 6 RESPONSE_READY, 5 NOTICES_WAITING,
4 NOTICE_OVERFLOW, 3 QUEUE_FULL, 2 REFUSED, 1 FRAME_ERROR, 0 DOZE. -/
def State.statusByte (s : State) (p : Port) : Byte :=
  let q := s.port p
  BitVec.ofNat 8
    ((s.isAttached p).toNat * 128 + q.link.responseReady.toNat * 64 + (!q.notices.records.isEmpty).toNat * 32
      + q.notices.overflow.toNat * 16 + (decide (Config.requestEntries ≤ q.link.requests.length)).toNat * 8
      + q.link.refused.toNat * 4 + q.link.frameError.toNat * 2 + (s.power != .run).toNat)

/-- REFUSED is shown set in this status byte. -/
def showsRefused (status : Byte) : Bool := status.getLsbD 2

/-- FRAME_ERROR is shown set in this status byte. -/
def showsFrameError (status : Byte) : Bool := status.getLsbD 1

/-- Each sticky flag that the status byte shows set is cleared once that byte has been shifted out (R179). -/
def Link.clearShown (l : Link) (status : Byte) : Link :=
  { l with refused := l.refused && !showsRefused status, frameError := l.frameError && !showsFrameError status }

end Sys2Proof.Machine
end

