-- ==== Sys2Proof/Machine/LinkInterface.lean ====
section
/-! DEFINITION. The Link Interface: SELECT_FALLING_EDGE, FIRST_BYTE_END and the rises of select: POLL, FETCH,
REQUEST_FRAME and HELLO (chapter 11). Links receive in every power state, but not while RESET is low (R178, R192).

A rise of select is one of the commands POLL, FETCH, REQUEST_FRAME, HELLO. It closes the open transaction when the
transaction is of that command's kind, or when its first byte is not complete: then the transaction is ignored whatever
it was to be (R178, log 11). -/

namespace Sys2Proof.Machine

/-- The open transaction of port `p`; none while select is high, and none while RESET is low (R192). -/
def State.openTransaction (s : State) (p : Port) : Option Transaction :=
  if s.resetLow then none else (s.port p).link.transaction

/-- Select rises: the transaction closes, with the bytes it shifted out. -/
def State.closeTransaction (s : State) (p : Port) (out : List Byte) : State :=
  s.modLink p fun l => { l with transaction := none, dataOut := out }

/-- The warm-up time in µs (R190). -/
def WarmUp.micros : WarmUp → Nat
  | .short => 250
  | .long => 1000

/-- A falling edge of select while the broker is RESTING wakes it (R190). -/
def State.wake (s : State) : State :=
  if s.power = .resting then { s with power := .warming, warmUpTimer := some s.settings.warmUp.micros } else s

/-- SELECT_FALLING_EDGE (R179): a transaction opens and the status byte is captured. In RESTING the broker goes to
WARMING (R190). With a transaction open already, or RESET low, there is no such edge. -/
def execSelectFallingEdge (p : Port) (s : State) : Out :=
  if s.resetLow ∨ (s.port p).link.transaction.isSome then .next s
  else
    took (State.wake (s.modLink p fun l =>
      { l with transaction := some { status := s.statusByte p, phase := .firstByte }, dataOut := [] }))

/-- The response a FETCH shifts out: the oldest entry's, when that entry is COMPLETED (R184). -/
def Link.oldestCompleted (l : Link) : Option Response :=
  match l.responses with
  | .completed r :: _ => some r
  | _ => none

/-- What the first byte of a transaction decides (R178, R184). -/
def Link.phaseOf (l : Link) (first : Byte) : Phase :=
  if first = pollByte then .poll
  else if first = fetchByte then .fetch l.oldestCompleted
  else .request first

/-- FIRST_BYTE_END (R178, R179, R184): at the eighth clock the status byte has been shifted out, the sticky flags it
showed are cleared, and the kind of the transaction is fixed. -/
def execFirstByteEnd (p : Port) (first : Byte) (s : State) : Out :=
  match s.openTransaction p with
  | some { status := st, phase := .firstByte } =>
    took (s.modLink p fun l =>
      { l.clearShown st with transaction := some { status := st, phase := l.phaseOf first }, dataOut := [st] })
  | _ => .next s

/-- POLL (R178): select rises on a POLL. Zeros were shifted out after the status byte. -/
def execPoll (p : Port) (clocks : Nat) (s : State) : Out :=
  match s.openTransaction p with
  | some { status := _, phase := .firstByte } => took (s.closeTransaction p [])
  | some { status := st, phase := .poll } => took (s.closeTransaction p (st :: List.replicate (clocks / 8) 0))
  | _ => .next s

/-- The first `n` bytes a FETCH shifts out after its first byte: the response over and over, or zeros (R184). -/
def fetchBytes (chosen : Option Response) (n : Nat) : List Byte :=
  match chosen with
  | none => List.replicate n 0
  | some r => (List.range n).map fun k => r.bytes.getD (k % r.bytes.length) 0

/-- The chosen response is removed when every byte of its frame has been shifted out, and its entry is FREE (R184). -/
def Link.removeFetched (l : Link) (chosen : Option Response) (clocks : Nat) : Link :=
  match chosen with
  | none => l
  | some r =>
    if r.bytes.length * 8 ≤ clocks ∧ l.oldestCompleted = some r then { l with responses := l.responses.drop 1 } else l

/-- FETCH (R184): select rises on a FETCH. -/
def execFetch (p : Port) (clocks : Nat) (s : State) : Out :=
  match s.openTransaction p with
  | some { status := _, phase := .firstByte } => took (s.closeTransaction p [])
  | some { status := st, phase := .fetch chosen } =>
    took ((s.modLink p fun l => l.removeFetched chosen clocks).closeTransaction p
      (st :: fetchBytes chosen (clocks / 8)))
  | _ => .next s

/-- The frame of these bytes after the kind byte, or `none` when the frame is malformed (R181): a byte left incomplete,
fewer than 4 bytes in all, a stated body length over 264 or other than the bytes received, or a HELLO with a body. -/
def receivedFrame (kind : Byte) (bytes : List Byte) (bits : Nat) : Option Frame :=
  match bytes with
  | tag :: l1 :: l0 :: body =>
    if bits = 0 ∧ be16 l1 l0 ≤ Config.maxBody ∧ body.length = be16 l1 l0 ∧ (kind = kindHello → body = []) then
      some { kind := kind, tag := tag, body := body }
    else none
  | _ => none

/-- A frame joins the Request Queue at its tail. A non-POST request admitted to an empty queue stands at its head, and
switches a HOLDING buffer with posts to DRAINING (R180, R95). -/
def State.admitFrame (s : State) (p : Port) (f : Frame) : State :=
  let wasEmpty := (s.port p).link.requests.isEmpty
  let s := s.modLink p fun l => { l with requests := l.requests ++ [f] }
  if wasEmpty then s.drainForHead p else s

/-- The frame receiver's judgement at the rise of select (R180): malformed, a HELLO, refused for a full queue, or
admitted. -/
def State.judge (s : State) (p : Port) (kind : Byte) (bytes : List Byte) (bits : Nat) : State :=
  match receivedFrame kind bytes bits with
  | none => s.modLink p fun l => { l with frameError := true }
  | some f =>
    if f.kind = kindHello then s.arriveHello p f.tag
    else if Config.requestEntries ≤ (s.port p).link.requests.length then s.modLink p fun l => { l with refused := true }
    else s.admitFrame p f

/-- REQUEST_FRAME (R180): select rises on a request frame, which is judged. -/
def execRequestFrame (p : Port) (bytes : List Byte) (bits : Nat) (s : State) : Out :=
  match s.openTransaction p with
  | some { status := _, phase := .firstByte } => took (s.closeTransaction p [])
  | some { status := st, phase := .request kind } =>
    took ((s.closeTransaction p (st :: List.replicate bytes.length 0)).judge p kind bytes bits)
  | _ => .next s

/-- HELLO (R145, R146): select rises on a complete HELLO frame with this tag: kind 0x01 and a body length of 0. It is the
REQUEST_FRAME event of such a frame (R180, log 12). -/
def execHello (p : Port) (tag : Byte) (s : State) : Out :=
  match s.openTransaction p with
  | some { status := _, phase := .firstByte } => took (s.closeTransaction p [])
  | some { status := st, phase := .request kind } =>
    if kind = kindHello then took ((s.closeTransaction p [st, 0, 0, 0]).arriveHello p tag) else .next s
  | _ => .next s

end Sys2Proof.Machine
end

