-- ==== Sys2Proof/Machine/NoticeQueues.lean ====
section
/-! DEFINITION. The Notice Queues: NOTICES and NOTICE_DELAY_EXPIRY (chapter 10). -/

namespace Sys2Proof.Machine

/-- The records one NOTICES removes: up to 8 (R173). -/
def noticesPerRequest : Nat := 8

/-- The queue after a NOTICES (R173, steps 1, 3 and 4): an emptied queue clears its overflow flag and stops its timer;
one with records left restarts it. The notice-aged flag is cleared. -/
def NoticeQueue.collect (nq : NoticeQueue) (delay : Nat) : NoticeQueue :=
  let rest := nq.records.drop noticesPerRequest
  { nq with records := rest, aged := false
            overflow := if rest = [] then false else nq.overflow
            timer := if rest = [] then none else some delay }

/-- NOTICES' service (R173): the response gives the records removed, the number left, and the overflow flag as it stood. -/
def serveNotices (p : Port) : Service := fun body s =>
  if s.isAttached p = false then refuse .notAttached s
  else if body ≠ [] then refuse .badFrame s
  else
    let nq := (s.port p).notices
    (s.modNotices p fun nq => nq.collect s.settings.noticeDelay,
     Reply.ok (.notices (nq.records.take noticesPerRequest) (nq.records.drop noticesPerRequest).length nq.overflow))

/-- NOTICES is taken (R173). -/
def execNotices (p : Port) (s : State) : Out := s.takeAndAnswer p kindNotices (serveNotices p)

/-- NOTICE_DELAY_EXPIRY (R174): the notice-aged flag is set, and the timer stays stopped until its next restart. -/
def execNoticeDelayExpiry (p : Port) (s : State) : Out :=
  if s.running && (s.port p).notices.timer.isSome then
    took (s.modNotices p fun nq => { nq with aged := true, timer := none })
  else .next s

end Sys2Proof.Machine
end

