-- ==== Sys2Proof/Machine/RestControl.lean ====
section
/-! DEFINITION. Rest Control and the RESET input: REST_COUNTDOWN_EXPIRY, WARM_UP_EXPIRY, RESET_ASSERT and POWER_ON
(chapter 12). -/

namespace Sys2Proof.Machine

/-- REST_COUNTDOWN_EXPIRY (R189): the broker is RESTING and the countdown is stopped. -/
def execRestCountdownExpiry (s : State) : Out :=
  if s.running && s.restCountdown.isSome then took { s with power := .resting, restCountdown := none }
  else .next s

/-- WARM_UP_EXPIRY (R190): the broker returns to RUN, each pending HELLO is taken in ascending port order (R146), and
the attention lines follow their conditions. -/
def execWarmUpExpiry (s : State) : Out :=
  if !s.resetLow && s.power == .warming && s.warmUpTimer.isSome then
    took (allPorts.foldl State.takePending { s with power := .run, warmUpTimer := none })
  else .next s

/-! ## RESET and power -/

/-- A burst in flight is lost, and the bytes of its block "are whatever the memory holds" (R123): the 64 bytes of the
block of a writing burst become free values (log 7). -/
def State.freeBlock (s : State) (f : FrameNo) (offset : Nat) : State :=
  { s with mem := s.mem.writeBytes (frameAddress f (offset % Config.frameBytes / Config.blockBytes * Config.blockBytes))
             ((List.range Config.blockBytes).map fun k => Config.freeByte (s.freeCount + k))
           freeCount := s.freeCount + Config.blockBytes }

/-- What the loss of the burst in flight leaves in the store (R123). A READ's burst leaves its block as it was, since a READ never
writes to the store (R87): the model's choice (log 7). -/
def State.loseBurst (s : State) : State :=
  match s.arbiter.path with
  | .free => s
  | .busy .scrub =>
    match s.pool.scrub with
    | some sf => s.freeBlock sf.frame (sf.progress % 16 * Config.blockBytes)
    | none => s
  | .busy (.port p) =>
    match (s.port p).stage.stage with
    | .bursting op f _ => if op.kind.isRead then s else s.freeBlock f op.pos
    | .empty | .waiting _ => s

/-- The data stage of a port whose burst is lost holds its operation still (log 10). -/
def Stage.held : Stage → Stage
  | .empty => .empty
  | .waiting op => .waiting op
  | .bursting op _ _ => .waiting op

/-- The port while RESET is low (R192): its transaction, its timers, its burst and its pending HELLO are lost, and its
attention line is released. The rest is held (log 10). -/
def PortState.held (q : PortState) : PortState :=
  { q with link := { q.link with transaction := none }
           attach := { q.attach with pendingHello := none }
           stage := { q.stage with stage := q.stage.stage.held }
           posts := { q.posts with timer := none }
           notices := { q.notices with timer := none }
           attention := false }

/-- The lease timer of a claim record is lost with the others (R192). -/
def Share.held (sh : Share) : Share := { sh with claim := sh.claim.map fun c => { c with lease := none } }

/-- RESET_ASSERT (R192): RESET falls. Every block is held; any burst, transaction, timer or pending HELLO in progress is
lost. -/
def execResetAssert (s : State) : Out :=
  if s.resetLow then .next s
  else
    let s := { s.loseBurst with arbiter := { s.arbiter with path := .free } }.mapPorts fun _ q => q.held
    .next { s with shares := Vector.ofFn fun i : Fin 64 => s.shares[i].held
                   proposal := s.proposal.map fun pr => { pr with timer := none }
                   restCountdown := none, warmUpTimer := none, resetLow := true }

/-- POWER_ON (R192): at the rise of RESET, or when power becomes valid with RESET high, every block takes its power-on
state in one event. The store keeps what it holds (R60; log 6), but for the block of a burst that this event loses. -/
def execPowerOn (s : State) : Out :=
  let t := s.loseBurst
  .next { State.reset with mem := t.mem, freeCount := t.freeCount, pending := s.pending }

end Sys2Proof.Machine
end

