-- ==== Sys2Proof/Machine/ShareTable.lean ====
section
/-! DEFINITION. The Share Table's requests: CREATE, ATTACH, CLOSE, REVOKE and INFO (chapter 1). -/

namespace Sys2Proof.Machine

/-- The lowest-numbered FREE entry (R14). -/
def State.freeShare? (s : State) : Option ShareIdx := allShares.find? fun i => (s.share i).state == .free

/-- The entry in OPEN or ORPHANED that carries the name (R3, R13, R15). -/
def State.named? (s : State) (name : BitVec 32) : Option ShareIdx :=
  allShares.find? fun i => (s.share i).live && (s.share i).name == some name

/-- The fields of a CREATE that pass BAD_FRAME (R13, step 2): size 1..32, a name exactly on a COMMON share, no ADMIN
among the common rights. -/
def CreateFields.ok (f : CreateFields) : Bool :=
  decide (1 ≤ f.size) && decide (f.size ≤ 32) && ((f.scope == .common) == (f.name != 0)) && !f.rights.admin

/-- The frames a CREATE needs from the pool: its size for EAGER backing, none for ON_DEMAND (R55). -/
def CreateFields.need (f : CreateFields) : Nat := if f.onDemand then 0 else f.size

/-- The rights of the creator's handle (R14). -/
def Rights.all : Rights := ⟨true, true, true, true⟩

/-- The entry a CREATE makes of a FREE entry (R14): its generation is kept. -/
def CreateFields.entry (f : CreateFields) (p : Port) (frames : List FrameNo) (sh : Share) : Share :=
  { state := .opened, generation := sh.generation, creator := some p, scope := some f.scope
    name := if f.scope = .common then some f.name else none
    commonRights := if f.scope = .common then f.rights else Rights.none
    size := some f.size
    frameMap := bindSlots (Vector.replicate 32 none) (allSlots.take f.need) frames
    handleCount := 0, inUse := 0, claim := none }

/-- The effects of a CREATE that passes its checks (R14, R55): frames from the head of the clean list, the entry, and the
creator's handle, whose making brings the current-handle count to 1. -/
def State.makeShare (s : State) (p : Port) (f : CreateFields) (i : ShareIdx) (h : HandleNo) : State :=
  let frames := s.pool.clean.take f.need
  let s := { s with pool := s.pool.take f.need }.modShare i (f.entry p frames)
  s.makeHandle p h
    { share := i, generation := (s.share i).generation, rights := Rights.all, base := 0,
      length := f.size * Config.frameBytes, origin := .created }

/-- CREATE's checks in R13's order, then its effects. -/
def serveCreate (p : Port) : Service := fun body s =>
  if s.isAttached p = false then refuse .notAttached s
  else match createFields body with
    | none => refuse .badFrame s
    | some f =>
      if f.ok = false then refuse .badFrame s
      else if f.scope = .common ∧ s.settings.isolation[p] then refuse .isolated s
      else match s.freeShare? with
        | none => refuse .shareTableFull s
        | some i =>
          match s.emptyHandle? p with
          | none => refuse .handleTableFull s
          | some h =>
            if f.scope = .common ∧ (s.named? f.name).isSome then refuse .nameTaken s
            else match s.pool.verdict f.need with
              | some code => refuse code s
              | none => (s.makeShare p f i h, Reply.ok (.created i h (s.share i).generation))

/-- CREATE is taken (R13, R14). -/
def execCreate (p : Port) (s : State) : Out := s.takeAndAnswer p kindCreate (serveCreate p)

/-- The handle an ATTACH makes (R16). -/
def attachHandle (i : ShareIdx) (sh : Share) (r : Rights) : Handle :=
  { share := i, generation := sh.generation, rights := r, base := 0,
    length := sh.size.getD 0 * Config.frameBytes, origin := .attached }

/-- ATTACH's checks in R15's order, then its effects (R16). -/
def serveAttach (p : Port) : Service := fun body s =>
  if s.isAttached p = false then refuse .notAttached s
  else match attachFields body with
    | none => refuse .badFrame s
    | some (name, wanted) =>
      if wanted.isEmpty || wanted.admin then refuse .badFrame s
      else if s.settings.isolation[p] then refuse .isolated s
      else match s.named? name with
        | none => refuse .noSuchName s
        | some i =>
          if wanted.subset (s.share i).commonRights = false then refuse .rights s
          else match s.emptyHandle? p with
            | none => refuse .handleTableFull s
            | some h =>
              (s.makeHandle p h (attachHandle i (s.share i) wanted),
               Reply.ok (.attached h i (s.share i).generation))

/-- ATTACH is taken (R15, R16). -/
def execAttach (p : Port) (s : State) : Out := s.takeAndAnswer p kindAttach (serveAttach p)

/-- The checks CLOSE and REVOKE share (R17, R19): NOT_ATTACHED, BAD_FRAME, handle resolution, RIGHTS without ADMIN. -/
def State.checkAdmin (s : State) (p : Port) (body : List Byte) : Except Result (HandleNo × Handle) :=
  if s.isAttached p = false then .error .notAttached
  else match handleField body with
    | none => .error .badFrame
    | some b =>
      match s.resolve p b with
      | .error code => .error code
      | .ok (h, v) => if v.rights.admin then .ok (h, v) else .error .rights

/-- The effects of a CLOSE of entry `i` by port `p`, in R17's order: the ports to be told are fixed, the entry enters
CLOSING, they are told, the claim ends, and retirement follows when no operation is in flight. -/
def State.closeShare (s : State) (p : Port) (i : ShareIdx) : State :=
  let told := s.told p i
  let g := (s.share i).generation
  let s := (s.markClosing i).pushTold .shareClosed p i g told
  (s.endClaim p i 2).retireIfDone i

/-- CLOSE's service (R17, R18). -/
def serveClose (p : Port) : Service := fun body s =>
  match s.checkAdmin p body with
  | .error code => refuse code s
  | .ok (_, v) => (s.closeShare p v.share, Reply.ok .empty)

/-- CLOSE is taken (R17). -/
def execClose (p : Port) (s : State) : Out := s.takeAndAnswer p kindClose (serveClose p)

/-- The requesting handle is restamped with the entry's new generation (R42). -/
def State.restamp (s : State) (p : Port) (h : HandleNo) (i : ShareIdx) : State :=
  s.setHandle p h ((s.handle p h).map fun v => { v with generation := (s.share i).generation })

/-- The effects of a REVOKE of entry `i` by port `p` through handle `h`, in R19's order: the ports to be told are fixed,
the generation steps, the handle is restamped, the count is 1, they are told, and the claim ends. -/
def State.revokeShare (s : State) (p : Port) (h : HandleNo) (i : ShareIdx) : State :=
  let told := s.told p i
  let s := (s.stepGeneration i).restamp p h i
  let s := s.modShare i fun sh => { sh with handleCount := 1 }
  (s.pushTold .revoked p i (s.share i).generation told).endClaim p i 1

/-- REVOKE's service (R19, R20): the response gives the new generation. -/
def serveRevoke (p : Port) : Service := fun body s =>
  match s.checkAdmin p body with
  | .error code => refuse code s
  | .ok (h, v) =>
    (s.revokeShare p h v.share, Reply.ok (.revoked (nextGeneration (s.share v.share).generation)))

/-- REVOKE is taken (R19). -/
def execRevoke (p : Port) (s : State) : Out := s.takeAndAnswer p kindRevoke (serveRevoke p)

/-- The number of backed slots (R4). -/
def Share.backed (sh : Share) : Nat := sh.frames.length

/-- What INFO reports of entry `i` (R22). -/
def State.infoOf (s : State) (i : ShareIdx) : InfoBody :=
  let sh := s.share i
  { index := i, state := sh.state, scope := sh.scope, size := sh.size.getD 0, backed := sh.backed,
    handleCount := sh.handleCount, holder := sh.claim.map Claim.holder,
    waiters := (sh.claim.map fun c => c.waiters.length).getD 0, creator := sh.creator }

/-- INFO's service (R22). -/
def serveInfo (p : Port) : Service := fun body s =>
  if s.isAttached p = false then refuse .notAttached s
  else match handleField body with
    | none => refuse .badFrame s
    | some b =>
      match s.resolve p b with
      | .error code => refuse code s
      | .ok (_, v) => (s, Reply.ok (.info (s.infoOf v.share)))

/-- INFO is taken (R22). -/
def execInfo (p : Port) (s : State) : Out := s.takeAndAnswer p kindInfo (serveInfo p)

end Sys2Proof.Machine
end

