-- ==== Sys2Proof/Machine/StoreArbiter.lean ====
section
/-! DEFINITION. The Store Arbiter and the scrubber: GRANT_DECISION and SCRUB_BURST_COMPLETION (chapters 3 and 6). -/

namespace Sys2Proof.Machine

/-- Requester `r` waits for the store data path (R112). -/
def State.waits (s : State) : Requester → Bool
  | .port p => match (s.port p).stage.stage with
    | .waiting _ => true
    | .empty | .bursting _ _ _ => false
  | .scrub => s.pool.scrub.isSome && s.arbiter.path != .busy .scrub

/-- The 16 phases in circular order from the pointer (R116). -/
def scanOrder (pointer : Fin 16) : List (Fin 16) := (List.finRange 16).map fun k => pointer + k

/-- The decision (R116, R117): the first phase from the pointer whose requester waits, with the pointer after it; else
the idle grant to a waiting SCRUB, with the pointer as it was. -/
def State.decision (s : State) : Option (Requester × Fin 16) :=
  match (scanOrder s.arbiter.pointer).find? fun k => s.waits s.arbiter.table[k] with
  | some k => some (s.arbiter.table[k], k + 1)
  | none => if s.waits .scrub then some (.scrub, s.arbiter.pointer) else none

/-- The bytes a burst reads at its grant, as they stand in the store: a READ its piece (R88), a CAS its word (R91). -/
def Operation.capture (op : Operation) (m : Memory) (f : FrameNo) : List Byte :=
  match op.kind with
  | .read _ | .cas _ _ => m.readBytes (op.address f) op.pieceLength
  | .write _ | .post _ => []

/-- The grant of the burst of `op` to port `p` (R118): a READ is rechecked, and ends CUT with the path FREE when that
fails; else the burst proceeds on the frame bound to its slot, reading its bytes as they stand (R75, R85, R88). -/
def State.grantPort (s : State) (p : Port) (op : Operation) : Out :=
  match (if op.kind.isRead then (s.share op.share).recheck op else none) with
  | some code => took ((s.endOperation p op (some (op.cutReply code))).finishCleanup p)
  | none =>
    match (s.share op.share).frameAt op.slot with
    | none => .fault .unbackedBurst
    | some f =>
      took ({ s with arbiter := { s.arbiter with path := .busy (.port p) } }.setStage p
        { (s.port p).stage with
          stage := .bursting op f (op.capture s.mem f) })

/-- What the requester granted does with the path, in the decision event (R118). -/
def State.grantTo (s : State) : Requester → Out
  | .scrub => took { s with arbiter := { s.arbiter with path := .busy .scrub } }
  | .port p => match (s.port p).stage.stage with
    | .waiting op => s.grantPort p op
    | .empty | .bursting _ _ _ => .next s

/-- GRANT_DECISION (R115, R116): with the broker in RUN, the path FREE and a requester waiting, the path is granted. -/
def execGrantDecision (s : State) : Out :=
  if s.running && s.arbiter.path == .free then
    match s.decision with
    | some (r, pointer) => { s with arbiter := { s.arbiter with pointer := pointer } }.grantTo r
    | none => .next s
  else .next s

/-- A scrubbed block: the progress count rises, and at 16 the frame joins the clean list and the head of the dirty list
becomes the scrub frame (R51). -/
def Pool.scrubbed (q : Pool) (sf : ScrubFrame) : Pool :=
  if sf.progress + 1 = 16 then Pool.nextScrub { q with clean := q.clean ++ [sf.frame], scrub := none }
  else { q with scrub := some { sf with progress := sf.progress + 1 } }

/-- The store after 64 zero bytes have been written to the scrub frame's next block (R50). -/
def scrubBlock (m : Memory) (sf : ScrubFrame) : Memory :=
  m.writeBytes (frameAddress sf.frame (sf.progress % 16 * Config.blockBytes)) (List.replicate Config.blockBytes 0)

/-- SCRUB_BURST_COMPLETION (R51). -/
def execScrubBurstCompletion (s : State) : Out :=
  if s.running && s.arbiter.path == .busy .scrub then
    match s.pool.scrub with
    | some sf => took { s.freePath with mem := scrubBlock s.mem sf, pool := s.pool.scrubbed sf }
    | none => took s.freePath
  else .next s

end Sys2Proof.Machine
end

