-- ==== Sys2Proof/Machine/Dispatch.lean ====
section
/-! DEFINITION. One arm per command: a direct call of its meaning. -/

namespace Sys2Proof.Machine

def exec (i : Instr) (s : State) : Host.Outcome State Fault Refusal :=
  match i with
  | .selectFallingEdge p => Sys2Proof.Machine.execSelectFallingEdge p s
  | .poll p clocks => Sys2Proof.Machine.execPoll p clocks s
  | .fetch p clocks => Sys2Proof.Machine.execFetch p clocks s
  | .requestFrame p bytes bits => Sys2Proof.Machine.execRequestFrame p bytes bits s
  | .hello p tag => Sys2Proof.Machine.execHello p tag s
  | .detach p => Sys2Proof.Machine.execDetach p s
  | .create p => Sys2Proof.Machine.execCreate p s
  | .attach p => Sys2Proof.Machine.execAttach p s
  | .close p => Sys2Proof.Machine.execClose p s
  | .revoke p => Sys2Proof.Machine.execRevoke p s
  | .info p => Sys2Proof.Machine.execInfo p s
  | .grant p => Sys2Proof.Machine.execGrant p s
  | .drop p => Sys2Proof.Machine.execDrop p s
  | .list p => Sys2Proof.Machine.execList p s
  | .read p => Sys2Proof.Machine.execRead p s
  | .write p => Sys2Proof.Machine.execWrite p s
  | .cas p => Sys2Proof.Machine.execCas p s
  | .post p => Sys2Proof.Machine.execPost p s
  | .postRelease p => Sys2Proof.Machine.execPostRelease p s
  | .flush p => Sys2Proof.Machine.execFlush p s
  | .claim p => Sys2Proof.Machine.execClaim p s
  | .release p => Sys2Proof.Machine.execRelease p s
  | .renew p => Sys2Proof.Machine.execRenew p s
  | .notices p => Sys2Proof.Machine.execNotices p s
  | .propose p => Sys2Proof.Machine.execPropose p s
  | .vote p => Sys2Proof.Machine.execVote p s
  | .settings p => Sys2Proof.Machine.execSettings p s
  | .unknownRequest p => Sys2Proof.Machine.execUnknownRequest p s
  | .grantDecision => Sys2Proof.Machine.execGrantDecision s
  | .burstCompletion p => Sys2Proof.Machine.execBurstCompletion p s
  | .scrubBurstCompletion => Sys2Proof.Machine.execScrubBurstCompletion s
  | .leaseExpiry share => Sys2Proof.Machine.execLeaseExpiry share s
  | .postDelayExpiry p => Sys2Proof.Machine.execPostDelayExpiry p s
  | .noticeDelayExpiry p => Sys2Proof.Machine.execNoticeDelayExpiry p s
  | .voteWindowExpiry => Sys2Proof.Machine.execVoteWindowExpiry s
  | .restCountdownExpiry => Sys2Proof.Machine.execRestCountdownExpiry s
  | .warmUpExpiry => Sys2Proof.Machine.execWarmUpExpiry s
  | .resetAssert => Sys2Proof.Machine.execResetAssert s
  | .powerOn => Sys2Proof.Machine.execPowerOn s
  | .firstByteEnd p first => Sys2Proof.Machine.execFirstByteEnd p first s

end Sys2Proof.Machine
end

