-- ==== Sys2Proof/Safety.lean ====
section
/-! DEFINITION. When each command's event can take place, what a step may be relied on to keep, and the words the
statements use for what an event leaves alone. Nothing here is used by the machine. -/

namespace Sys2Proof.Machine

/-! ## When an event takes place -/

/-- The request at the head of port `p`'s queue can be taken now (R102) and is of a kind that passes `isKind`. -/
def State.canTake (s : State) (p : Port) (isKind : Byte → Bool) : Bool := (s.nextRequest p).any fun f => isKind f.kind

/-- The phase of the open transaction of port `p`; none while select is high or RESET is low. -/
def State.phase? (s : State) (p : Port) : Option Phase := (s.openTransaction p).map Transaction.phase

/-- A claim record's lease timer runs. -/
def Share.leaseRuns (sh : Share) : Bool := sh.claim.any fun c => c.lease.isSome

/-- The conditions of a command's event. A command whose conditions do not hold has no event to stand for (log 1). -/
def enabled : Instr → State → Bool
  | .selectFallingEdge p, s => !s.resetLow && (s.port p).link.transaction.isNone
  | .firstByteEnd p _, s => s.phase? p == some .firstByte
  | .poll p _, s => s.phase? p == some .firstByte || s.phase? p == some .poll
  | .fetch p _, s =>
    match s.phase? p with
    | some .firstByte => true
    | some (.fetch _) => true
    | _ => false
  | .requestFrame p _ _, s =>
    match s.phase? p with
    | some .firstByte => true
    | some (.request _) => true
    | _ => false
  | .hello p _, s => s.phase? p == some .firstByte || s.phase? p == some (.request kindHello)
  | .detach p, s => s.canTake p (· == kindDetach)
  | .create p, s => s.canTake p (· == kindCreate)
  | .attach p, s => s.canTake p (· == kindAttach)
  | .close p, s => s.canTake p (· == kindClose)
  | .revoke p, s => s.canTake p (· == kindRevoke)
  | .info p, s => s.canTake p (· == kindInfo)
  | .grant p, s => s.canTake p (· == kindGrant)
  | .drop p, s => s.canTake p (· == kindDrop)
  | .list p, s => s.canTake p (· == kindList)
  | .read p, s => s.canTake p (· == kindRead)
  | .write p, s => s.canTake p (· == kindWrite)
  | .cas p, s => s.canTake p (· == kindCas)
  | .post p, s => s.canTake p (· == kindPost)
  | .postRelease p, s => (s.nextPost p).isSome
  | .flush p, s => s.canTake p (· == kindFlush)
  | .claim p, s => s.canTake p (· == kindClaim)
  | .release p, s => s.canTake p (· == kindRelease)
  | .renew p, s => s.canTake p (· == kindRenew)
  | .notices p, s => s.canTake p (· == kindNotices)
  | .propose p, s => s.canTake p (· == kindPropose)
  | .vote p, s => s.canTake p (· == kindVote)
  | .settings p, s => s.canTake p (· == kindSettings)
  | .unknownRequest p, s => s.canTake p fun k => !definedKinds.contains k
  | .grantDecision, s => s.running && s.arbiter.path == .free && s.decision.isSome
  | .burstCompletion p, s => s.running && s.arbiter.path == .busy (.port p)
  | .scrubBurstCompletion, s => s.running && s.arbiter.path == .busy .scrub
  | .leaseExpiry i, s => s.running && (s.share i).leaseRuns
  | .postDelayExpiry p, s => s.running && (s.port p).posts.timer.isSome
  | .noticeDelayExpiry p, s => s.running && (s.port p).notices.timer.isSome
  | .voteWindowExpiry, s => s.running && s.proposal.any fun pr => pr.timer.isSome
  | .restCountdownExpiry, s => s.running && s.restCountdown.isSome
  | .warmUpExpiry, s => !s.resetLow && s.power == .warming && s.warmUpTimer.isSome
  | .resetAssert, s => !s.resetLow
  | .powerOn, _ => true

/-! ## Invariants -/

/-- The store is in canonical form. -/
def MemoryCanonical (s : State) : Prop := s.mem.wf = true

/-- Every queue stays within the places it has (R182, R183, R93, R169). -/
def QueuesBounded (s : State) : Prop :=
  ∀ p : Port, (s.port p).link.requests.length ≤ 4 ∧ (s.port p).link.responses.length ≤ 4
    ∧ (s.port p).posts.posts.length ≤ 8 ∧ (s.port p).notices.records.length ≤ 16

/-- Every share entry's generation is 1..4095 (R2). -/
def GenerationsInRange (s : State) : Prop := ∀ i : ShareIdx, 1 ≤ (s.share i).generation ∧ (s.share i).generation ≤ 4095

/-- The settings record and the one a pending proposal carries are legal (R155), and the Store Arbiter's table is the
current record's (R113). -/
def SettingsLegal (s : State) : Prop :=
  s.settings.legal = true ∧ s.arbiter.table = s.settings.phaseTable
    ∧ ∀ pr r, s.proposal = some pr → pr.action = .settings r → r.legal = true

/-- A data stage with a burst in flight (R83). -/
def Stage.isBursting : Stage → Bool
  | .bursting _ _ _ => true
  | .empty | .waiting _ => false

/-- The operation a data stage holds. -/
def Stage.op? : Stage → Option Operation
  | .empty => none
  | .waiting op => some op
  | .bursting op _ _ => some op

/-- The path is BUSY with a port's burst exactly while that port's data stage is BURSTING, and with a scrub burst only
while a scrub frame is present (R111, R83, R50). -/
def PathMatchesStages (s : State) : Prop :=
  (∀ p : Port, s.arbiter.path = .busy (.port p) ↔ (s.port p).stage.stage.isBursting = true)
    ∧ (s.arbiter.path = .busy .scrub → s.pool.scrub.isSome = true)

/-- The frames of the backed slots, in ascending slot order, the UNBACKED slots skipped (R11). -/
def Share.bySlot (sh : Share) : List FrameNo := (List.finRange 32).filterMap fun k => sh.frameMap[k]

/-- How many times frame `f` is held: on the clean list, on the dirty list, as the scrub frame, and in map slots of share
entries (R46). -/
def State.placesOf (s : State) (f : FrameNo) : Nat :=
  s.pool.clean.count f + s.pool.dirty.count f + (s.pool.scrub.any fun sf => sf.frame == f).toNat
    + (allShares.map fun i => (s.share i).bySlot.count f).sum

/-- Every frame is in exactly one place (R46), a FREE entry holds none, and a nonempty dirty list has a scrub frame
ahead of it (R49), with progress 0..15. -/
def FramesAccounted (s : State) : Prop :=
  (∀ f : FrameNo, s.placesOf f = 1)
    ∧ (∀ (i : ShareIdx) (k : SlotNo), (s.share i).state = .free → (s.share i).frameMap[k] = none)
    ∧ (s.pool.scrub = none → s.pool.dirty = [])
    ∧ (∀ sf, s.pool.scrub = some sf → sf.progress ≤ 15)

/-- The VALID handles of all four tables that name entry `i` and record generation `g`. -/
def State.handlesOn (s : State) (i : ShareIdx) (g : Nat) : Nat :=
  (allPorts.map fun p => allHandles.countP fun h => (s.handle p h).any fun v => v.records i g).sum

/-- The current-handle count is true (R5): that of a live entry is the number of its current handles; that of a CLOSING or
FREE entry is 0, and no handle records the generation of a FREE entry (R2). -/
def HandleCountsTrue (s : State) : Prop :=
  ∀ i : ShareIdx,
    ((s.share i).live = true → (s.share i).handleCount = s.handlesOn i (s.share i).generation)
    ∧ ((s.share i).live = false → (s.share i).handleCount = 0)
    ∧ ((s.share i).state = .free → s.handlesOn i (s.share i).generation = 0)

/-- The operations held in data stages on entry `i`. -/
def State.operationsOn (s : State) (i : ShareIdx) : Nat :=
  allPorts.countP fun p => (s.port p).stage.stage.op?.any fun op => op.share == i

/-- The in-use count is the number of operations in flight on the entry (R6); a CLOSING entry waits for at least one, and
a FREE entry has none (R11). -/
def InUseTrue (s : State) : Prop :=
  ∀ i : ShareIdx, (s.share i).inUse = s.operationsOn i
    ∧ ((s.share i).state = .closing → 1 ≤ (s.share i).inUse)
    ∧ ((s.share i).state = .free → (s.share i).inUse = 0)

/-- Windows and sizes lie in the ranges of R27 and R1. -/
def WindowsLegal (s : State) : Prop :=
  (∀ (p : Port) (h : HandleNo) (v : Handle), s.handle p h = some v →
      v.base % 64 = 0 ∧ v.length % 64 = 0 ∧ v.base + v.length ≤ 32768)
    ∧ ∀ (i : ShareIdx) (n : Nat), (s.share i).size = some n → n ≤ 32

/-- What an operation in a data stage has still to do lies in backed slots: all of it for a write-type operation, its next
piece for a READ (R84). -/
def Operation.backedIn (op : Operation) (sh : Share) : Prop :=
  op.pos < op.stop ∧ op.stop ≤ 32768 ∧ (sh.frameAt op.slot).isSome = true
    ∧ (op.kind.isRead = false → ∀ x, op.pos ≤ x → x < op.stop → (sh.frameAt (x / Config.frameBytes)).isSome = true)

/-- The data path never meets a slot without a frame (R84), with what that rests on. -/
def DataPathSound (s : State) : Prop :=
  InUseTrue s ∧ WindowsLegal s
    ∧ ∀ (p : Port) (op : Operation), (s.port p).stage.stage.op? = some op → op.backedIn (s.share op.share)

/-- Every entry of a Response Queue is COMPLETED. -/
def Link.allCompleted (l : Link) : Bool :=
  l.responses.all fun e => match e with | .completed _ => true | .reserved _ _ => false

/-- The Response Queue of one port is in order (R104, R183): in CLEANING it is the one reservation for the HELLO; else it
holds completed responses and, behind them, the reservation of the READ, WRITE or CAS in the data stage. The abandon mark
is set only in CLEANING, on an operation still held (R108). -/
def PortState.responsesInOrder (q : PortState) : Prop :=
  (q.attach.state = .cleaning → ∃ t, q.link.responses = [.reserved kindHello t])
    ∧ (q.attach.state ≠ .cleaning → ∀ op, q.stage.stage.op? = some op → op.kind.requestKind ≠ kindPost →
        ∃ done t, q.link.responses = done ++ [.reserved op.kind.requestKind t]
          ∧ ∀ e ∈ done, ∃ x, e = .completed x)
    ∧ (q.attach.state ≠ .cleaning → (∀ op, q.stage.stage.op? = some op → op.kind.requestKind = kindPost) →
        q.link.allCompleted = true)
    ∧ (q.stage.abandon = true → q.attach.state = .cleaning ∧ q.stage.stage ≠ .empty)

def ResponsesInOrder (s : State) : Prop := ∀ p : Port, (s.port p).responsesInOrder

/-- In RUN every attention line follows its conditions (R176). -/
def AttentionDriven (s : State) : Prop := s.running = true → ∀ p : Port, (s.port p).attention = (s.port p).calls

/-- The rest countdown runs exactly in RUN, with a rest delay other than 0, while the broker is idle (R188; a port with no open
transaction counts as one whose select is high, log 29). -/
def CountdownDriven (s : State) : Prop :=
  s.restCountdown.isSome = (s.running && s.settings.restDelay != 0 && s.idle)

/-- The handle recorded for a port of a claim record on entry `i` serves the claim: the port is ATTACHED, the handle is
VALID, names the entry, is current and holds WRITE (R124). -/
def State.servesClaim (s : State) (i : ShareIdx) (p : Port) (h : HandleNo) : Prop :=
  s.isAttached p = true ∧ ∃ v, s.handle p h = some v ∧ v.share = i ∧ s.current v = true ∧ v.rights.write = true

/-- Every claim record is as R124 requires: no port twice, and every port in it served. -/
def ClaimsSound (s : State) : Prop :=
  ∀ (i : ShareIdx) (c : Claim), (s.share i).claim = some c →
    (c.places.map Prod.fst).Nodup ∧ ∀ x ∈ c.places, s.servesClaim i x.1 x.2

/-- Every frame on the clean list is zero in every byte (R47), and so are the scrub frame's blocks below its progress count
(R50). -/
def CleanFramesZero (s : State) : Prop :=
  (∀ f ∈ s.pool.clean, ∀ k : Nat, k < 1024 → s.mem.read (f.val * 1024 + k) = 0)
    ∧ ∀ sf, s.pool.scrub = some sf → ∀ k : Nat, k < sf.progress * 64 → s.mem.read (sf.frame.val * 1024 + k) = 0

/-- A burst in flight is on the frame bound to the slot its operation has reached (R84). -/
def BurstsOnBoundFrames (s : State) : Prop :=
  ∀ (p : Port) (op : Operation) (f : FrameNo) (bs : List Byte), (s.port p).stage.stage = .bursting op f bs →
    (s.share op.share).frameAt op.slot = some f

/-! ## What an event leaves alone -/

/-- Port `q`'s record is as before, but for the attention line, which follows its conditions (R176). -/
def SamePort (s t : State) (q : Port) : Prop := t.port q = { s.port q with attention := (t.port q).attention }

/-- The ports other than those of the list are as before. -/
def OtherPortsSame (s t : State) (ps : List Port) : Prop := ∀ q : Port, q ∉ ps → SamePort s t q

/-- The share entries other than `i` are as before. -/
def OtherSharesSame (s t : State) (i : ShareIdx) : Prop := ∀ j : ShareIdx, j ≠ i → t.share j = s.share j

/-- Nothing but the port records, and the rest countdown, which follows idleness (R188). -/
def OnlyPorts (s t : State) : Prop := t = { s with ports := t.ports, restCountdown := t.restCountdown }

/-- Nothing but the port records, the share entries, and the rest countdown. -/
def OnlyPortsShares (s t : State) : Prop :=
  t = { s with ports := t.ports, shares := t.shares, restCountdown := t.restCountdown }

/-- Nothing but the port records, the share entries, the Frame Pool, and the rest countdown. -/
def OnlyPortsSharesPool (s t : State) : Prop :=
  t = { s with ports := t.ports, shares := t.shares, pool := t.pool, restCountdown := t.restCountdown }

/-- Port `p`'s link after the take of the request `f`, answered at once with `r` (R102, R12): the request has left the
Request Queue and its response stands behind the others. -/
def Link.answered (l : Link) (f : Frame) (r : Reply) : Link :=
  { l with requests := l.requests.drop 1
           responses := l.responses ++ [.completed { kind := f.kind, tag := f.tag, reply := r }] }

/-- Port `p`'s link after the take of the request `f` with its answer still to come: an entry is reserved (R102). -/
def Link.reserving (l : Link) (f : Frame) : Link :=
  { l with requests := l.requests.drop 1, responses := l.responses ++ [.reserved f.kind f.tag] }

/-- The request `f` of port `p` was answered with `r` and nothing else changed (R12, R71). -/
def OnlyAnswers (s t : State) (p : Port) (f : Frame) (r : Reply) : Prop :=
  OnlyPorts s t ∧ OtherPortsSame s t [p]
    ∧ t.port p = { s.port p with link := (s.port p).link.answered f r, attention := (t.port p).attention }

/-- The request `f` of this kind can be taken on port `p` now (R102), and no response of the port is still to come
(`ResponsesInOrder` gives it). -/
def Takes (s : State) (p : Port) (kind : Byte) (f : Frame) : Prop :=
  s.nextRequest p = some f ∧ f.kind = kind ∧ (s.port p).link.allCompleted = true

/-- The code of the first check that fails, in the order given. -/
def firstFailing : List (Bool × Result) → Option Result
  | [] => none
  | (bad, code) :: checks => if bad then some code else firstFailing checks

/-! ## The ordered checks, as the rules list them -/

/-- Port `p`'s table has no EMPTY entry. -/
def State.tableFull (s : State) (p : Port) : Bool := allHandles.all fun h => (s.handle p h).isSome

/-- `i` is the lowest-numbered FREE entry (R14). -/
def LowestFree (s : State) (i : ShareIdx) : Prop :=
  (s.share i).state = .free ∧ ∀ j : ShareIdx, j < i → (s.share j).state ≠ .free

/-- `h` is the lowest-numbered EMPTY entry of port `p`'s table (R31). -/
def LowestEmpty (s : State) (p : Port) (h : HandleNo) : Prop :=
  s.handle p h = none ∧ ∀ k : HandleNo, k < h → s.handle p k ≠ none

/-- Entry `i` is the one in OPEN or ORPHANED that carries the name (R3). -/
def Carries (s : State) (i : ShareIdx) (name : BitVec 32) : Prop :=
  (s.share i).live = true ∧ (s.share i).name = some name
    ∧ ∀ j : ShareIdx, (s.share j).live = true → (s.share j).name = some name → j = i

/-- Handle number `b` of port `p` is the VALID handle `v`, at entry `h`, and it is current (R33 passes). -/
def Resolves (s : State) (p : Port) (b : Byte) (h : HandleNo) (v : Handle) : Prop :=
  h.val = b.toNat ∧ s.handle p h = some v ∧ s.current v = true

/-- Entry `i` is OPEN or ORPHANED and carries the name; the lowest-numbered such entry, though R3 lets there be one only. -/
def State.firstNamed (s : State) (name : BitVec 32) (i : ShareIdx) : Bool :=
  (s.share i).live && (s.share i).name == some name
    && allShares.all fun j => !decide (j < i) || !((s.share j).live && (s.share j).name == some name)

/-- CREATE's checks in R13's order, once the body has its length and codes. -/
def createChecks (s : State) (p : Port) (f : CreateFields) : List (Bool × Result) :=
  [(!s.isAttached p, .notAttached),
   (f.size == 0 || decide (32 < f.size) || (f.scope == .privateScope && f.name != 0)
      || (f.scope == .common && f.name == 0) || f.rights.admin, .badFrame),
   (f.scope == .common && s.settings.isolation[p], .isolated),
   (allShares.all fun i => (s.share i).state != .free, .shareTableFull),
   (s.tableFull p, .handleTableFull),
   (f.scope == .common && allShares.any fun i => (s.share i).live && (s.share i).name == some f.name, .nameTaken),
   (!f.onDemand && decide (s.pool.supply < f.size), .poolEmpty),
   (!f.onDemand && decide (s.pool.clean.length < f.size), .poolBusy)]

/-- ATTACH's checks in R15's order. -/
def attachChecks (s : State) (p : Port) (name : BitVec 32) (wanted : Rights) : List (Bool × Result) :=
  [(!s.isAttached p, .notAttached),
   (wanted.isEmpty || wanted.admin, .badFrame),
   (s.settings.isolation[p], .isolated),
   (allShares.all fun i => !((s.share i).live && (s.share i).name == some name), .noSuchName),
   (allShares.any fun i => s.firstNamed name i && !wanted.subset (s.share i).commonRights, .rights),
   (s.tableFull p, .handleTableFull)]

/-- The handle at number `b` of port `p`, when there is such a number and it is VALID. -/
def State.entryAt (s : State) (p : Port) (b : Byte) : Option Handle :=
  if h : b.toNat < 32 then s.handle p ⟨b.toNat, h⟩ else none

/-- The checks of handle resolution on handle number `b` of port `p`, in R33's order. -/
def resolution (s : State) (p : Port) (b : Byte) : List (Bool × Result) :=
  [(decide (32 ≤ b.toNat), .handleRange),
   ((s.entryAt p b).isNone, .handleEmpty),
   ((s.entryAt p b).any fun v => !(s.share v.share).live, .shareGone),
   ((s.entryAt p b).any fun v => v.generation != (s.share v.share).generation, .stale)]

/-- NOT_ATTACHED, BAD_FRAME when the body has not one byte, handle resolution, and RIGHTS when a handle does not satisfy
`may` (R17, R19, R22, R127). -/
def handleChecks (s : State) (p : Port) (body : List Byte) (may : Rights → Bool) : List (Bool × Result) :=
  [(!s.isAttached p, .notAttached), (body.length != 1, .badFrame)] ++ resolution s p (body.headD 0)
    ++ [((s.entryAt p (body.headD 0)).any fun v => !may v.rights, .rights)]

/-- GRANT's checks in R35's order, once the body has its length and codes. -/
def grantChecks (s : State) (p : Port) (f : GrantFields) : List (Bool × Result) :=
  [(!s.isAttached p, .notAttached),
   (f.base % 64 != 0 || f.length % 64 != 0 || f.length == 0, .badFrame)] ++ resolution s p f.source ++
  [((s.entryAt p f.source).any fun v =>
      !v.rights.grant || f.rights.isEmpty || f.rights.admin || !f.rights.subset v.rights, .rights),
   ((s.entryAt p f.source).any fun v => decide (v.length < f.base + f.length), .window),
   (f.target == p, .selfGrant),
   (!s.isAttached f.target, .targetDetached),
   ((s.entryAt p f.source).any fun v =>
      (s.share v.share).scope == some .common && s.settings.isolation[f.target], .isolated),
   (s.tableFull f.target, .targetFull)]

/-- The need of a write-type request (R70): the UNBACKED slots that hold a byte of the `length` share offsets from
`start` on. -/
def Share.needOf (sh : Share) (start length : Nat) : Nat :=
  allSlots.countP fun k =>
    decide (k.val * 1024 < start + length) && decide (start < (k.val + 1) * 1024) && (sh.frameMap[k]).isNone

/-- BAD_FRAME of a data request whose body holds the fixed fields (R65): READ carries no bytes after them and a length of
1..256, WRITE as many bytes as its length says, 1..256, POST the same, 1..64, and CAS eight bytes and the length 4. -/
def badData (k : DataKind) (f : DataFields) : Bool :=
  match k with
  | .read => f.payload.length != 0 || f.length == 0 || decide (256 < f.length)
  | .write => f.payload.length != f.length || f.length == 0 || decide (256 < f.length)
  | .post => f.payload.length != f.length || f.length == 0 || decide (64 < f.length)
  | .cas => f.payload.length != 8 || f.length != 4

/-- The handle lacks a right the request needs (R67): READ for READ, WRITE for WRITE and POST, both for CAS. -/
def lacksRight (k : DataKind) (r : Rights) : Bool :=
  match k with
  | .read => !r.read
  | .write => !r.write
  | .post => !r.write
  | .cas => !r.read || !r.write

/-- The twelve checks of a data request in R64's order, once the body holds the fixed fields. -/
def dataChecks (s : State) (p : Port) (k : DataKind) (f : DataFields) : List (Bool × Result) :=
  let entry := s.entryAt p f.handle
  let need := (entry.map fun v => (s.share v.share).needOf (v.base + f.offset) f.length).getD 0
  [(!s.isAttached p, .notAttached), (badData k f, .badFrame)] ++ resolution s p f.handle ++
  [(entry.any fun v => lacksRight k v.rights, .rights),
   (k == .cas && f.offset % 4 != 0, .align),
   (entry.any fun v => decide (v.length < f.offset + f.length), .window),
   (k != .read && entry.any fun v => (s.share v.share).claim.any fun c => c.holder != p, .claimed),
   (k != .read && decide (s.pool.supply < need), .poolEmpty),
   (k != .read && decide (s.pool.clean.length < need), .poolBusy)]

/-- The ranges of R155, field by field: every port is named by a phase (R114). -/
def SettingsInRange (r : Settings) : Prop :=
  (∀ p : Port, ∃ k : Fin 16, r.phaseTable[k] = .port p)
    ∧ 1 ≤ r.leaseDuration ∧ r.leaseDuration ≤ 1000 ∧ 1 ≤ r.postThreshold ∧ r.postThreshold ≤ 8
    ∧ 8 ≤ r.postDelay ∧ r.postDelay ≤ 1024 ∧ r.postDelay % 8 = 0
    ∧ 1 ≤ r.noticeThreshold ∧ r.noticeThreshold ≤ 16
    ∧ 16 ≤ r.noticeDelay ∧ r.noticeDelay ≤ 4096 ∧ r.noticeDelay % 16 = 0
    ∧ 1 ≤ r.voteWindow ∧ r.voteWindow ≤ 255 ∧ r.restDelay ≤ 255

/-! ## Notices, claims and shares, as the rules change them -/

/-- What pushes to an ATTACHED port's queue leave, in the order pushed (R171): a record is appended, with the threshold
renewed and the delay timer restarted, while fewer than 16 wait; else it is discarded and the overflow flag is set. -/
def NoticeQueue.pushAll (nq : NoticeQueue) (r : Settings) : List Notice → NoticeQueue
  | [] => nq
  | n :: ns =>
    (if nq.records.length < 16 then
        { nq with records := nq.records ++ [n], threshold := r.noticeThreshold, timer := some r.noticeDelay }
      else { nq with overflow := true }).pushAll r ns

/-- Port `q`'s Notice Queue after these notices were pushed to it: no change unless it is ATTACHED. -/
def Told (s t : State) (q : Port) (ns : List Notice) : Prop :=
  (t.port q).notices = if s.isAttached q then (s.port q).notices.pushAll s.settings ns else (s.port q).notices

/-- Handle `k` of port `q` is a current handle of entry `i`: VALID, naming the entry, which is OPEN or ORPHANED, with the
entry's generation (R32). -/
def State.currentOn (s : State) (q : Port) (i : ShareIdx) (k : HandleNo) : Bool :=
  (s.handle q k).any fun v => v.share == i && (s.share i).live && v.generation == (s.share i).generation

/-- The lowest-numbered current handle of port `q` on entry `i`, alone, or nothing when it has none (R17, R19). -/
def State.lowestOn (s : State) (q : Port) (i : ShareIdx) : List HandleNo :=
  allHandles.filter fun k => s.currentOn q i k && allHandles.all fun j => !decide (j < k) || !s.currentOn q i j

/-- The claim record after a handover (R132): the waiter at the head holds through its recorded handle with a new lease;
with no waiter there is no record. -/
def Claim.handedOver (c : Claim) (lease : Timer) : Option Claim :=
  match c.waiters with
  | [] => none
  | w :: ws => some { holder := w.port, handle := w.handle, lease := lease, waiters := ws }

/-- The notices a handover pushes to port `q` (R133). -/
def Claim.grantedTo (c : Claim) (i : ShareIdx) (generation : Nat) (q : Port) : List Notice :=
  match c.waiters with
  | [] => []
  | w :: _ => if w.port = q then [shareNotice .claimGranted (some c.holder) w.handle i generation] else []

/-- The notices that the end of a claim record by port `p` pushes to port `q` (R136). -/
def Share.endedTo (sh : Share) (p : Port) (i : ShareIdx) (cause : Nat) (q : Port) : List Notice :=
  match sh.claim with
  | none => []
  | some c => (c.places.filter fun x => x.1 == q && x.1 != p).map fun x => shareNotice .claimEnded (some p) x.2 i cause

/-- The share entry after entry into CLOSING, with the retirement that follows at once when no operation is in flight
(R10, R11). -/
def Share.closed (sh : Share) : Share :=
  if sh.inUse = 0 then
    { sh with state := .free, name := none, handleCount := 0, generation := nextGeneration sh.generation,
              frameMap := Vector.replicate 32 none, claim := none, creator := none, scope := none, size := none }
  else { sh with state := .closing, name := none, handleCount := 0 }

/-- The handle entry after a step of entry `i`'s generation to `g`: EMPTY when it names the entry and records `g`, else as
before (R2). -/
def Stepped (i : ShareIdx) (g : Nat) (before after : Option Handle) : Prop :=
  after = if before.any (fun v => v.records i g) then none else before

/-- The data stage after a step of entry `i`'s generation to `g`: the copy of a READ on the entry that equals `g` becomes
0, all else stays (R2). -/
def StageStepped (i : ShareIdx) (g : Nat) (before after : DataStage) : Prop :=
  after.abandon = before.abandon ∧
  match before.stage, after.stage with
  | .empty, x => x = .empty
  | .waiting op, x =>
    x = .waiting (if op.kind.isRead && op.share == i && op.generation == g then { op with generation := 0 } else op)
  | .bursting op f bs, x =>
    x = .bursting (if op.kind.isRead && op.share == i && op.generation == g then { op with generation := 0 } else op) f bs

/-- The length of the burst piece an operation has reached: the bytes of its span in one 64-byte block (R84). -/
def Operation.piece (op : Operation) : Nat := min (op.start + op.length - op.pos) (64 - op.pos % 64)

/-- What the completed burst of an operation puts into the store: a WRITE or post its bytes of the piece, a CAS its new word
when the word read is the expected one, a READ nothing (R89, R91, R87). -/
def Operation.stores (op : Operation) (read : List Byte) : List Byte :=
  match op.kind with
  | .read _ => []
  | .write data => (data.drop (op.pos - op.start)).take op.piece
  | .post data => (data.drop (op.pos - op.start)).take op.piece
  | .cas expected new => if read = expected then new.take op.piece else []

/-- The burst of `op` on frame `f` has stored its bytes at the store address of its piece, and every other byte of the
store reads as before (R84, R89). -/
def BurstStored (s t : State) (op : Operation) (f : FrameNo) (read : List Byte) : Prop :=
  ∀ x : Nat, t.mem.read x
    = if f.val * 1024 + op.pos % 1024 ≤ x ∧ x < f.val * 1024 + op.pos % 1024 + (op.stores read).length then
        (op.stores read).getD (x - (f.val * 1024 + op.pos % 1024)) 0
      else s.mem.read x

/-- The response an operation that carried out every piece gives: its request's kind and the answer (R86, R91). -/
def Operation.finalAnswer (op : Operation) (read : List Byte) : Option (Byte × Reply) :=
  match op.kind with
  | .read delivered => some (0x30, Reply.ok (.data (delivered ++ read)))
  | .write _ => some (0x31, Reply.ok .empty)
  | .cas expected _ => some (0x34, Reply.ok (.cas read (read == expected)))
  | .post _ => none

/-- Port `p`'s operation on entry `i` has ended (R86): the in-use count has fallen, and a CLOSING entry whose count
reached 0 has retired (R11), with its frames returned and the generation stepped; the data stage is EMPTY, the answer, if
any, stands in the entry reserved for it, and nothing else of any port has changed. -/
def OperationEnded (s t : State) (p : Port) (i : ShareIdx) (answer : Option (Byte × Reply)) : Prop :=
  let left := { s.share i with inUse := (s.share i).inUse - 1 }
  let retires := left.state = .closing ∧ left.inUse = 0
  let g := nextGeneration left.generation
  (retires → t.share i = { left.closed with name := left.name, handleCount := left.handleCount }
      ∧ t.pool = s.pool.giveBack left.bySlot
      ∧ (∀ (q : Port) (k : HandleNo), Stepped i g (s.handle q k) (t.handle q k))
      ∧ ∀ q : Port, q ≠ p → StageStepped i g (s.port q).stage (t.port q).stage)
    ∧ (¬retires → t.share i = left ∧ t.pool = s.pool ∧ (∀ q : Port, (t.port q).handles = (s.port q).handles)
      ∧ ∀ q : Port, q ≠ p → (t.port q).stage = (s.port q).stage)
    ∧ (t.port p).stage = { stage := .empty, abandon := false }
    ∧ (t.port p).link = { (s.port p).link with
        responses := match answer with
          | some (kind, r) => completeReserved kind r (s.port p).link.responses
          | none => (s.port p).link.responses }
    ∧ (∀ q : Port, (t.port q).attach = (s.port q).attach ∧ (t.port q).posts = (s.port q).posts
      ∧ (t.port q).notices = (s.port q).notices ∧ (q ≠ p → (t.port q).link = (s.port q).link))
    ∧ OtherSharesSame s t i

/-! ## Port cleanup -/

/-- The claim record once port `p` has left its waiters (R139). -/
def Claim.without (c : Claim) (p : Port) : Claim := { c with waiters := c.waiters.filter fun w => w.port != p }

/-- What the cleanup of port `p` makes of a claim record (R139): `p` leaves the waiters, and a claim it held is handed
over. -/
def Claim.leftBy (c : Claim) (p : Port) (lease : Timer) : Option Claim :=
  if c.holder = p then (c.without p).handedOver lease else some (c.without p)

/-- The end of an operation on the entry: the in-use count falls, and a CLOSING entry whose count reaches 0 retires (R86,
R11). -/
def Share.released (sh : Share) : Share :=
  let left := { sh with inUse := sh.inUse - 1 }
  if left.state = .closing ∧ left.inUse = 0 then { left.closed with name := left.name, handleCount := left.handleCount }
  else left

/-- Port `p` has a current handle of entry `i` that holds ADMIN, numbered `h` or less. -/
def State.adminUpTo (s : State) (p : Port) (i : ShareIdx) (h : HandleNo) : Bool :=
  allHandles.any fun k => decide (k ≤ h) && s.currentOn p i k && (s.handle p k).any fun v => v.rights.admin

/-- Share entry `i` after the Claim Unit's and the Handle Tables' parts of the cleanup of port `p` (R139, R43, R25): its claim
is as `p` leaves it, its count is lowered by each current handle of `p`, an OPEN entry that lost its ADMIN handle is
ORPHANED (R8), and an ORPHANED entry that lost a handle and has none left closes (R9), retiring with no operation in flight
(R11). -/
def State.leftByTable (s : State) (p : Port) (i : ShareIdx) : Share :=
  let sh := s.share i
  let lost := allHandles.countP (s.currentOn p i)
  let left := { sh with
    claim := sh.claim.bind fun c => c.leftBy p (some (s.settings.leaseDuration * 1000))
    handleCount := sh.handleCount - lost
    state := if sh.state == .opened && s.adminUpTo p i 31 then .orphaned else sh.state }
  if 0 < lost ∧ left.state = .orphaned ∧ left.handleCount = 0 then left.closed else left

/-- Share entry `i` after the cleanup of port `p`, up to the Agreement Unit's part: a WAITING READ of `p` on it is abandoned
too (R108). -/
def State.leftByCleanup (s : State) (p : Port) (i : ShareIdx) : Share :=
  match (s.port p).stage.stage with
  | .waiting op => if op.kind.isRead = true ∧ op.share = i then (s.leftByTable p i).released else s.leftByTable p i
  | .empty | .bursting _ _ _ => s.leftByTable p i

/-- The emptying of handle `h` of port `p`, in ascending order, leaves the ORPHANED entry `i` without a current handle (R9):
as many handles of `p` as the count were current on it up to `h`, and the entry was ORPHANED or lost its ADMIN handle. -/
def State.closesAt (s : State) (p : Port) (i : ShareIdx) (h : HandleNo) : Bool :=
  s.currentOn p i h && ((s.share i).state == .orphaned || s.adminUpTo p i h)
    && decide ((s.share i).handleCount ≤ allHandles.countP fun k => decide (k ≤ h) && s.currentOn p i k)

/-- The entries that retire in the cleanup of port `p`, in order: those closed with no operation in flight, in the order of
the handles whose emptying closes them (R25, R11), then the CLOSING entry of an abandoned READ (R108, R86). -/
def State.retiring (s : State) (p : Port) : List ShareIdx :=
  (allHandles.filterMap fun h => (s.handle p h).bind fun v =>
      if s.closesAt p v.share h && (allHandles.all fun k => !decide (k < h) || !s.closesAt p v.share k)
          && (s.share v.share).inUse == 0 then some v.share else none)
    ++ match (s.port p).stage.stage with
      | .waiting op =>
        if op.kind.isRead = true ∧ (s.leftByTable p op.share).state = .closing ∧ (s.share op.share).inUse - 1 = 0 then
          [op.share] else []
      | .empty | .bursting _ _ _ => []

/-- The pool after these entries of `s` retired one after another (R57). -/
def Pool.takeBack (q : Pool) (s : State) (gone : List ShareIdx) : Pool :=
  gone.foldl (fun pool i => pool.giveBack (s.share i).bySlot) q

/-- Port `q`'s table after the retirement of these entries: a handle is emptied when it names one of them and records the
generation that its retirement stepped to, and every other handle stays (R2). -/
def HandlesStepped (s t : State) (gone : List ShareIdx) (q : Port) : Prop :=
  ∀ k : HandleNo, t.handle q k
    = if (s.handle q k).any fun v => gone.contains v.share && v.generation == nextGeneration (s.share v.share).generation then
        none
      else s.handle q k

/-- An operation after the retirement of these entries: the copy of a READ on one of them that equals the generation stepped
to is 0, and all else stays (R2). -/
def Operation.steppedBy (op : Operation) (s : State) (gone : List ShareIdx) : Operation :=
  if op.kind.isRead && gone.contains op.share && op.generation == nextGeneration (s.share op.share).generation then
    { op with generation := 0 }
  else op

/-- What a data stage holds after the retirement of these entries. -/
def Stage.steppedBy (st : Stage) (s : State) (gone : List ShareIdx) : Stage :=
  match st with
  | .empty => .empty
  | .waiting op => .waiting (op.steppedBy s gone)
  | .bursting op f bs => .bursting (op.steppedBy s gone) f bs

/-- Of a port other than the one cleaned up: its link, attachment and posts stay, and its data stage and its handles but for
what the retirement of these entries reaches (R43, R2). -/
def OtherPortKept (s t : State) (gone : List ShareIdx) (q : Port) : Prop :=
  (t.port q).link = (s.port q).link ∧ (t.port q).attach = (s.port q).attach ∧ (t.port q).posts = (s.port q).posts
    ∧ (t.port q).stage = { (s.port q).stage with stage := (s.port q).stage.stage.steppedBy s gone }
    ∧ HandlesStepped s t gone q

/-- The CLAIM_GRANTED notices that the cleanup of port `p` pushes to port `q`, in ascending share index order (R139). -/
def State.handedTo (s : State) (p q : Port) : List Notice :=
  allShares.flatMap fun i => match (s.share i).claim with
    | none => []
    | some c => if c.holder = p then (c.without p).grantedTo i (s.share i).generation q else []

/-- The PROPOSAL_DECIDED notices that a HELLO of port `p` pushes to port `q` (R161, R162): 4, WITHDRAWN, when `p` is the
proposer, 5, VOTER_RESTARTED, when it is a voter, to the proposer and the voters. -/
def State.decidedAtHello (s : State) (p q : Port) : List Notice :=
  match s.proposal with
  | none => []
  | some pr =>
    if (pr.proposer = p ∨ pr.voters[p] = true) ∧ (q = pr.proposer ∨ pr.voters[q] = true) then
      [proposalNotice .proposalDecided pr.proposer pr.id (if pr.proposer = p then 4 else 5)]
    else []

/-- `n` is the emptied-handle count after a cleanup of port `p` (R43, R147): the VALID handles of its table are counted to
what stood, but for those that a retirement in the same cleanup empties first (log 26). -/
def EmptiedCount (s : State) (p : Port) (n : Nat) : Prop :=
  let full := (s.port p).attach.emptied + allHandles.countP fun h => (s.handle p h).isSome
  n ≤ full
    ∧ ((∀ (k : HandleNo) (v : Handle), s.handle p k = some v →
        v.generation ≠ nextGeneration (s.share v.share).generation) → n = full)

/-- A data stage with nothing for a HELLO's cleanup to wait for (R108): EMPTY, or a WAITING READ. -/
def Stage.endsAtHello : Stage → Bool
  | .empty => true
  | .waiting op => op.kind.isRead
  | .bursting _ _ _ => false

/-- The notices that a HELLO of port `p` pushes to port `q` in its own event, in order: the handovers, the end of a
proposal, and the peer notice when nothing is left to wait for (R139, R161, R148, R153). -/
def State.toldAtHello (s : State) (p q : Port) (n : Nat) : List Notice :=
  s.handedTo p q ++ s.decidedAtHello p q ++
    (if (s.port p).stage.stage.endsAtHello then
      [peerNotice (if (s.port p).attach.state = .detached then .peerAttached else .peerRestarted) p n] else [])

/-- What a HELLO taken on port `p`, which is not CLEANING, does up to the close of its event, `stay` being the frames that
stay in the Request Queue and `n` the emptied-handle count (R145, R147, R148, R108, R109, R139, R161). -/
def HelloEffects (s t : State) (p : Port) (tag : Byte) (stay : List Frame) (n : Nat) : Prop :=
  let gone := s.retiring p
  let ends := (s.port p).stage.stage.endsAtHello
  t.port p = {
      link := { (s.port p).link with
        requests := stay
        responses := if ends then
            [.completed { kind := 0x01, tag := tag, reply := Reply.ok (.hello t.pool.clean.length) }]
          else [.reserved 0x01 tag] }
      attach := if ends then
          { state := .attached, pendingHello := none, announcement := .none, emptied := 0, helloTag := tag }
        else
          { state := .cleaning, pendingHello := none, emptied := n, helloTag := tag
            announcement := if (s.port p).attach.state = .detached then .attached else .restarted }
      handles := Vector.replicate 32 none
      stage := match (s.port p).stage.stage with
        | .empty => (s.port p).stage
        | .waiting op => if op.kind.isRead then { stage := .empty, abandon := false } else (s.port p).stage
        | .bursting op f bs =>
          if op.kind.isRead then { stage := .bursting (op.steppedBy s gone) f bs, abandon := true } else (s.port p).stage
      posts := { (s.port p).posts with
        posts := [], mode := .holding, timer := none, faults := 0
        ordinal := if ends then 0 else (s.port p).posts.ordinal }
      notices := { (s.port p).notices with records := [], overflow := false, timer := none, aged := false }
      attention := (t.port p).attention }
    ∧ (∀ q : Port, q ≠ p → Told s t q (s.toldAtHello p q n) ∧ OtherPortKept s t gone q)
    ∧ (∀ i : ShareIdx, t.share i = s.leftByCleanup p i)
    ∧ t.pool = s.pool.takeBack s gone
    ∧ t.proposal = (if s.proposal.any fun pr => pr.proposer == p || pr.voters[p] then none else s.proposal)
    ∧ t = { s with ports := t.ports, shares := t.shares, pool := t.pool, proposal := t.proposal
                   restCountdown := t.restCountdown }

/-- A HELLO is taken on port `p`, which is not CLEANING. -/
def HelloTaken (s t : State) (p : Port) (tag : Byte) (stay : List Frame) : Prop :=
  ∃ n : Nat, EmptiedCount s p n ∧ HelloEffects s t p tag stay n

/-- A HELLO is taken on port `p` while it is CLEANING and its operation goes on: the queue flush alone is repeated (R149). -/
def HelloRepeated (s t : State) (p : Port) (tag : Byte) (stay : List Frame) : Prop :=
  t.port p = { s.port p with
      link := { (s.port p).link with requests := stay, responses := [.reserved 0x01 tag] }
      attach := { (s.port p).attach with pendingHello := none, announcement := .restarted, helloTag := tag }
      notices := { (s.port p).notices with records := [], overflow := false, timer := none, aged := false }
      attention := (t.port p).attention }
    ∧ OtherPortsSame s t [p] ∧ OnlyPorts s t

/-- A DETACH of port `p` completes the set of a CLEAR_ALL proposal, which is adopted (R161). -/
def State.detachClears (s : State) (p : Port) : Bool :=
  s.proposal.any fun pr => pr.action == .clearAll && pr.proposer != p && pr.voters[p]
    && (allPorts.all (fun q => q == p || !pr.voters[q]) || allPorts.all fun q => q == p || pr.accepted[q] == pr.voters[q])

end Sys2Proof.Machine
end

