-- ==== Sys2Proof/Certificates/Slice0/Obligations.lean ====
section
/-! DEFINITION. The statements for the provers. The words used here (`Takes`, `OnlyAnswers`, `Told`, `Resolves`, the check
lists) are defined in Safety.lean. A statement about a request takes its premise `Takes` from R102: the request stands at
the head of its port's queue and can be taken; that no earlier response is still to come is what `ResponsesInOrder`, an
invariant stated below, gives in that case. Every frame lets the attention lines and the rest countdown follow the new
state (R176, R188; `AttentionDriven` and `CountdownDriven` say how). -/

open Sys2Proof Sys2Proof.Machine

/-! ## Steps -/

/-- A step runs the command at the front of the queue on the state with the queue's rest; on an empty queue it idles
(log 2, the model's choice). -/
def Obligations.StepRunsFrontCommand : Prop :=
  (∀ (s : State) (c : Instr) (rest : List Instr), s.pending = c :: rest → step s = exec c { s with pending := rest })
    ∧ ∀ s : State, s.pending = [] → step s = .next s

/-- Every command answers a next state with the queue it found, but for GRANT_DECISION's one fault (log 16), and a command
whose event cannot take place changes nothing (log 1). Both are the model's choices. -/
def Obligations.CommandsAnswerAndKeepTheQueue : Prop :=
  (∀ (c : Instr) (s : State),
      (∃ t, exec c s = .next t ∧ t.pending = s.pending) ∨ (c = .grantDecision ∧ exec c s = .fault .unbackedBurst))
    ∧ ∀ (c : Instr) (s : State), enabled c s = false → exec c s = .next s

/-- The state at reset is the power-on state each chapter gives its blocks (R192). The store's bytes and the HELLO tag are
the model's choices (logs 5, 8) and are not part of the statement. -/
def Obligations.ResetIsThePowerOnState : Prop :=
  let s := State.reset
  (∀ i : ShareIdx, (s.share i).state = .free ∧ (s.share i).generation = 1 ∧ (s.share i).creator = none
      ∧ (s.share i).scope = none ∧ (s.share i).name = none ∧ (s.share i).commonRights.isEmpty = true
      ∧ (s.share i).size = none ∧ (∀ k : SlotNo, (s.share i).frameMap[k] = none) ∧ (s.share i).handleCount = 0
      ∧ (s.share i).inUse = 0 ∧ (s.share i).claim = none)
    ∧ (∀ (p : Port) (h : HandleNo), s.handle p h = none)
    ∧ s.pool.clean = [] ∧ s.pool.dirty = (List.finRange 256).drop 1
    ∧ s.pool.scrub = some { frame := 0, progress := 0 }
    ∧ (∀ p : Port, (s.port p).stage = { stage := .empty, abandon := false }
        ∧ (s.port p).posts = { posts := [], mode := .holding, timer := none, ordinal := 0, faults := 0 }
        ∧ (s.port p).attach.state = .detached ∧ (s.port p).attach.pendingHello = none
        ∧ (s.port p).attach.announcement = .none ∧ (s.port p).attach.emptied = 0
        ∧ (s.port p).notices = { records := [], overflow := false, timer := none, aged := false, threshold := 4 }
        ∧ (s.port p).attention = false ∧ (s.port p).link.transaction = none ∧ (s.port p).link.requests = []
        ∧ (s.port p).link.responses = [] ∧ (s.port p).link.refused = false ∧ (s.port p).link.frameError = false)
    ∧ (∀ k : Fin 16, s.arbiter.table[k] = .port ⟨k.val % 4, Nat.mod_lt _ (by decide)⟩)
    ∧ s.arbiter.pointer = 0 ∧ s.arbiter.path = .free
    ∧ s.settings.phaseTable = s.arbiter.table ∧ s.settings.leaseDuration = 100 ∧ s.settings.postThreshold = 4
    ∧ s.settings.postDelay = 128 ∧ s.settings.noticeThreshold = 4 ∧ s.settings.noticeDelay = 256
    ∧ s.settings.voteWindow = 50 ∧ s.settings.restDelay = 0 ∧ s.settings.warmUp = .short
    ∧ (∀ p : Port, s.settings.isolation[p] = false)
    ∧ s.proposal = none ∧ s.proposalCounter = 0 ∧ s.power = .run ∧ s.restCountdown = none ∧ s.warmUpTimer = none
    ∧ s.resetLow = false

/-! ## Links -/

/-- SELECT_FALLING_EDGE opens a transaction and captures the status byte, bit by bit as R179 lists it; in RESTING it wakes
the broker, and in no other state does it touch the power state or the warm-up timer (R190). -/
def Obligations.SelectFallCapturesStatusAndWakes : Prop :=
  ∀ (s : State) (p : Port), s.resetLow = false → (s.port p).link.transaction = none →
    ∃ (t : State) (status : Byte), exec (.selectFallingEdge p) s = .next t
      ∧ status.getLsbD 7 = ((s.port p).attach.state == .attached)
      ∧ (status.getLsbD 6 = true ↔ ∃ r, Entry.completed r ∈ (s.port p).link.responses)
      ∧ status.getLsbD 5 = !(s.port p).notices.records.isEmpty
      ∧ status.getLsbD 4 = (s.port p).notices.overflow
      ∧ status.getLsbD 3 = decide (4 ≤ (s.port p).link.requests.length)
      ∧ status.getLsbD 2 = (s.port p).link.refused
      ∧ status.getLsbD 1 = (s.port p).link.frameError
      ∧ status.getLsbD 0 = (s.power != .run)
      ∧ t.port p = { s.port p with
          link := { (s.port p).link with
            transaction := some { status := status, phase := .firstByte }, dataOut := (t.port p).link.dataOut }
          attention := (t.port p).attention }
      ∧ OtherPortsSame s t [p]
      ∧ t.power = (if s.power = .resting then .warming else s.power)
      ∧ t.warmUpTimer = (if s.power = .resting then some (if s.settings.warmUp = .short then 250 else 1000)
          else s.warmUpTimer)
      ∧ t = { s with ports := t.ports, power := t.power, warmUpTimer := t.warmUpTimer, restCountdown := none }

/-- FIRST_BYTE_END: at the eighth clock the status byte has been shifted out, each sticky flag it showed set is cleared,
and the first byte fixes what the transaction is (R178, R179); a FETCH chooses the oldest response when it is COMPLETED
(R184). -/
def Obligations.FirstByteClearsShownFlagsAndFixesTheKind : Prop :=
  ∀ (s : State) (p : Port) (first status : Byte), s.resetLow = false →
    (s.port p).link.transaction = some { status := status, phase := .firstByte } →
    ∃ (t : State) (phase : Phase), exec (.firstByteEnd p first) s = .next t
      ∧ (first = 0x00 → phase = .poll)
      ∧ (first = 0xF5 → ∀ r es, (s.port p).link.responses = .completed r :: es → phase = .fetch (some r))
      ∧ (first = 0xF5 → (∀ r es, (s.port p).link.responses ≠ .completed r :: es) → phase = .fetch none)
      ∧ (first ≠ 0x00 → first ≠ 0xF5 → phase = .request first)
      ∧ t.port p = { s.port p with
          link := { (s.port p).link with
            transaction := some { status := status, phase := phase }
            refused := (s.port p).link.refused && !status.getLsbD 2
            frameError := (s.port p).link.frameError && !status.getLsbD 1
            dataOut := [status] }
          attention := (t.port p).attention }
      ∧ OtherPortsSame s t [p] ∧ OnlyPorts s t

/-- A transaction of any kind whose first byte is not complete is ignored, whichever of the four rises of select closes it
(R178, log 11). POLL has no effect apart from its status byte; zeros follow that byte (R178). FETCH: the response chosen at
its first byte was shifted out from its first byte, over and over; it is removed exactly when all its bytes have been
shifted out. With no response chosen, zeros were shifted and nothing is removed (R184). -/
def Obligations.PollHasNoEffectAndFetchRemovesItsResponse : Prop :=
  (∀ (s : State) (p : Port) (clocks bits : Nat) (status tag : Byte) (bytes : List Byte) (c : Instr), s.resetLow = false →
      (s.port p).link.transaction = some { status := status, phase := .firstByte } →
      c ∈ [Instr.poll p clocks, .fetch p clocks, .requestFrame p bytes bits, .hello p tag] →
      ∃ t, exec c s = .next t
        ∧ t.port p = { s.port p with
            link := { (s.port p).link with transaction := none, dataOut := [] }
            attention := (t.port p).attention }
        ∧ OtherPortsSame s t [p] ∧ OnlyPorts s t)
    ∧ (∀ (s : State) (p : Port) (clocks : Nat) (status : Byte), s.resetLow = false →
      (s.port p).link.transaction = some { status := status, phase := .poll } →
      ∃ t, exec (.poll p clocks) s = .next t
        ∧ t.port p = { s.port p with
            link := { (s.port p).link with
              transaction := none, dataOut := status :: List.replicate (clocks / 8) 0 }
            attention := (t.port p).attention }
        ∧ OtherPortsSame s t [p] ∧ OnlyPorts s t)
    ∧ ∀ (s : State) (p : Port) (clocks : Nat) (status : Byte) (chosen : Option Response), s.resetLow = false →
      (s.port p).link.transaction = some { status := status, phase := .fetch chosen } →
      ∃ t, exec (.fetch p clocks) s = .next t
        ∧ t.port p = { s.port p with
            link := { (s.port p).link with
              transaction := none
              responses := (t.port p).link.responses, dataOut := (t.port p).link.dataOut }
            attention := (t.port p).attention }
        ∧ (chosen = none → (t.port p).link.responses = (s.port p).link.responses
            ∧ (t.port p).link.dataOut = status :: List.replicate (clocks / 8) 0)
        ∧ (∀ r, chosen = some r →
            (t.port p).link.responses
                = (if 8 * r.bytes.length ≤ clocks ∧ (s.port p).link.responses.head? = some (.completed r) then
                    (s.port p).link.responses.drop 1 else (s.port p).link.responses)
            ∧ (t.port p).link.dataOut.length = clocks / 8 + 1 ∧ (t.port p).link.dataOut.getD 0 0 = status
            ∧ ∀ k, k < clocks / 8 → (t.port p).link.dataOut.getD (k + 1) 0 = r.bytes.getD (k % r.bytes.length) 0)
        ∧ OtherPortsSame s t [p] ∧ OnlyPorts s t

/-- A request frame is malformed (R181): a byte left incomplete, fewer than 4 bytes, a body length over 264 or other than
the bytes received, or a HELLO with a body. -/
def Obligations.MalformedFrameSetsFrameError : Prop :=
  ∀ (s : State) (p : Port) (kind status : Byte) (bytes : List Byte) (bits : Nat), s.resetLow = false →
    (s.port p).link.transaction = some { status := status, phase := .request kind } →
    (bits ≠ 0 ∨ bytes.length + 1 < 4 ∨ 264 < be16 (bytes.getD 1 0) (bytes.getD 2 0)
      ∨ bytes.length + 1 ≠ 4 + be16 (bytes.getD 1 0) (bytes.getD 2 0)
      ∨ (kind = 0x01 ∧ be16 (bytes.getD 1 0) (bytes.getD 2 0) ≠ 0)) →
    ∃ t, exec (.requestFrame p bytes bits) s = .next t
      ∧ t.port p = { s.port p with
          link := { (s.port p).link with
            transaction := none, frameError := true, dataOut := (t.port p).link.dataOut }
          attention := (t.port p).attention }
      ∧ OtherPortsSame s t [p] ∧ OnlyPorts s t

/-- REQUEST_FRAME with a frame that is not malformed and not a HELLO: refused when 4 frames are held, else admitted at the
tail (R180). A non-POST request admitted to an empty queue switches a HOLDING buffer with posts to DRAINING (R95). -/
def Obligations.FrameIsAdmittedOrRefused : Prop :=
  ∀ (s : State) (p : Port) (kind status tag l1 l0 : Byte) (body : List Byte), s.resetLow = false →
    (s.port p).link.transaction = some { status := status, phase := .request kind } →
    kind ≠ 0x01 → body.length = be16 l1 l0 → body.length ≤ 264 →
    ∃ t, exec (.requestFrame p (tag :: l1 :: l0 :: body) 0) s = .next t
      ∧ t.port p = { s.port p with
          link := { (s.port p).link with
            transaction := none
            refused := (s.port p).link.refused || decide (4 ≤ (s.port p).link.requests.length)
            requests := if 4 ≤ (s.port p).link.requests.length then (s.port p).link.requests
              else (s.port p).link.requests ++ [{ kind := kind, tag := tag, body := body }]
            dataOut := (t.port p).link.dataOut }
          posts := if (s.port p).link.requests = [] ∧ kind ≠ 0x32 ∧ (s.port p).posts.mode = .holding
              ∧ (s.port p).posts.posts ≠ []
            then { (s.port p).posts with mode := .draining, timer := none } else (s.port p).posts
          attention := (t.port p).attention }
      ∧ OtherPortsSame s t [p] ∧ OnlyPorts s t

/-- HELLO in RUN on a DETACHED port with nothing to clean up: the port is ATTACHED in the same event, its one response is
the HELLO's with the identity and the clean-list count, and every other ATTACHED port is told PEER_ATTACHED (R145, R148).
A REQUEST_FRAME that carries the frame of a HELLO does the same (R180). -/
def Obligations.FirstHelloAttachesThePort : Prop :=
  ∀ (s : State) (p : Port) (status tag : Byte), s.resetLow = false → s.power = .run →
    (s.port p).link.transaction = some { status := status, phase := .request 0x01 } →
    (s.port p).attach.state = .detached → (s.port p).attach.emptied = 0 →
    (s.port p).stage = { stage := .empty, abandon := false } →
    (∀ h : HandleNo, s.handle p h = none) → (∀ (i : ShareIdx) c, (s.share i).claim = some c → p ∉ c.places.map Prod.fst) →
    (∀ pr, s.proposal = some pr → pr.proposer ≠ p ∧ pr.voters[p] = false) →
    exec (.requestFrame p [tag, 0, 0] 0) s = exec (.hello p tag) s
      ∧ ∃ t, exec (.hello p tag) s = .next t
      ∧ t.port p = { s.port p with
          link := { (s.port p).link with
            transaction := none, requests := []
            responses := [.completed { kind := 0x01, tag := tag, reply := Reply.ok (.hello s.pool.clean.length) }]
            dataOut := (t.port p).link.dataOut }
          attach := { state := .attached, pendingHello := none, announcement := .none, emptied := 0, helloTag := tag }
          posts := { (s.port p).posts with posts := [], mode := .holding, timer := none, ordinal := 0, faults := 0 }
          notices := { (s.port p).notices with records := [], overflow := false, timer := none, aged := false }
          attention := true }
      ∧ (∀ q : Port, q ≠ p → Told s t q [peerNotice .peerAttached p 0]
          ∧ t.port q = { s.port q with notices := (t.port q).notices, attention := (t.port q).attention })
      ∧ OnlyPorts s t

/-- HELLO in RUN on a port that is not CLEANING (R145, R147, R108, R109): its queues, table, posts and claims are gone. With
a data stage that is EMPTY or holds a WAITING READ the port becomes ATTACHED in the same event with the HELLO's response;
with any other operation in it, it is CLEANING, with one entry reserved, and the operation stays. The claims it held are
handed over in ascending share index order, each new holder told CLAIM_GRANTED (R139); the end of a proposal is told (R161,
R162); and when the port becomes ATTACHED in the event every other ATTACHED port is told PEER_ATTACHED, or PEER_RESTARTED
when it was ATTACHED before, with the emptied-handle count (R148, R153; log 26). Every share entry loses the current handles
of the port from its count, is ORPHANED with its ADMIN handle, closes or retires without a handle, and is left by a WAITING
READ; an entry on which the port has no current handle, claim place or WAITING READ stays as it was (R25, R43, R8, R9,
R11, R86). Frames return in the order of the retirements. Nothing else of the other ports changes but a handle or a copy that
records the generation a retirement steps to (R43, R2). REQUEST_FRAME with the frame of a HELLO does the same (R180). -/
def Obligations.HelloCleansThePort : Prop :=
  ∀ (s : State) (p : Port) (status tag : Byte), s.resetLow = false → s.power = .run →
    (s.port p).link.transaction = some { status := status, phase := .request 0x01 } →
    (s.port p).attach.state ≠ .cleaning →
    exec (.requestFrame p [tag, 0, 0] 0) s = exec (.hello p tag) s
      ∧ ∃ t, exec (.hello p tag) s = .next t
      ∧ HelloTaken (s.modLink p fun l => { l with transaction := none, dataOut := [status, 0, 0, 0] }) t p tag []
      ∧ (∀ (i : ShareIdx) c, (t.share i).claim = some c → p ∉ c.places.map Prod.fst)
      ∧ ∀ pr, t.proposal = some pr → pr.proposer ≠ p ∧ pr.voters[p] = false

/-- HELLO while the broker is RESTING or WARMING is recorded as the pending HELLO, in place of an earlier one, with its tag
and its arrival point, and does nothing else (R146). HELLO in RUN on a port already CLEANING repeats the queue flush alone,
and the announcement becomes RESTARTED (R149). -/
def Obligations.HelloPendsOutsideRunAndRepeatsInCleaning : Prop :=
  ∀ (s : State) (p : Port) (status tag : Byte), s.resetLow = false →
    (s.port p).link.transaction = some { status := status, phase := .request 0x01 } →
    (s.power ≠ .run → ∃ t, exec (.hello p tag) s = .next t
      ∧ t.port p = { s.port p with
          link := { (s.port p).link with transaction := none, dataOut := (t.port p).link.dataOut }
          attach := { (s.port p).attach with
            pendingHello := some { tag := tag, arrival := (s.port p).link.requests.length } }
          attention := (t.port p).attention }
      ∧ OtherPortsSame s t [p] ∧ OnlyPorts s t)
    ∧ (s.power = .run → (s.port p).attach.state = .cleaning → (s.port p).stage.stage ≠ .empty →
      ∃ t, exec (.hello p tag) s = .next t
      ∧ t.port p = { s.port p with
          link := { (s.port p).link with
            transaction := none, requests := [], responses := [.reserved 0x01 tag]
            dataOut := (t.port p).link.dataOut }
          attach := { (s.port p).attach with pendingHello := none, announcement := .restarted, helloTag := tag }
          notices := { (s.port p).notices with records := [], overflow := false, timer := none, aged := false }
          attention := (t.port p).attention }
      ∧ OtherPortsSame s t [p] ∧ OnlyPorts s t)

/-! ## Frame and record layouts -/

/-- The bodies of requests read as section 11.6 lays them out, most significant byte first, with the codes of R186: CREATE
and ATTACH, GRANT, the fixed fields of READ, WRITE, POST and CAS, and PROPOSE; any other body has no reading. A set of
rights is within another when each of its rights is. -/
def Obligations.RequestBodiesReadAsLaidOut : Prop :=
  let rights (b : Byte) : Rights := ⟨b.getLsbD 0, b.getLsbD 1, b.getLsbD 2, b.getLsbD 3⟩
  (∀ sc n3 n2 n1 n0 sz bk rt : Byte, createFields [sc, n3, n2, n1, n0, sz, bk, rt] =
      if sc.toNat ≤ 1 ∧ bk.toNat ≤ 1 ∧ rt.toNat < 16 then
        some { scope := if sc = 0 then .privateScope else .common, name := n3 ++ n2 ++ n1 ++ n0, size := sz.toNat
               onDemand := bk == 1, rights := rights rt }
      else none)
    ∧ (∀ n3 n2 n1 n0 rt : Byte, attachFields [n3, n2, n1, n0, rt] =
      if rt.toNat < 16 then some (n3 ++ n2 ++ n1 ++ n0, rights rt) else none)
    ∧ (∀ h tg rt b1 b0 l1 l0 : Byte, grantFields [h, tg, rt, b1, b0, l1, l0] =
      if hp : tg.toNat < 4 then
        if rt.toNat < 16 then
          some { source := h, target := ⟨tg.toNat, hp⟩, rights := rights rt, base := b1.toNat * 256 + b0.toNat
                 length := l1.toNat * 256 + l0.toNat }
        else none
      else none)
    ∧ (∀ (h o1 o0 l1 l0 : Byte) (rest : List Byte), dataFields (h :: o1 :: o0 :: l1 :: l0 :: rest) =
      some { handle := h, offset := o1.toNat * 256 + o0.toNat, length := l1.toNat * 256 + l0.toNat, payload := rest })
    ∧ (∀ record : List Byte, record.length = 28 → proposeFields (0 :: record) = some (.settings record))
    ∧ proposeFields [1] = some .clearAll
    ∧ (∀ body : List Byte, (body.length ≠ 8 → createFields body = none) ∧ (body.length ≠ 5 → attachFields body = none)
      ∧ (body.length ≠ 7 → grantFields body = none) ∧ (body.length < 5 → dataFields body = none)
      ∧ (body ≠ [1] → (body.length ≠ 29 ∨ body.head? ≠ some 0) → proposeFields body = none))
    ∧ ∀ a b : Rights,
      (a.isEmpty = true ↔ a = ⟨false, false, false, false⟩)
      ∧ (a.subset b = true ↔ (a.read = true → b.read = true) ∧ (a.write = true → b.write = true)
        ∧ (a.grant = true → b.grant = true) ∧ (a.admin = true → b.admin = true))

/-- The 28 bytes of a settings record: a PROPOSE carries the record whose fields stand at the offsets of section 11.6 with the
codes of R186, when each code has a meaning and each field lies in its range of R155, and no other. The bytes of a record in
range read back as that record. -/
def Obligations.SettingsRecordReadsAsLaidOut : Prop :=
  (∀ (bytes : List Byte) (r : Settings), bytes.length = 28 →
      let v (k : Nat) : Nat := (bytes.getD k 0).toNat
      (proposedSettings bytes = some r ↔
        (∀ k : Fin 16, (∃ p : Port, v k.val = p.val ∧ r.phaseTable[k] = .port p) ∨ v k.val = 4 ∧ r.phaseTable[k] = .scrub)
        ∧ r.leaseDuration = v 16 * 256 + v 17 ∧ r.postThreshold = v 18 ∧ r.postDelay = v 19 * 256 + v 20
        ∧ r.noticeThreshold = v 21 ∧ r.noticeDelay = v 22 * 256 + v 23 ∧ r.voteWindow = v 24 ∧ r.restDelay = v 25
        ∧ (v 26 = 0 ∧ r.warmUp = .short ∨ v 26 = 1 ∧ r.warmUp = .long)
        ∧ v 27 < 16 ∧ (∀ p : Port, r.isolation[p] = (bytes.getD 27 0).getLsbD p.val)
        ∧ SettingsInRange r))
    ∧ (∀ r : Settings, r.legal = true ↔ SettingsInRange r)
    ∧ ∀ r : Settings, SettingsInRange r → r.bytes.length = 28 ∧ proposedSettings r.bytes = some r

/-- The bytes of response frames, response bodies and notice records as section 11.6 lays them out. A response is its header
of six bytes and its body; an absent port, handle or share is 0xFF; the codes are the tables'. That the body of SETTINGS has no
outcome, though R162 names it, is the model's choice (log 28). -/
def Obligations.ResponsesAreLaidOut : Prop :=
  let b (n : Nat) : Byte := BitVec.ofNat 8 n
  (∀ r : Response, r.bytes = [r.kind, r.tag, r.reply.result.code, r.reply.ending.code, b (r.reply.body.bytes.length / 256),
      b r.reply.body.bytes.length] ++ r.reply.body.bytes)
    ∧ [Ending.done, .refused, .cut].map Ending.code = [0, 1, 2]
    ∧ [Result.ok, .queued, .alreadyHeld, .alreadyWaiting, .unknownRequest, .badFrame, .notAttached, .handleRange,
        .handleEmpty, .shareGone, .stale, .rights, .align, .window, .claimed, .poolEmpty, .poolBusy, .isolated,
        .shareTableFull, .handleTableFull, .nameTaken, .noSuchName, .selfGrant, .targetDetached, .targetFull, .claimBusy,
        .notHolder, .proposalPending, .badSettings, .noProposal, .notVoter, .alreadyVoted].map Result.code
      = [0x00, 0x01, 0x02, 0x03, 0x10, 0x11, 0x12, 0x20, 0x21, 0x22, 0x23, 0x24, 0x25, 0x26, 0x27, 0x28, 0x29, 0x30, 0x31,
        0x32, 0x33, 0x34, 0x35, 0x36, 0x37, 0x40, 0x41, 0x50, 0x51, 0x52, 0x53, 0x54]
    ∧ [NoticeKind.grantReceived, .revoked, .shareClosed, .claimGranted, .claimEnded, .leaseLost, .postFault,
        .proposalOpened, .proposalDecided, .peerAttached, .peerRestarted, .peerDetached].map NoticeKind.code
      = [0x01, 0x02, 0x03, 0x10, 0x11, 0x12, 0x20, 0x30, 0x31, 0x40, 0x41, 0x42]
    ∧ [ProposalOutcome.pending, .adopted, .rejected, .lapsed, .withdrawn, .voterRestarted].map ProposalOutcome.code
      = [0, 1, 2, 3, 4, 5]
    ∧ ResponseBody.empty.bytes = []
    ∧ (∀ clean, (ResponseBody.hello clean).bytes = [0x2D, 1, 0, 64, 32, b (clean / 256), b clean])
    ∧ (∀ (i : ShareIdx) (h : HandleNo) (g : Nat),
        (ResponseBody.created i h g).bytes = [b i.val, b h.val, b (g / 256), b g]
        ∧ (ResponseBody.attached h i g).bytes = [b h.val, b i.val, b (g / 256), b g]
        ∧ (ResponseBody.revoked g).bytes = [b (g / 256), b g] ∧ (ResponseBody.granted h).bytes = [b h.val])
    ∧ (∀ (i : ShareIdx) (size backed count waiters : Nat) (holder creator : Port),
        (ResponseBody.info ⟨i, .opened, some .privateScope, size, backed, count, some holder, waiters, some creator⟩).bytes
          = [b i.val, 1, 0, b size, b backed, b count, b holder.val, b waiters, b creator.val]
        ∧ (ResponseBody.info ⟨i, .orphaned, some .common, size, backed, count, none, waiters, some creator⟩).bytes
          = [b i.val, 2, 1, b size, b backed, b count, 0xFF, b waiters, b creator.val])
    ∧ (∀ rs : List ListRecord, (ResponseBody.listed rs).bytes = b rs.length :: rs.flatMap ListRecord.bytes)
    ∧ (∀ (h : HandleNo) (i : ShareIdx) (g base length : Nat) (r : Rights) (q : Port),
        let front := [b h.val, b i.val, b (g / 256), b g,
          b (r.read.toNat + 2 * r.write.toNat + 4 * r.grant.toNat + 8 * r.admin.toNat),
          b (base / 256), b base, b (length / 256), b length]
        (ListRecord.mk h ⟨i, g, r, base, length, .created⟩ true).bytes = front ++ [0, 0xFF, 1]
        ∧ (ListRecord.mk h ⟨i, g, r, base, length, .attached⟩ false).bytes = front ++ [1, 0xFF, 0]
        ∧ (ListRecord.mk h ⟨i, g, r, base, length, .granted q⟩ true).bytes = front ++ [2, b q.val, 1])
    ∧ (∀ bs : List Byte, (ResponseBody.data bs).bytes = bs
        ∧ (ResponseBody.cas bs false).bytes = bs ++ [0] ∧ (ResponseBody.cas bs true).bytes = bs ++ [1])
    ∧ (∀ n, (ResponseBody.flushed n).bytes = [b (n / 256), b n])
    ∧ (ResponseBody.claim none none).bytes = [0xFF, 0xFF]
    ∧ (∀ (holder : Port) (place : Nat), (ResponseBody.claim (some holder) (some place)).bytes = [b holder.val, b place]
        ∧ (ResponseBody.claim (some holder) none).bytes = [b holder.val, 0xFF])
    ∧ (∀ (ns : List Notice) (left : Nat), (ResponseBody.notices ns left false).bytes
          = [b ns.length] ++ ns.flatMap Notice.bytes ++ [b left, 0]
        ∧ (ResponseBody.notices ns left true).bytes = [b ns.length] ++ ns.flatMap Notice.bytes ++ [b left, 1])
    ∧ (∀ (id : Nat) (o : ProposalOutcome), (ResponseBody.vote id o).bytes = [b id, b o.code])
    ∧ (∀ (r : Settings) (id : Nat) (q : Port) (v a : PortSet),
        let set (x : PortSet) : Byte := b (x[0].toNat + 2 * x[1].toNat + 4 * x[2].toNat + 8 * x[3].toNat)
        (ResponseBody.settings r none).bytes = r.bytes ++ [0, 0, 0, 0, 0, 0]
        ∧ (ResponseBody.settings r (some ⟨id, q, false, v, a⟩)).bytes = r.bytes ++ [1, b id, b q.val, 0, set v, set a]
        ∧ (ResponseBody.settings r (some ⟨id, q, true, v, a⟩)).bytes = r.bytes ++ [1, b id, b q.val, 1, set v, set a])
    ∧ (∀ (k : NoticeKind) (peer q : Port) (h : HandleNo) (i : ShareIdx) (n id code : Nat), n < 65536 → id < 256 →
        code < 256 →
        (shareNotice k (some peer) h i n).bytes = [k.code, b peer.val, b h.val, b i.val, 0, 0, b (n / 256), b n]
        ∧ (shareNotice k none h i n).bytes = [k.code, 0xFF, b h.val, b i.val, 0, 0, b (n / 256), b n]
        ∧ (peerNotice k q n).bytes = [k.code, b q.val, 0xFF, 0xFF, 0, 0, b (n / 256), b n]
        ∧ (proposalNotice k q id code).bytes = [k.code, b q.val, 0xFF, 0xFF, b id, b code, 0, 0])
    ∧ ∀ (handle : Byte) (ordinal : BitVec 16) (code : Byte),
        (Notice.mk .postFault none (some handle) none (BitVec.ofNat 32 (ordinal.toNat * 65536 + code.toNat))).bytes
          = [0x20, 0xFF, handle, 0xFF, b (ordinal.toNat / 256), b ordinal.toNat, 0, code]

/-! ## Taking requests -/

/-- The conditions under which a request is taken (R102), and only in RUN (R189). -/
def Obligations.RequestIsTakenUnderItsConditions : Prop :=
  ∀ (s : State) (p : Port) (f : Frame),
    s.nextRequest p = some f ↔
      (∃ rest, (s.port p).link.requests = f :: rest) ∧ s.resetLow = false ∧ s.power = .run
        ∧ (s.port p).attach.state ≠ .cleaning ∧ (s.port p).stage.stage = .empty
        ∧ (f.kind ≠ 0x32 → (s.port p).posts.posts = [] ∧ (s.port p).link.responses.length < 4)
        ∧ (f.kind = 0x32 → (s.port p).posts.posts.length < 8)

/-- UNKNOWN_REQUEST: a frame of a kind the device does not define is answered so in every attachment state (R103). INFO, LIST
and SETTINGS report (R22, R41, R165). None of the four changes anything but the queues of its port. -/
def Obligations.ReportsAndUnknownKindsOnlyAnswer : Prop :=
  (∀ (s : State) (p : Port) (f : Frame), Takes s p f.kind f → f.kind ∉ definedKinds →
      ∃ t, exec (.unknownRequest p) s = .next t ∧ OnlyAnswers s t p f (Reply.refusal .unknownRequest))
    ∧ ∀ (s : State) (p : Port) (f : Frame), s.isAttached p = true →
      (∀ (b : Byte) (h : HandleNo) (v : Handle), Takes s p 0x14 f → f.body = [b] → Resolves s p b h v →
        ∃ t, exec (.info p) s = .next t ∧ OnlyAnswers s t p f (Reply.ok (.info
          { index := v.share, state := (s.share v.share).state, scope := (s.share v.share).scope
            size := (s.share v.share).size.getD 0
            backed := allSlots.countP fun k => ((s.share v.share).frameMap[k]).isSome
            handleCount := (s.share v.share).handleCount
            holder := (s.share v.share).claim.map fun c => c.holder
            waiters := ((s.share v.share).claim.map fun c => c.waiters.length).getD 0
            creator := (s.share v.share).creator })))
      ∧ (Takes s p 0x22 f → f.body = [] →
        ∃ (t : State) (rs : List ListRecord), exec (.list p) s = .next t
          ∧ OnlyAnswers s t p f (Reply.ok (.listed rs))
          ∧ (rs.map fun r => r.number) = allHandles.filter (fun h => (s.handle p h).isSome)
          ∧ ∀ r ∈ rs, s.handle p r.number = some r.handle ∧ r.current = s.current r.handle)
      ∧ (Takes s p 0x62 f → f.body = [] →
        ∃ t, exec (.settings p) s = .next t ∧ OnlyAnswers s t p f (Reply.ok (.settings s.settings
          (s.proposal.map fun pr => { id := pr.id, proposer := pr.proposer, clearAll := pr.action == .clearAll
                                      voters := pr.voters, accepted := pr.accepted }))))

/-! ## Shares -/

/-- CREATE, ATTACH and GRANT are refused with the code of the first check that fails, in R13's, R15's and R35's order; a
body without the length and codes of its kind is refused BAD_FRAME on an ATTACHED port, NOT_ATTACHED on another. A refusal
changes nothing but the response (R12). -/
def Obligations.CreateAttachAndGrantRefuse : Prop :=
  ((∀ (s : State) (p : Port) (fr : Frame), Takes s p 0x10 fr → createFields fr.body = none →
        ∃ t, exec (.create p) s = .next t
          ∧ OnlyAnswers s t p fr (Reply.refusal (if s.isAttached p then .badFrame else .notAttached)))
      ∧ (∀ (s : State) (p : Port) (fr : Frame) (f : CreateFields) (code : Result), Takes s p 0x10 fr →
        createFields fr.body = some f → firstFailing (createChecks s p f) = some code →
        ∃ t, exec (.create p) s = .next t ∧ OnlyAnswers s t p fr (Reply.refusal code))
      ∧ (∀ (s : State) (p : Port) (fr : Frame), Takes s p 0x11 fr → attachFields fr.body = none →
        ∃ t, exec (.attach p) s = .next t
          ∧ OnlyAnswers s t p fr (Reply.refusal (if s.isAttached p then .badFrame else .notAttached)))
      ∧ ∀ (s : State) (p : Port) (fr : Frame) (name : BitVec 32) (wanted : Rights) (code : Result), Takes s p 0x11 fr →
        attachFields fr.body = some (name, wanted) → firstFailing (attachChecks s p name wanted) = some code →
        ∃ t, exec (.attach p) s = .next t ∧ OnlyAnswers s t p fr (Reply.refusal code))
    ∧ (∀ (s : State) (p : Port) (fr : Frame), Takes s p 0x20 fr → grantFields fr.body = none →
        ∃ t, exec (.grant p) s = .next t
          ∧ OnlyAnswers s t p fr (Reply.refusal (if s.isAttached p then .badFrame else .notAttached)))
      ∧ ∀ (s : State) (p : Port) (fr : Frame) (f : GrantFields) (code : Result), Takes s p 0x20 fr →
        grantFields fr.body = some f → firstFailing (grantChecks s p f) = some code →
        ∃ t, exec (.grant p) s = .next t ∧ OnlyAnswers s t p fr (Reply.refusal code)

/-- CREATE takes the lowest FREE entry and makes the administrator's handle in the lowest EMPTY one; EAGER backing fills
slots 0 to size - 1 from the head of the clean list, ON_DEMAND takes no frame (R14, R4, R55). -/
def Obligations.CreateMakesShareAndHandle : Prop :=
  ∀ (s : State) (p : Port) (fr : Frame) (f : CreateFields) (i : ShareIdx) (h : HandleNo), Takes s p 0x10 fr →
    createFields fr.body = some f → firstFailing (createChecks s p f) = none → LowestFree s i → LowestEmpty s p h →
    ∃ t, exec (.create p) s = .next t
      ∧ t.share i = { state := .opened, generation := (s.share i).generation, creator := some p, scope := some f.scope
                      name := if f.scope = .common then some f.name else none
                      commonRights := if f.scope = .common then f.rights else ⟨false, false, false, false⟩
                      size := some f.size, frameMap := (t.share i).frameMap, handleCount := 1, inUse := 0
                      claim := none }
      ∧ (∀ k : SlotNo, (t.share i).frameMap[k]
          = if f.onDemand = false ∧ k.val < f.size then s.pool.clean[k.val]? else none)
      ∧ t.pool = { s.pool with clean := s.pool.clean.drop (if f.onDemand then 0 else f.size) }
      ∧ t.port p = { s.port p with
          link := (s.port p).link.answered fr (Reply.ok (.created i h (s.share i).generation))
          handles := (s.port p).handles.set h (some
            { share := i, generation := (s.share i).generation, rights := ⟨true, true, true, true⟩, base := 0
              length := f.size * 1024, origin := .created })
          attention := (t.port p).attention }
      ∧ OtherPortsSame s t [p] ∧ OtherSharesSame s t i ∧ OnlyPortsSharesPool s t

/-- ATTACH makes a handle on the share that carries the name, and raises its current-handle count (R16). -/
def Obligations.AttachMakesHandle : Prop :=
  ∀ (s : State) (p : Port) (fr : Frame) (name : BitVec 32) (wanted : Rights) (i : ShareIdx) (h : HandleNo),
    Takes s p 0x11 fr → attachFields fr.body = some (name, wanted) →
    firstFailing (attachChecks s p name wanted) = none → Carries s i name → LowestEmpty s p h →
    ∃ t, exec (.attach p) s = .next t
      ∧ t.share i = { s.share i with handleCount := (s.share i).handleCount + 1 }
      ∧ t.port p = { s.port p with
          link := (s.port p).link.answered fr (Reply.ok (.attached h i (s.share i).generation))
          handles := (s.port p).handles.set h (some
            { share := i, generation := (s.share i).generation, rights := wanted, base := 0
              length := (s.share i).size.getD 0 * 1024, origin := .attached })
          attention := (t.port p).attention }
      ∧ OtherPortsSame s t [p] ∧ OtherSharesSame s t i ∧ OnlyPortsShares s t

/-- A refusal changes nothing but the response, and gives the code of the first check that fails. CLOSE, REVOKE and INFO:
NOT_ATTACHED, BAD_FRAME, handle resolution in R33's order, and for CLOSE and REVOKE the right ADMIN (R17, R19, R22). DROP:
NOT_ATTACHED, BAD_FRAME, HANDLE_RANGE, HANDLE_EMPTY (R39). DETACH, LIST, FLUSH, NOTICES and SETTINGS, of an empty body:
NOT_ATTACHED, BAD_FRAME (R151, R41, R101, R173, R165). -/
def Obligations.OneHandleAndEmptyBodyRequestsRefuse : Prop :=
  ((∀ (s : State) (p : Port) (f : Frame) (code : Result) (c : Instr) (kind : Byte) (may : Rights → Bool),
        (c, kind) = (Instr.close p, 0x12) ∧ may = Rights.admin ∨ (c, kind) = (Instr.revoke p, 0x13) ∧ may = Rights.admin
          ∨ (c, kind) = (Instr.info p, 0x14) ∧ may = (fun _ => true) →
        Takes s p kind f → firstFailing (handleChecks s p f.body may) = some code →
        ∃ t, exec c s = .next t ∧ OnlyAnswers s t p f (Reply.refusal code))
      ∧ ∀ (s : State) (p : Port) (f : Frame) (code : Result), Takes s p 0x21 f →
        firstFailing [(!s.isAttached p, .notAttached), (f.body.length != 1, .badFrame),
          (decide (32 ≤ (f.body.headD 0).toNat), .handleRange), ((s.entryAt p (f.body.headD 0)).isNone, .handleEmpty)]
          = some code →
        ∃ t, exec (.drop p) s = .next t ∧ OnlyAnswers s t p f (Reply.refusal code))
    ∧ ∀ (s : State) (p : Port) (f : Frame) (code : Result) (c : Instr) (kind : Byte),
      (c, kind) ∈ [(Instr.detach p, 0x02), (.list p, 0x22), (.flush p, 0x33), (.notices p, 0x50), (.settings p, 0x62)] →
      Takes s p kind f →
      firstFailing [(!s.isAttached p, .notAttached), (!f.body.isEmpty, .badFrame)] = some code →
      ∃ t, exec c s = .next t ∧ OnlyAnswers s t p f (Reply.refusal code)

/-- CLOSE ends the share: the entry enters CLOSING and retires at once when no operation is in flight, its frames going to
the pool in slot order; every other port that holds a current handle is told SHARE_CLOSED with its lowest one, then every
other port of the claim record CLAIM_ENDED (R17, R18, R10, R11, R57, R136). Handles stay, but for those the step of the
generation empties (R2). -/
def Obligations.CloseEndsTheShare : Prop :=
  ∀ (s : State) (p : Port) (f : Frame) (b : Byte) (h : HandleNo) (v : Handle), Takes s p 0x12 f →
    s.isAttached p = true → f.body = [b] → Resolves s p b h v → v.rights.admin = true →
    ∃ t, exec (.close p) s = .next t
      ∧ t.share v.share = { (s.share v.share).closed with claim := none }
      ∧ t.pool = (if (s.share v.share).inUse = 0 then s.pool.giveBack (s.share v.share).bySlot else s.pool)
      ∧ (t.port p).link = (s.port p).link.answered f (Reply.ok .empty)
      ∧ (∀ q : Port, q ≠ p → (t.port q).link = (s.port q).link
          ∧ Told s t q
            (((s.lowestOn q v.share).map fun k =>
                shareNotice .shareClosed (some p) k v.share (s.share v.share).generation)
              ++ (s.share v.share).endedTo p v.share 2 q))
      ∧ (t.port p).notices = (s.port p).notices
      ∧ (∀ (q : Port) (k : HandleNo),
          if (s.share v.share).inUse = 0 then
            Stepped v.share (nextGeneration (s.share v.share).generation) (s.handle q k) (t.handle q k)
          else t.handle q k = s.handle q k)
      ∧ (∀ q : Port, if (s.share v.share).inUse = 0 then
            StageStepped v.share (nextGeneration (s.share v.share).generation) (s.port q).stage (t.port q).stage
          else (t.port q).stage = (s.port q).stage)
      ∧ (∀ q : Port, (t.port q).attach = (s.port q).attach ∧ (t.port q).posts = (s.port q).posts)
      ∧ OtherSharesSame s t v.share ∧ OnlyPortsSharesPool s t

/-- REVOKE steps the generation, restamps the handle it came through, sets the current-handle count to 1, tells REVOKED to
every other port that held a current handle, and ends any claim with CLAIM_ENDED (R19, R20, R42, R2, R136). -/
def Obligations.RevokeStepsTheGeneration : Prop :=
  ∀ (s : State) (p : Port) (f : Frame) (b : Byte) (h : HandleNo) (v : Handle), Takes s p 0x13 f →
    s.isAttached p = true → f.body = [b] → Resolves s p b h v → v.rights.admin = true →
    let g := nextGeneration (s.share v.share).generation
    ∃ t, exec (.revoke p) s = .next t
      ∧ g = (if (s.share v.share).generation = 4095 then 1 else (s.share v.share).generation + 1)
      ∧ t.share v.share = { s.share v.share with generation := g, handleCount := 1, claim := none }
      ∧ t.handle p h = some { v with generation := g }
      ∧ (∀ (q : Port) (k : HandleNo), ¬(q = p ∧ k = h) → Stepped v.share g (s.handle q k) (t.handle q k))
      ∧ (∀ q : Port, StageStepped v.share g (s.port q).stage (t.port q).stage)
      ∧ (t.port p).link = (s.port p).link.answered f (Reply.ok (.revoked g))
      ∧ (∀ q : Port, q ≠ p → (t.port q).link = (s.port q).link
          ∧ Told s t q
            (((s.lowestOn q v.share).map fun k => shareNotice .revoked (some p) k v.share g)
              ++ (s.share v.share).endedTo p v.share 1 q))
      ∧ (t.port p).notices = (s.port p).notices
      ∧ (∀ q : Port, (t.port q).attach = (s.port q).attach ∧ (t.port q).posts = (s.port q).posts)
      ∧ OtherSharesSame s t v.share ∧ OnlyPortsShares s t

/-! ## Handles -/

/-- GRANT makes a handle in the lowest EMPTY entry of the target's table, inside the source's window and with the source's
generation, raises the current-handle count, and tells the target (R36, R37). -/
def Obligations.GrantMakesHandleForTheTarget : Prop :=
  ∀ (s : State) (p : Port) (fr : Frame) (f : GrantFields) (h k : HandleNo) (v : Handle), Takes s p 0x20 fr →
    grantFields fr.body = some f → firstFailing (grantChecks s p f) = none → Resolves s p f.source h v →
    LowestEmpty s f.target k →
    ∃ t, exec (.grant p) s = .next t
      ∧ t.share v.share = { s.share v.share with handleCount := (s.share v.share).handleCount + 1 }
      ∧ t.port f.target = { s.port f.target with
          handles := (s.port f.target).handles.set k (some
            { share := v.share, generation := v.generation, rights := f.rights, base := v.base + f.base
              length := f.length, origin := .granted p })
          notices := (t.port f.target).notices, attention := (t.port f.target).attention }
      ∧ Told s t f.target [shareNotice .grantReceived (some p) k v.share v.generation]
      ∧ t.port p = { s.port p with
          link := (s.port p).link.answered fr (Reply.ok (.granted k)), attention := (t.port p).attention }
      ∧ OtherPortsSame s t [p, f.target] ∧ OtherSharesSame s t v.share ∧ OnlyPortsShares s t

/-- DROP empties the handle whatever the state of its share (R39). Before that, a claim held through it is handed over and
a waiter queued through it is removed (R40, R138). A current handle lowers the count; without its ADMIN handle an OPEN
share is ORPHANED (R8), and an ORPHANED one whose count is 0 closes (R9). -/
def Obligations.DropEmptiesTheHandle : Prop :=
  ∀ (s : State) (p : Port) (f : Frame) (b : Byte) (h : HandleNo) (v : Handle), Takes s p 0x21 f →
    s.isAttached p = true → f.body = [b] → h.val = b.toNat → s.handle p h = some v →
    let i := v.share
    let sh := s.share i
    let holds := sh.claim.any fun c => c.holder == p && c.handle == h
    let claim' := sh.claim.bind fun c =>
      if c.holder = p then (if c.handle = h then c.handedOver (some (s.settings.leaseDuration * 1000)) else some c)
      else some { c with waiters := c.waiters.filter fun w => !(w.port == p && w.handle == h) }
    let count' := if s.current v then sh.handleCount - 1 else sh.handleCount
    let state' := if s.current v && v.rights.admin && sh.state == .opened then .orphaned else sh.state
    let left := { sh with claim := claim', handleCount := count', state := state' }
    let closes := s.current v = true ∧ state' = .orphaned ∧ count' = 0
    ∃ t, exec (.drop p) s = .next t
      ∧ t.handle p h = none
      ∧ (closes → t.share i = left.closed)
      ∧ (¬closes → t.share i = left)
      ∧ (closes → sh.inUse = 0 → t.pool = s.pool.giveBack sh.bySlot)
      ∧ (¬(closes ∧ sh.inUse = 0) → t.pool = s.pool)
      ∧ (∀ (q : Port) (k : HandleNo), ¬(q = p ∧ k = h) →
          (closes ∧ sh.inUse = 0 → Stepped i (nextGeneration sh.generation) (s.handle q k) (t.handle q k))
          ∧ (¬(closes ∧ sh.inUse = 0) → t.handle q k = s.handle q k))
      ∧ (∀ q : Port,
          (closes ∧ sh.inUse = 0 → StageStepped i (nextGeneration sh.generation) (s.port q).stage (t.port q).stage)
          ∧ (¬(closes ∧ sh.inUse = 0) → (t.port q).stage = (s.port q).stage))
      ∧ (t.port p).link = (s.port p).link.answered f (Reply.ok .empty)
      ∧ (∀ q : Port, q ≠ p → (t.port q).link = (s.port q).link)
      ∧ (∀ q : Port, Told s t q (if holds then (sh.claim.map fun c => c.grantedTo i sh.generation q).getD [] else []))
      ∧ (∀ q : Port, (t.port q).attach = (s.port q).attach ∧ (t.port q).posts = (s.port q).posts)
      ∧ OtherSharesSame s t i ∧ OnlyPortsSharesPool s t

/-! ## The Frame Pool -/

/-- The pool serves a need whole or not at all, from the head of the clean list (R53), and a retirement's frames join the tail
of the dirty list, the first becoming the scrub frame when there is none (R57, R49). SCRUB_BURST_COMPLETION: 64 zero bytes
stand in the scrub frame's block of the progress count, and no other byte has changed; the count rises, and at the sixteenth
block the frame joins the tail of the clean list and the head of the dirty list becomes the scrub frame (R50, R51, R49,
R119). -/
def Obligations.PoolServesScrubsAndTakesBackInOrder : Prop :=
  (∀ (q : Pool) (n : Nat),
      (n ≤ q.clean.length → q.verdict n = none ∧ q.take n = { q with clean := q.clean.drop n })
      ∧ (q.clean.length < n → n ≤ q.clean.length + q.dirty.length + (if q.scrub.isSome then 1 else 0) →
          q.verdict n = some .poolBusy)
      ∧ (q.clean.length + q.dirty.length + (if q.scrub.isSome then 1 else 0) < n → q.verdict n = some .poolEmpty)
      ∧ ∀ fs : List FrameNo,
          (q.scrub.isSome = true → q.giveBack fs = { q with dirty := q.dirty ++ fs })
          ∧ (q.scrub = none → ∀ f rest, q.dirty ++ fs = f :: rest →
              q.giveBack fs = { q with dirty := rest, scrub := some { frame := f, progress := 0 } })
          ∧ (q.scrub = none → q.dirty ++ fs = [] → q.giveBack fs = q))
    ∧ ∀ (s : State) (sf : ScrubFrame), s.running = true → s.arbiter.path = .busy .scrub → s.pool.scrub = some sf →
      sf.progress ≤ 15 → MemoryCanonical s →
      ∃ t, exec .scrubBurstCompletion s = .next t
        ∧ (∀ x : Nat, t.mem.read x
            = if sf.frame.val * 1024 + sf.progress * 64 ≤ x ∧ x < sf.frame.val * 1024 + sf.progress * 64 + 64 then 0
              else s.mem.read x)
        ∧ (sf.progress < 15 → t.pool = { s.pool with scrub := some { frame := sf.frame, progress := sf.progress + 1 } })
        ∧ (sf.progress = 15 → t.pool.clean = s.pool.clean ++ [sf.frame]
            ∧ (s.pool.dirty = [] → t.pool.dirty = [] ∧ t.pool.scrub = none)
            ∧ ∀ f rest, s.pool.dirty = f :: rest →
                t.pool.dirty = rest ∧ t.pool.scrub = some { frame := f, progress := 0 })
        ∧ t.arbiter = { s.arbiter with path := .free }
        ∧ OtherPortsSame s t []
        ∧ t = { s with mem := t.mem, pool := t.pool, arbiter := t.arbiter, ports := t.ports
                       restCountdown := t.restCountdown }

/-! ## Data requests -/

/-- READ, WRITE and CAS are refused with the code of the first of the twelve checks that fails, in R64's order, and a
refusal changes nothing but the response (R65 to R71). -/
def Obligations.DataRequestsRefuse : Prop :=
  ∀ (s : State) (p : Port) (fr : Frame) (c : Instr) (kind : Byte) (k : DataKind),
    (c, kind, k) ∈ [(Instr.read p, (0x30 : Byte), DataKind.read), (.write p, 0x31, .write), (.cas p, 0x34, .cas)] →
    Takes s p kind fr →
    (fr.body.length < 5 → ∃ t, exec c s = .next t
        ∧ OnlyAnswers s t p fr (Reply.refusal (if s.isAttached p then .badFrame else .notAttached)))
    ∧ ∀ (f : DataFields) (code : Result), dataFields fr.body = some f →
        firstFailing (dataChecks s p k f) = some code →
        ∃ t, exec c s = .next t ∧ OnlyAnswers s t p fr (Reply.refusal code)

/-- WRITE and CAS that pass their checks are admitted: the UNBACKED slots of the span receive the frames at the head of the
clean list in ascending slot order, the in-use count rises, and the operation waits in the data stage with a response
entry reserved (R72, R56, R89, R91, R102). -/
def Obligations.WriteAndCasAreAdmitted : Prop :=
  ∀ (s : State) (p : Port) (fr : Frame) (c : Instr) (kind : Byte) (k : DataKind) (f : DataFields) (h : HandleNo)
    (v : Handle),
    (c, kind, k) ∈ [(Instr.write p, (0x31 : Byte), DataKind.write), (.cas p, 0x34, .cas)] → Takes s p kind fr →
    dataFields fr.body = some f → firstFailing (dataChecks s p k f) = none → Resolves s p f.handle h v →
    let i := v.share
    let need := allSlots.filter fun j => decide (j.val * 1024 < v.base + f.offset + f.length)
      && decide (v.base + f.offset < (j.val + 1) * 1024) && ((s.share i).frameMap[j]).isNone
    ∃ t, exec c s = .next t
      ∧ t.share i = { s.share i with frameMap := (t.share i).frameMap, inUse := (s.share i).inUse + 1 }
      ∧ (∀ j : SlotNo, (t.share i).frameMap[j]
          = if j ∈ need then s.pool.clean[need.idxOf j]? else (s.share i).frameMap[j])
      ∧ t.pool = { s.pool with clean := s.pool.clean.drop need.length }
      ∧ t.port p = { s.port p with
          link := (s.port p).link.reserving fr
          stage := { stage := .waiting
                      { kind := if k = .write then .write f.payload else .cas (f.payload.take 4) (f.payload.drop 4)
                        share := i, generation := v.generation, start := v.base + f.offset, length := f.length
                        pos := v.base + f.offset }
                     abandon := (s.port p).stage.abandon }
          attention := (t.port p).attention }
      ∧ OtherPortsSame s t [p] ∧ OtherSharesSame s t i ∧ OnlyPortsSharesPool s t

/-- READ that passes its checks. When a byte of its span lies in a backed slot, the READ waits at the first such byte, with
zeros delivered for what stands before it; when none does, it ends DONE in its own event with zeros alone, and nothing but
its response has changed (R72, R74, R76, R78, R87). -/
def Obligations.ReadIsAdmittedOrDeliveredAsZeros : Prop :=
  ∀ (s : State) (p : Port) (fr : Frame) (f : DataFields) (h : HandleNo) (v : Handle), Takes s p 0x30 fr →
    dataFields fr.body = some f → firstFailing (dataChecks s p .read f) = none → Resolves s p f.handle h v →
    let i := v.share
    let start := v.base + f.offset
    (∀ x : Nat, start ≤ x → x < start + f.length → ((s.share i).frameAt (x / 1024)).isSome = true →
        (∀ y : Nat, start ≤ y → y < x → (s.share i).frameAt (y / 1024) = none) →
        ∃ t, exec (.read p) s = .next t
          ∧ t.share i = { s.share i with inUse := (s.share i).inUse + 1 }
          ∧ t.port p = { s.port p with
              link := (s.port p).link.reserving fr
              stage := { stage := .waiting
                          { kind := .read (List.replicate (x - start) 0), share := i, generation := v.generation
                            start := start, length := f.length, pos := x }
                         abandon := (s.port p).stage.abandon }
              attention := (t.port p).attention }
          ∧ OtherPortsSame s t [p] ∧ OtherSharesSame s t i ∧ OnlyPortsShares s t)
    ∧ ((∀ x : Nat, start ≤ x → x < start + f.length → (s.share i).frameAt (x / 1024) = none) →
        (s.port p).stage.abandon = false →
        ∃ t, exec (.read p) s = .next t
          ∧ OnlyAnswers s t p fr (Reply.ok (.data (List.replicate f.length 0))))

/-- BURST_COMPLETION on a piece that is not the last of its operation and with the next byte in a backed slot: a WRITE or post
has stored the bytes of the span that fall in the block and no others, on a CLEANING port as well (R108); a READ that is not
marked for abandonment has the bytes of its grant appended. The path is FREE and the next piece waits (R85, R89, R87,
R119). -/
def Obligations.BurstCompletionCarriesThePieceOut : Prop :=
  ∀ (s : State) (p : Port) (op : Operation) (f : FrameNo) (bs : List Byte), s.running = true →
    s.arbiter.path = .busy (.port p) → (s.port p).stage.stage = .bursting op f bs →
    (op.kind.isRead = true → (s.port p).stage.abandon = false) → MemoryCanonical s → (∀ e n, op.kind ≠ .cas e n) →
    op.pos + op.piece < op.start + op.length →
    ((s.share op.share).frameAt ((op.pos + op.piece) / 1024)).isSome = true →
    ∃ t, exec (.burstCompletion p) s = .next t
      ∧ BurstStored s t op f bs
      ∧ t.port p = { s.port p with
          stage := { (s.port p).stage with
            stage := .waiting { op with
              kind := match op.kind with
                | .read delivered => .read (delivered ++ bs)
                | other => other
              pos := op.pos + op.piece } }
          attention := (t.port p).attention }
      ∧ t.arbiter = { s.arbiter with path := .free }
      ∧ OtherPortsSame s t [p]
      ∧ t = { s with mem := t.mem, arbiter := t.arbiter, ports := t.ports, restCountdown := t.restCountdown }

/-- BURST_COMPLETION of the last piece of an operation, for a port that is not CLEANING: its bytes are stored or delivered,
and the operation ends with its response (R85, R86, R78, R89, R91). A CAS has swapped exactly on a match and gives the old
word. -/
def Obligations.LastBurstEndsTheOperation : Prop :=
  ∀ (s : State) (p : Port) (op : Operation) (f : FrameNo) (bs : List Byte), s.running = true →
    s.arbiter.path = .busy (.port p) → (s.port p).stage.stage = .bursting op f bs → (s.port p).stage.abandon = false →
    (s.port p).attach.state ≠ .cleaning → MemoryCanonical s → op.start + op.length ≤ op.pos + op.piece →
    ∃ t, exec (.burstCompletion p) s = .next t
      ∧ BurstStored s t op f bs
      ∧ OperationEnded s t p op.share (op.finalAnswer bs)
      ∧ t.arbiter = { s.arbiter with path := .free }
      ∧ t = { s with mem := t.mem, arbiter := t.arbiter, ports := t.ports, shares := t.shares, pool := t.pool
                     restCountdown := t.restCountdown }

/-- A READ whose burst completes before an UNBACKED rest of its span is rechecked in that event: it ends DONE with zeros for
the rest when the share is live with the generation of its copy, else CUT with the bytes delivered (R76, R75, R78). -/
def Obligations.ReadMeetsAnUnbackedRest : Prop :=
  ∀ (s : State) (p : Port) (op : Operation) (f : FrameNo) (bs delivered : List Byte), s.running = true →
    s.arbiter.path = .busy (.port p) → (s.port p).stage.stage = .bursting op f bs → (s.port p).stage.abandon = false →
    (s.port p).attach.state ≠ .cleaning → op.kind = .read delivered → op.pos + op.piece < op.start + op.length →
    (∀ y : Nat, op.pos + op.piece ≤ y → y < op.start + op.length → (s.share op.share).frameAt (y / 1024) = none) →
    let sh := s.share op.share
    let answer : Reply :=
      if sh.live = false then { result := .shareGone, ending := .cut, body := .data (delivered ++ bs) }
      else if sh.generation ≠ op.generation then { result := .stale, ending := .cut, body := .data (delivered ++ bs) }
      else { result := .ok, ending := .done
             body := .data (delivered ++ bs ++ List.replicate (op.start + op.length - (op.pos + op.piece)) 0) }
    ∃ t, exec (.burstCompletion p) s = .next t
      ∧ OperationEnded s t p op.share (some (0x30, answer))
      ∧ t.arbiter = { s.arbiter with path := .free }
      ∧ t = { s with arbiter := t.arbiter, ports := t.ports, shares := t.shares, pool := t.pool
                     restCountdown := t.restCountdown }

/-- The end of the operation a CLEANING port waits for: the last burst of a write-type operation has stored its bytes, an
abandoned READ delivers nothing. The in-use count of its share falls, and a CLOSING share whose count reaches 0 retires
(R86, R11). No response but the HELLO's is placed, the port is ATTACHED, and the other ATTACHED ports are told as the
announcement says (R147, R148, R108). -/
def Obligations.CleaningPortAttachesWhenItsOperationEnds : Prop :=
  ∀ (s : State) (p : Port) (op : Operation) (f : FrameNo) (bs : List Byte) (tag : Byte), s.running = true →
    s.arbiter.path = .busy (.port p) → (s.port p).stage.stage = .bursting op f bs →
    (s.port p).attach.state = .cleaning → (s.port p).link.responses = [.reserved 0x01 tag] →
    (op.kind.isRead = true → (s.port p).stage.abandon = true) →
    (op.kind.isRead = false → op.start + op.length ≤ op.pos + op.piece) → MemoryCanonical s →
    let left := { s.share op.share with inUse := (s.share op.share).inUse - 1 }
    let retires := left.state = .closing ∧ left.inUse = 0
    let g := nextGeneration left.generation
    ∃ t, exec (.burstCompletion p) s = .next t
      ∧ BurstStored s t op f bs
      ∧ t.port p = { s.port p with
          stage := { stage := .empty, abandon := false }
          attach := { (s.port p).attach with state := .attached, announcement := .none, emptied := 0 }
          posts := { (s.port p).posts with ordinal := 0 }
          link := { (s.port p).link with
            responses := [.completed { kind := 0x01, tag := tag, reply := Reply.ok (.hello s.pool.clean.length) }] }
          handles := (t.port p).handles, attention := true }
      ∧ (∀ q : Port, q ≠ p → Told s t q (match (s.port p).attach.announcement with
            | .none => []
            | .attached => [peerNotice .peerAttached p (s.port p).attach.emptied]
            | .restarted => [peerNotice .peerRestarted p (s.port p).attach.emptied])
          ∧ t.port q = { s.port q with
              notices := (t.port q).notices, handles := (t.port q).handles, stage := (t.port q).stage
              attention := (t.port q).attention })
      ∧ (retires → t.share op.share = { left.closed with name := left.name, handleCount := left.handleCount }
          ∧ t.pool = s.pool.giveBack left.bySlot
          ∧ (∀ (q : Port) (k : HandleNo), Stepped op.share g (s.handle q k) (t.handle q k))
          ∧ ∀ q : Port, q ≠ p → StageStepped op.share g (s.port q).stage (t.port q).stage)
      ∧ (¬retires → t.share op.share = left ∧ t.pool = s.pool
          ∧ (∀ q : Port, (t.port q).handles = (s.port q).handles) ∧ ∀ q : Port, q ≠ p → (t.port q).stage = (s.port q).stage)
      ∧ t.arbiter = { s.arbiter with path := .free }
      ∧ OtherSharesSame s t op.share
      ∧ t = { s with mem := t.mem, arbiter := t.arbiter, ports := t.ports, shares := t.shares, pool := t.pool
                     restCountdown := t.restCountdown }

/-! ## Posts -/

/-- POST on an ATTACHED port joins the Post Buffer with the next ordinal and no response; a HOLDING buffer restarts its
timer, and switches to DRAINING when the threshold is reached or a non-POST request is left at the head. On a DETACHED
port it is discarded (R94, R95, R96). -/
def Obligations.PostIsHeld : Prop :=
  ∀ (s : State) (p : Port) (f : Frame), s.nextRequest p = some f → f.kind = 0x32 →
    let b := (s.port p).posts
    let posts' := b.posts ++ [{ body := f.body, ordinal := b.ordinal }]
    let drains := s.settings.postThreshold ≤ posts'.length
      ∨ ∃ g rest, (s.port p).link.requests = f :: g :: rest ∧ g.kind ≠ 0x32
    ∃ t, exec (.post p) s = .next t
      ∧ t.port p = { s.port p with
          link := { (s.port p).link with requests := (s.port p).link.requests.drop 1 }
          posts := (t.port p).posts, attention := (t.port p).attention }
      ∧ (s.isAttached p = true → (t.port p).posts.posts = posts' ∧ (t.port p).posts.ordinal = b.ordinal + 1
          ∧ (t.port p).posts.faults = b.faults
          ∧ (b.mode = .holding → drains → (t.port p).posts.mode = .draining ∧ (t.port p).posts.timer = none)
          ∧ (b.mode = .holding → ¬drains →
              (t.port p).posts.mode = .holding ∧ (t.port p).posts.timer = some s.settings.postDelay)
          ∧ (b.mode = .draining → (t.port p).posts.mode = .draining ∧ (t.port p).posts.timer = b.timer))
      ∧ (s.isAttached p = false → b.posts = [] → (t.port p).posts = b)
      ∧ OtherPortsSame s t [p] ∧ OnlyPorts s t

/-- POST_RELEASE takes the head post of a DRAINING buffer and checks it in R64's order. A refused post writes nothing; its
port is told POST_FAULT with the ordinal and the code, and its fault count rises, up to 65535 (R97, R98). A post that passes
its checks is admitted, as a WRITE is admitted but with no response (R97, R72). -/
def Obligations.PostReleaseReportsOrAdmits : Prop :=
  (∀ (s : State) (p : Port) (r : PostRecord) (rest : List PostRecord) (code : Result), s.running = true →
      (s.port p).posts.posts = r :: rest → (s.port p).posts.mode = .draining → (s.port p).stage.stage = .empty →
      (match dataFields r.body with
        | some f => firstFailing (dataChecks s p .post f)
        | none => some (if s.isAttached p then Result.badFrame else .notAttached)) = some code →
      ∃ t, exec (.postRelease p) s = .next t
        ∧ t.port p = { s.port p with
            posts := { (s.port p).posts with
              posts := rest, mode := if rest = [] then .holding else .draining
              faults := min 65535 ((s.port p).posts.faults + 1) }
            notices := (t.port p).notices, attention := (t.port p).attention }
        ∧ Told s t p [{ kind := .postFault, peer := none, handle := some (r.body.headD 0xFF), share := none
                        value := BitVec.ofNat 32 (r.ordinal.toNat * 65536 + code.code.toNat) }]
        ∧ OtherPortsSame s t [p] ∧ OnlyPorts s t)
    ∧ ∀ (s : State) (p : Port) (r : PostRecord) (rest : List PostRecord) (f : DataFields) (h : HandleNo) (v : Handle),
      s.running = true → (s.port p).posts.posts = r :: rest → (s.port p).posts.mode = .draining →
      (s.port p).stage.stage = .empty → dataFields r.body = some f → firstFailing (dataChecks s p .post f) = none →
      Resolves s p f.handle h v →
      let i := v.share
      let need := allSlots.filter fun j => decide (j.val * 1024 < v.base + f.offset + f.length)
        && decide (v.base + f.offset < (j.val + 1) * 1024) && ((s.share i).frameMap[j]).isNone
      ∃ t, exec (.postRelease p) s = .next t
        ∧ t.share i = { s.share i with frameMap := (t.share i).frameMap, inUse := (s.share i).inUse + 1 }
        ∧ (∀ j : SlotNo, (t.share i).frameMap[j]
            = if j ∈ need then s.pool.clean[need.idxOf j]? else (s.share i).frameMap[j])
        ∧ t.pool = { s.pool with clean := s.pool.clean.drop need.length }
        ∧ t.port p = { s.port p with
            posts := { (s.port p).posts with posts := rest, mode := if rest = [] then .holding else .draining }
            stage := { stage := .waiting
                        { kind := .post f.payload, share := i, generation := v.generation
                          start := v.base + f.offset, length := f.length, pos := v.base + f.offset }
                       abandon := (s.port p).stage.abandon }
            attention := (t.port p).attention }
        ∧ OtherPortsSame s t [p] ∧ OtherSharesSame s t i ∧ OnlyPortsSharesPool s t

/-- FLUSH reports the post fault count and sets it to 0; the ordinal counter is not changed (R101). NOTICES removes the oldest
records, up to 8; its response gives them, the number left and the overflow flag as it stood. An emptied queue clears the
flag and stops the timer, another restarts it; the notice-aged flag is cleared (R173). -/
def Obligations.FlushAndNoticesReportAndClear : Prop :=
  (∀ (s : State) (p : Port) (f : Frame), Takes s p 0x33 f → s.isAttached p = true → f.body = [] →
      ∃ t, exec (.flush p) s = .next t
        ∧ t.port p = { s.port p with
            link := (s.port p).link.answered f (Reply.ok (.flushed (s.port p).posts.faults))
            posts := { (s.port p).posts with faults := 0 }
            attention := (t.port p).attention }
        ∧ OtherPortsSame s t [p] ∧ OnlyPorts s t)
    ∧ ∀ (s : State) (p : Port) (f : Frame), Takes s p 0x50 f → s.isAttached p = true → f.body = [] →
      let nq := (s.port p).notices
      ∃ t, exec (.notices p) s = .next t
        ∧ t.port p = { s.port p with
            link := (s.port p).link.answered f
              (Reply.ok (.notices (nq.records.take 8) (nq.records.length - 8) nq.overflow))
            notices := { nq with
              records := nq.records.drop 8, aged := false
              overflow := if nq.records.length ≤ 8 then false else nq.overflow
              timer := if nq.records.length ≤ 8 then none else some s.settings.noticeDelay }
            attention := true }
        ∧ OtherPortsSame s t [p] ∧ OnlyPorts s t

/-- POST_DELAY_EXPIRY: the timer stops, and a HOLDING buffer with posts switches to DRAINING (R95, R96).
NOTICE_DELAY_EXPIRY: the notice-aged flag is set and the timer stays stopped (R174). -/
def Obligations.DelayTimersExpire : Prop :=
  ∀ (s : State) (p : Port) (d : Nat), s.running = true →
    ((s.port p).posts.timer = some d → ∃ t, exec (.postDelayExpiry p) s = .next t
      ∧ t.port p = { s.port p with
          posts := { (s.port p).posts with
            timer := none
            mode := if (s.port p).posts.posts ≠ [] then .draining else (s.port p).posts.mode }
          attention := (t.port p).attention }
      ∧ OtherPortsSame s t [p] ∧ OnlyPorts s t)
    ∧ ((s.port p).notices.timer = some d → ∃ t, exec (.noticeDelayExpiry p) s = .next t
      ∧ t.port p = { s.port p with
          notices := { (s.port p).notices with aged := true, timer := none }
          attention := true }
      ∧ OtherPortsSame s t [p] ∧ OnlyPorts s t)

/-! ## The Store Arbiter -/

/-- GRANT_DECISION scans the Phase Table in circular order from the pointer and stops at the first phase whose requester
waits: that requester is granted the path and the pointer is set past that phase (R116). A granted write-type operation is
BURSTING and the path BUSY; a granted SCRUB makes the path BUSY (R118). When the scan finds no waiting requester and SCRUB
waits, SCRUB is granted and the pointer is not changed; under a legal table no port waits then (R117). -/
def Obligations.GrantFollowsThePhaseTable : Prop :=
  (∀ (s : State) (k : Fin 16), s.running = true → s.arbiter.path = .free →
      (∀ j : Fin 16, j < k → s.waits s.arbiter.table[s.arbiter.pointer + j] = false) →
      (s.arbiter.table[s.arbiter.pointer + k] = .scrub → s.pool.scrub.isSome = true →
        ∃ t, exec .grantDecision s = .next t
          ∧ t.arbiter = { s.arbiter with pointer := s.arbiter.pointer + k + 1, path := .busy .scrub }
          ∧ OtherPortsSame s t []
          ∧ t = { s with arbiter := t.arbiter, ports := t.ports, restCountdown := t.restCountdown })
      ∧ ∀ (p : Port) (op : Operation) (f : FrameNo), s.arbiter.table[s.arbiter.pointer + k] = .port p →
        (s.port p).stage.stage = .waiting op → op.kind.isRead = false →
        (s.share op.share).frameAt (op.pos / 1024) = some f →
        ∃ t, exec .grantDecision s = .next t
          ∧ t.arbiter = { s.arbiter with pointer := s.arbiter.pointer + k + 1, path := .busy (.port p) }
          ∧ t.port p = { s.port p with
              stage := { (s.port p).stage with
                stage := .bursting op f (match op.kind with
                  | .cas _ _ => s.mem.readBytes (f.val * 1024 + op.pos % 1024) op.piece
                  | _ => []) }
              attention := (t.port p).attention }
          ∧ OtherPortsSame s t [p]
          ∧ t = { s with arbiter := t.arbiter, ports := t.ports, restCountdown := t.restCountdown })
    ∧ ∀ s : State, s.running = true → s.arbiter.path = .free →
      (∀ k : Fin 16, s.waits s.arbiter.table[k] = false) → s.pool.scrub.isSome = true →
      (∃ t, exec .grantDecision s = .next t
        ∧ t.arbiter = { s.arbiter with path := .busy .scrub }
        ∧ OtherPortsSame s t []
        ∧ t = { s with arbiter := t.arbiter, ports := t.ports, restCountdown := t.restCountdown })
      ∧ (SettingsLegal s → ∀ (p : Port) (op : Operation), (s.port p).stage.stage ≠ .waiting op)

/-- A READ's burst is rechecked at its grant. When it passes, the burst reads its bytes as they stand in the store at that
moment; when the share is not live, or its generation is not the copy's, the READ ends CUT with the bytes delivered and the
path is FREE in the same event, the pointer as the scan set it (R75, R88, R118). -/
def Obligations.ReadIsRecheckedAtItsGrant : Prop :=
  ∀ (s : State) (k : Fin 16) (p : Port) (op : Operation) (delivered : List Byte), s.running = true →
    s.arbiter.path = .free → (∀ j : Fin 16, j < k → s.waits s.arbiter.table[s.arbiter.pointer + j] = false) →
    s.arbiter.table[s.arbiter.pointer + k] = .port p → (s.port p).stage.stage = .waiting op →
    op.kind = .read delivered → (s.port p).attach.state ≠ .cleaning →
    let sh := s.share op.share
    (∀ f : FrameNo, sh.live = true → sh.generation = op.generation → sh.frameAt (op.pos / 1024) = some f →
      ∃ (t : State) (bs : List Byte), exec .grantDecision s = .next t
        ∧ bs.length = op.piece
        ∧ (∀ n, n < op.piece → bs.getD n 0 = s.mem.read (f.val * 1024 + op.pos % 1024 + n))
        ∧ t.arbiter = { s.arbiter with pointer := s.arbiter.pointer + k + 1, path := .busy (.port p) }
        ∧ t.port p = { s.port p with
            stage := { (s.port p).stage with stage := .bursting op f bs }, attention := (t.port p).attention }
        ∧ OtherPortsSame s t [p]
        ∧ t = { s with arbiter := t.arbiter, ports := t.ports, restCountdown := t.restCountdown })
    ∧ (∀ code : Result, (sh.live = false ∧ code = .shareGone
          ∨ sh.live = true ∧ sh.generation ≠ op.generation ∧ code = .stale) →
      ∃ t, exec .grantDecision s = .next t
        ∧ OperationEnded s t p op.share (some (0x30, { result := code, ending := .cut, body := .data delivered }))
        ∧ t.arbiter = { s.arbiter with pointer := s.arbiter.pointer + k + 1 }
        ∧ t = { s with arbiter := t.arbiter, ports := t.ports, shares := t.shares, pool := t.pool
                       restCountdown := t.restCountdown })

/-! ## Claims -/

/-- CLAIM, RELEASE, RENEW, PROPOSE and VOTE are refused with the code of the first check that fails, in the order of R127,
R157 and R159, and a refusal changes nothing but the response. -/
def Obligations.ClaimAndAgreementRequestsRefuse : Prop :=
  ((∀ (s : State) (p : Port) (f : Frame) (c : Instr) (kind : Byte) (code : Result),
        (c, kind) ∈ [(Instr.release p, (0x41 : Byte)), (.renew p, 0x42)] → Takes s p kind f →
        firstFailing (handleChecks s p f.body Rights.write) = some code →
        ∃ t, exec c s = .next t ∧ OnlyAnswers s t p f (Reply.refusal code))
      ∧ ∀ (s : State) (p : Port) (f : Frame) (code : Result), Takes s p 0x40 f →
        firstFailing ([(!s.isAttached p, .notAttached),
            (f.body.length != 2 || decide (1 < (f.body.getD 1 0).toNat), .badFrame)]
          ++ resolution s p (f.body.headD 0)
          ++ [((s.entryAt p (f.body.headD 0)).any fun v => !v.rights.write, .rights)]) = some code →
        ∃ t, exec (.claim p) s = .next t ∧ OnlyAnswers s t p f (Reply.refusal code))
    ∧ (∀ (s : State) (p : Port) (f : Frame) (code : Result), Takes s p 0x60 f →
        firstFailing [(!s.isAttached p, .notAttached),
          ((proposeFields f.body).isNone, .badFrame),
          (s.proposal.isSome, .proposalPending),
          ((proposeFields f.body).any fun x => match x with
            | .settings bytes => (proposedSettings bytes).isNone
            | .clearAll => false, .badSettings)] = some code →
        ∃ t, exec (.propose p) s = .next t ∧ OnlyAnswers s t p f (Reply.refusal code))
      ∧ ∀ (s : State) (p : Port) (f : Frame) (code : Result), Takes s p 0x61 f →
        firstFailing [(!s.isAttached p, .notAttached),
          (f.body.length != 2 || decide (1 < (f.body.getD 1 0).toNat), .badFrame),
          (!(s.proposal.any fun pr => pr.id == (f.body.headD 0).toNat), .noProposal),
          (!(s.proposal.any fun pr => pr.voters[p]), .notVoter),
          (s.proposal.any fun pr => pr.accepted[p], .alreadyVoted)] = some code →
        ∃ t, exec (.vote p) s = .next t ∧ OnlyAnswers s t p f (Reply.refusal code)

/-- CLAIM on a share the port may write: OK makes a record; ALREADY_HELD, ALREADY_WAITING and CLAIM_BUSY change nothing;
QUEUED appends the port to the waiters. The response gives holder and place (R127, R128, R126). -/
def Obligations.ClaimTakesQueuesOrReports : Prop :=
  ∀ (s : State) (p : Port) (f : Frame) (b wait : Byte) (h : HandleNo) (v : Handle), Takes s p 0x40 f →
    s.isAttached p = true → f.body = [b, wait] → wait.toNat ≤ 1 → Resolves s p b h v → v.rights.write = true →
    let answers (t : State) (code : Result) (ending : Ending) (holder : Option Port) (place : Option Nat) : Prop :=
      exec (.claim p) s = .next t ∧ OtherPortsSame s t [p]
        ∧ t.port p = { s.port p with
            link := (s.port p).link.answered f { result := code, ending := ending, body := .claim holder place }
            attention := (t.port p).attention }
        ∧ OtherSharesSame s t v.share ∧ OnlyPortsShares s t
    ((s.share v.share).claim = none → ∃ t, answers t .ok .done (some p) (some 0)
        ∧ t.share v.share = { s.share v.share with
            claim := some { holder := p, handle := h, lease := some (s.settings.leaseDuration * 1000), waiters := [] } })
    ∧ ∀ c, (s.share v.share).claim = some c →
      (c.holder = p → ∃ t, answers t .alreadyHeld .done (some p) (some 0) ∧ t.share v.share = s.share v.share)
      ∧ (c.holder ≠ p → ∀ n : Nat, (c.waiters.map Waiter.port)[n]? = some p →
          (∀ m, m < n → (c.waiters.map Waiter.port)[m]? ≠ some p) →
          ∃ t, answers t .alreadyWaiting .done (some c.holder) (some (n + 1)) ∧ t.share v.share = s.share v.share)
      ∧ (c.holder ≠ p → p ∉ c.waiters.map Waiter.port → wait = 1 →
          ∃ t, answers t .queued .done (some c.holder) (some (c.waiters.length + 1))
            ∧ t.share v.share = { s.share v.share with
                claim := some { c with waiters := c.waiters ++ [{ port := p, handle := h }] } })
      ∧ (c.holder ≠ p → p ∉ c.waiters.map Waiter.port → wait = 0 →
          ∃ t, answers t .claimBusy .refused none none ∧ t.share v.share = s.share v.share)

/-- RELEASE by the holder hands the claim over to the waiter at the head, who is told CLAIM_GRANTED, or removes the record;
RELEASE by a waiter removes it from the waiters; else it is refused NOT_HOLDER and nothing changes (R129, R132, R133). -/
def Obligations.ReleaseHandsOverOrWithdraws : Prop :=
  ∀ (s : State) (p : Port) (f : Frame) (b : Byte) (h : HandleNo) (v : Handle), Takes s p 0x41 f →
    s.isAttached p = true → f.body = [b] → Resolves s p b h v → v.rights.write = true →
    ((s.share v.share).claim = none → ∃ t, exec (.release p) s = .next t ∧ OnlyAnswers s t p f (Reply.refusal .notHolder))
    ∧ ∀ c, (s.share v.share).claim = some c →
      (c.holder = p → (∀ w ∈ c.waiters, w.port ≠ p) → ∃ t, exec (.release p) s = .next t
        ∧ t.share v.share = { s.share v.share with claim := c.handedOver (some (s.settings.leaseDuration * 1000)) }
        ∧ t.port p = { s.port p with
            link := (s.port p).link.answered f (Reply.ok .empty), attention := (t.port p).attention }
        ∧ (∀ q : Port, q ≠ p → Told s t q (c.grantedTo v.share (s.share v.share).generation q)
            ∧ t.port q = { s.port q with notices := (t.port q).notices, attention := (t.port q).attention })
        ∧ OtherSharesSame s t v.share ∧ OnlyPortsShares s t)
      ∧ (c.holder ≠ p → p ∈ c.waiters.map Waiter.port → ∃ t, exec (.release p) s = .next t
        ∧ t.share v.share = { s.share v.share with
            claim := some { c with waiters := c.waiters.filter fun w => w.port != p } }
        ∧ t.port p = { s.port p with
            link := (s.port p).link.answered f (Reply.ok .empty), attention := (t.port p).attention }
        ∧ OtherPortsSame s t [p] ∧ OtherSharesSame s t v.share ∧ OnlyPortsShares s t)
      ∧ (c.holder ≠ p → p ∉ c.waiters.map Waiter.port →
        ∃ t, exec (.release p) s = .next t ∧ OnlyAnswers s t p f (Reply.refusal .notHolder))

/-- RENEW by the holder restarts its lease with the lease duration of the current settings and changes nothing else; from any
other port, or with no record, it is refused NOT_HOLDER (R130). LEASE_EXPIRY: the holder is told LEASE_LOST, then the claim
is handed over, the new holder being told CLAIM_GRANTED (R131, R132, R133). -/
def Obligations.LeaseIsRenewedOrHandedOver : Prop :=
  (∀ (s : State) (p : Port) (f : Frame) (b : Byte) (h : HandleNo) (v : Handle), Takes s p 0x42 f →
      s.isAttached p = true → f.body = [b] → Resolves s p b h v → v.rights.write = true →
      (∀ c, (s.share v.share).claim = some c → c.holder = p → ∃ t, exec (.renew p) s = .next t
          ∧ t.share v.share = { s.share v.share with
              claim := some { c with lease := some (s.settings.leaseDuration * 1000) } }
          ∧ t.port p = { s.port p with
              link := (s.port p).link.answered f (Reply.ok .empty), attention := (t.port p).attention }
          ∧ OtherPortsSame s t [p] ∧ OtherSharesSame s t v.share ∧ OnlyPortsShares s t)
      ∧ ((∀ c, (s.share v.share).claim = some c → c.holder ≠ p) →
          ∃ t, exec (.renew p) s = .next t ∧ OnlyAnswers s t p f (Reply.refusal .notHolder)))
    ∧ ∀ (s : State) (i : ShareIdx) (c : Claim), s.running = true → (s.share i).claim = some c → c.lease.isSome = true →
      ∃ t, exec (.leaseExpiry i) s = .next t
        ∧ t.share i = { s.share i with claim := c.handedOver (some (s.settings.leaseDuration * 1000)) }
        ∧ (∀ q : Port, Told s t q
              ((if q = c.holder then [shareNotice .leaseLost none c.handle i (s.share i).generation] else [])
                ++ c.grantedTo i (s.share i).generation q)
            ∧ t.port q = { s.port q with notices := (t.port q).notices, attention := (t.port q).attention })
        ∧ OtherSharesSame s t i ∧ OnlyPortsShares s t

/-! ## Detachment -/

/-- DETACH, with or without a proposal pending: the port is DETACHED with its table, claims, waits, posts and notices gone; the
response stands behind those not yet fetched (R151). Share entries, pool and the other ports are as at a HELLO: counts
lowered, shares ORPHANED, closed or retired, frames returned, and of the other ports a handle emptied only by R2 (R147,
R25, R43, R8, R9, R11). With no proposal the claims it held are handed over, each new holder told CLAIM_GRANTED (R139), and
then every other ATTACHED port is told PEER_DETACHED with the emptied-handle count (R151, R153; log 26). When the DETACH
completes the set of a CLEAR_ALL, every share closes after that in ascending index order, and every table and Post Buffer is
emptied (R161, R164). The store stays. What a pending proposal, the settings and the notices become is said in
CleanupEndsOrReducesTheProposal. -/
def Obligations.DetachLeavesNothingBehind : Prop :=
  ∀ (s : State) (p : Port) (f : Frame), Takes s p 0x02 f → s.isAttached p = true → f.body = [] →
    let gone := s.retiring p
    ∃ (t : State) (n : Nat), exec (.detach p) s = .next t
      ∧ EmptiedCount s p n
      ∧ t.port p = {
          link := (s.port p).link.answered f (Reply.ok .empty)
          attach := { (s.port p).attach with state := .detached, emptied := 0 }
          handles := Vector.replicate 32 none, stage := (s.port p).stage
          posts := { (s.port p).posts with posts := [], mode := .holding, timer := none, faults := 0 }
          notices := { (s.port p).notices with records := [], overflow := false, timer := none, aged := false }
          attention := (t.port p).attention }
      ∧ (∀ (i : ShareIdx) c, (t.share i).claim = some c → p ∉ c.places.map Prod.fst)
      ∧ (s.proposal = none →
          (∀ q : Port, q ≠ p → Told s t q (s.handedTo p q ++ [peerNotice .peerDetached p n])) ∧ OnlyPortsSharesPool s t)
      ∧ (s.detachClears p = false →
          (∀ q : Port, q ≠ p → OtherPortKept s t gone q)
          ∧ (∀ i : ShareIdx, t.share i = s.leftByCleanup p i)
          ∧ t.pool = s.pool.takeBack s gone)
      ∧ (s.detachClears p = true →
          let closing := allShares.filter fun i => (s.leftByCleanup p i).live && (s.leftByCleanup p i).inUse == 0
          (∀ q : Port, q ≠ p → t.port q = { s.port q with
              handles := Vector.replicate 32 none
              stage := { (s.port q).stage with stage := (s.port q).stage.stage.steppedBy s (gone ++ closing) }
              posts := { (s.port q).posts with posts := [], mode := .holding, timer := none }
              notices := (t.port q).notices, attention := (t.port q).attention })
          ∧ (∀ i : ShareIdx, (s.leftByCleanup p i).live = true →
              t.share i = { (s.leftByCleanup p i).closed with claim := none })
          ∧ (∀ i : ShareIdx, (s.leftByCleanup p i).live = false → t.share i = { s.leftByCleanup p i with claim := none })
          ∧ t.pool = s.pool.takeBack s (gone ++ closing))
      ∧ t = { s with ports := t.ports, shares := t.shares, pool := t.pool, proposal := t.proposal, settings := t.settings
                     arbiter := t.arbiter, restCountdown := t.restCountdown }

/-- A pending proposal at the cleanup of port `p` (R161). HELLO: the proposal ends WITHDRAWN (4) when `p` is its proposer, and
VOTER_RESTARTED (5) when `p` is a voter, and the settings stay. DETACH: the proposer's ends it WITHDRAWN with the settings
as they were; a voter's removes the port from both sets, which adopts the proposal (1) when no voter is left or every voter
left has accepted; a third port's leaves it. An adopted SETTINGS record is installed with its phase table and the pointer at
0; an adopted CLEAR_ALL leaves no live share, no handle, no claim record and no post. PROPOSAL_DECIDED with the outcome goes
to the other ATTACHED ports among the proposer and the voters, and to every one at the adoption of CLEAR_ALL, after the
handovers and before the peer notice, under the settings as they are then (R162, R175). -/
def Obligations.CleanupEndsOrReducesTheProposal : Prop :=
  (∀ (s : State) (p : Port) (status tag : Byte) (pr : Proposal), s.resetLow = false → s.power = .run →
      (s.port p).link.transaction = some { status := status, phase := .request 0x01 } →
      (s.port p).attach.state ≠ .cleaning → s.proposal = some pr →
      let decided (q : Port) : List Notice :=
        if pr.proposer = p ∧ pr.voters[q] = true then [proposalNotice .proposalDecided p pr.id 4]
        else if pr.proposer ≠ p ∧ pr.voters[p] = true ∧ (q = pr.proposer ∨ pr.voters[q] = true) then
          [proposalNotice .proposalDecided pr.proposer pr.id 5]
        else []
      ∃ (t : State) (n : Nat), exec (.hello p tag) s = .next t
        ∧ t.proposal = (if pr.proposer = p ∨ pr.voters[p] = true then none else some pr)
        ∧ t.settings = s.settings ∧ t.arbiter = s.arbiter ∧ t.proposalCounter = s.proposalCounter
        ∧ EmptiedCount s p n
        ∧ ∀ q : Port, q ≠ p → Told s t q (s.handedTo p q ++ decided q ++
            (if (s.port p).stage.stage.endsAtHello then
              [peerNotice (if (s.port p).attach.state = .detached then .peerAttached else .peerRestarted) p n] else [])))
    ∧ ∀ (s : State) (p : Port) (f : Frame) (pr : Proposal), Takes s p 0x02 f → s.isAttached p = true → f.body = [] →
      s.proposal = some pr →
      let settingsStay (t : State) : Prop := t.settings = s.settings ∧ t.arbiter = s.arbiter
      let told (t : State) (n : Nat) (outcome : Option Nat) : Prop := ∀ q : Port, q ≠ p →
        (t.port q).notices = if s.isAttached q then
            ((s.port q).notices.pushAll s.settings (s.handedTo p q)).pushAll t.settings
              ((match outcome with
                | none => []
                | some code =>
                  if q = pr.proposer ∨ pr.voters[q] = true ∨ (code = 1 ∧ pr.action = .clearAll) then
                    [proposalNotice .proposalDecided pr.proposer pr.id code]
                  else [])
                ++ [peerNotice .peerDetached p n])
          else (s.port q).notices
      ∃ (t : State) (n : Nat), exec (.detach p) s = .next t
        ∧ EmptiedCount s p n
        ∧ (t.port p).attach.state = .detached ∧ t.proposalCounter = s.proposalCounter
        ∧ (pr.proposer = p → t.proposal = none ∧ settingsStay t ∧ told t n (some 4))
        ∧ (pr.proposer ≠ p → pr.voters[p] = false → t.proposal = some pr ∧ settingsStay t ∧ told t n none)
        ∧ (pr.proposer ≠ p → pr.voters[p] = true →
            ((∀ q : Port, q ≠ p → pr.voters[q] = false) ∨ (∀ q : Port, q ≠ p → pr.accepted[q] = pr.voters[q]) →
              t.proposal = none ∧ told t n (some 1)
                ∧ (∀ r, pr.action = .settings r → t.settings = r
                    ∧ t.arbiter = { s.arbiter with table := r.phaseTable, pointer := 0 })
                ∧ (pr.action = .clearAll → settingsStay t
                    ∧ (∀ i : ShareIdx, (t.share i).live = false ∧ (t.share i).claim = none)
                    ∧ ∀ q : Port, (∀ k : HandleNo, t.handle q k = none) ∧ (t.port q).posts.posts = []))
            ∧ ((∃ q : Port, q ≠ p ∧ pr.voters[q] = true) → (∃ q : Port, q ≠ p ∧ pr.accepted[q] ≠ pr.voters[q]) →
              t.proposal = some { pr with voters := pr.voters.set p false, accepted := pr.accepted.set p false }
                ∧ settingsStay t ∧ told t n none))

/-! ## Agreement -/

/-- PROPOSE with another port ATTACHED opens a proposal: the id counter steps, the voters are the other ATTACHED ports, the
vote window runs, each voter is told PROPOSAL_OPENED, and the answer is QUEUED (R156, R158). -/
def Obligations.ProposeOpensAProposal : Prop :=
  ∀ (s : State) (p q0 : Port) (f : Frame) (action : ProposalAction), Takes s p 0x60 f → s.isAttached p = true →
    s.proposal = none → q0 ≠ p → s.isAttached q0 = true →
    (f.body = [1] ∧ action = .clearAll
      ∨ ∃ bytes r, f.body = 0 :: bytes ∧ bytes.length = 28 ∧ proposedSettings bytes = some r ∧ action = .settings r) →
    let id := if s.proposalCounter = 255 then 1 else s.proposalCounter + 1
    ∃ (t : State) (voters : PortSet), exec (.propose p) s = .next t
      ∧ (∀ q : Port, voters[q] = (q != p && s.isAttached q))
      ∧ t.proposal = some { id := id, proposer := p, action := action, voters := voters
                            accepted := #v[false, false, false, false], timer := some (s.settings.voteWindow * 1000) }
      ∧ t.proposalCounter = id
      ∧ t.port p = { s.port p with
          link := (s.port p).link.answered f { result := .queued, ending := .done, body := .vote id .pending }
          attention := (t.port p).attention }
      ∧ (∀ q : Port, q ≠ p →
          Told s t q [proposalNotice .proposalOpened p id (if action = .clearAll then 1 else 0)]
          ∧ t.port q = { s.port q with notices := (t.port q).notices, attention := (t.port q).attention })
      ∧ t = { s with proposal := t.proposal, proposalCounter := t.proposalCounter, ports := t.ports
                     restCountdown := t.restCountdown }

/-- A SETTINGS record is adopted at the PROPOSE of a port with no other port ATTACHED, and at the VOTE whose accept completes
the set: the record is replaced whole, the Store Arbiter installs its table with the pointer at 0, the proposal is gone,
and the proposer and the voters are told PROPOSAL_DECIDED with outcome ADOPTED under the new notice settings (R158, R159,
R162, R163, R120, R175). -/
def Obligations.SettingsAreAdoptedWhole : Prop :=
  (∀ (s : State) (p : Port) (f : Frame) (bytes : List Byte) (r : Settings), Takes s p 0x60 f → s.isAttached p = true →
    s.proposal = none → (∀ q : Port, q ≠ p → s.isAttached q = false) → f.body = 0 :: bytes → bytes.length = 28 →
    proposedSettings bytes = some r →
    let id := if s.proposalCounter = 255 then 1 else s.proposalCounter + 1
    ∃ t, exec (.propose p) s = .next t
      ∧ t.settings = r ∧ t.arbiter = { s.arbiter with table := r.phaseTable, pointer := 0 }
      ∧ t.proposal = none ∧ t.proposalCounter = id
      ∧ t.port p = { s.port p with
          link := (s.port p).link.answered f (Reply.ok (.vote id .adopted))
          notices := (s.port p).notices.pushAll r [proposalNotice .proposalDecided p id 1]
          attention := (t.port p).attention }
      ∧ OtherPortsSame s t [p]
      ∧ t = { s with settings := t.settings, arbiter := t.arbiter, proposal := t.proposal
                     proposalCounter := t.proposalCounter, ports := t.ports, restCountdown := t.restCountdown })
  ∧ ∀ (s : State) (p : Port) (f : Frame) (b : Byte) (pr : Proposal) (r : Settings), Takes s p 0x61 f →
    s.isAttached p = true → f.body = [b, 1] → s.proposal = some pr → pr.id = b.toNat → pr.voters[p] = true →
    pr.accepted[p] = false → (∀ q : Port, q ≠ p → pr.accepted[q] = pr.voters[q]) → pr.action = .settings r →
    ∃ t, exec (.vote p) s = .next t
      ∧ t.settings = r ∧ t.arbiter = { s.arbiter with table := r.phaseTable, pointer := 0 } ∧ t.proposal = none
      ∧ (t.port p).link = (s.port p).link.answered f (Reply.ok (.vote pr.id .adopted))
      ∧ (∀ q : Port, t.port q = { s.port q with
          link := (t.port q).link
          notices := if s.isAttached q && (q == pr.proposer || pr.voters[q]) then
              (s.port q).notices.pushAll r [proposalNotice .proposalDecided pr.proposer pr.id 1] else (s.port q).notices
          attention := (t.port q).attention }
          ∧ (q ≠ p → (t.port q).link = (s.port q).link))
      ∧ t = { s with settings := t.settings, arbiter := t.arbiter, proposal := t.proposal, ports := t.ports
                     restCountdown := t.restCountdown }

/-- CLEAR_ALL is adopted in the same two ways: every OPEN or ORPHANED share closes (and retires when no operation is in
flight), the frames of those that retire going back in ascending share index order; every handle is emptied, every claim
record is gone, every Post Buffer is emptied with its counts kept, the operations in the data stages go on, and every
ATTACHED port is told; settings, arbiter, attachment and the queues stay, and the id counter steps at the PROPOSE alone
(R164, R26, R44, R137, R110, R162). -/
def Obligations.ClearAllClosesEverything : Prop :=
  ∀ (s : State) (p : Port) (f : Frame) (c : Instr) (proposer : Port) (id : Nat), s.isAttached p = true →
    ((c = .propose p ∧ Takes s p 0x60 f ∧ f.body = [1] ∧ s.proposal = none
        ∧ (∀ q : Port, q ≠ p → s.isAttached q = false) ∧ proposer = p
        ∧ id = (if s.proposalCounter = 255 then 1 else s.proposalCounter + 1))
      ∨ (∃ (b : Byte) (pr : Proposal), c = .vote p ∧ Takes s p 0x61 f ∧ f.body = [b, 1] ∧ s.proposal = some pr
        ∧ pr.id = b.toNat ∧ pr.voters[p] = true ∧ pr.accepted[p] = false
        ∧ (∀ q : Port, q ≠ p → pr.accepted[q] = pr.voters[q]) ∧ pr.action = .clearAll ∧ proposer = pr.proposer
        ∧ id = pr.id)) →
    let closing := allShares.filter fun i => (s.share i).live && (s.share i).inUse == 0
    ∃ t, exec c s = .next t
      ∧ (∀ i : ShareIdx, (s.share i).live = true → t.share i = { (s.share i).closed with claim := none })
      ∧ (∀ i : ShareIdx, (s.share i).live = false → t.share i = { s.share i with claim := none })
      ∧ (∀ (q : Port) (h : HandleNo), t.handle q h = none)
      ∧ (∀ q : Port, (t.port q).posts = { (s.port q).posts with posts := [], mode := .holding, timer := none }
          ∧ (t.port q).attach = (s.port q).attach
          ∧ (t.port q).stage = { (s.port q).stage with stage := (s.port q).stage.stage.steppedBy s closing }
          ∧ Told s t q [proposalNotice .proposalDecided proposer id 1]
          ∧ (q ≠ p → (t.port q).link = (s.port q).link))
      ∧ (t.port p).link = (s.port p).link.answered f (Reply.ok (.vote id .adopted))
      ∧ t.pool = s.pool.takeBack s closing
      ∧ t.proposal = none ∧ t.proposalCounter = (if c = .propose p then id else s.proposalCounter)
      ∧ t = { s with ports := t.ports, shares := t.shares, pool := t.pool, proposal := none
                     proposalCounter := t.proposalCounter, restCountdown := t.restCountdown }

/-- A proposal that is not adopted. VOTE: an accept that leaves votes missing is recorded and the proposal stays; a reject
ends it REJECTED (R159). VOTE_WINDOW_EXPIRY ends it LAPSED (R160). At an end the proposer and the voters are told
PROPOSAL_DECIDED with the outcome, and the settings and every other block stay as they were (R162). -/
def Obligations.ProposalEndsWithoutAdoption : Prop :=
  (∀ (s : State) (p : Port) (f : Frame) (b : Byte) (pr : Proposal), Takes s p 0x61 f → s.isAttached p = true →
      s.proposal = some pr → pr.id = b.toNat → pr.voters[p] = true → pr.accepted[p] = false →
      (f.body = [b, 1] → (∃ q : Port, q ≠ p ∧ pr.accepted[q] ≠ pr.voters[q]) →
        ∃ t, exec (.vote p) s = .next t
          ∧ t.proposal = some { pr with accepted := pr.accepted.set p true }
          ∧ t.port p = { s.port p with
              link := (s.port p).link.answered f (Reply.ok (.vote pr.id .pending)), attention := (t.port p).attention }
          ∧ OtherPortsSame s t [p]
          ∧ t = { s with proposal := t.proposal, ports := t.ports, restCountdown := t.restCountdown })
      ∧ (f.body = [b, 0] → ∃ t, exec (.vote p) s = .next t
          ∧ t.proposal = none
          ∧ (t.port p).link = (s.port p).link.answered f (Reply.ok (.vote pr.id .rejected))
          ∧ (∀ q : Port, Told s t q (if q = pr.proposer ∨ pr.voters[q] = true then
                [proposalNotice .proposalDecided pr.proposer pr.id 2] else [])
              ∧ t.port q = { s.port q with
                  link := (t.port q).link, notices := (t.port q).notices, attention := (t.port q).attention }
              ∧ (q ≠ p → (t.port q).link = (s.port q).link))
          ∧ t = { s with proposal := none, ports := t.ports, restCountdown := t.restCountdown }))
    ∧ ∀ (s : State) (pr : Proposal), s.running = true → s.proposal = some pr → pr.timer.isSome = true →
      ∃ t, exec .voteWindowExpiry s = .next t
        ∧ t.proposal = none
        ∧ (∀ q : Port, Told s t q (if q = pr.proposer ∨ pr.voters[q] = true then
              [proposalNotice .proposalDecided pr.proposer pr.id 3] else [])
            ∧ t.port q = { s.port q with notices := (t.port q).notices, attention := (t.port q).attention })
        ∧ t = { s with proposal := none, ports := t.ports, restCountdown := t.restCountdown }

/-! ## Rest, wake, reset -/

/-- REST_COUNTDOWN_EXPIRY: the broker is RESTING with the countdown stopped, and every block keeps its state, the attention
lines theirs (R189). WARM_UP_EXPIRY: the broker is in RUN with the warm-up timer stopped, the store and the path as they
were. With no pending HELLO nothing of any port changes but its attention line, which takes the level its conditions give
(R190, R176). The pending HELLOs are taken in ascending port order, each on the state the one before it left, with the
cleanup, the notices, the share entries and the pool of a HELLO in RUN, but that the frames that arrived after it stay
(R146, R147, R148); on a CLEANING port, whose operation still runs, the flush alone is repeated (R149). A port with an EMPTY
data stage is ATTACHED, with the clean-list count in its response and nothing of what it held. -/
def Obligations.RestKeepsEveryBlockAndWarmUpReturnsToRun : Prop :=
  (∀ s : State, s.running = true → s.restCountdown.isSome = true →
      exec .restCountdownExpiry s = .next { s with power := .resting, restCountdown := none })
    ∧ ∀ s : State, s.resetLow = false → s.power = .warming → s.warmUpTimer.isSome = true →
      ∃ t, exec .warmUpExpiry s = .next t
        ∧ t.power = .run ∧ t.warmUpTimer = none ∧ t.arbiter.path = s.arbiter.path ∧ t.mem = s.mem
        ∧ ((∀ p : Port, (s.port p).attach.pendingHello = none) →
            (∀ p : Port, SamePort s t p ∧ (t.port p).attention = (t.port p).calls)
            ∧ t = { s with ports := t.ports, power := .run, warmUpTimer := none, restCountdown := t.restCountdown })
        ∧ ((∀ (p : Port) (h : PendingHello), (s.port p).attach.pendingHello = some h →
              (s.port p).attach.state = .cleaning → (s.port p).stage.stage ≠ .empty) →
            ∃ c : Fin 5 → State, c 0 = { s with power := .run, warmUpTimer := none }
              ∧ (∀ p : Port, (s.port p).attach.pendingHello = none → c p.succ = c p.castSucc)
              ∧ (∀ (p : Port) (h : PendingHello), (s.port p).attach.pendingHello = some h →
                  let stay := (s.port p).link.requests.drop h.arrival
                  ((s.port p).attach.state = .cleaning → HelloRepeated (c p.castSucc) (c p.succ) p h.tag stay)
                  ∧ ((s.port p).attach.state ≠ .cleaning → HelloTaken (c p.castSucc) (c p.succ) p h.tag stay))
              ∧ (∀ p : Port, SamePort (c 4) t p ∧ (t.port p).attention = (t.port p).calls)
              ∧ t = { c 4 with ports := t.ports, restCountdown := t.restCountdown })
        ∧ ∀ (p : Port) (h : PendingHello), (s.port p).attach.pendingHello = some h →
            (s.port p).attach.state ≠ .cleaning → (s.port p).stage.stage = .empty →
            (t.port p).attach
              = { state := .attached, pendingHello := none, announcement := .none, emptied := 0, helloTag := h.tag }
            ∧ (t.port p).link = { (s.port p).link with
                requests := (s.port p).link.requests.drop h.arrival
                responses := [.completed { kind := 0x01, tag := h.tag, reply := Reply.ok (.hello t.pool.clean.length) }] }
            ∧ (∀ k : HandleNo, t.handle p k = none)
            ∧ (∀ (i : ShareIdx) c, (t.share i).claim = some c → p ∉ c.places.map Prod.fst)
            ∧ (t.port p).posts = { (s.port p).posts with
                posts := [], mode := .holding, timer := none, ordinal := 0, faults := 0 }
            ∧ (t.port p).stage.stage = .empty

/-- RESET falls: no transaction, timer, burst or pending HELLO is left, every attention line is released, and of the store
at most the block of a writing burst in flight changes (R192, R123). That a READ's burst in flight leaves its block as it was is
the model's choice (log 7): R123 calls the bytes of the block of any burst in flight whatever the memory holds, and R87 has a
READ never write to the store. What else is held while RESET is low is the model's choice too (log 10) and is not part of the
statement. -/
def Obligations.ResetLosesWhatIsInProgress : Prop :=
  ∀ s : State, s.resetLow = false → MemoryCanonical s →
    ∃ t, exec .resetAssert s = .next t
      ∧ t.resetLow = true ∧ t.running = false ∧ t.arbiter.path = .free
      ∧ t.restCountdown = none ∧ t.warmUpTimer = none
      ∧ (∀ p : Port, (t.port p).link.transaction = none ∧ (t.port p).attention = false
          ∧ (t.port p).attach.pendingHello = none ∧ (t.port p).posts.timer = none ∧ (t.port p).notices.timer = none
          ∧ (t.port p).stage.stage.isBursting = false)
      ∧ (∀ (i : ShareIdx) c, (t.share i).claim = some c → c.lease = none)
      ∧ (∀ pr, t.proposal = some pr → pr.timer = none)
      ∧ (s.arbiter.path = .free → t.mem = s.mem)
      ∧ (∀ (p : Port) (op : Operation) (f : FrameNo) (bs : List Byte), s.arbiter.path = .busy (.port p) →
          (s.port p).stage.stage = .bursting op f bs →
          (op.kind.isRead = true → t.mem = s.mem)
          ∧ ∀ x : Nat, (x < f.val * 1024 + op.pos % 1024 / 64 * 64 ∨ f.val * 1024 + op.pos % 1024 / 64 * 64 + 64 ≤ x) →
              t.mem.read x = s.mem.read x)
      ∧ (∀ sf : ScrubFrame, s.arbiter.path = .busy .scrub → s.pool.scrub = some sf → sf.progress ≤ 15 →
          ∀ x : Nat, (x < sf.frame.val * 1024 + sf.progress * 64 ∨ sf.frame.val * 1024 + sf.progress * 64 + 64 ≤ x) →
            t.mem.read x = s.mem.read x)

/-- At the release of RESET, or when power becomes valid with RESET high, every block takes its power-on state, whatever
the state was (R192; `ResetIsThePowerOnState` says what that is). With no burst in flight the store keeps its bytes (R60;
that it keeps them at the application of power too is the model's choice, log 6). -/
def Obligations.PowerOnTakesThePowerOnState : Prop :=
  ∀ s : State, ∃ t, exec .powerOn s = .next t
    ∧ t = { State.reset with mem := t.mem, freeCount := t.freeCount, pending := s.pending }
    ∧ (s.arbiter.path = .free → t.mem = s.mem)

/-! ## Invariants -/

/-- Every invariant stated below holds at reset. -/
def Obligations.InvariantsHoldAtReset : Prop :=
  MemoryCanonical State.reset ∧ QueuesBounded State.reset ∧ GenerationsInRange State.reset ∧ SettingsLegal State.reset
    ∧ PathMatchesStages State.reset ∧ FramesAccounted State.reset ∧ CleanFramesZero State.reset
    ∧ BurstsOnBoundFrames State.reset ∧ HandleCountsTrue State.reset
    ∧ DataPathSound State.reset ∧ ResponsesInOrder State.reset ∧ AttentionDriven State.reset
    ∧ CountdownDriven State.reset ∧ ClaimsSound State.reset

/-- Every step keeps the store in canonical form, with no byte outside its 262,144; every queue within its places: 4 frames, 4
responses, 8 posts, 16 notices (R182, R183, R93, R169); every generation in 1..4095 (R2); the settings legal, with the
arbiter's table the record's (R155, R113, R114); and the path BUSY exactly with the burst in flight (R111, R83). -/
def Obligations.StepKeepsStoreQueuesRangesAndPath : Prop :=
  (∀ s t : State, MemoryCanonical s → step s = .next t → MemoryCanonical t)
    ∧ (∀ s t : State, QueuesBounded s → step s = .next t → QueuesBounded t)
      ∧ ((∀ s t : State, GenerationsInRange s → step s = .next t → GenerationsInRange t)
        ∧ ∀ s t : State, SettingsLegal s → step s = .next t → SettingsLegal t)
      ∧ ∀ s t : State, PathMatchesStages s → step s = .next t → PathMatchesStages t

/-- Every step keeps every frame in exactly one of its four places (R46, R49). -/
def Obligations.StepKeepsFramesAccounted : Prop :=
  ∀ s t : State, FramesAccounted s → step s = .next t → FramesAccounted t

/-- Every step keeps every byte of every frame on the clean list zero, and the scrub frame's blocks below its progress count
(R47, R50), so the frames a need is served with read as zeros (R53): a burst in flight is on a frame bound to a share, which
by R46 is on no list. The companions are invariants stated above and below. -/
def Obligations.StepKeepsCleanFramesZero : Prop :=
  ∀ s t : State, MemoryCanonical s → FramesAccounted s → PathMatchesStages s → DataPathSound s → BurstsOnBoundFrames s →
    CleanFramesZero s → step s = .next t → CleanFramesZero t ∧ BurstsOnBoundFrames t

/-- Every step keeps every current-handle count equal to the number of current handles (R5). -/
def Obligations.StepKeepsHandleCountsTrue : Prop :=
  ∀ s t : State, HandleCountsTrue s → step s = .next t → HandleCountsTrue t

/-- Every step keeps the in-use counts true and every piece still to be carried out in a backed slot, so no step from such a
state stops: it answers a next state of the same kind (R6, R84, R27). -/
def Obligations.StepNeverStopsOnASoundDataPath : Prop :=
  ∀ s : State, DataPathSound s → ∃ t, step s = .next t ∧ DataPathSound t

/-- Every step keeps the Response Queues in order: completed responses ahead of the one reservation there can be (R104,
R183). -/
def Obligations.StepKeepsResponsesInOrder : Prop :=
  ∀ s t : State, ResponsesInOrder s → step s = .next t → ResponsesInOrder t

/-- Every step keeps the attention lines on their conditions in RUN (R176), and the rest countdown running exactly while the
broker idles with a rest delay; the countdown starts with a full rest delay of the settings then current, in microseconds,
and keeps its deadline while it runs (R188; what idleness takes a port without a transaction to be is log 29). -/
def Obligations.StepKeepsLinesAndCountdownDriven : Prop :=
  (∀ s t : State, AttentionDriven s → step s = .next t → AttentionDriven t)
    ∧ (∀ s t : State, CountdownDriven s → step s = .next t → CountdownDriven t)
    ∧ ∀ s t : State, step s = .next t → t.restCountdown.isSome = true →
      t.restCountdown = if s.restCountdown.isSome then s.restCountdown else some (t.settings.restDelay * 1000)

/-- Every step keeps every claim record as R124 requires: no port twice, every port in it ATTACHED, with a current handle on
the share that holds WRITE. -/
def Obligations.StepKeepsClaimsSound : Prop :=
  ∀ s t : State, HandleCountsTrue s → ClaimsSound s → step s = .next t → ClaimsSound t
end

