-- ==== Sys2Proof/Laws/Memory.lean ====
section
/-! SUPPORT. The store: what a read gives after a write, and that every write keeps the canonical form. -/

namespace Sys2Proof.Machine

/-! ## Reading after writing -/

@[simp] theorem Memory.read_nil (x : Nat) : Memory.read [] x = 0 := rfl

theorem Memory.read_cons (a : Nat) (b : Byte) (m : Memory) (x : Nat) :
    Memory.read ((a, b) :: m) x = if x = a then b else Memory.read m x := rfl

/-- An address below every listed one reads as 0. -/
theorem Memory.read_below {m : Memory} {lo x : Nat} (h : Memory.wfFrom lo m = true) (hx : x < lo) : m.read x = 0 := by
  induction m generalizing lo with
  | nil => rfl
  | cons c m ih =>
    obtain ⟨a, b⟩ := c
    simp only [Memory.wfFrom, Bool.and_eq_true, decide_eq_true_eq] at h
    rw [Memory.read_cons, if_neg (by omega), ih h.2 (by omega)]

/-- A byte written reads back; every other byte reads as before. -/
theorem Memory.read_write {m : Memory} {lo : Nat} (h : Memory.wfFrom lo m = true) (x y : Nat) (v : Byte) :
    (m.write x v).read y = if y = x then v else m.read y := by
  induction m generalizing lo with
  | nil =>
    simp only [Memory.write]
    by_cases hv : v = 0
    · rw [if_pos hv, Memory.read_nil, hv, ite_self]
    · rw [if_neg hv]
      rfl
  | cons c m ih =>
    obtain ⟨a, b⟩ := c
    simp only [Memory.wfFrom, Bool.and_eq_true, decide_eq_true_eq] at h
    simp only [Memory.write]
    by_cases h1 : x < a
    · rw [if_pos h1]
      by_cases hv : v = 0
      · rw [if_pos hv]
        by_cases hy : y = x
        · subst hy
          rw [if_pos rfl, Memory.read_cons, if_neg (by omega), Memory.read_below h.2 (by omega), hv]
        · rw [if_neg hy]
      · rw [if_neg hv]
        rfl
    · rw [if_neg h1]
      by_cases h2 : x = a
      · rw [if_pos h2]
        subst h2
        by_cases hv : v = 0
        · rw [if_pos hv]
          by_cases hy : y = x
          · subst hy
            rw [if_pos rfl, Memory.read_below h.2 (by omega), hv]
          · rw [if_neg hy, Memory.read_cons, if_neg hy]
        · rw [if_neg hv]
          by_cases hy : y = x <;> simp [Memory.read, hy]
      · rw [if_neg h2, Memory.read_cons, ih h.2, Memory.read_cons]
        by_cases hy : y = x
        · subst hy
          rw [if_neg h2, if_pos rfl, if_pos rfl]
        · simp [hy]

/-! ## The canonical form -/

/-- A write in the store at or above `lo` keeps the form from `lo` on. -/
theorem Memory.wfFrom_write {m : Memory} {lo : Nat} (h : Memory.wfFrom lo m = true) {x : Nat} (hl : lo ≤ x)
    (hx : x < Config.storeBytes) (v : Byte) : Memory.wfFrom lo (m.write x v) = true := by
  induction m generalizing lo with
  | nil =>
    simp only [Memory.write]
    by_cases hv : v = 0
    · rw [if_pos hv]
      rfl
    · rw [if_neg hv]
      simp only [Memory.wfFrom, Bool.and_eq_true, decide_eq_true_eq]
      exact ⟨⟨⟨hl, hx⟩, hv⟩, trivial⟩
  | cons c m ih =>
    obtain ⟨a, b⟩ := c
    simp only [Memory.wfFrom, Bool.and_eq_true, decide_eq_true_eq] at h
    obtain ⟨⟨⟨h1, h2⟩, h3⟩, h4⟩ := h
    simp only [Memory.write]
    by_cases c1 : x < a
    · rw [if_pos c1]
      by_cases hv : v = 0
      · rw [if_pos hv]
        simp only [Memory.wfFrom, Bool.and_eq_true, decide_eq_true_eq]
        exact ⟨⟨⟨h1, h2⟩, h3⟩, h4⟩
      · rw [if_neg hv]
        simp only [Memory.wfFrom, Bool.and_eq_true, decide_eq_true_eq]
        exact ⟨⟨⟨hl, hx⟩, hv⟩, ⟨⟨c1, h2⟩, h3⟩, h4⟩
    · rw [if_neg c1]
      by_cases c2 : x = a
      · rw [if_pos c2]
        subst c2
        by_cases hv : v = 0
        · rw [if_pos hv]
          clear ih h3
          cases m with
          | nil => rfl
          | cons d m =>
            obtain ⟨a', b'⟩ := d
            simp only [Memory.wfFrom, Bool.and_eq_true, decide_eq_true_eq] at h4 ⊢
            exact ⟨⟨⟨by omega, h4.1.1.2⟩, h4.1.2⟩, h4.2⟩
        · rw [if_neg hv]
          simp only [Memory.wfFrom, Bool.and_eq_true, decide_eq_true_eq]
          exact ⟨⟨⟨hl, hx⟩, hv⟩, h4⟩
      · rw [if_neg c2]
        simp only [Memory.wfFrom, Bool.and_eq_true, decide_eq_true_eq]
        exact ⟨⟨⟨h1, h2⟩, h3⟩, ih h4 (by omega)⟩

/-- A write in the store keeps the canonical form. -/
theorem Memory.wf_write {m : Memory} (h : m.wf = true) {x : Nat} (hx : x < Config.storeBytes) (v : Byte) :
    (m.write x v).wf = true :=
  Memory.wfFrom_write h (Nat.zero_le x) hx v

/-- Bytes written in the store keep the canonical form. -/
theorem Memory.wf_writeBytes {m : Memory} (h : m.wf = true) (vs : List Byte) {x : Nat}
    (hx : x + vs.length ≤ Config.storeBytes) : (m.writeBytes x vs).wf = true := by
  induction vs generalizing m x with
  | nil => exact h
  | cons v vs ih =>
    simp only [List.length_cons] at hx
    exact ih (Memory.wf_write h (by omega) v) (by omega)

/-- What a read gives after bytes were written: the byte written there, or what it gave before. -/
theorem Memory.read_writeBytes {m : Memory} (h : m.wf = true) (vs : List Byte) {x : Nat}
    (hx : x + vs.length ≤ Config.storeBytes) (y : Nat) :
    (m.writeBytes x vs).read y = if x ≤ y ∧ y < x + vs.length then vs.getD (y - x) 0 else m.read y := by
  induction vs generalizing m x with
  | nil =>
    rw [if_neg (by simp only [List.length_nil]; omega)]
    rfl
  | cons v vs ih =>
    simp only [List.length_cons] at hx ⊢
    rw [Memory.writeBytes, ih (Memory.wf_write h (by omega) v) (by omega), Memory.read_write h]
    by_cases h1 : y = x
    · subst h1
      rw [if_neg (by omega), if_pos rfl, if_pos (by omega)]
      simp
    · by_cases h2 : x + 1 ≤ y ∧ y < x + 1 + vs.length
      · rw [if_pos h2, if_pos (by omega)]
        obtain ⟨k, hk⟩ : ∃ k, y - x = k + 1 := ⟨y - x - 1, by omega⟩
        rw [hk, show y - (x + 1) = k by omega]
        simp
      · rw [if_neg h2, if_neg h1, if_neg (by omega)]

/-- Bytes outside those written read as before. -/
theorem Memory.read_writeBytes_outside {m : Memory} (h : m.wf = true) (vs : List Byte) {x : Nat}
    (hx : x + vs.length ≤ Config.storeBytes) {y : Nat} (hy : y < x ∨ x + vs.length ≤ y) :
    (m.writeBytes x vs).read y = m.read y := by
  rw [Memory.read_writeBytes h vs hx, if_neg (by omega)]

@[simp] theorem Memory.length_readBytes (m : Memory) (x n : Nat) : (m.readBytes x n).length = n := by
  induction n generalizing x with
  | zero => rfl
  | succ n ih => simp [Memory.readBytes, ih]

/-- Byte `k` of the bytes read. -/
theorem Memory.getD_readBytes (m : Memory) (x n k : Nat) (h : k < n) : (m.readBytes x n).getD k 0 = m.read (x + k) := by
  induction n generalizing x k with
  | zero => omega
  | succ n ih =>
    cases k with
    | zero => simp [Memory.readBytes]
    | succ k =>
      have := ih (x + 1) k (by omega)
      simp only [Memory.readBytes]
      simp only [List.getD_cons_succ]
      rw [this, show x + 1 + k = x + (k + 1) by omega]

end Sys2Proof.Machine
end

