-- ==== Sys2Proof/Laws/State.lean ====
section
/-! SUPPORT. One equation per field per update of the state, all true by computation, so that no proof unfolds a record
update: what `modPort`, `mapPorts`, `modShare` and the close of an event leave alone, and what they change. The readers
`port`, `share` and `handle` are written back to the fields. -/

namespace Sys2Proof.Machine

/-! ## Readers -/

@[simp] theorem State.port_eq (s : State) (p : Port) : s.port p = s.ports[p] := rfl

@[simp] theorem State.share_eq (s : State) (i : ShareIdx) : s.share i = s.shares[i] := rfl

@[simp] theorem State.handle_eq (s : State) (p : Port) (h : HandleNo) : s.handle p h = s.ports[p].handles[h] := rfl

/-- Reading a port's record after a change of one port's record. -/
theorem ports_set_get (v : Vector PortState 4) (p q : Port) (x : PortState) :
    (v.set p x)[q] = if q = p then x else v[q] := by
  by_cases h : q = p
  · subst h; simp
  · have : p.val ≠ q.val := fun e => h (Fin.ext e.symm)
    simp [h, this]

/-- Reading a share entry after a change of one entry. -/
theorem shares_set_get (v : Vector Share 64) (i j : ShareIdx) (x : Share) :
    (v.set i x)[j] = if j = i then x else v[j] := by
  by_cases h : j = i
  · subst h; simp
  · have : i.val ≠ j.val := fun e => h (Fin.ext e.symm)
    simp [h, this]

/-- Reading a handle entry after a change of one entry. -/
theorem handles_set_get (v : Vector (Option Handle) 32) (h k : HandleNo) (x : Option Handle) :
    (v.set h x)[k] = if k = h then x else v[k] := by
  by_cases e : k = h
  · subst e; simp
  · have : h.val ≠ k.val := fun c => e (Fin.ext c.symm)
    simp [e, this]

/-! ## A change of one port's record -/

@[simp] theorem State.modPort_mem (s : State) (p : Port) (f : PortState → PortState) : (s.modPort p f).mem = s.mem := rfl

@[simp] theorem State.modPort_ports (s : State) (p : Port) (f : PortState → PortState) :
    (s.modPort p f).ports = s.ports.set p (f s.ports[p]) := rfl

@[simp] theorem State.modPort_shares (s : State) (p : Port) (f : PortState → PortState) : (s.modPort p f).shares = s.shares := rfl

@[simp] theorem State.modPort_pool (s : State) (p : Port) (f : PortState → PortState) : (s.modPort p f).pool = s.pool := rfl

@[simp] theorem State.modPort_arbiter (s : State) (p : Port) (f : PortState → PortState) : (s.modPort p f).arbiter = s.arbiter := rfl

@[simp] theorem State.modPort_settings (s : State) (p : Port) (f : PortState → PortState) : (s.modPort p f).settings = s.settings := rfl

@[simp] theorem State.modPort_proposal (s : State) (p : Port) (f : PortState → PortState) : (s.modPort p f).proposal = s.proposal := rfl

@[simp] theorem State.modPort_proposalCounter (s : State) (p : Port) (f : PortState → PortState) : (s.modPort p f).proposalCounter = s.proposalCounter := rfl

@[simp] theorem State.modPort_power (s : State) (p : Port) (f : PortState → PortState) : (s.modPort p f).power = s.power := rfl

@[simp] theorem State.modPort_restCountdown (s : State) (p : Port) (f : PortState → PortState) : (s.modPort p f).restCountdown = s.restCountdown := rfl

@[simp] theorem State.modPort_warmUpTimer (s : State) (p : Port) (f : PortState → PortState) : (s.modPort p f).warmUpTimer = s.warmUpTimer := rfl

@[simp] theorem State.modPort_resetLow (s : State) (p : Port) (f : PortState → PortState) : (s.modPort p f).resetLow = s.resetLow := rfl

@[simp] theorem State.modPort_freeCount (s : State) (p : Port) (f : PortState → PortState) : (s.modPort p f).freeCount = s.freeCount := rfl

@[simp] theorem State.modPort_pending (s : State) (p : Port) (f : PortState → PortState) : (s.modPort p f).pending = s.pending := rfl

/-! ## A change of every port's record -/

@[simp] theorem State.mapPorts_mem (s : State) (f : Port → PortState → PortState) : (s.mapPorts f).mem = s.mem := rfl

@[simp] theorem State.mapPorts_ports (s : State) (f : Port → PortState → PortState) :
    (s.mapPorts f).ports = Vector.ofFn fun p => f p s.ports[p] := rfl

@[simp] theorem State.mapPorts_shares (s : State) (f : Port → PortState → PortState) : (s.mapPorts f).shares = s.shares := rfl

@[simp] theorem State.mapPorts_pool (s : State) (f : Port → PortState → PortState) : (s.mapPorts f).pool = s.pool := rfl

@[simp] theorem State.mapPorts_arbiter (s : State) (f : Port → PortState → PortState) : (s.mapPorts f).arbiter = s.arbiter := rfl

@[simp] theorem State.mapPorts_settings (s : State) (f : Port → PortState → PortState) : (s.mapPorts f).settings = s.settings := rfl

@[simp] theorem State.mapPorts_proposal (s : State) (f : Port → PortState → PortState) : (s.mapPorts f).proposal = s.proposal := rfl

@[simp] theorem State.mapPorts_proposalCounter (s : State) (f : Port → PortState → PortState) : (s.mapPorts f).proposalCounter = s.proposalCounter := rfl

@[simp] theorem State.mapPorts_power (s : State) (f : Port → PortState → PortState) : (s.mapPorts f).power = s.power := rfl

@[simp] theorem State.mapPorts_restCountdown (s : State) (f : Port → PortState → PortState) : (s.mapPorts f).restCountdown = s.restCountdown := rfl

@[simp] theorem State.mapPorts_warmUpTimer (s : State) (f : Port → PortState → PortState) : (s.mapPorts f).warmUpTimer = s.warmUpTimer := rfl

@[simp] theorem State.mapPorts_resetLow (s : State) (f : Port → PortState → PortState) : (s.mapPorts f).resetLow = s.resetLow := rfl

@[simp] theorem State.mapPorts_freeCount (s : State) (f : Port → PortState → PortState) : (s.mapPorts f).freeCount = s.freeCount := rfl

@[simp] theorem State.mapPorts_pending (s : State) (f : Port → PortState → PortState) : (s.mapPorts f).pending = s.pending := rfl

/-! ## A change of one share entry -/

@[simp] theorem State.modShare_mem (s : State) (i : ShareIdx) (f : Share → Share) : (s.modShare i f).mem = s.mem := rfl

@[simp] theorem State.modShare_ports (s : State) (i : ShareIdx) (f : Share → Share) : (s.modShare i f).ports = s.ports := rfl

@[simp] theorem State.modShare_shares (s : State) (i : ShareIdx) (f : Share → Share) :
    (s.modShare i f).shares = s.shares.set i (f s.shares[i]) := rfl

@[simp] theorem State.modShare_pool (s : State) (i : ShareIdx) (f : Share → Share) : (s.modShare i f).pool = s.pool := rfl

@[simp] theorem State.modShare_arbiter (s : State) (i : ShareIdx) (f : Share → Share) : (s.modShare i f).arbiter = s.arbiter := rfl

@[simp] theorem State.modShare_settings (s : State) (i : ShareIdx) (f : Share → Share) : (s.modShare i f).settings = s.settings := rfl

@[simp] theorem State.modShare_proposal (s : State) (i : ShareIdx) (f : Share → Share) : (s.modShare i f).proposal = s.proposal := rfl

@[simp] theorem State.modShare_proposalCounter (s : State) (i : ShareIdx) (f : Share → Share) : (s.modShare i f).proposalCounter = s.proposalCounter := rfl

@[simp] theorem State.modShare_power (s : State) (i : ShareIdx) (f : Share → Share) : (s.modShare i f).power = s.power := rfl

@[simp] theorem State.modShare_restCountdown (s : State) (i : ShareIdx) (f : Share → Share) : (s.modShare i f).restCountdown = s.restCountdown := rfl

@[simp] theorem State.modShare_warmUpTimer (s : State) (i : ShareIdx) (f : Share → Share) : (s.modShare i f).warmUpTimer = s.warmUpTimer := rfl

@[simp] theorem State.modShare_resetLow (s : State) (i : ShareIdx) (f : Share → Share) : (s.modShare i f).resetLow = s.resetLow := rfl

@[simp] theorem State.modShare_freeCount (s : State) (i : ShareIdx) (f : Share → Share) : (s.modShare i f).freeCount = s.freeCount := rfl

@[simp] theorem State.modShare_pending (s : State) (i : ShareIdx) (f : Share → Share) : (s.modShare i f).pending = s.pending := rfl

/-- The record of port `q` after a change of port `p`'s. -/
theorem State.modPort_get (s : State) (p q : Port) (f : PortState → PortState) :
    (s.modPort p f).ports[q] = if q = p then f s.ports[p] else s.ports[q] := by
  rw [State.modPort_ports, ports_set_get]

theorem State.modPort_same (s : State) (p : Port) (f : PortState → PortState) :
    (s.modPort p f).ports[p] = f s.ports[p] := by
  rw [State.modPort_get, if_pos rfl]

theorem State.modPort_other (s : State) {p q : Port} (f : PortState → PortState) (h : q ≠ p) :
    (s.modPort p f).ports[q] = s.ports[q] := by
  rw [State.modPort_get, if_neg h]

/-- The record of port `q` after a change of every port's. -/
theorem State.mapPorts_get (s : State) (q : Port) (f : Port → PortState → PortState) :
    (s.mapPorts f).ports[q] = f q s.ports[q] := by
  simp

/-- Entry `j` after a change of entry `i`. -/
theorem State.modShare_get (s : State) (i j : ShareIdx) (f : Share → Share) :
    (s.modShare i f).shares[j] = if j = i then f s.shares[i] else s.shares[j] := by
  rw [State.modShare_shares, shares_set_get]

theorem State.modShare_same (s : State) (i : ShareIdx) (f : Share → Share) :
    (s.modShare i f).shares[i] = f s.shares[i] := by
  rw [State.modShare_get, if_pos rfl]

theorem State.modShare_other (s : State) {i j : ShareIdx} (f : Share → Share) (h : j ≠ i) :
    (s.modShare i f).shares[j] = s.shares[j] := by
  rw [State.modShare_get, if_neg h]

/-! ## The named parts of a port's record -/

theorem State.modLink_eq (s : State) (p : Port) (f : Link → Link) :
    s.modLink p f = s.modPort p fun q => { q with link := f q.link } := rfl

theorem State.modAttach_eq (s : State) (p : Port) (f : Attachment → Attachment) :
    s.modAttach p f = s.modPort p fun q => { q with attach := f q.attach } := rfl

theorem State.modPosts_eq (s : State) (p : Port) (f : PostBuffer → PostBuffer) :
    s.modPosts p f = s.modPort p fun q => { q with posts := f q.posts } := rfl

theorem State.modNotices_eq (s : State) (p : Port) (f : NoticeQueue → NoticeQueue) :
    s.modNotices p f = s.modPort p fun q => { q with notices := f q.notices } := rfl

theorem State.setStage_eq (s : State) (p : Port) (d : DataStage) :
    s.setStage p d = s.modPort p fun q => { q with stage := d } := rfl

theorem State.setHandle_eq (s : State) (p : Port) (h : HandleNo) (v : Option Handle) :
    s.setHandle p h v = s.modPort p fun q => { q with handles := q.handles.set h v } := rfl

theorem State.placeResponse_eq (s : State) (p : Port) (kind : Byte) (r : Reply) :
    s.placeResponse p kind r
      = s.modPort p fun q => { q with link := { q.link with responses := completeReserved kind r q.link.responses } } :=
  rfl

theorem State.setClaim_eq (s : State) (i : ShareIdx) (c : Option Claim) :
    s.setClaim i c = s.modShare i fun sh => { sh with claim := c } := rfl

/-! ## The close of an event -/

@[simp] theorem State.settle_mem (s : State) : s.settle.mem = s.mem := by
  unfold State.settle State.driveAttention State.driveCountdown
  split <;> split <;> rfl

/-- The close of an event changes nothing of a port but its attention line. -/
theorem State.settle_get (s : State) (p : Port) :
    s.settle.ports[p] = { s.ports[p] with attention := if s.running then s.ports[p].calls else s.ports[p].attention } := by
  unfold State.settle State.driveAttention State.driveCountdown
  split <;> split <;> simp_all

@[simp] theorem State.settle_shares (s : State) : s.settle.shares = s.shares := by
  unfold State.settle State.driveAttention State.driveCountdown
  split <;> split <;> rfl

@[simp] theorem State.settle_pool (s : State) : s.settle.pool = s.pool := by
  unfold State.settle State.driveAttention State.driveCountdown
  split <;> split <;> rfl

@[simp] theorem State.settle_arbiter (s : State) : s.settle.arbiter = s.arbiter := by
  unfold State.settle State.driveAttention State.driveCountdown
  split <;> split <;> rfl

@[simp] theorem State.settle_settings (s : State) : s.settle.settings = s.settings := by
  unfold State.settle State.driveAttention State.driveCountdown
  split <;> split <;> rfl

@[simp] theorem State.settle_proposal (s : State) : s.settle.proposal = s.proposal := by
  unfold State.settle State.driveAttention State.driveCountdown
  split <;> split <;> rfl

@[simp] theorem State.settle_proposalCounter (s : State) : s.settle.proposalCounter = s.proposalCounter := by
  unfold State.settle State.driveAttention State.driveCountdown
  split <;> split <;> rfl

@[simp] theorem State.settle_power (s : State) : s.settle.power = s.power := by
  unfold State.settle State.driveAttention State.driveCountdown
  split <;> split <;> rfl

@[simp] theorem State.settle_warmUpTimer (s : State) : s.settle.warmUpTimer = s.warmUpTimer := by
  unfold State.settle State.driveAttention State.driveCountdown
  split <;> split <;> rfl

@[simp] theorem State.settle_resetLow (s : State) : s.settle.resetLow = s.resetLow := by
  unfold State.settle State.driveAttention State.driveCountdown
  split <;> split <;> rfl

@[simp] theorem State.settle_freeCount (s : State) : s.settle.freeCount = s.freeCount := by
  unfold State.settle State.driveAttention State.driveCountdown
  split <;> split <;> rfl

@[simp] theorem State.settle_pending (s : State) : s.settle.pending = s.pending := by
  unfold State.settle State.driveAttention State.driveCountdown
  split <;> split <;> rfl

/-- An event that took place answers a next state. -/
@[simp] theorem took_eq (s : State) : took s = .next s.settle := rfl

end Sys2Proof.Machine
end

