-- ==== Sys2Proof/Laws/Ops.lean ====
section
/-! SUPPORT. What the shared operations answer: the Response Queue's entries, the take of a request, a notice push, handle
resolution. -/

namespace Sys2Proof.Machine

/-! ## Responses -/

/-- Completing an entry keeps the number of entries. -/
@[simp] theorem length_completeReserved (k : Byte) (r : Reply) (es : List Entry) :
    (completeReserved k r es).length = es.length := by
  induction es with
  | nil => rfl
  | cons e es ih =>
    cases e with
    | completed x => simp [completeReserved, ih]
    | reserved k' t =>
      simp only [completeReserved]
      split
      · rfl
      · simp [ih]

/-- With every entry COMPLETED there is nothing to complete. -/
theorem completeReserved_none (k : Byte) (r : Reply) (es : List Entry)
    (h : es.all (fun e => match e with | .completed _ => true | .reserved _ _ => false) = true) :
    completeReserved k r es = es := by
  induction es with
  | nil => rfl
  | cons e es ih =>
    cases e with
    | completed x =>
      simp only [List.all_cons, Bool.true_and] at h
      rw [completeReserved, ih h]
    | reserved k' t => simp at h

/-- Behind completed entries, the last reservation of a kind is the one completed. -/
theorem completeReserved_last (k t : Byte) (r : Reply) (es : List Entry)
    (h : es.all (fun e => match e with | .completed _ => true | .reserved _ _ => false) = true) :
    completeReserved k r (es ++ [.reserved k t]) = es ++ [.completed { kind := k, tag := t, reply := r }] := by
  induction es with
  | nil => simp [completeReserved]
  | cons e es ih =>
    cases e with
    | completed x =>
      simp only [List.all_cons, Bool.true_and] at h
      simp [completeReserved, ih h]
    | reserved k' t' => simp at h

/-! ## The take of a request -/

/-- R102 spelled out: what `nextRequest` asks before it gives the head of the queue. -/
theorem nextRequest_some_iff (s : State) (p : Port) (f : Frame) :
    s.nextRequest p = some f ↔ (s.port p).link.requests.head? = some f ∧ s.mayTake p f = true := by
  unfold State.nextRequest
  cases h : (s.port p).link.requests with
  | nil => simp
  | cons g gs =>
    by_cases hg : s.mayTake p g = true
    · simp only [hg, if_true, List.head?_cons, Option.some.injEq]
      exact ⟨fun e => ⟨e, e ▸ hg⟩, fun e => e.1⟩
    · simp only [hg, Bool.false_eq_true, if_false, List.head?_cons, Option.some.injEq, reduceCtorEq, false_iff]
      exact fun e => hg (e.1 ▸ e.2)

/-- A take whose request stands ready: its act, on the state whose queues the take has changed. -/
theorem takeBy_of_next {s : State} {p : Port} {f : Frame} (h : s.nextRequest p = some f) {isKind : Byte → Bool}
    (hk : isKind f.kind = true) (act : Frame → State → State) :
    s.takeBy p isKind act = .next (act f (s.dequeue p f)).settle := by
  simp [State.takeBy, h, hk]

/-- A take that cannot happen changes nothing. -/
theorem takeBy_of_not {s : State} {p : Port} {isKind : Byte → Bool} (h : s.canTake p isKind = false)
    (act : Frame → State → State) : s.takeBy p isKind act = .next s := by
  unfold State.canTake at h
  unfold State.takeBy
  cases hn : s.nextRequest p with
  | none => rfl
  | some f =>
    rw [hn] at h
    simp only [Option.any_some] at h
    simp [h]

/-- A request answered at its take: the service acts, then the answer is placed. -/
theorem takeAndAnswer_of_next {s : State} {p : Port} {f : Frame} (h : s.nextRequest p = some f) (serve : Service) :
    s.takeAndAnswer p f.kind serve
      = .next (((serve f.body (s.dequeue p f)).1).placeResponse p f.kind (serve f.body (s.dequeue p f)).2).settle := by
  unfold State.takeAndAnswer
  rw [takeBy_of_next h (by simp)]

/-- The state a take leaves before its block acts. -/
theorem dequeue_eq (s : State) (p : Port) (f : Frame) :
    s.dequeue p f = s.modPort p fun q => { q with link := { q.link with
      requests := q.link.requests.drop 1
      responses := if f.kind = kindPost then q.link.responses else q.link.responses ++ [.reserved f.kind f.tag] } } := rfl

/-! ## Notices -/

/-- A push to an ATTACHED port (R171). -/
theorem push_attached {s : State} {q : Port} (h : s.isAttached q = true) (n : Notice) :
    s.push q n = s.modPort q fun r => { r with notices := r.notices.pushAll s.settings [n] } := by
  simp only [State.push, h, if_true]
  rfl

/-- A push to a port that is not ATTACHED does nothing (R171). -/
theorem push_not_attached {s : State} {q : Port} (h : s.isAttached q = false) (n : Notice) : s.push q n = s := by
  simp [State.push, h]

/-- Pushes never leave a queue over its 16 places. -/
theorem pushAll_length (nq : NoticeQueue) (r : Settings) (ns : List Notice) (h : nq.records.length ≤ 16) :
    (nq.pushAll r ns).records.length ≤ 16 := by
  induction ns generalizing nq with
  | nil => exact h
  | cons n ns ih =>
    refine ih _ ?_
    split
    · simp only [List.length_append, List.length_singleton]
      omega
    · exact h

/-- What one push leaves of every port's queue. -/
theorem push_told (s : State) (q p : Port) (n : Notice) : Told s (s.push q n) p (if p = q then [n] else []) := by
  unfold Told
  by_cases h : s.isAttached q = true
  · rw [push_attached h]
    by_cases e : p = q
    · subst e
      simp only [State.port_eq, State.modPort_same, h, if_true]
    · simp only [State.port_eq, State.modPort_other s _ e, if_neg e, NoticeQueue.pushAll, ite_self]
  · simp only [Bool.not_eq_true] at h
    rw [push_not_attached h]
    by_cases e : p = q
    · subst e
      simp [h]
    · simp [e, NoticeQueue.pushAll]

/-! ## Handle resolution -/

/-- A handle that resolves is the VALID one at that number, and current (R33). -/
theorem resolve_ok {s : State} {p : Port} {b : Byte} {h : HandleNo} {v : Handle} (e : s.resolve p b = .ok (h, v)) :
    h.val = b.toNat ∧ s.handle p h = some v ∧ s.current v = true := by
  unfold State.resolve at e
  split at e
  · split at e
    · cases e
    · rename_i w hw
      split at e
      · cases e
      · split at e
        · cases e
        · rename_i h1 h2
          cases e
          refine ⟨rfl, hw, ?_⟩
          simp only [State.current, Bool.and_eq_true, beq_iff_eq]
          exact ⟨by simpa using h1, by simpa using h2⟩
  · cases e

end Sys2Proof.Machine
end

