-- ==== Sys2Proof/Laws/Keeps.lean ====
section
/-! SUPPORT. What every shared operation leaves alone, said once for each. `Keeps` is the part of the state that belongs to
no port, share or frame; `KeepsCore` is what even an adoption leaves. -/

namespace Sys2Proof.Machine

/-- `t` has the store, the timers, the power state, the inputs and the queue of `s`. -/
structure KeepsCore (s t : State) : Prop where
  mem : t.mem = s.mem
  path : t.arbiter.path = s.arbiter.path
  proposalCounter : t.proposalCounter = s.proposalCounter
  power : t.power = s.power
  restCountdown : t.restCountdown = s.restCountdown
  warmUpTimer : t.warmUpTimer = s.warmUpTimer
  resetLow : t.resetLow = s.resetLow
  freeCount : t.freeCount = s.freeCount
  pending : t.pending = s.pending

/-- `KeepsCore`, and the settings, the arbiter and the proposal as well. -/
structure Keeps (s t : State) : Prop extends KeepsCore s t where
  settings : t.settings = s.settings
  arbiter : t.arbiter = s.arbiter
  proposal : t.proposal = s.proposal

theorem KeepsCore.refl (s : State) : KeepsCore s s := ⟨rfl, rfl, rfl, rfl, rfl, rfl, rfl, rfl, rfl⟩

theorem KeepsCore.trans {s t u : State} (a : KeepsCore s t) (b : KeepsCore t u) : KeepsCore s u :=
  ⟨b.mem.trans a.mem, b.path.trans a.path, b.proposalCounter.trans a.proposalCounter, b.power.trans a.power,
   b.restCountdown.trans a.restCountdown, b.warmUpTimer.trans a.warmUpTimer, b.resetLow.trans a.resetLow,
   b.freeCount.trans a.freeCount, b.pending.trans a.pending⟩

theorem Keeps.refl (s : State) : Keeps s s := ⟨KeepsCore.refl s, rfl, rfl, rfl⟩

theorem Keeps.trans {s t u : State} (a : Keeps s t) (b : Keeps t u) : Keeps s u :=
  ⟨a.toKeepsCore.trans b.toKeepsCore, b.settings.trans a.settings, b.arbiter.trans a.arbiter,
   b.proposal.trans a.proposal⟩

/-- Folding an operation that keeps the rest keeps the rest. -/
theorem Keeps.foldl {α : Type} {f : State → α → State} (h : ∀ s a, Keeps s (f s a)) (l : List α) (s : State) :
    Keeps s (l.foldl f s) := by
  induction l generalizing s with
  | nil => exact Keeps.refl s
  | cons a l ih => exact (h s a).trans (ih (f s a))

/-! ## Records, responses and notices -/

theorem keeps_modPort (s : State) (p : Port) (f : PortState → PortState) : Keeps s (s.modPort p f) :=
  ⟨⟨rfl, rfl, rfl, rfl, rfl, rfl, rfl, rfl, rfl⟩, rfl, rfl, rfl⟩

theorem keeps_mapPorts (s : State) (f : Port → PortState → PortState) : Keeps s (s.mapPorts f) :=
  ⟨⟨rfl, rfl, rfl, rfl, rfl, rfl, rfl, rfl, rfl⟩, rfl, rfl, rfl⟩

theorem keeps_modShare (s : State) (i : ShareIdx) (f : Share → Share) : Keeps s (s.modShare i f) :=
  ⟨⟨rfl, rfl, rfl, rfl, rfl, rfl, rfl, rfl, rfl⟩, rfl, rfl, rfl⟩

theorem keeps_setPool (s : State) (q : Pool) : Keeps s { s with pool := q } :=
  ⟨⟨rfl, rfl, rfl, rfl, rfl, rfl, rfl, rfl, rfl⟩, rfl, rfl, rfl⟩

theorem keeps_modLink (s : State) (p : Port) (f : Link → Link) : Keeps s (s.modLink p f) :=
  ⟨⟨rfl, rfl, rfl, rfl, rfl, rfl, rfl, rfl, rfl⟩, rfl, rfl, rfl⟩

theorem keeps_modAttach (s : State) (p : Port) (f : Attachment → Attachment) : Keeps s (s.modAttach p f) :=
  ⟨⟨rfl, rfl, rfl, rfl, rfl, rfl, rfl, rfl, rfl⟩, rfl, rfl, rfl⟩

theorem keeps_modPosts (s : State) (p : Port) (f : PostBuffer → PostBuffer) : Keeps s (s.modPosts p f) :=
  ⟨⟨rfl, rfl, rfl, rfl, rfl, rfl, rfl, rfl, rfl⟩, rfl, rfl, rfl⟩

theorem keeps_modNotices (s : State) (p : Port) (f : NoticeQueue → NoticeQueue) : Keeps s (s.modNotices p f) :=
  ⟨⟨rfl, rfl, rfl, rfl, rfl, rfl, rfl, rfl, rfl⟩, rfl, rfl, rfl⟩

theorem keeps_setStage (s : State) (p : Port) (d : DataStage) : Keeps s (s.setStage p d) :=
  ⟨⟨rfl, rfl, rfl, rfl, rfl, rfl, rfl, rfl, rfl⟩, rfl, rfl, rfl⟩

theorem keeps_setHandle (s : State) (p : Port) (h : HandleNo) (v : Option Handle) : Keeps s (s.setHandle p h v) :=
  ⟨⟨rfl, rfl, rfl, rfl, rfl, rfl, rfl, rfl, rfl⟩, rfl, rfl, rfl⟩

theorem keeps_setClaim (s : State) (i : ShareIdx) (c : Option Claim) : Keeps s (s.setClaim i c) :=
  ⟨⟨rfl, rfl, rfl, rfl, rfl, rfl, rfl, rfl, rfl⟩, rfl, rfl, rfl⟩

theorem keeps_placeResponse (s : State) (p : Port) (k : Byte) (r : Reply) : Keeps s (s.placeResponse p k r) :=
  keeps_modLink s p _

theorem keeps_dequeue (s : State) (p : Port) (f : Frame) : Keeps s (s.dequeue p f) := keeps_modLink s p _

theorem keeps_push (s : State) (q : Port) (n : Notice) : Keeps s (s.push q n) := by
  unfold State.push
  split
  · exact keeps_modNotices _ _ _
  · exact Keeps.refl _

/-! ## Shares and handles -/

theorem keeps_stepGeneration (s : State) (i : ShareIdx) : Keeps s (s.stepGeneration i) :=
  ⟨⟨rfl, rfl, rfl, rfl, rfl, rfl, rfl, rfl, rfl⟩, rfl, rfl, rfl⟩

theorem keeps_retire (s : State) (i : ShareIdx) : Keeps s (s.retire i) :=
  ⟨⟨rfl, rfl, rfl, rfl, rfl, rfl, rfl, rfl, rfl⟩, rfl, rfl, rfl⟩

theorem keeps_retireIfDone (s : State) (i : ShareIdx) : Keeps s (s.retireIfDone i) := by
  unfold State.retireIfDone
  split
  · exact keeps_retire _ _
  · exact Keeps.refl _

theorem keeps_enterClosing (s : State) (i : ShareIdx) : Keeps s (s.enterClosing i) :=
  (keeps_modShare _ _ _).trans (keeps_retireIfDone _ _)

theorem keeps_releaseUse (s : State) (i : ShareIdx) : Keeps s (s.releaseUse i) :=
  (keeps_modShare _ _ _).trans (keeps_retireIfDone _ _)

theorem keeps_makeHandle (s : State) (p : Port) (h : HandleNo) (v : Handle) : Keeps s (s.makeHandle p h v) :=
  ⟨⟨rfl, rfl, rfl, rfl, rfl, rfl, rfl, rfl, rfl⟩, rfl, rfl, rfl⟩

theorem keeps_closeIfUnused (s : State) (i : ShareIdx) : Keeps s (s.closeIfUnused i) := by
  unfold State.closeIfUnused
  split
  · exact keeps_enterClosing _ _
  · exact Keeps.refl _

theorem keeps_emptyHandle (s : State) (p : Port) (h : HandleNo) : Keeps s (s.emptyHandle p h) := by
  unfold State.emptyHandle
  split
  · exact Keeps.refl _
  · split
    · exact ((keeps_setHandle _ _ _ _).trans (keeps_modShare _ _ _)).trans (keeps_closeIfUnused _ _)
    · exact keeps_setHandle _ _ _ _

theorem keeps_emptyTable (s : State) (p : Port) : Keeps s (s.emptyTable p) := by
  refine Keeps.foldl (fun s h => ?_) _ s
  split
  · exact (keeps_emptyHandle _ _ _).trans (keeps_modAttach _ _ _)
  · exact Keeps.refl _

theorem keeps_pushTold (s : State) (k : NoticeKind) (p : Port) (i : ShareIdx) (value : Nat)
    (l : List (Port × HandleNo)) : Keeps s (s.pushTold k p i value l) := by
  induction l generalizing s with
  | nil => exact Keeps.refl s
  | cons x l ih => exact (keeps_push _ _ _).trans (ih _)

/-! ## Claims -/

theorem keeps_handover (s : State) (i : ShareIdx) (c : Claim) : Keeps s (s.handover i c) := by
  unfold State.handover
  split
  · exact keeps_setClaim _ _ _
  · exact (keeps_setClaim _ _ _).trans (keeps_push _ _ _)

theorem keeps_pushEnded (s : State) (p : Port) (i : ShareIdx) (cause : Nat) (l : List (Port × HandleNo)) :
    Keeps s (s.pushEnded p i cause l) := by
  induction l generalizing s with
  | nil => exact Keeps.refl s
  | cons x l ih =>
    unfold State.pushEnded
    split
    · exact ih _
    · exact (keeps_push _ _ _).trans (ih _)

theorem keeps_endClaim (s : State) (p : Port) (i : ShareIdx) (cause : Nat) : Keeps s (s.endClaim p i cause) := by
  unfold State.endClaim
  split
  · exact Keeps.refl _
  · exact (keeps_setClaim _ _ _).trans (keeps_pushEnded _ _ _ _ _)

theorem keeps_claimDrop (s : State) (p : Port) (h : HandleNo) (i : ShareIdx) : Keeps s (s.claimDrop p h i) := by
  unfold State.claimDrop
  split
  · exact Keeps.refl _
  · split
    · split
      · exact keeps_handover _ _ _
      · exact Keeps.refl _
    · exact keeps_setClaim _ _ _

theorem keeps_leaveWaiters (p : Port) (s : State) (i : ShareIdx) : Keeps s (State.leaveWaiters p s i) := by
  unfold State.leaveWaiters
  split
  · exact Keeps.refl _
  · exact keeps_setClaim _ _ _

theorem keeps_yieldClaim (p : Port) (s : State) (i : ShareIdx) : Keeps s (State.yieldClaim p s i) := by
  unfold State.yieldClaim
  split
  · exact Keeps.refl _
  · split
    · exact keeps_handover _ _ _
    · exact Keeps.refl _

theorem keeps_claimCleanup (s : State) (p : Port) : Keeps s (s.claimCleanup p) :=
  (Keeps.foldl (keeps_leaveWaiters p) _ _).trans (Keeps.foldl (keeps_yieldClaim p) _ _)

/-! ## The Data Engine -/

theorem keeps_endOperation (s : State) (p : Port) (op : Operation) (a : Option Reply) :
    Keeps s (s.endOperation p op a) := by
  unfold State.endOperation
  cases a with
  | none => exact (keeps_releaseUse _ _).trans (keeps_setStage _ _ _)
  | some r => exact ((keeps_releaseUse _ _).trans (keeps_placeResponse _ _ _ _)).trans (keeps_setStage _ _ _)

theorem keeps_advance (s : State) (p : Port) (op : Operation) : Keeps s (s.advance p op) := by
  unfold State.advance
  split
  · exact keeps_setStage _ _ _
  · exact keeps_endOperation _ _ _ _
  · exact keeps_endOperation _ _ _ _

theorem keeps_bindNeed (s : State) (i : ShareIdx) (need : List SlotNo) : Keeps s (s.bindNeed i need) :=
  ⟨⟨rfl, rfl, rfl, rfl, rfl, rfl, rfl, rfl, rfl⟩, rfl, rfl, rfl⟩

theorem keeps_admit (s : State) (p : Port) (k : DataKind) (a : Admit) : Keeps s (s.startOperation p k a) :=
  ((keeps_bindNeed _ _ _).trans (keeps_modShare _ _ _)).trans (keeps_advance _ _ _)

theorem keeps_dataCleanup (s : State) (p : Port) : Keeps s (s.dataCleanup p) := by
  unfold State.dataCleanup
  dsimp only
  split
  · exact keeps_modPosts _ _ _
  · split
    · exact (keeps_modPosts _ _ _).trans (keeps_endOperation _ _ _ _)
    · exact keeps_modPosts _ _ _
  · split
    · exact (keeps_modPosts _ _ _).trans (keeps_setStage _ _ _)
    · exact keeps_modPosts _ _ _

/-! ## Agreement, cleanup and attachment -/

theorem keeps_closeLive (s : State) (i : ShareIdx) : Keeps s (s.closeLive i) := by
  unfold State.closeLive
  split
  · exact keeps_enterClosing _ _
  · exact Keeps.refl _

theorem keeps_adoptClearAll (s : State) : Keeps s s.adoptClearAll := by
  have h := Keeps.foldl keeps_closeLive allShares s
  unfold State.adoptClearAll
  generalize allShares.foldl State.closeLive s = t at h ⊢
  exact ⟨⟨h.mem, h.path, h.proposalCounter, h.power, h.restCountdown, h.warmUpTimer, h.resetLow, h.freeCount,
    h.pending⟩, h.settings, h.arbiter, h.proposal⟩

theorem keepsCore_adopt (s : State) (a : ProposalAction) : KeepsCore s (s.adopt a) := by
  cases a with
  | settings r => exact ⟨rfl, rfl, rfl, rfl, rfl, rfl, rfl, rfl, rfl⟩
  | clearAll => exact (keeps_adoptClearAll s).toKeepsCore

theorem keeps_pushDecided (s : State) (pr : Proposal) (o : ProposalOutcome) (l : List Port) :
    Keeps s (s.pushDecided pr o l) := by
  induction l generalizing s with
  | nil => exact Keeps.refl s
  | cons q l ih =>
    unfold State.pushDecided
    split
    · exact (keeps_push _ _ _).trans (ih _)
    · exact ih _

theorem keepsCore_endProposal (s : State) (pr : Proposal) (o : ProposalOutcome) : KeepsCore s (s.endProposal pr o) := by
  unfold State.endProposal
  refine KeepsCore.trans ?_ (keeps_pushDecided _ pr o allPorts).toKeepsCore
  split
  · have h := keepsCore_adopt s pr.action
    exact ⟨h.mem, h.path, h.proposalCounter, h.power, h.restCountdown, h.warmUpTimer, h.resetLow, h.freeCount, h.pending⟩
  · exact ⟨rfl, rfl, rfl, rfl, rfl, rfl, rfl, rfl, rfl⟩

theorem keepsCore_agreementCleanup (s : State) (p : Port) (c : CleanupCause) :
    KeepsCore s (s.agreementCleanup p c) := by
  unfold State.agreementCleanup
  split
  · exact KeepsCore.refl _
  · split
    · exact keepsCore_endProposal _ _ _
    · split
      · split
        · exact keepsCore_endProposal _ _ _
        · dsimp only
          split
          · exact keepsCore_endProposal _ _ _
          · exact ⟨rfl, rfl, rfl, rfl, rfl, rfl, rfl, rfl, rfl⟩
      · exact KeepsCore.refl _

theorem keepsCore_cleanup (s : State) (p : Port) (c : CleanupCause) : KeepsCore s (s.cleanup p c) :=
  (((keeps_claimCleanup s p).trans (keeps_emptyTable _ p)).trans (keeps_dataCleanup _ p)).toKeepsCore.trans
    (keepsCore_agreementCleanup _ p c)

theorem keeps_pushPeers (s : State) (p : Port) (n : Notice) (l : List Port) : Keeps s (s.pushPeers p n l) := by
  induction l generalizing s with
  | nil => exact Keeps.refl s
  | cons q l ih =>
    unfold State.pushPeers
    split
    · exact ih _
    · exact (keeps_push _ _ _).trans (ih _)

theorem keeps_becomeAttached (s : State) (p : Port) : Keeps s (s.becomeAttached p) := by
  unfold State.becomeAttached
  dsimp only
  refine Keeps.trans ?_ (keeps_modAttach _ _ _)
  split
  · exact (((keeps_modAttach _ _ _).trans (keeps_modPosts _ _ _)).trans (keeps_placeResponse _ _ _ _)).trans
      (keeps_pushPeers _ _ _ _)
  · exact ((keeps_modAttach _ _ _).trans (keeps_modPosts _ _ _)).trans (keeps_placeResponse _ _ _ _)

theorem keeps_finishCleanup (s : State) (p : Port) : Keeps s (s.finishCleanup p) := by
  unfold State.finishCleanup
  split
  · exact keeps_becomeAttached _ _
  · exact Keeps.refl _

theorem keeps_flushQueues (s : State) (p : Port) (tag : Byte) (stay : List Frame) :
    Keeps s (s.flushQueues p tag stay) :=
  ⟨⟨rfl, rfl, rfl, rfl, rfl, rfl, rfl, rfl, rfl⟩, rfl, rfl, rfl⟩

theorem keepsCore_takeHello (s : State) (p : Port) (tag : Byte) (stay : List Frame) :
    KeepsCore s (s.takeHello p tag stay) := by
  unfold State.takeHello
  dsimp only
  refine KeepsCore.trans ?_ (keeps_finishCleanup _ _).toKeepsCore
  split
  · exact ((keeps_flushQueues _ _ _ _).trans (keeps_modAttach _ _ _)).toKeepsCore
  · exact ((keeps_flushQueues _ _ _ _).trans (keeps_modAttach _ _ _)).toKeepsCore.trans (keepsCore_cleanup _ _ _)

theorem keepsCore_arriveHello (s : State) (p : Port) (tag : Byte) : KeepsCore s (s.arriveHello p tag) := by
  unfold State.arriveHello
  split
  · exact keepsCore_takeHello _ _ _ _
  · exact (keeps_modAttach _ _ _).toKeepsCore

theorem keepsCore_takePending (s : State) (p : Port) : KeepsCore s (s.takePending p) := by
  unfold State.takePending
  split
  · exact KeepsCore.refl _
  · exact keepsCore_takeHello _ _ _ _

end Sys2Proof.Machine
end

