-- ==== Sys2Proof/Laws/Layout.lean ====
section
/-! SUPPORT. What the codes and multi-byte fields of frames say, once each, as the layout statements need it. -/

namespace Sys2Proof.Machine

/-! ## Multi-byte fields -/

@[simp] theorem byte_toNat (n : Nat) : (byte n).toNat = n % 256 := BitVec.toNat_ofNat n 8

/-- Four bytes, most significant first, are their concatenation. -/
theorem be32_eq_append (b3 b2 b1 b0 : Byte) : be32 b3 b2 b1 b0 = b3 ++ b2 ++ b1 ++ b0 := by
  apply BitVec.eq_of_toNat_eq
  have := b3.isLt; have := b2.isLt; have := b1.isLt; have := b0.isLt
  simp only [be32, be16, BitVec.toNat_append, BitVec.toNat_ofNat]
  rw [← Nat.shiftLeft_add_eq_or_of_lt b0.isLt, ← Nat.shiftLeft_add_eq_or_of_lt b1.isLt,
    ← Nat.shiftLeft_add_eq_or_of_lt b2.isLt]
  simp only [Nat.shiftLeft_eq]
  omega

/-- The two bytes of a number below 65536 read back as the number. -/
theorem be16_byte (n : Nat) (h : n < 65536) : be16 (byte (n / 256)) (byte n) = n := by
  simp only [be16, byte_toNat]; omega

/-- The value of a notice record that fits in its two low bytes. -/
theorem bytes32_ofNat_low (n : Nat) (h : n < 65536) : bytes32 (BitVec.ofNat 32 n) = [0, 0, byte (n / 256), byte n] := by
  have value : (BitVec.ofNat 32 n).toNat = n := by rw [BitVec.toNat_ofNat]; omega
  have high : n / 16777216 = 0 := by omega
  have middle : n / 65536 = 0 := by omega
  rw [bytes32, value, high, middle]; rfl

/-! ## Codes (R186) -/

theorem rightsOfByte_eq (b : Byte) :
    rightsOfByte b = if b.toNat < 16 then some ⟨b.getLsbD 0, b.getLsbD 1, b.getLsbD 2, b.getLsbD 3⟩ else none := rfl

theorem scopeOfByte_eq (b : Byte) :
    scopeOfByte b = if b.toNat ≤ 1 then some (if b = 0 then .privateScope else .common) else none := by
  revert b; decide

theorem flagOfByte_eq (b : Byte) : flagOfByte b = if b.toNat ≤ 1 then some (b == 1) else none := by revert b; decide

/-- A phase's code names a port or SCRUB, and no other code does. -/
theorem requesterOfCode_eq_iff (b : Byte) (h : b.toNat ≤ 4) (q : Requester) :
    requesterOfCode b = q ↔ (∃ p : Port, b.toNat = p.val ∧ q = .port p) ∨ b.toNat = 4 ∧ q = .scrub := by
  revert b
  cases q with
  | scrub => decide
  | port p => revert p; decide

end Sys2Proof.Machine
end

