-- ==== Sys2Proof/Laws/Words.lean ====
section
/-! SUPPORT. The statements spell out in their own words what the machine finds by a search; here each search is shown to find
what the words say. -/

namespace Sys2Proof.Machine

/-! ## Searches for the lowest number -/

/-- In a rising list, what a search finds is the one element that passes and has none that passes before it. -/
theorem find?_toList_eq_filter {n : Nat} (ok : Fin n → Bool) (all : List (Fin n)) (rising : all.Pairwise (· < ·)) :
    (all.find? ok).toList = all.filter fun k => ok k && all.all fun j => !decide (j < k) || !ok j := by
  induction all with
  | nil => rfl
  | cons a rest ih =>
    obtain ⟨below, rising⟩ := List.pairwise_cons.mp rising
    have irrefl : decide (a < a) = false := decide_eq_false (Nat.lt_irrefl _)
    have none_below_a : rest.all (fun j => !decide (j < a) || !ok j) = true := by
      rw [List.all_eq_true]
      intro j hj
      rw [show decide (j < a) = false from decide_eq_false (Nat.lt_asymm (below j hj))]; rfl
    have a_below : ∀ k ∈ rest, decide (a < k) = true := fun k hk => decide_eq_true (below k hk)
    rw [List.find?_cons, List.filter_cons, List.all_cons, irrefl, none_below_a]
    cases h : ok a with
    | true =>
      have none_later : rest.filter (fun k => ok k && (a :: rest).all fun j => !decide (j < k) || !ok j) = [] := by
        rw [List.filter_eq_nil_iff]
        intro k hk
        rw [List.all_cons, a_below k hk, h]; simp
      rw [none_later]; rfl
    | false =>
      have same : rest.filter (fun k => ok k && (a :: rest).all fun j => !decide (j < k) || !ok j)
          = rest.filter fun k => ok k && rest.all fun j => !decide (j < k) || !ok j := by
        apply List.filter_congr
        intro k hk
        rw [List.all_cons, h]; simp
      rw [same, ← ih rising]; rfl

theorem pairwise_lt_finRange (n : Nat) : (List.finRange n).Pairwise (· < ·) := List.pairwise_lt_finRange n

/-- A handle is current on an entry as R32 says. -/
theorem State.currentOn_eq (s : State) (q : Port) (i : ShareIdx) (k : HandleNo) :
    s.currentOn q i k = (match s.handle q k with
      | some v => v.share == i && s.current v
      | none => false) := by
  unfold State.currentOn State.current
  cases s.handle q k with
  | none => rfl
  | some v =>
    show (v.share == i && (s.share i).live && v.generation == (s.share i).generation)
      = (v.share == i && ((s.share v.share).live && v.generation == (s.share v.share).generation))
    by_cases h : v.share = i
    · rw [h, Bool.and_assoc]
    · rw [show (v.share == i) = false from beq_eq_false_iff_ne.mpr h]; rfl

/-- The handle that REVOKE and CLOSE tell a port of is its lowest-numbered current one. -/
theorem State.lowestCurrent?_toList (s : State) (q : Port) (i : ShareIdx) :
    (s.lowestCurrent? q i).toList = s.lowestOn q i := by
  rw [State.lowestOn, ← find?_toList_eq_filter (s.currentOn q i) allHandles (pairwise_lt_finRange 32)]
  exact congrArg (fun ok => (allHandles.find? ok).toList) (funext fun k => (s.currentOn_eq q i k).symm)

/-- No entry is found by name exactly when no live entry carries it. -/
theorem State.named?_isNone (s : State) (name : BitVec 32) :
    (s.named? name).isNone = allShares.all fun i => !((s.share i).live && (s.share i).name == some name) := by
  rw [Bool.eq_iff_iff, Option.isNone_iff_eq_none, State.named?, List.find?_eq_none, List.all_eq_true]
  simp only [Bool.not_eq_true, Bool.not_eq_eq_eq_not, Bool.not_true]

/-- What holds of the entry found by name holds of the lowest-numbered live entry that carries it. -/
theorem State.named?_any (s : State) (name : BitVec 32) (f : ShareIdx → Bool) :
    (s.named? name).any f = allShares.any fun i => s.firstNamed name i && f i := by
  have found := find?_toList_eq_filter (fun i => (s.share i).live && (s.share i).name == some name) allShares
    (pairwise_lt_finRange 64)
  have : (s.named? name).any f = ((s.named? name).toList).any f := by cases s.named? name <;> simp
  rw [this, State.named?, found, List.any_filter]
  rfl

/-! ## Frames -/

@[simp] theorem Share.frames_eq_bySlot (sh : Share) : sh.frames = sh.bySlot := rfl

/-- An operation that ends on an entry leaves it as R86 and R11 say. -/
theorem Share.released_of_open (sh : Share) (h : sh.state ≠ .closing) : sh.released = { sh with inUse := sh.inUse - 1 } :=
  if_neg fun both => h both.1

/-! ## Retirements of a cleanup -/

@[simp] theorem Pool.takeBack_nil (q : Pool) (s : State) : q.takeBack s [] = q := rfl

theorem Pool.takeBack_cons (q : Pool) (s : State) (i : ShareIdx) (gone : List ShareIdx) :
    q.takeBack s (i :: gone) = (q.giveBack (s.share i).bySlot).takeBack s gone := rfl

theorem Pool.takeBack_append (q : Pool) (s : State) (a b : List ShareIdx) :
    q.takeBack s (a ++ b) = (q.takeBack s a).takeBack s b := List.foldl_append ..

@[simp] theorem Operation.steppedBy_nil (op : Operation) (s : State) : op.steppedBy s [] = op := by
  simp [Operation.steppedBy]

@[simp] theorem Stage.steppedBy_nil (st : Stage) (s : State) : st.steppedBy s [] = st := by
  cases st <;> simp [Stage.steppedBy]

end Sys2Proof.Machine
end

