-- ==== Sys2Proof/WellFormed.lean ====
section
/-! DEFINITION. The commands that can be given at all. Port numbers, share indexes and bytes are in range by their
types; what is left is a transaction's count of clocks. -/

namespace Sys2Proof

/-- A command is well formed when the clocks of the byte that select left incomplete are fewer than eight: eight
clocks make a complete byte, which stands among the frame's bytes (R178, R181). -/
def Instr.wellFormed : Instr → Bool
  | .selectFallingEdge _ => true
  | .poll _ _ => true
  | .fetch _ _ => true
  | .requestFrame _ _ bits => decide (bits < 8)
  | .hello _ _ => true
  | .detach _ => true
  | .create _ => true
  | .attach _ => true
  | .close _ => true
  | .revoke _ => true
  | .info _ => true
  | .grant _ => true
  | .drop _ => true
  | .list _ => true
  | .read _ => true
  | .write _ => true
  | .cas _ => true
  | .post _ => true
  | .postRelease _ => true
  | .flush _ => true
  | .claim _ => true
  | .release _ => true
  | .renew _ => true
  | .notices _ => true
  | .propose _ => true
  | .vote _ => true
  | .settings _ => true
  | .unknownRequest _ => true
  | .grantDecision => true
  | .burstCompletion _ => true
  | .scrubBurstCompletion => true
  | .leaseExpiry _ => true
  | .postDelayExpiry _ => true
  | .noticeDelayExpiry _ => true
  | .voteWindowExpiry => true
  | .restCountdownExpiry => true
  | .warmUpExpiry => true
  | .resetAssert => true
  | .powerOn => true
  | .firstByteEnd _ _ => true

end Sys2Proof
end

