-- ==== Sys2Proof/Tests/Slice0.lean ====
section
/-! SUPPORT. Tests: ill-formed commands, the state at reset, single steps on small states, and for every statement of
Certificates/Slice0/Obligations.lean that has hypotheses a concrete state and operands that meet all of them together
(`witness_<statement>`, one for each clause). -/

namespace Sys2Proof.Tests

open Sys2Proof Sys2Proof.Machine

/-! ## Small states -/

/-- The state at reset with these ports ATTACHED. -/
def attached (ps : List Port) : State :=
  ps.foldl (fun s p => s.modAttach p fun a => { a with state := .attached }) State.reset

def all : Rights := ⟨true, true, true, true⟩
def readWrite : Rights := ⟨true, true, false, false⟩

/-- Ports 0, 1 and 2 are ATTACHED. Share 3 is OPEN, COMMON, named 0x41, of two frames at generation 7, slot 0 in frame 5;
port 0 holds its ADMIN handle 0, port 1 its handle 4. The pool has frames 20 and 21 clean, 22 dirty, 23 as scrub frame. -/
def shared : State :=
  let s := attached [0, 1, 2]
  let s := { s with pool := { clean := [20, 21], dirty := [22], scrub := some ⟨23, 15⟩ } }
  let s := s.modShare 3 fun sh =>
    { sh with state := .opened, generation := 7, creator := some 0, scope := some .common, name := some 0x41,
              commonRights := readWrite, size := some 2, frameMap := sh.frameMap.set 0 (some 5), handleCount := 2 }
  let s := s.setHandle 0 0 (some ⟨3, 7, all, 0, 2048, .created⟩)
  s.setHandle 1 4 (some ⟨3, 7, readWrite, 0, 2048, .attached⟩)

/-- A request at the tail of port `p`'s Request Queue, with tag 9. -/
def State.asks (s : State) (p : Port) (kind : Byte) (body : List Byte) : State :=
  s.modLink p fun l => { l with requests := l.requests ++ [⟨kind, 9, body⟩] }

def ask (kind : Byte) (body : List Byte) : Frame := ⟨kind, 9, body⟩

/-- An open transaction on port `p`, whose status byte shows both sticky flags. -/
def State.opens (s : State) (p : Port) (phase : Phase) : State :=
  s.modLink p fun l => { l with transaction := some ⟨0x86, phase⟩, refused := true, frameError := true }

/-- A claim record on share 3, held by port 0 through handle 0, with port 1 waiting through handle 4. -/
def claimed : State :=
  shared.setClaim 3 (some { holder := 0, handle := 0, lease := some 100000, waiters := [⟨1, 4⟩] })

/-- A READ or WRITE of port 0 on share 3 at this offset. -/
def opAt (kind : OpKind) (start length pos : Nat) : Operation :=
  { kind := kind, share := 3, generation := 7, start := start, length := length, pos := pos }

/-- Port 0's operation waits for the path. -/
def waiting (op : Operation) : State :=
  (shared.modShare 3 fun sh => { sh with inUse := 1 }).setStage 0 { stage := .waiting op, abandon := false }

/-- Port 0's burst on frame 5 is in flight, with these bytes read at its grant. -/
def bursting (op : Operation) (bs : List Byte) : State :=
  { (shared.modShare 3 fun sh => { sh with inUse := 1 }).setStage 0 { stage := .bursting op 5 bs, abandon := false } with
    arbiter := { shared.arbiter with path := .busy (.port 0) } }

/-- Port 0's Post Buffer holds this post and DRAINS. -/
def draining (body : List Byte) : State :=
  shared.modPosts 0 fun b => { b with posts := [⟨body, 65535⟩], mode := .draining }

/-- A proposal of port 0 with ports 1 and 2 as voters, port 2 having accepted. -/
def proposed (a : ProposalAction) : State :=
  { shared with
    proposal := some { id := 255, proposer := 0, action := a, voters := #v[false, true, true, false],
                       accepted := #v[false, false, true, false], timer := some 50000 }
    proposalCounter := 255 }

/-- What one command leaves, read by `f`. -/
def after (c : Instr) (s : State) (f : State → Bool) : Bool :=
  match exec c s with
  | .next t => f t
  | .fault _ | .refused _ => false

/-! ## Well-formedness -/

theorem test_illFormed_eightClocksLeft : (Instr.requestFrame 0 [9, 0, 0] 8).wellFormed = false := by decide
theorem test_wellFormed_sevenClocksLeft : (Instr.requestFrame 0 [9, 0, 0] 7).wellFormed = true := by decide

/-! ## Single steps -/

set_option maxRecDepth 4000 in
theorem test_reset_pool : State.reset.pool.clean = [] ∧ State.reset.pool.dirty.length = 255
    ∧ State.reset.pool.scrub = some ⟨0, 0⟩ := by decide

theorem test_status_of_an_attached_port : shared.statusByte 2 = 0x80 := by decide

theorem test_write_frame_is_admitted :
    after (.requestFrame 2 ([0x5A, 0, 0x15, 3, 0, 0x40, 0, 0x10] ++ List.replicate 16 1) 0)
      (State.opens shared 2 (.request 0x31)) (fun t => (t.port 2).link.requests.length == 1) = true := by decide

theorem test_write_answer_bytes :
    (Response.bytes { kind := 0x31, tag := 0x5A, reply := Reply.ok .empty }) = [0x31, 0x5A, 0, 0, 0, 0] := by decide

theorem test_claim_busy_bytes :
    (Response.bytes { kind := 0x40, tag := 1, reply := claimBusy }) = [0x40, 1, 0x40, 1, 0, 2, 0xFF, 0xFF] := by decide

theorem test_post_fault_bytes :
    (postFaultNotice ⟨[3, 0], 0x0102⟩ Result.stale.code).bytes = [0x20, 0xFF, 3, 0xFF, 1, 2, 0, 0x23] := by decide

theorem test_default_settings_round_trip : proposedSettings Settings.default.bytes = some Settings.default := by decide

theorem test_pool_verdicts :
    shared.pool.verdict 2 = none ∧ shared.pool.verdict 3 = some .poolBusy ∧ shared.pool.verdict 4 = some .poolBusy
      ∧ shared.pool.verdict 5 = some .poolEmpty := by decide

theorem test_generation_wraps : nextGeneration 4095 = 1 ∧ nextGeneration 4094 = 4095 := by decide

theorem test_wake_starts_the_warm_up :
    after (.selectFallingEdge 1) { shared with power := .resting }
      (fun t => t.power == .warming && t.warmUpTimer == some 250) = true := by decide

theorem test_write_reaches_the_store :
    after (.burstCompletion 0) (bursting (opAt (.write [1, 2]) 62 2 62) [])
      (fun t => t.mem == [(5 * 1024 + 62, 1), (5 * 1024 + 63, 2)] && (t.share 3).inUse == 0) = true := by decide

theorem test_cas_swaps_on_a_match :
    after (.burstCompletion 0) (bursting (opAt (.cas [0, 0, 0, 0] [0, 0, 0, 8]) 60 4 60) [0, 0, 0, 0])
      (fun t => t.mem == [(5 * 1024 + 63, 8)]) = true := by decide

theorem test_idle_queue_idles : step State.reset = .next State.reset := rfl

/-! ## Witnesses: steps and links -/

theorem witness_StepRunsFrontCommand :
    { State.reset with pending := [.powerOn, .create 1] }.pending = .powerOn :: [.create 1] ∧ State.reset.pending = [] :=
  ⟨rfl, rfl⟩

theorem witness_CommandsAnswerAndKeepTheQueue :
    enabled (.detach 0) State.reset = false ∧ enabled (.selectFallingEdge 0) State.reset = true := by decide

theorem witness_SelectFallCapturesStatusAndWakes :
    (shared.resetLow = false ∧ (shared.port 3).link.transaction = none) ∧ { shared with power := .resting }.resetLow = false
      := by decide

theorem witness_FirstByteClearsShownFlagsAndFixesTheKind :
    let s := State.opens shared 0 .firstByte
    s.resetLow = false ∧ (s.port 0).link.transaction = some { status := 0x86, phase := .firstByte } := by decide

theorem witness_PollHasNoEffectAndFetchRemovesItsResponse_poll :
    (State.opens shared 0 .poll).resetLow = false
      ∧ ((State.opens shared 0 .poll).port 0).link.transaction = some { status := 0x86, phase := .poll } := by
  decide

/-- A transaction closed within its first byte, by each of the four rises of select. -/
theorem witness_PollHasNoEffectAndFetchRemovesItsResponse_ignored :
    let s := State.opens shared 0 .firstByte
    s.resetLow = false ∧ (s.port 0).link.transaction = some { status := 0x86, phase := .firstByte }
      ∧ ∀ c ∈ [Instr.poll 0 7, .fetch 0 7, .requestFrame 0 [] 7, .hello 0 9],
          after c s (fun t => (t.port 0).link.transaction.isNone && (t.port 0).link.dataOut.isEmpty) = true := by
  decide

theorem witness_PollHasNoEffectAndFetchRemovesItsResponse_fetch :
    let r : Response := ⟨0x31, 9, Reply.ok .empty⟩
    (State.opens shared 0 (.fetch none)).resetLow = false
      ∧ ((State.opens shared 0 (.fetch none)).port 0).link.transaction = some { status := 0x86, phase := .fetch none }
      ∧ ((State.opens shared 0 (.fetch (some r))).port 0).link.transaction
          = some { status := 0x86, phase := .fetch (some r) }
      ∧ 8 * r.bytes.length ≤ 48 := by decide

/-- One malformed frame for each test of R181, at its boundary. -/
theorem witness_MalformedFrameSetsFrameError :
    let s := State.opens shared 0 (.request 0x31)
    let h := State.opens shared 0 (.request 0x01)
    s.resetLow = false ∧ (s.port 0).link.transaction = some { status := 0x86, phase := .request 0x31 }
      ∧ (h.port 0).link.transaction = some { status := 0x86, phase := .request 0x01 }
      ∧ (1 : Nat) ≠ 0 ∧ [(9 : Byte), 0].length + 1 < 4 ∧ 264 < be16 1 9
      ∧ [(9 : Byte), 0, 1].length + 1 ≠ 4 + be16 0 1 ∧ be16 0 1 ≠ 0 := by decide

/-- An admitted frame with room for one more, a refused one with none, and one that meets held posts. -/
theorem witness_FrameIsAdmittedOrRefused :
    let s := State.opens shared 0 (.request 0x31)
    let three := State.asks (State.asks (State.asks s 0 0x22 []) 0 0x22 []) 0 0x22 []
    let four := State.asks three 0 0x22 []
    let held := s.modPosts 0 fun b => { b with posts := [⟨[], 0⟩] }
    (three.port 0).link.transaction = some { status := 0x86, phase := .request 0x31 } ∧ three.resetLow = false
      ∧ (three.port 0).link.requests.length = 3
      ∧ (four.port 0).link.transaction = some { status := 0x86, phase := .request 0x31 }
      ∧ (four.port 0).link.requests.length = 4
      ∧ (held.port 0).link.transaction = some { status := 0x86, phase := .request 0x31 }
      ∧ (held.port 0).link.requests = [] ∧ (held.port 0).posts.mode = .holding ∧ (held.port 0).posts.posts ≠ []
      ∧ (0x31 : Byte) ≠ 0x01 ∧ [(7 : Byte)].length = be16 0 1 ∧ [(7 : Byte)].length ≤ 264 := by decide

theorem shared_noClaim (i : ShareIdx) : (shared.share i).claim = none := by revert i; decide

theorem opens_share (s : State) (p : Port) (ph : Phase) (i : ShareIdx) : (State.opens s p ph).share i = s.share i := rfl

theorem witness_FirstHelloAttachesThePort :
    let s := State.opens shared 3 (.request 0x01)
    (s.resetLow = false ∧ s.power = .run ∧ (s.port 3).link.transaction = some { status := 0x86, phase := .request 0x01 }
      ∧ (s.port 3).attach.state = .detached ∧ (s.port 3).attach.emptied = 0
      ∧ (s.port 3).stage = { stage := .empty, abandon := false } ∧ (∀ h : HandleNo, s.handle 3 h = none))
    ∧ (∀ (i : ShareIdx) c, (s.share i).claim = some c → (3 : Port) ∉ c.places.map Prod.fst)
    ∧ (∀ pr, s.proposal = some pr → pr.proposer ≠ 3 ∧ pr.voters[(3 : Port)] = false) := by
  refine ⟨by decide, fun i c h => ?_, fun pr h => ?_⟩
  · rw [opens_share, shared_noClaim] at h; exact nomatch h
  · exact nomatch h

/-- The four kinds of data stage a HELLO can find, on an ATTACHED port that holds a claim with a waiter, and on a DETACHED
port. -/
theorem witness_HelloCleansThePort :
    let read := opAt (.read []) 0 8 0
    let write := opAt (.write [1]) 0 1 0
    let s0 := State.opens claimed 0 (.request 0x01)
    let d := State.opens shared 3 (.request 0x01)
    let s1 := State.opens (waiting read) 0 (.request 0x01)
    let s2 := State.opens (waiting write) 0 (.request 0x01)
    let s3 := State.opens (bursting write []) 0 (.request 0x01)
    s0.resetLow = false ∧ s0.power = .run ∧ (s0.port 0).attach.state ≠ .cleaning
      ∧ (s0.port 0).link.transaction = some { status := 0x86, phase := .request 0x01 }
      ∧ (s0.port 0).stage.stage = .empty ∧ (s1.port 0).stage.stage = .waiting read ∧ read.kind.isRead = true
      ∧ (s2.port 0).stage.stage = .waiting write ∧ write.kind.isRead = false
      ∧ (s3.port 0).stage.stage = .bursting write 5 [] ∧ (s3.port 0).attach.state ≠ .cleaning
      ∧ d.resetLow = false ∧ d.power = .run ∧ (d.port 3).attach.state = .detached
      ∧ (d.port 3).link.transaction = some { status := 0x86, phase := .request 0x01 } := by decide

/-- A HELLO at once on an ATTACHED port with one handle and a claim: port 1, which waited, is told CLAIM_GRANTED and then
PEER_RESTARTED with the count 1, port 2 PEER_RESTARTED alone. -/
theorem test_hello_tells_the_handover_and_the_restart :
    let s := State.opens claimed 0 (.request 0x01)
    after (.hello 0 9) s (fun t =>
      (t.port 1).notices.records == [shareNotice .claimGranted (some 0) 4 3 7, peerNotice .peerRestarted 0 1]
        && (t.port 2).notices.records == [peerNotice .peerRestarted 0 1]
        && (t.port 0).attach.state == .attached) = true
      ∧ s.toldAtHello 0 1 1 = [shareNotice .claimGranted (some 0) 4 3 7, peerNotice .peerRestarted 0 1] := by decide +kernel

theorem witness_HelloPendsOutsideRunAndRepeatsInCleaning :
    let s := State.opens shared 0 (.request 0x01)
    let r := { s with power := .warming }
    let c := State.opens ((bursting (opAt (.write [1]) 0 1 0) []).modAttach 0 fun a => { a with state := .cleaning }) 0
      (.request 0x01)
    r.resetLow = false ∧ (r.port 0).link.transaction = some { status := 0x86, phase := .request 0x01 } ∧ r.power ≠ .run
      ∧ c.resetLow = false ∧ (c.port 0).link.transaction = some { status := 0x86, phase := .request 0x01 }
      ∧ c.power = .run ∧ (c.port 0).attach.state = .cleaning ∧ (c.port 0).stage.stage ≠ .empty := by decide

/-! ## Witnesses: frame and record layouts -/

/-- A settings body of 28 bytes, bodies one byte off each length, and PROPOSE bodies that read as neither kind. -/
theorem witness_RequestBodiesReadAsLaidOut :
    Settings.default.bytes.length = 28 ∧ (List.replicate 7 (0 : Byte)).length ≠ 8 ∧ (List.replicate 4 (0 : Byte)).length ≠ 5
      ∧ (List.replicate 8 (0 : Byte)).length ≠ 7 ∧ (List.replicate 4 (0 : Byte)).length < 5
      ∧ ([0] : List Byte) ≠ [1] ∧ ([0] : List Byte).length ≠ 29
      ∧ ((1 : Byte) :: Settings.default.bytes) ≠ [1] ∧ ((1 : Byte) :: Settings.default.bytes).head? ≠ some 0
      ∧ grantFields [0, 4, 1, 0, 0, 0, 64] = none ∧ attachFields [0, 0, 0, 0x41, 16] = none := by decide

/-- Records at the ends of the ranges, and one just outside each of two. -/
theorem witness_SettingsRecordReadsAsLaidOut :
    let low : Settings := { Settings.default with leaseDuration := 1, postThreshold := 1, postDelay := 8, noticeThreshold := 1
                                                  noticeDelay := 16, voteWindow := 1, restDelay := 0 }
    let high : Settings := { Settings.default with leaseDuration := 1000, postThreshold := 8, postDelay := 1024
                                                   noticeThreshold := 16, noticeDelay := 4096, voteWindow := 255
                                                   restDelay := 255, warmUp := .long
                                                   isolation := #v[true, false, false, true] }
    SettingsInRange low ∧ SettingsInRange high ∧ low.bytes.length = 28 ∧ high.bytes.length = 28
      ∧ proposedSettings high.bytes = some high
      ∧ proposedSettings { high with leaseDuration := 1001 }.bytes = none
      ∧ proposedSettings { low with postDelay := 12 }.bytes = none := by
  unfold SettingsInRange; decide

theorem witness_ResponsesAreLaidOut :
    (65535 : Nat) < 65536 ∧ (255 : Nat) < 256
      ∧ (proposalNotice .proposalDecided 2 255 5).bytes = [0x31, 2, 0xFF, 0xFF, 255, 5, 0, 0]
      ∧ (shareNotice .claimGranted (some 0) 4 3 4095).bytes = [0x10, 0, 4, 3, 0, 0, 0x0F, 0xFF] := by decide

/-! ## Witnesses: requests taken -/

theorem witness_RequestIsTakenUnderItsConditions :
    (State.asks shared 0 0x22 []).nextRequest 0 = some (ask 0x22 [])
      ∧ (State.asks (draining []) 0 0x32 [1]).nextRequest 0 = some (ask 0x32 [1])
      ∧ (State.asks (draining []) 0 0x22 []).nextRequest 0 = none := by decide

theorem witness_ReportsAndUnknownKindsOnlyAnswer :
    (Takes (State.asks State.reset 0 0x7F []) 0 0x7F (ask 0x7F []) ∧ (0x7F : Byte) ∉ definedKinds)
      ∧ (Takes (State.asks shared 0 0x14 [0]) 0 0x14 (ask 0x14 [0]) ∧ shared.isAttached 0 = true
        ∧ Resolves (State.asks shared 0 0x14 [0]) 0 0 0 ⟨3, 7, all, 0, 2048, .created⟩)
      ∧ Takes (State.asks shared 0 0x22 []) 0 0x22 (ask 0x22 [])
      ∧ Takes (State.asks shared 0 0x62 []) 0 0x62 (ask 0x62 []) := by
  unfold Takes Resolves; decide

/-- The fields of a CREATE of this scope, size and backing, named 0x99 when COMMON. -/
def newShare (scope : Scope) (size : Nat) (onDemand : Bool) : CreateFields :=
  { scope := scope, name := if scope = .common then 0x99 else 0, size := size, onDemand := onDemand, rights := readWrite }

theorem witness_CreateAttachAndGrantRefuse :
    let tooLarge := State.asks shared 0 0x10 [1, 0, 0, 0, 0x99, 33, 0, 3]
    let isolated := State.asks { shared with settings := { shared.settings with isolation := #v[true, false, false, false] } }
      0 0x11 [0, 0, 0, 0x41, 1]
    let self := State.asks shared 0 0x20 [0, 0, 1, 0, 0, 0, 64]
    (Takes (State.asks shared 0 0x10 [2]) 0 0x10 (ask 0x10 [2]) ∧ createFields [2] = none)
      ∧ (Takes tooLarge 0 0x10 (ask 0x10 [1, 0, 0, 0, 0x99, 33, 0, 3])
        ∧ createFields [1, 0, 0, 0, 0x99, 33, 0, 3] = some (newShare .common 33 false)
        ∧ firstFailing (createChecks tooLarge 0 (newShare .common 33 false)) = some .badFrame)
      ∧ (Takes (State.asks shared 0 0x11 []) 0 0x11 (ask 0x11 []) ∧ attachFields [] = none)
      ∧ (Takes isolated 0 0x11 (ask 0x11 [0, 0, 0, 0x41, 1])
        ∧ attachFields [0, 0, 0, 0x41, 1] = some (0x41, ⟨true, false, false, false⟩)
        ∧ firstFailing (attachChecks isolated 0 0x41 ⟨true, false, false, false⟩) = some .isolated)
      ∧ (Takes (State.asks shared 0 0x20 []) 0 0x20 (ask 0x20 []) ∧ grantFields [] = none)
      ∧ (Takes self 0 0x20 (ask 0x20 [0, 0, 1, 0, 0, 0, 64])
        ∧ grantFields [0, 0, 1, 0, 0, 0, 64] = some ⟨0, 0, ⟨true, false, false, false⟩, 0, 64⟩
        ∧ firstFailing (grantChecks self 0 ⟨0, 0, ⟨true, false, false, false⟩, 0, 64⟩) = some .selfGrant) := by
  unfold Takes; decide +kernel

/-- EAGER with the last frames of the clean list, and ON_DEMAND of the largest size. -/
theorem witness_CreateMakesShareAndHandle :
    let eager := State.asks shared 0 0x10 [1, 0, 0, 0, 0x99, 2, 0, 3]
    let later := State.asks shared 0 0x10 [0, 0, 0, 0, 0, 32, 1, 3]
    (Takes eager 0 0x10 (ask 0x10 [1, 0, 0, 0, 0x99, 2, 0, 3])
      ∧ createFields [1, 0, 0, 0, 0x99, 2, 0, 3] = some (newShare .common 2 false)
      ∧ firstFailing (createChecks eager 0 (newShare .common 2 false)) = none ∧ LowestFree eager 0 ∧ LowestEmpty eager 0 1)
    ∧ (Takes later 0 0x10 (ask 0x10 [0, 0, 0, 0, 0, 32, 1, 3])
      ∧ createFields [0, 0, 0, 0, 0, 32, 1, 3] = some (newShare .privateScope 32 true)
      ∧ firstFailing (createChecks later 0 (newShare .privateScope 32 true)) = none ∧ LowestFree later 0
      ∧ LowestEmpty later 0 1) := by
  unfold Takes LowestFree LowestEmpty; decide

theorem witness_AttachMakesHandle :
    let s := State.asks shared 2 0x11 [0, 0, 0, 0x41, 3]
    Takes s 2 0x11 (ask 0x11 [0, 0, 0, 0x41, 3]) ∧ attachFields [0, 0, 0, 0x41, 3] = some (0x41, readWrite)
      ∧ firstFailing (attachChecks s 2 0x41 readWrite) = none ∧ Carries s 3 0x41 ∧ LowestEmpty s 2 0 := by
  unfold Takes Carries LowestEmpty; decide +kernel

/-- RIGHTS for CLOSE, HANDLE_RANGE at 32 for REVOKE, HANDLE_EMPTY for INFO and DROP, BAD_FRAME and NOT_ATTACHED for the
requests of an empty body. -/
theorem witness_OneHandleAndEmptyBodyRequestsRefuse :
    let rights := State.asks shared 1 0x12 [4]
    let range := State.asks shared 0 0x13 [32]
    let empty := State.asks shared 0 0x14 [31]
    let drop := State.asks shared 0 0x21 [31]
    (Takes rights 1 0x12 (ask 0x12 [4]) ∧ firstFailing (handleChecks rights 1 [4] Rights.admin) = some .rights)
      ∧ (Takes range 0 0x13 (ask 0x13 [32]) ∧ firstFailing (handleChecks range 0 [32] Rights.admin) = some .handleRange)
      ∧ (Takes empty 0 0x14 (ask 0x14 [31])
        ∧ firstFailing (handleChecks empty 0 [31] fun _ => true) = some .handleEmpty)
      ∧ (Takes drop 0 0x21 (ask 0x21 [31])
        ∧ firstFailing [(!drop.isAttached 0, Result.notAttached), (decide ([(31 : Byte)].length ≠ 1), .badFrame),
            (decide (32 ≤ (31 : Byte).toNat), .handleRange), ((drop.entryAt 0 31).isNone, .handleEmpty)]
          = some .handleEmpty)
      ∧ (Takes (State.asks shared 0 0x33 [0]) 0 0x33 (ask 0x33 [0])
        ∧ firstFailing [(!shared.isAttached 0, Result.notAttached), (!([0] : List Byte).isEmpty, .badFrame)] = some .badFrame)
      ∧ (Takes (State.asks shared 3 0x02 []) 3 0x02 (ask 0x02 [])
        ∧ firstFailing [(!shared.isAttached 3, Result.notAttached), (!([] : List Byte).isEmpty, .badFrame)]
          = some .notAttached) := by
  unfold Takes; decide

/-- CLOSE with no operation in flight, with one, and with a claim record. -/
theorem witness_CloseEndsTheShare :
    let s := State.asks claimed 0 0x12 [0]
    let u := State.asks (shared.modShare 3 fun sh => { sh with inUse := 1 }) 0 0x12 [0]
    (Takes s 0 0x12 (ask 0x12 [0]) ∧ s.isAttached 0 = true ∧ Resolves s 0 0 0 ⟨3, 7, all, 0, 2048, .created⟩
      ∧ all.admin = true ∧ (s.share 3).inUse = 0)
    ∧ (Takes u 0 0x12 (ask 0x12 [0]) ∧ u.isAttached 0 = true ∧ Resolves u 0 0 0 ⟨3, 7, all, 0, 2048, .created⟩
      ∧ (u.share 3).inUse = 1) := by
  unfold Takes Resolves; decide

/-- REVOKE at generation 7, and at 4095, whose step empties a handle that records 1. -/
theorem witness_RevokeStepsTheGeneration :
    let s := State.asks claimed 0 0x13 [0]
    let old := ((shared.modShare 3 fun sh => { sh with generation := 4095 }).setHandle 0 0
      (some ⟨3, 4095, all, 0, 2048, .created⟩)).setHandle 1 4 (some ⟨3, 1, readWrite, 0, 2048, .attached⟩)
    let w := State.asks old 0 0x13 [0]
    (Takes s 0 0x13 (ask 0x13 [0]) ∧ s.isAttached 0 = true ∧ Resolves s 0 0 0 ⟨3, 7, all, 0, 2048, .created⟩
      ∧ all.admin = true)
    ∧ (Takes w 0 0x13 (ask 0x13 [0]) ∧ w.isAttached 0 = true ∧ Resolves w 0 0 0 ⟨3, 4095, all, 0, 2048, .created⟩) := by
  unfold Takes Resolves; decide

theorem witness_GrantMakesHandleForTheTarget :
    let f : GrantFields := ⟨0, 2, readWrite, 1984, 64⟩
    let s := State.asks shared 0 0x20 [0, 2, 3, 0x07, 0xC0, 0, 64]
    Takes s 0 0x20 (ask 0x20 [0, 2, 3, 0x07, 0xC0, 0, 64]) ∧ grantFields [0, 2, 3, 0x07, 0xC0, 0, 64] = some f
      ∧ firstFailing (grantChecks s 0 f) = none ∧ Resolves s 0 f.source 0 ⟨3, 7, all, 0, 2048, .created⟩
      ∧ LowestEmpty s f.target 0 := by
  unfold Takes Resolves LowestEmpty; decide

/-- DROP of the holder's ADMIN handle, and of the last handle of an ORPHANED share. -/
theorem witness_DropEmptiesTheHandle :
    let s := State.asks claimed 0 0x21 [0]
    let o := State.asks ((shared.setHandle 0 0 none).modShare 3 fun sh => { sh with state := .orphaned, handleCount := 1 })
      1 0x21 [4]
    (Takes s 0 0x21 (ask 0x21 [0]) ∧ s.isAttached 0 = true ∧ (0 : HandleNo).val = (0 : Byte).toNat
      ∧ s.handle 0 0 = some ⟨3, 7, all, 0, 2048, .created⟩)
    ∧ (Takes o 1 0x21 (ask 0x21 [4]) ∧ o.isAttached 1 = true ∧ (4 : HandleNo).val = (4 : Byte).toNat
      ∧ o.handle 1 4 = some ⟨3, 7, readWrite, 0, 2048, .attached⟩ ∧ o.current ⟨3, 7, readWrite, 0, 2048, .attached⟩ = true
      ∧ (o.share 3).state = .orphaned ∧ (o.share 3).handleCount - 1 = 0) := by
  unfold Takes; decide

/-! ## Witnesses: the Frame Pool and data -/

/-- The last block of a frame, with frames behind it and with none, and a block before the last. -/
theorem witness_PoolServesScrubsAndTakesBackInOrder_scrub :
    let s := { shared with arbiter := { shared.arbiter with path := .busy .scrub } }
    let l := { s with pool := { s.pool with dirty := [] } }
    let b := { s with pool := { s.pool with scrub := some ⟨23, 14⟩ } }
    s.running = true ∧ s.arbiter.path = .busy .scrub ∧ s.pool.scrub = some ⟨23, 15⟩ ∧ s.mem.wf = true
      ∧ s.pool.dirty = [22] ∧ l.pool.scrub = some ⟨23, 15⟩ ∧ l.pool.dirty = [] ∧ b.pool.scrub = some ⟨23, 14⟩ := by decide

/-- The dirty list with a scrub frame, the first frame of a return without one, and an empty return. -/
theorem witness_PoolServesScrubsAndTakesBackInOrder_pool :
    let q : Pool := { clean := [1], dirty := [], scrub := none }
    (1 ≤ q.clean.length) ∧ (shared.pool.clean.length < 3 ∧ 3 ≤ shared.pool.clean.length + shared.pool.dirty.length + 1)
      ∧ shared.pool.clean.length + shared.pool.dirty.length + 1 < 5 ∧ shared.pool.scrub.isSome = true ∧ q.scrub = none
      ∧ q.dirty ++ [8, 9] = 8 :: [9] ∧ q.dirty ++ [] = [] := by decide

/-- The body of a data request through handle 0. -/
def dataBody (offset length : Nat) (payload : List Byte) : List Byte :=
  [0, byte (offset / 256), byte offset, byte (length / 256), byte length] ++ payload

theorem witness_DataRequestsRefuse :
    let far := State.asks shared 0 0x30 (dataBody 2000 49 [])
    let odd := State.asks shared 0 0x34 (dataBody 2 4 [0, 0, 0, 0, 1, 1, 1, 1])
    let held := State.asks (claimed.setHandle 1 0 (some ⟨3, 7, readWrite, 0, 2048, .attached⟩)) 1 0x31 (dataBody 0 1 [5])
    (Takes (State.asks shared 0 0x31 [0, 0, 0, 0]) 0 0x31 (ask 0x31 [0, 0, 0, 0]) ∧ [(0 : Byte), 0, 0, 0].length < 5)
      ∧ (Takes far 0 0x30 (ask 0x30 (dataBody 2000 49 [])) ∧ dataFields (dataBody 2000 49 []) = some ⟨0, 2000, 49, []⟩
        ∧ firstFailing (dataChecks far 0 .read ⟨0, 2000, 49, []⟩) = some .window)
      ∧ (Takes odd 0 0x34 (ask 0x34 (dataBody 2 4 [0, 0, 0, 0, 1, 1, 1, 1]))
        ∧ firstFailing (dataChecks odd 0 .cas ⟨0, 2, 4, [0, 0, 0, 0, 1, 1, 1, 1]⟩) = some .align)
      ∧ (Takes held 1 0x31 (ask 0x31 (dataBody 0 1 [5])) ∧ firstFailing (dataChecks held 1 .write ⟨0, 0, 1, [5]⟩)
          = some .claimed) := by
  unfold Takes; decide

/-- A WRITE across the backed and the UNBACKED slot, and a CAS at the end of the window. -/
theorem witness_WriteAndCasAreAdmitted :
    let w := State.asks shared 0 0x31 (dataBody 1023 2 [1, 2])
    let c := State.asks shared 0 0x34 (dataBody 2044 4 [0, 0, 0, 0, 1, 1, 1, 1])
    (Takes w 0 0x31 (ask 0x31 (dataBody 1023 2 [1, 2])) ∧ dataFields (dataBody 1023 2 [1, 2]) = some ⟨0, 1023, 2, [1, 2]⟩
      ∧ firstFailing (dataChecks w 0 .write ⟨0, 1023, 2, [1, 2]⟩) = none
      ∧ Resolves w 0 0 0 ⟨3, 7, all, 0, 2048, .created⟩)
    ∧ (Takes c 0 0x34 (ask 0x34 (dataBody 2044 4 [0, 0, 0, 0, 1, 1, 1, 1]))
      ∧ dataFields (dataBody 2044 4 [0, 0, 0, 0, 1, 1, 1, 1]) = some ⟨0, 2044, 4, [0, 0, 0, 0, 1, 1, 1, 1]⟩
      ∧ firstFailing (dataChecks c 0 .cas ⟨0, 2044, 4, [0, 0, 0, 0, 1, 1, 1, 1]⟩) = none
      ∧ Resolves c 0 0 0 ⟨3, 7, all, 0, 2048, .created⟩) := by
  unfold Takes Resolves; decide

theorem slot_of_second_frame (x : Nat) (h : 1024 ≤ x) (h' : x < 2048) : x / 1024 = 1 := by omega

/-- A READ whose first byte is in the backed slot, and one that lies in the UNBACKED slot alone. -/
theorem witness_ReadIsAdmittedOrDeliveredAsZeros :
    let r := State.asks shared 0 0x30 (dataBody 1023 2 [])
    let z := State.asks shared 0 0x30 (dataBody 1024 256 [])
    ((Takes r 0 0x30 (ask 0x30 (dataBody 1023 2 [])) ∧ dataFields (dataBody 1023 2 []) = some ⟨0, 1023, 2, []⟩
        ∧ firstFailing (dataChecks r 0 .read ⟨0, 1023, 2, []⟩) = none ∧ Resolves r 0 0 0 ⟨3, 7, all, 0, 2048, .created⟩
        ∧ ((r.share 3).frameAt (1023 / 1024)).isSome = true)
      ∧ (Takes z 0 0x30 (ask 0x30 (dataBody 1024 256 [])) ∧ dataFields (dataBody 1024 256 []) = some ⟨0, 1024, 256, []⟩
        ∧ firstFailing (dataChecks z 0 .read ⟨0, 1024, 256, []⟩) = none ∧ Resolves z 0 0 0 ⟨3, 7, all, 0, 2048, .created⟩
        ∧ (z.port 0).stage.abandon = false))
      ∧ (∀ y : Nat, 1023 ≤ y → y < 1023 → (r.share 3).frameAt (y / 1024) = none)
      ∧ (∀ x : Nat, 1024 ≤ x → x < 1024 + 256 → (z.share 3).frameAt (x / 1024) = none) := by
  refine ⟨by unfold Takes Resolves; decide, fun y h h' => absurd h' (by omega), fun x h h' => ?_⟩
  rw [slot_of_second_frame x h (by omega)]; decide

/-- A WRITE of two blocks, on an ATTACHED and on a CLEANING port, and a READ of two, at the completion of the first. -/
theorem witness_BurstCompletionCarriesThePieceOut :
    let w := opAt (.write [1, 2]) 63 2 63
    let r := opAt (.read []) 63 2 63
    let s := bursting w []
    let u := bursting r [0]
    let c := s.modAttach 0 fun a => { a with state := .cleaning }
    (s.running = true ∧ s.arbiter.path = .busy (.port 0) ∧ (s.port 0).stage.stage = .bursting w 5 []
      ∧ w.kind.isRead = false ∧ s.mem.wf = true ∧ (u.port 0).stage.abandon = false
      ∧ c.running = true ∧ c.arbiter.path = .busy (.port 0) ∧ (c.port 0).stage.stage = .bursting w 5 []
      ∧ (c.port 0).attach.state = .cleaning ∧ ((c.share 3).frameAt ((w.pos + w.piece) / 1024)).isSome = true
      ∧ w.pos + w.piece < w.start + w.length ∧ ((s.share 3).frameAt ((w.pos + w.piece) / 1024)).isSome = true
      ∧ u.running = true ∧ u.arbiter.path = .busy (.port 0) ∧ (u.port 0).stage.stage = .bursting r 5 [0]
      ∧ r.pos + r.piece < r.start + r.length ∧ ((u.share 3).frameAt ((r.pos + r.piece) / 1024)).isSome = true)
    ∧ (∀ e n, w.kind ≠ .cas e n) ∧ ∀ e n, r.kind ≠ .cas e n :=
  ⟨by decide, fun _ _ => OpKind.noConfusion, fun _ _ => OpKind.noConfusion⟩

/-- The last piece of a WRITE, and the one of a CAS, whose share is CLOSING and so retires. -/
theorem witness_LastBurstEndsTheOperation :
    let w := opAt (.write [1, 2]) 63 2 64
    let c := opAt (.cas [0, 0, 0, 0] [0, 0, 0, 1]) 60 4 60
    let s := bursting w []
    let u := (bursting c [0, 0, 0, 0]).modShare 3 fun sh => { sh with state := .closing }
    s.running = true ∧ s.arbiter.path = .busy (.port 0) ∧ (s.port 0).stage.stage = .bursting w 5 []
      ∧ (s.port 0).stage.abandon = false ∧ (s.port 0).attach.state ≠ .cleaning ∧ s.mem.wf = true
      ∧ w.start + w.length ≤ w.pos + w.piece ∧ u.arbiter.path = .busy (.port 0)
      ∧ (u.port 0).stage.stage = .bursting c 5 [0, 0, 0, 0] ∧ u.running = true ∧ c.start + c.length ≤ c.pos + c.piece
      ∧ (u.share 3).state = .closing ∧ (u.share 3).inUse - 1 = 0 := by decide

theorem witness_ReadMeetsAnUnbackedRest :
    let r := opAt (.read []) 1023 2 1023
    let s := bursting r [6]
    (s.running = true ∧ s.arbiter.path = .busy (.port 0) ∧ (s.port 0).stage.stage = .bursting r 5 [6]
      ∧ (s.port 0).stage.abandon = false ∧ (s.port 0).attach.state ≠ .cleaning ∧ r.kind = .read []
      ∧ r.pos + r.piece < r.start + r.length)
    ∧ ∀ y : Nat, 1024 ≤ y → y < 1025 → (s.share 3).frameAt (y / 1024) = none := by
  refine ⟨by decide, fun y h h' => ?_⟩
  rw [slot_of_second_frame y h (by omega)]; decide

/-- A WRITE that runs on, on a share that stays and on a CLOSING one that retires, and a READ marked for abandonment, each the
operation its CLEANING port waits for. -/
theorem witness_CleaningPortAttachesWhenItsOperationEnds :
    let w := opAt (.write [1]) 0 1 0
    let r := opAt (.read []) 0 200 64
    let clean (s : State) : State := s.modPort 0 fun q =>
      { q with attach := { q.attach with state := .cleaning, announcement := .restarted }
               link := { q.link with responses := [.reserved 0x01 8] } }
    let s := clean (bursting w [])
    let u := (clean (bursting r [])).modPort 0 fun q => { q with stage := { q.stage with abandon := true } }
    let z := s.modShare 3 fun sh => { sh with state := .closing }
    s.running = true ∧ s.arbiter.path = .busy (.port 0) ∧ (s.port 0).stage.stage = .bursting w 5 []
      ∧ (s.port 0).attach.state = .cleaning ∧ (s.port 0).link.responses = [.reserved 0x01 8] ∧ w.kind.isRead = false
      ∧ w.start + w.length ≤ w.pos + w.piece ∧ (s.share 3).live = true ∧ s.mem.wf = true
      ∧ u.running = true ∧ u.arbiter.path = .busy (.port 0) ∧ (u.port 0).stage.stage = .bursting r 5 []
      ∧ (u.port 0).attach.state = .cleaning ∧ (u.port 0).link.responses = [.reserved 0x01 8] ∧ r.kind.isRead = true
      ∧ (u.port 0).stage.abandon = true ∧ (u.share 3).live = true
      ∧ z.arbiter.path = .busy (.port 0) ∧ (z.port 0).stage.stage = .bursting w 5 [] ∧ (z.port 0).attach.state = .cleaning
      ∧ (z.share 3).state = .closing ∧ (z.share 3).inUse - 1 = 0 := by decide

/-! ## Witnesses: posts -/

/-- The post that reaches the threshold, the one before it, one that leaves a request behind, and one of a DETACHED port. -/
theorem witness_PostIsHeld :
    let two := shared.modPosts 0 fun b => { b with posts := [⟨[], 0⟩, ⟨[], 1⟩] }
    let three := shared.modPosts 0 fun b => { b with posts := [⟨[], 0⟩, ⟨[], 1⟩, ⟨[], 2⟩] }
    let behind := State.asks (State.asks shared 0 0x32 [1]) 0 0x33 []
    (State.asks two 0 0x32 [1]).nextRequest 0 = some (ask 0x32 [1]) ∧ two.isAttached 0 = true
      ∧ ¬two.settings.postThreshold ≤ (two.port 0).posts.posts.length + 1
      ∧ (State.asks three 0 0x32 [1]).nextRequest 0 = some (ask 0x32 [1])
      ∧ three.settings.postThreshold ≤ (three.port 0).posts.posts.length + 1
      ∧ behind.nextRequest 0 = some (ask 0x32 [1]) ∧ (behind.port 0).link.requests = [ask 0x32 [1], ask 0x33 []]
      ∧ (State.asks shared 3 0x32 [1]).nextRequest 3 = some (ask 0x32 [1]) ∧ shared.isAttached 3 = false
      ∧ (shared.port 3).posts.posts = [] := by decide

/-- A post too short to hold its fields, and one that is admitted. -/
theorem witness_PostReleaseReportsOrAdmits :
    let bad := draining []
    let good := draining (dataBody 0 1 [5])
    (bad.running = true ∧ (bad.port 0).posts.posts = [⟨[], 65535⟩] ∧ (bad.port 0).posts.mode = .draining
      ∧ (bad.port 0).stage.stage = .empty ∧ dataFields [] = none ∧ bad.isAttached 0 = true)
    ∧ (good.running = true ∧ (good.port 0).posts.posts = [⟨dataBody 0 1 [5], 65535⟩]
      ∧ (good.port 0).posts.mode = .draining ∧ (good.port 0).stage.stage = .empty
      ∧ dataFields (dataBody 0 1 [5]) = some ⟨0, 0, 1, [5]⟩ ∧ firstFailing (dataChecks good 0 .post ⟨0, 0, 1, [5]⟩) = none
      ∧ Resolves good 0 0 0 ⟨3, 7, all, 0, 2048, .created⟩) := by
  unfold Resolves; decide

theorem witness_FlushAndNoticesReportAndClear_flush :
    Takes (State.asks shared 0 0x33 []) 0 0x33 (ask 0x33 []) ∧ (State.asks shared 0 0x33 []).isAttached 0 = true := by
  unfold Takes; decide

theorem witness_DelayTimersExpire :
    let s := shared.modPort 0 fun q =>
      { q with posts := { q.posts with timer := some 128, posts := [⟨[], 0⟩] }, notices := { q.notices with timer := some 256 } }
    s.running = true ∧ (s.port 0).posts.timer = some 128 ∧ (s.port 0).notices.timer = some 256 := by decide

/-! ## Witnesses: the Store Arbiter -/

/-- A port at phase 15, a SCRUB named in the table, and a table none of whose requesters waits. -/
theorem witness_GrantFollowsThePhaseTable :
    let w := opAt (.write [1]) 0 1 0
    let s : State := { waiting w with arbiter := { (waiting w).arbiter with pointer := 1 } }
    let n : State := { shared with arbiter := { shared.arbiter with table := shared.arbiter.table.set 4 .scrub } }
    (s.running = true ∧ s.arbiter.path = .free ∧ (∀ j : Fin 16, j < 3 → s.waits s.arbiter.table[s.arbiter.pointer + j] = false)
      ∧ s.arbiter.table[s.arbiter.pointer + 3] = .port 0 ∧ (s.port 0).stage.stage = .waiting w ∧ w.kind.isRead = false
      ∧ (s.share 3).frameAt (w.pos / 1024) = some 5)
    ∧ (n.running = true ∧ n.arbiter.path = .free
      ∧ (∀ j : Fin 16, j < 4 → n.waits n.arbiter.table[n.arbiter.pointer + j] = false)
      ∧ n.arbiter.table[n.arbiter.pointer + 4] = .scrub ∧ n.pool.scrub.isSome = true)
    ∧ (shared.running = true ∧ shared.arbiter.path = .free
      ∧ (∀ k : Fin 16, shared.waits shared.arbiter.table[k] = false) ∧ shared.pool.scrub.isSome = true
      ∧ shared.settings.legal = true ∧ shared.arbiter.table = shared.settings.phaseTable ∧ shared.proposal = none) := by
  decide

/-- A READ whose recheck passes, one on a share that is CLOSING, and one whose generation has stepped. -/
theorem witness_ReadIsRecheckedAtItsGrant :
    let r := opAt (.read []) 0 8 0
    let s := waiting r
    let gone := s.modShare 3 fun sh => { sh with state := .closing }
    let stale := s.modShare 3 fun sh => { sh with generation := 8 }
    (s.running = true ∧ s.arbiter.path = .free ∧ s.arbiter.table[s.arbiter.pointer + 0] = .port 0
      ∧ (s.port 0).stage.stage = .waiting r ∧ (s.port 0).attach.state ≠ .cleaning ∧ (s.share 3).live = true
      ∧ (s.share 3).generation = r.generation ∧ (s.share 3).frameAt (r.pos / 1024) = some 5)
    ∧ (gone.running = true ∧ gone.arbiter.path = .free ∧ (gone.port 0).stage.stage = .waiting r
      ∧ (gone.share 3).live = false)
    ∧ (stale.running = true ∧ (stale.port 0).stage.stage = .waiting r ∧ (stale.share 3).live = true
      ∧ (stale.share 3).generation ≠ r.generation)
    ∧ (∀ j : Fin 16, ¬j < 0) := by
  decide

/-! ## Witnesses: claims -/

/-- NOT_HOLDER is none of these: RIGHTS for RELEASE and RENEW, and a wait flag of 2; a vote on no proposal, and one of a
port that has voted; a PROPOSE of bad settings and one with a proposal pending. -/
theorem witness_ClaimAndAgreementRequestsRefuse :
    let s := shared.setHandle 2 1 (some ⟨3, 7, ⟨true, false, false, false⟩, 0, 64, .granted 0⟩)
    let rel := State.asks s 2 0x41 [1]
    let ren := State.asks s 2 0x42 [1]
    let cl := State.asks s 0 0x40 [0, 2]
    let pend := State.asks (proposed .clearAll) 1 0x60 [1]
    let voted := State.asks (proposed .clearAll) 2 0x61 [255, 1]
    (Takes rel 2 0x41 (ask 0x41 [1]) ∧ firstFailing (handleChecks rel 2 [1] Rights.write) = some .rights)
      ∧ (Takes ren 2 0x42 (ask 0x42 [1]) ∧ firstFailing (handleChecks ren 2 [1] Rights.write) = some .rights)
      ∧ (Takes cl 0 0x40 (ask 0x40 [0, 2]) ∧ cl.isAttached 0 = true ∧ 1 < (2 : Byte).toNat)
      ∧ (Takes pend 1 0x60 (ask 0x60 [1]) ∧ pend.isAttached 1 = true ∧ (proposeFields [1]).isNone = false
        ∧ pend.proposal.isSome = true)
      ∧ (Takes voted 2 0x61 (ask 0x61 [255, 1]) ∧ voted.isAttached 2 = true
        ∧ (voted.proposal.any fun pr => pr.id == 255 && pr.voters[(2 : Port)] && pr.accepted[(2 : Port)]) = true) := by
  unfold Takes; decide

/-- No record; the holder; a waiter; and a port that is neither, with the wait flag at 1 and at 0. -/
theorem witness_ClaimTakesQueuesOrReports :
    let v1 : Handle := ⟨3, 7, readWrite, 0, 2048, .attached⟩
    let third := claimed.setHandle 2 0 (some v1)
    (Takes (State.asks shared 1 0x40 [4, 0]) 1 0x40 (ask 0x40 [4, 0])
      ∧ Resolves (State.asks shared 1 0x40 [4, 0]) 1 4 4 v1 ∧ v1.rights.write = true ∧ (shared.share 3).claim = none)
    ∧ (Takes (State.asks claimed 0 0x40 [0, 1]) 0 0x40 (ask 0x40 [0, 1])
      ∧ Resolves (State.asks claimed 0 0x40 [0, 1]) 0 0 0 ⟨3, 7, all, 0, 2048, .created⟩
      ∧ ((claimed.share 3).claim.any fun c => c.holder == 0) = true)
    ∧ (Takes (State.asks claimed 1 0x40 [4, 1]) 1 0x40 (ask 0x40 [4, 1])
      ∧ Resolves (State.asks claimed 1 0x40 [4, 1]) 1 4 4 v1
      ∧ ((claimed.share 3).claim.any fun c => (c.waiters.map Waiter.port)[0]? == some 1) = true)
    ∧ (Takes (State.asks third 2 0x40 [0, 1]) 2 0x40 (ask 0x40 [0, 1]) ∧ Resolves (State.asks third 2 0x40 [0, 1]) 2 0 0 v1
      ∧ ((third.share 3).claim.any fun c => c.holder != 2 && !(c.waiters.map Waiter.port).contains 2) = true)
    ∧ Takes (State.asks third 2 0x40 [0, 0]) 2 0x40 (ask 0x40 [0, 0]) ∧ third.isAttached 2 = true := by
  unfold Takes Resolves; decide

/-- RELEASE with no record, by the holder, by a waiter, and by a port that is neither. -/
theorem witness_ReleaseHandsOverOrWithdraws :
    let v1 : Handle := ⟨3, 7, readWrite, 0, 2048, .attached⟩
    let third := claimed.setHandle 2 0 (some v1)
    (Takes (State.asks shared 1 0x41 [4]) 1 0x41 (ask 0x41 [4]) ∧ Resolves (State.asks shared 1 0x41 [4]) 1 4 4 v1
      ∧ (shared.share 3).claim = none)
    ∧ (Takes (State.asks claimed 0 0x41 [0]) 0 0x41 (ask 0x41 [0])
      ∧ ((claimed.share 3).claim.any fun c => c.holder == 0 && c.waiters.all fun w => w.port != 0) = true)
    ∧ (Takes (State.asks claimed 1 0x41 [4]) 1 0x41 (ask 0x41 [4])
      ∧ ((claimed.share 3).claim.any fun c => c.holder != 1 && (c.waiters.map Waiter.port).contains 1) = true)
    ∧ (Takes (State.asks third 2 0x41 [0]) 2 0x41 (ask 0x41 [0]) ∧ Resolves (State.asks third 2 0x41 [0]) 2 0 0 v1
      ∧ ((third.share 3).claim.any fun c => c.holder != 2 && !(c.waiters.map Waiter.port).contains 2) = true) := by
  unfold Takes Resolves; decide

theorem witness_LeaseIsRenewedOrHandedOver_renew :
    let s := State.asks claimed 0 0x42 [0]
    let w := State.asks claimed 1 0x42 [4]
    (Takes s 0 0x42 (ask 0x42 [0]) ∧ s.isAttached 0 = true ∧ Resolves s 0 0 0 ⟨3, 7, all, 0, 2048, .created⟩
      ∧ all.write = true ∧ ((s.share 3).claim.any fun c => c.holder == 0) = true)
    ∧ (Takes w 1 0x42 (ask 0x42 [4]) ∧ Resolves w 1 4 4 ⟨3, 7, readWrite, 0, 2048, .attached⟩
      ∧ ((w.share 3).claim.all fun c => c.holder != 1) = true) := by
  unfold Takes Resolves; decide

theorem witness_LeaseIsRenewedOrHandedOver_expiry :
    claimed.running = true
      ∧ (claimed.share 3).claim = some { holder := 0, handle := 0, lease := some 100000, waiters := [⟨1, 4⟩] } := by decide

/-! ## Witnesses: detachment and agreement -/

/-- DETACH with no proposal, with one whose set it leaves open, and with a CLEAR_ALL whose set it completes. -/
theorem witness_DetachLeavesNothingBehind :
    let s := State.asks claimed 0 0x02 []
    let w := State.asks (proposed .clearAll) 2 0x02 []
    let c := State.asks (proposed .clearAll) 1 0x02 []
    (Takes s 0 0x02 (ask 0x02 []) ∧ s.isAttached 0 = true ∧ s.proposal = none ∧ s.detachClears 0 = false)
      ∧ (Takes w 2 0x02 (ask 0x02 []) ∧ w.isAttached 2 = true ∧ w.proposal.isSome = true ∧ w.detachClears 2 = false)
      ∧ (Takes c 1 0x02 (ask 0x02 []) ∧ c.isAttached 1 = true ∧ c.detachClears 1 = true
        ∧ (c.leftByCleanup 1 3).live = true ∧ (c.leftByCleanup 1 4).live = false)
      ∧ (∀ k : HandleNo, (s.handle 0 k).all (fun v => v.generation != nextGeneration (s.share v.share).generation) = true)
      ∧ (∀ i : ShareIdx, (s.share i).claim.all (fun c => !(c.waiters.map Waiter.port).contains 2) = true) := by
  unfold Takes; decide

/-- The cleanup of the administrator's port ORPHANS its share, with the other port's handle counted on; that of the last port with
a handle retires an ORPHANED one, and its frame joins the dirty list; with a READ still WAITING on it, it is the end of the
READ that retires it; and a handle of another port that records the generation stepped to is emptied. -/
theorem test_cleanup_of_the_share_entries :
    let last := (shared.setHandle 0 0 none).modShare 3 fun sh => { sh with state := .orphaned, handleCount := 1 }
    let reads := (last.modShare 3 fun sh => { sh with inUse := 1 }).setStage 1
      { stage := .waiting (opAt (.read []) 0 8 0), abandon := false }
    let old := last.setHandle 2 6 (some ⟨3, 8, readWrite, 0, 2048, .attached⟩)
    (shared.leftByCleanup 0 3 = { shared.share 3 with state := .orphaned, handleCount := 1 } ∧ shared.retiring 0 = [])
      ∧ (last.retiring 1 = [3] ∧ (last.leftByCleanup 1 3).state = .free ∧ (last.leftByCleanup 1 3).generation = 8)
      ∧ ((reads.leftByTable 1 3).state = .closing ∧ reads.retiring 1 = [3] ∧ (reads.leftByCleanup 1 3).state = .free)
      ∧ after (.hello 1 9) (State.opens old 1 (.request 0x01)) (fun t =>
          t.share 3 == old.leftByCleanup 1 3 && t.pool == old.pool.takeBack old [3] && t.pool.dirty == [22, 5]
            && (t.handle 2 6).isNone) = true := by decide +kernel

/-- HELLO of the proposer, of a voter, and of a port that is neither; DETACH of the proposer, of a port that is neither, of a
voter that completes the set, of the last voter, and of a voter that leaves a vote missing. -/
theorem witness_CleanupEndsOrReducesTheProposal :
    let p := proposed (.settings Settings.default)
    let h (n : Port) : State := State.opens p n (.request 0x01)
    let q := { p with proposal := p.proposal.map fun pr => { pr with accepted := Vector.replicate 4 false } }
    let l := { p with proposal := p.proposal.map fun pr => { pr with voters := #v[false, true, false, false] } }
    (∀ n : Port, (h n).resetLow = false ∧ (h n).power = .run
      ∧ ((h n).port n).link.transaction = some { status := 0x86, phase := .request 0x01 }
      ∧ ((h n).port n).attach.state ≠ .cleaning ∧ (h n).proposal.isSome = true)
    ∧ (Takes (State.asks p 0 0x02 []) 0 0x02 (ask 0x02 []) ∧ p.proposal.any (fun pr => pr.proposer == 0) = true)
    ∧ (Takes (State.asks (p.modAttach 3 fun a => { a with state := .attached }) 3 0x02 []) 3 0x02 (ask 0x02 [])
      ∧ p.proposal.any (fun pr => pr.proposer != 3 && !pr.voters[(3 : Port)]) = true)
    ∧ (Takes (State.asks p 1 0x02 []) 1 0x02 (ask 0x02 []) ∧ p.isAttached 1 = true
      ∧ p.proposal.any (fun pr => pr.proposer != 1 && pr.voters[(1 : Port)]
          && allPorts.all fun r => r == 1 || pr.accepted[r] == pr.voters[r]) = true)
    ∧ (Takes (State.asks l 1 0x02 []) 1 0x02 (ask 0x02 [])
      ∧ l.proposal.any (fun pr => pr.voters[(1 : Port)] && allPorts.all fun r => r == 1 || !pr.voters[r]) = true)
    ∧ (Takes (State.asks q 1 0x02 []) 1 0x02 (ask 0x02 [])
      ∧ q.proposal.any (fun pr => pr.voters[(2 : Port)] && pr.accepted[(2 : Port)] != pr.voters[(2 : Port)]) = true) := by
  unfold Takes; decide

/-- A HELLO of the proposer tells the voters WITHDRAWN, and one of a voter tells the proposer and the other voter
VOTER_RESTARTED; the DETACH that completes the set tells ADOPTED, each before the peer notice. -/
theorem test_cleanup_tells_the_end_of_the_proposal :
    let p := proposed (.settings Settings.default)
    let decided (code : Nat) : Notice := proposalNotice .proposalDecided 0 255 code
    after (.hello 0 9) (State.opens p 0 (.request 0x01)) (fun t =>
        (t.port 1).notices.records == [decided 4, peerNotice .peerRestarted 0 1] && t.proposal.isNone) = true
      ∧ after (.hello 1 9) (State.opens p 1 (.request 0x01)) (fun t =>
        (t.port 0).notices.records == [decided 5, peerNotice .peerRestarted 1 1]
          && (t.port 2).notices.records == [decided 5, peerNotice .peerRestarted 1 1]) = true
      ∧ after (.detach 1) (State.asks p 1 0x02 []) (fun t =>
        (t.port 0).notices.records == [decided 1, peerNotice .peerDetached 1 1]) = true := by decide +kernel

theorem witness_ProposeOpensAProposal :
    let s := State.asks shared 0 0x60 [1]
    let u := State.asks { shared with proposalCounter := 255 } 0 0x60 (0 :: Settings.default.bytes)
    (Takes s 0 0x60 (ask 0x60 [1]) ∧ s.isAttached 0 = true ∧ s.proposal = none ∧ (1 : Port) ≠ 0 ∧ s.isAttached 1 = true)
    ∧ (Takes u 0 0x60 (ask 0x60 (0 :: Settings.default.bytes)) ∧ Settings.default.bytes.length = 28
      ∧ proposedSettings Settings.default.bytes = some Settings.default ∧ u.isAttached 1 = true) := by
  unfold Takes; decide

/-- A PROPOSE with no other port ATTACHED, and a VOTE that completes the set. -/
theorem witness_SettingsAreAdoptedWhole :
    let s := State.asks (attached [0]) 0 0x60 (0 :: Settings.default.bytes)
    let v := State.asks (proposed (.settings Settings.default)) 1 0x61 [255, 1]
    (Takes s 0 0x60 (ask 0x60 (0 :: Settings.default.bytes)) ∧ s.isAttached 0 = true ∧ s.proposal = none
      ∧ (∀ q : Port, q ≠ 0 → s.isAttached q = false) ∧ Settings.default.bytes.length = 28
      ∧ proposedSettings Settings.default.bytes = some Settings.default)
    ∧ (Takes v 1 0x61 (ask 0x61 [255, 1]) ∧ v.isAttached 1 = true
      ∧ v.proposal.any (fun pr => pr.id == (255 : Byte).toNat && pr.voters[(1 : Port)] && !pr.accepted[(1 : Port)]
          && allPorts.all fun q => q == 1 || pr.accepted[q] == pr.voters[q]) = true) := by
  unfold Takes; decide

/-- A PROPOSE with no other port ATTACHED, and a VOTE that completes the set with a live share that retires, and with one that
waits for the operation in a data stage. -/
theorem witness_ClearAllClosesEverything :
    let s := State.asks (attached [0]) 0 0x60 [1]
    let v := State.asks (proposed .clearAll) 1 0x61 [255, 1]
    let w := waiting (opAt (.write [1]) 0 1 0)
    let u := State.asks { w with proposal := (proposed .clearAll).proposal } 1 0x61 [255, 1]
    (Takes s 0 0x60 (ask 0x60 [1]) ∧ s.isAttached 0 = true ∧ s.proposal = none
      ∧ (∀ q : Port, q ≠ 0 → s.isAttached q = false) ∧ s.proposalCounter ≠ 255)
    ∧ ((v.share 3).live = true ∧ (v.share 3).inUse = 0)
    ∧ (Takes u 1 0x61 (ask 0x61 [255, 1]) ∧ (u.share 3).live = true ∧ (u.share 3).inUse = 1
      ∧ u.proposal = (proposed .clearAll).proposal)
    ∧ (Takes v 1 0x61 (ask 0x61 [255, 1]) ∧ v.isAttached 1 = true
      ∧ v.proposal.any (fun pr => pr.id == (255 : Byte).toNat && pr.voters[(1 : Port)] && !pr.accepted[(1 : Port)]
          && allPorts.all fun q => q == 1 || pr.accepted[q] == pr.voters[q]) = true) := by
  unfold Takes; decide

/-- A vote that leaves one missing, a reject, and a vote window that runs. -/
theorem witness_ProposalEndsWithoutAdoption :
    let p := proposed .clearAll
    let q := { p with proposal := p.proposal.map fun pr => { pr with accepted := Vector.replicate 4 false } }
    (Takes (State.asks q 1 0x61 [255, 1]) 1 0x61 (ask 0x61 [255, 1]) ∧ q.isAttached 1 = true
      ∧ q.proposal.any (fun pr => pr.id == (255 : Byte).toNat && pr.voters[(1 : Port)] && !pr.accepted[(1 : Port)]
          && pr.accepted[(2 : Port)] != pr.voters[(2 : Port)]) = true)
    ∧ Takes (State.asks p 1 0x61 [255, 0]) 1 0x61 (ask 0x61 [255, 0])
    ∧ (p.running = true ∧ p.proposal.any (fun pr => pr.timer.isSome) = true) := by
  unfold Takes; decide

/-! ## Witnesses: notices, rest and reset -/

/-- Eight records, which empty the queue, and nine, which do not. -/
theorem witness_FlushAndNoticesReportAndClear_notices :
    let n := peerNotice .peerAttached 1 0
    let s (k : Nat) : State := State.asks (shared.modNotices 0 fun q => { q with records := List.replicate k n }) 0 0x50 []
    (Takes (s 8) 0 0x50 (ask 0x50 []) ∧ (s 8).isAttached 0 = true ∧ ((s 8).port 0).notices.records.length = 8)
      ∧ (Takes (s 9) 0 0x50 (ask 0x50 []) ∧ ((s 9).port 0).notices.records.length = 9) := by
  unfold Takes; decide

theorem witness_RestKeepsEveryBlockAndWarmUpReturnsToRun :
    let s := { State.reset with restCountdown := some 5000 }
    let w := { shared with power := .warming, warmUpTimer := some 250 }
    let h := w.modAttach 2 fun a => { a with pendingHello := some ⟨4, 1⟩ }
    let b := ((waiting (opAt (.write [1]) 0 1 0)).modAttach 0 fun a =>
      { a with state := .cleaning, pendingHello := some ⟨5, 0⟩ })
    (s.running = true ∧ s.restCountdown.isSome = true)
      ∧ (w.resetLow = false ∧ w.power = .warming ∧ w.warmUpTimer.isSome = true
        ∧ ∀ p : Port, (w.port p).attach.pendingHello = none)
      ∧ (h.power = .warming ∧ h.warmUpTimer.isSome = true ∧ (h.port 2).attach.pendingHello = some ⟨4, 1⟩
        ∧ (h.port 2).attach.state ≠ .cleaning ∧ (h.port 2).stage.stage = .empty
        ∧ ∀ p : Port, (h.port p).attach.state ≠ .cleaning)
      ∧ ((b.port 0).attach.pendingHello = some ⟨5, 0⟩ ∧ (b.port 0).attach.state = .cleaning
        ∧ (b.port 0).stage.stage ≠ .empty) := by decide

/-- Two pending HELLOs: port 0's is taken first and told to port 1 alone of the two, whose own HELLO then empties its queue;
port 2 is told of both. -/
theorem test_pending_hellos_in_port_order :
    let pend (s : State) (p : Port) : State := s.modAttach p fun a => { a with pendingHello := some ⟨4, 0⟩ }
    let s := pend (pend { shared with power := .warming, warmUpTimer := some 250 } 0) 1
    after .warmUpExpiry s (fun t =>
      (t.port 1).notices.records.isEmpty && (t.port 0).notices.records == [peerNotice .peerRestarted 1 1]
        && (t.port 2).notices.records == [peerNotice .peerRestarted 0 1, peerNotice .peerRestarted 1 1]
        && (t.share 3).state == .free && (t.port 0).link.responses.length == 1) = true := by decide +kernel

/-- RESET with the path FREE, with a WRITE in flight, with a READ in flight, and with a scrub burst in flight. -/
theorem witness_ResetLosesWhatIsInProgress :
    let w := opAt (.write [1]) 100 1 100
    let r := opAt (.read []) 100 1 100
    let b := { shared with arbiter := { shared.arbiter with path := .busy .scrub } }
    (shared.resetLow = false ∧ shared.mem.wf = true ∧ shared.arbiter.path = .free)
      ∧ ((bursting w []).arbiter.path = .busy (.port 0) ∧ ((bursting w []).port 0).stage.stage = .bursting w 5 [])
      ∧ (((bursting r [0]).port 0).stage.stage = .bursting r 5 [0] ∧ r.kind.isRead = true)
      ∧ (b.arbiter.path = .busy .scrub ∧ b.pool.scrub = some ⟨23, 15⟩ ∧ b.resetLow = false) := by decide

theorem witness_PowerOnTakesThePowerOnState : shared.arbiter.path = .free ∧ enabled .powerOn shared = true := by decide

/-! ## Witnesses: the invariants, each in a state with something in it and an empty queue -/

/-- A step of a state with an empty queue. -/
theorem idles (s : State) (h : s.pending = []) : step s = .next s := by unfold step; rw [h]

theorem witness_StepKeepsStoreQueuesRangesAndPath_store :
    let s := { State.reset with mem := [(5, 1), (9, 2)] }
    MemoryCanonical s ∧ step s = .next s := ⟨rfl, rfl⟩

theorem witness_StepKeepsStoreQueuesRangesAndPath_rest :
    let s := bursting (opAt (.write [1]) 0 1 0) []
    QueuesBounded s ∧ GenerationsInRange s ∧ SettingsLegal s ∧ PathMatchesStages s ∧ step s = .next s := by
  refine ⟨by unfold QueuesBounded; decide, by unfold GenerationsInRange; decide, ⟨by decide, by decide, ?_⟩,
    by unfold PathMatchesStages; decide, idles _ rfl⟩
  intro pr r h; exact nomatch h

/-- Reset with frame 0 scrubbed. -/
def oneClean : State := { State.reset with pool := { clean := [0], dirty := allFrames.drop 2, scrub := some ⟨1, 0⟩ } }

theorem oneClean_frames (i : ShareIdx) : (oneClean.share i).bySlot = [] := by revert i; decide

theorem oneClean_lists (f : FrameNo) :
    oneClean.pool.clean.count f + oneClean.pool.dirty.count f
      + (oneClean.pool.scrub.any fun sf => sf.frame == f).toNat = 1 := by
  have once : allFrames.count f = 1 := List.count_eq_one_of_mem (List.nodup_finRange 256) (List.mem_finRange f)
  rw [show allFrames = 0 :: 1 :: allFrames.drop 2 from by decide +kernel, List.count_cons, List.count_cons] at once
  have scrub : (oneClean.pool.scrub.any fun sf => sf.frame == f).toNat = if (1 : FrameNo) == f then 1 else 0 := by
    show Bool.toNat ((1 : FrameNo) == f) = _
    cases h : (1 : FrameNo) == f <;> rfl
  show [(0 : FrameNo)].count f + (allFrames.drop 2).count f + _ = 1
  rw [scrub, List.count_cons, List.count_nil]
  omega

theorem oneClean_shares (f : FrameNo) : (allShares.map fun i => (oneClean.share i).bySlot.count f).sum = 0 := by
  have none : (fun i => (oneClean.share i).bySlot.count f) = fun _ => 0 := by funext i; rw [oneClean_frames]; rfl
  rw [none]; decide

theorem witness_StepKeepsFramesAccounted : FramesAccounted oneClean ∧ step oneClean = .next oneClean := by
  refine ⟨⟨fun f => ?_, fun i k _ => ?_, fun h => (nomatch h), fun sf h => ?_⟩, idles _ rfl⟩
  · rw [State.placesOf, oneClean_shares, oneClean_lists]
  · revert i k; decide
  · cases h; decide

theorem claimed_handleCounts : HandleCountsTrue claimed := by unfold HandleCountsTrue; decide +kernel

theorem witness_StepKeepsHandleCountsTrue : HandleCountsTrue claimed ∧ step claimed = .next claimed :=
  ⟨claimed_handleCounts, idles _ rfl⟩

theorem claimed_otherClaims (i : ShareIdx) : i ≠ 3 → (claimed.share i).claim = none := by revert i; decide

theorem witness_StepKeepsClaimsSound :
    HandleCountsTrue claimed ∧ ClaimsSound claimed ∧ step claimed = .next claimed := by
  refine ⟨claimed_handleCounts, fun i c h => ?_, idles _ rfl⟩
  rcases Decidable.eq_or_ne i 3 with rfl | hi
  · cases h
    refine ⟨by decide, fun x hx => ?_⟩
    simp only [Claim.places, List.map_cons, List.map_nil, List.mem_cons, List.not_mem_nil, or_false] at hx
    rcases hx with rfl | rfl
    · exact ⟨by decide, ⟨3, 7, all, 0, 2048, .created⟩, by decide⟩
    · exact ⟨by decide, ⟨3, 7, readWrite, 0, 2048, .attached⟩, by decide⟩
  · rw [claimed_otherClaims i hi] at h; exact nomatch h

/-- A WRITE of port 0 in flight, with its response entry reserved. -/
def writing : State :=
  (bursting (opAt (.write [1, 2]) 63 2 63) []).modLink 0 fun l => { l with responses := [.reserved 0x31 9] }

theorem writing_op (p : Port) (op : Operation) (h : (writing.port p).stage.stage.op? = some op) :
    p = 0 ∧ op = opAt (.write [1, 2]) 63 2 63 := by
  rcases Decidable.eq_or_ne p 0 with rfl | hp
  · cases h; exact ⟨rfl, rfl⟩
  · have : ∀ q : Port, q ≠ 0 → (writing.port q).stage.stage.op? = none := by decide
    rw [this p hp] at h; exact nomatch h

theorem writing_handles (p : Port) (h : HandleNo) :
    (writing.handle p h).all (fun v => v.base % 64 == 0 && v.length % 64 == 0 && decide (v.base + v.length ≤ 32768)) = true
      := by revert p h; decide

theorem witness_StepNeverStopsOnASoundDataPath : DataPathSound writing := by
  refine ⟨by unfold InUseTrue; decide +kernel, ⟨fun p h v hv => ?_, fun i n hn => ?_⟩, fun p op hop => ?_⟩
  · have := writing_handles p h
    rw [hv] at this
    simpa [and_assoc] using this
  · have : ∀ i : ShareIdx, (writing.share i).size.all (fun n => decide (n ≤ 32)) = true := by decide
    have := this i
    rw [hn] at this
    simpa using this
  · obtain ⟨rfl, rfl⟩ := writing_op p op hop
    refine ⟨by decide, by decide, by decide, fun _ x h h' => ?_⟩
    have : x / Config.frameBytes = 0 := by
      have : x < 65 := h'
      unfold Config.frameBytes; omega
    rw [this]; decide

theorem witness_StepKeepsResponsesInOrder : ResponsesInOrder writing ∧ step writing = .next writing := by
  refine ⟨fun p => ⟨fun h => ?_, fun _ op hop _ => ?_, fun _ h => ?_, fun h => ?_⟩, idles _ rfl⟩
  · revert h; revert p; decide
  · obtain ⟨rfl, rfl⟩ := writing_op p op hop
    exact ⟨[], 9, by decide, by simp⟩
  · rcases Decidable.eq_or_ne p 0 with rfl | hp
    · exact absurd (h (opAt (.write [1, 2]) 63 2 63) rfl) (by decide)
    · revert hp; clear h; revert p; decide
  · revert h; revert p; decide

theorem witness_StepKeepsLinesAndCountdownDriven :
    AttentionDriven shared ∧ CountdownDriven shared ∧ step shared = .next shared :=
  ⟨by unfold AttentionDriven; decide, by unfold CountdownDriven; decide, idles _ rfl⟩

/-- A pool with nothing to scrub and a rest delay of 3 ms, whose last open transaction is a POLL. -/
def almostIdle : State :=
  State.opens { State.reset with
    pool := { clean := [0], dirty := [], scrub := none }, settings := { Settings.default with restDelay := 3 } } 0 .poll

/-- The rise of select starts the countdown in full; a countdown that runs keeps its deadline. -/
theorem witness_StepKeepsLinesAndCountdownDriven_start :
    almostIdle.restCountdown = none
      ∧ after (.poll 0 8) almostIdle (fun t => t.restCountdown == some 3000) = true
      ∧ step { State.reset with restCountdown := some 17 } = .next { State.reset with restCountdown := some 17 } :=
  ⟨by decide, by decide, idles _ rfl⟩

/-- A WRITE in flight on frame 5, frames 0 to 3 clean, and frame 4 scrubbed up to its second block, with a byte of the block
after that not zero. -/
def mixed : State :=
  { writing with
    mem := [(4 * 1024 + 64, 7), (5 * 1024, 9)]
    pool := { clean := [0, 1, 2, 3], dirty := allFrames.drop 6, scrub := some ⟨4, 1⟩ } }

theorem mixed_frames (i : ShareIdx) : (mixed.share i).bySlot = if i = 3 then [5] else [] := by revert i; decide

theorem mixed_shares (f : FrameNo) :
    (allShares.map fun i => (mixed.share i).bySlot.count f).sum = if (5 : FrameNo) == f then 1 else 0 := by
  have each : (fun i => (mixed.share i).bySlot.count f) = fun i => if i = 3 then (if (5 : FrameNo) == f then 1 else 0) else 0 := by
    funext i; rw [mixed_frames]; split
    · rw [List.count_cons, List.count_nil, Nat.zero_add]
    · rfl
  rw [each]
  cases (5 : FrameNo) == f <;> decide

theorem mixed_places (f : FrameNo) : mixed.placesOf f = 1 := by
  have once : allFrames.count f = 1 := List.count_eq_one_of_mem (List.nodup_finRange 256) (List.mem_finRange f)
  rw [show allFrames = 0 :: 1 :: 2 :: 3 :: 4 :: 5 :: allFrames.drop 6 from by decide +kernel] at once
  simp only [List.count_cons] at once
  have scrub : (mixed.pool.scrub.any fun sf => sf.frame == f).toNat = if (4 : FrameNo) == f then 1 else 0 := by
    show Bool.toNat ((4 : FrameNo) == f) = _
    cases (4 : FrameNo) == f <;> rfl
  rw [State.placesOf, mixed_shares, scrub]
  show [(0 : FrameNo), 1, 2, 3].count f + (allFrames.drop 6).count f + _ + _ = 1
  simp only [List.count_cons, List.count_nil]
  omega

theorem mixed_read (x : Nat) (h : x ≠ 4 * 1024 + 64) (h' : x ≠ 5 * 1024) : mixed.mem.read x = 0 := by
  show (if x = 4 * 1024 + 64 then (7 : Byte) else if x = 5 * 1024 then 9 else 0) = 0
  rw [if_neg h, if_neg h']

theorem witness_StepKeepsCleanFramesZero :
    MemoryCanonical mixed ∧ FramesAccounted mixed ∧ PathMatchesStages mixed ∧ DataPathSound mixed ∧ BurstsOnBoundFrames mixed
      ∧ CleanFramesZero mixed ∧ step mixed = .next mixed := by
  refine ⟨by unfold MemoryCanonical; decide, ⟨mixed_places, fun i k _ => ?_, fun h => (nomatch h), fun sf h => ?_⟩,
    by unfold PathMatchesStages; decide, witness_StepNeverStopsOnASoundDataPath, fun p op f bs h => ?_,
    ⟨fun f hf k hk => ?_, fun sf h k hk => ?_⟩, idles _ rfl⟩
  · rename_i free; revert free; revert i k; decide
  · cases h; decide
  · obtain ⟨rfl, rfl⟩ := writing_op p op (by show (mixed.port p).stage.stage.op? = _; rw [h]; rfl)
    cases h; decide
  · have : f.val < 4 := by revert hf; revert f; decide +kernel
    exact mixed_read _ (by omega) (by omega)
  · cases h
    have below : k < 64 := hk
    exact mixed_read _ (by show 4 * 1024 + k ≠ _; omega) (by show 4 * 1024 + k ≠ _; omega)

end Sys2Proof.Tests
end

