-- ==== Sys2Proof/Proofs/Tables.lean ====
section
/-! PROOFS. The tables that the invariants of shares, handles and operations speak of: what each shared operation does to them.
`SameTables` is the relation of the many operations that leave them alone; a step of a generation, a retirement and the entry
into CLOSING have their equations here. -/

namespace Sys2Proof.Machine

/-- `t` has the handle tables, the operations in the data stages, the Frame Pool and, but for the claim records, the share
entries of `s`. -/
structure SameTables (s t : State) : Prop where
  handles : ∀ p : Port, t.ports[p].handles = s.ports[p].handles
  operation : ∀ p : Port, t.ports[p].stage.stage.op? = s.ports[p].stage.stage.op?
  shares : ∀ i : ShareIdx, { t.shares[i] with claim := s.shares[i].claim } = s.shares[i]
  pool : t.pool = s.pool

namespace SameTables

variable {s t u : State}

theorem refl (s : State) : SameTables s s := ⟨fun _ => rfl, fun _ => rfl, fun _ => rfl, rfl⟩

/-- Nothing but the ports, the shares and the pool matters. -/
theorem elsewhere (ports : t.ports = s.ports := by rfl) (shares : t.shares = s.shares := by rfl)
    (pool : t.pool = s.pool := by rfl) : SameTables s t :=
  ⟨fun _ => by rw [ports], fun _ => by rw [ports], fun _ => by rw [shares], pool⟩

theorem state (h : SameTables s t) (i : ShareIdx) : t.shares[i].state = s.shares[i].state :=
  (congrArg Share.state (h.shares i) :)

theorem generation (h : SameTables s t) (i : ShareIdx) : t.shares[i].generation = s.shares[i].generation :=
  (congrArg Share.generation (h.shares i) :)

theorem handleCount (h : SameTables s t) (i : ShareIdx) : t.shares[i].handleCount = s.shares[i].handleCount :=
  (congrArg Share.handleCount (h.shares i) :)

theorem inUse (h : SameTables s t) (i : ShareIdx) : t.shares[i].inUse = s.shares[i].inUse :=
  (congrArg Share.inUse (h.shares i) :)

theorem size (h : SameTables s t) (i : ShareIdx) : t.shares[i].size = s.shares[i].size :=
  (congrArg Share.size (h.shares i) :)

theorem frameMap (h : SameTables s t) (i : ShareIdx) : t.shares[i].frameMap = s.shares[i].frameMap :=
  (congrArg Share.frameMap (h.shares i) :)

theorem trans (a : SameTables s t) (b : SameTables t u) : SameTables s u where
  handles p := (b.handles p).trans (a.handles p)
  operation p := (b.operation p).trans (a.operation p)
  shares i := by rw [← a.shares i, ← b.shares i]
  pool := b.pool.trans a.pool

theorem foldl {α : Type} {f : State → α → State} (h : ∀ s a, SameTables s (f s a)) (l : List α) (s : State) :
    SameTables s (l.foldl f s) := by
  induction l generalizing s with
  | nil => exact refl s
  | cons a l ih => exact (h s a).trans (ih (f s a))

end SameTables

/-! ## Records, responses and notices -/

section Same

variable (s : State)

theorem sameTables_modPort (p : Port) (f : PortState → PortState) (hh : (f s.ports[p]).handles = s.ports[p].handles)
    (ho : (f s.ports[p]).stage.stage.op? = s.ports[p].stage.stage.op?) : SameTables s (s.modPort p f) where
  handles q := by
    rw [State.modPort_get]
    split
    · next e => rw [e, hh]
    · rfl
  operation q := by
    rw [State.modPort_get]
    split
    · next e => rw [e, ho]
    · rfl
  shares _ := rfl
  pool := rfl

theorem sameTables_modLink (p : Port) (f : Link → Link) : SameTables s (s.modLink p f) := sameTables_modPort s p _ rfl rfl

theorem sameTables_modAttach (p : Port) (f : Attachment → Attachment) : SameTables s (s.modAttach p f) :=
  sameTables_modPort s p _ rfl rfl

theorem sameTables_modPosts (p : Port) (f : PostBuffer → PostBuffer) : SameTables s (s.modPosts p f) :=
  sameTables_modPort s p _ rfl rfl

theorem sameTables_modNotices (p : Port) (f : NoticeQueue → NoticeQueue) : SameTables s (s.modNotices p f) :=
  sameTables_modPort s p _ rfl rfl

theorem sameTables_placeResponse (p : Port) (k : Byte) (r : Reply) : SameTables s (s.placeResponse p k r) :=
  sameTables_modLink s p _

theorem sameTables_dequeue (p : Port) (f : Frame) : SameTables s (s.dequeue p f) := sameTables_modLink s p _

theorem sameTables_flushQueues (p : Port) (tag : Byte) (stay : List Frame) : SameTables s (s.flushQueues p tag stay) :=
  sameTables_modPort s p _ rfl rfl

theorem sameTables_setStage (p : Port) (d : DataStage) (h : d.stage.op? = s.ports[p].stage.stage.op?) :
    SameTables s (s.setStage p d) := sameTables_modPort s p _ rfl h

theorem sameTables_setClaim (i : ShareIdx) (c : Option Claim) : SameTables s (s.setClaim i c) where
  handles _ := rfl
  operation _ := rfl
  shares j := by
    rw [State.setClaim_eq, State.modShare_get]
    split
    · next e => rw [e]
    · rfl
  pool := rfl

theorem sameTables_settle : SameTables s s.settle where
  handles p := by rw [State.settle_get]
  operation p := by rw [State.settle_get]
  shares i := by rw [State.settle_shares]
  pool := by rw [State.settle_pool]

theorem sameTables_push (q : Port) (n : Notice) : SameTables s (s.push q n) := by
  unfold State.push
  split
  · exact sameTables_modNotices s q _
  · exact .refl s

theorem sameTables_drainForHead (p : Port) : SameTables s (s.drainForHead p) := by
  unfold State.drainForHead
  split
  · exact .refl s
  · split
    · exact .refl s
    · exact sameTables_modPosts s p _

theorem sameTables_pushTold (k : NoticeKind) (p : Port) (i : ShareIdx) (value : Nat) (l : List (Port × HandleNo)) :
    SameTables s (s.pushTold k p i value l) := by
  induction l generalizing s with
  | nil => exact .refl s
  | cons x l ih => exact (sameTables_push s _ _).trans (ih _)

theorem sameTables_pushEnded (p : Port) (i : ShareIdx) (cause : Nat) (l : List (Port × HandleNo)) :
    SameTables s (s.pushEnded p i cause l) := by
  induction l generalizing s with
  | nil => exact .refl s
  | cons x l ih =>
    unfold State.pushEnded
    split
    · exact ih s
    · exact (sameTables_push s _ _).trans (ih _)

theorem sameTables_pushDecided (pr : Proposal) (o : ProposalOutcome) (l : List Port) :
    SameTables s (s.pushDecided pr o l) := by
  induction l generalizing s with
  | nil => exact .refl s
  | cons q l ih =>
    unfold State.pushDecided
    split
    · exact (sameTables_push s _ _).trans (ih _)
    · exact ih s

theorem sameTables_pushOpened (pr : Proposal) (l : List Port) : SameTables s (s.pushOpened pr l) := by
  induction l generalizing s with
  | nil => exact .refl s
  | cons q l ih =>
    unfold State.pushOpened
    split
    · exact (sameTables_push s _ _).trans (ih _)
    · exact ih s

theorem sameTables_pushPeers (p : Port) (n : Notice) (l : List Port) : SameTables s (s.pushPeers p n l) := by
  induction l generalizing s with
  | nil => exact .refl s
  | cons q l ih =>
    unfold State.pushPeers
    split
    · exact ih s
    · exact (sameTables_push s _ _).trans (ih _)

/-! ## Claims -/

theorem sameTables_handover (i : ShareIdx) (c : Claim) : SameTables s (s.handover i c) := by
  unfold State.handover
  split
  · exact sameTables_setClaim s i _
  · exact (sameTables_setClaim s i _).trans (sameTables_push _ _ _)

theorem sameTables_endClaim (p : Port) (i : ShareIdx) (cause : Nat) : SameTables s (s.endClaim p i cause) := by
  unfold State.endClaim
  split
  · exact .refl s
  · exact (sameTables_setClaim s i _).trans (sameTables_pushEnded _ _ _ _ _)

theorem sameTables_claimDrop (p : Port) (h : HandleNo) (i : ShareIdx) : SameTables s (s.claimDrop p h i) := by
  unfold State.claimDrop
  split
  · exact .refl s
  · split
    · split
      · exact sameTables_handover s i _
      · exact .refl s
    · exact sameTables_setClaim s i _

theorem sameTables_leaveWaiters (p : Port) (i : ShareIdx) : SameTables s (State.leaveWaiters p s i) := by
  unfold State.leaveWaiters
  split
  · exact .refl s
  · exact sameTables_setClaim s i _

theorem sameTables_yieldClaim (p : Port) (i : ShareIdx) : SameTables s (State.yieldClaim p s i) := by
  unfold State.yieldClaim
  split
  · exact .refl s
  · split
    · exact sameTables_handover s i _
    · exact .refl s

theorem sameTables_claimCleanup (p : Port) : SameTables s (s.claimCleanup p) :=
  (SameTables.foldl (fun s i => sameTables_leaveWaiters s p i) _ _).trans
    (SameTables.foldl (fun s i => sameTables_yieldClaim s p i) _ _)

theorem sameTables_claimShare (p : Port) (h : HandleNo) (i : ShareIdx) (wait : Bool) :
    SameTables s (s.claimShare p h i wait).1 := by
  unfold State.claimShare
  split
  · exact sameTables_setClaim s i _
  · split
    · exact .refl s
    · split
      · exact .refl s
      · split
        · exact sameTables_setClaim s i _
        · exact .refl s

theorem sameTables_releaseClaim (p : Port) (i : ShareIdx) : SameTables s (s.releaseClaim p i).1 := by
  unfold State.releaseClaim
  split
  · exact .refl s
  · split
    · exact sameTables_handover s i _
    · split
      · exact sameTables_setClaim s i _
      · exact .refl s

theorem sameTables_renewClaim (p : Port) (i : ShareIdx) : SameTables s (s.renewClaim p i).1 := by
  unfold State.renewClaim
  split
  · exact .refl s
  · split
    · exact sameTables_setClaim s i _
    · exact .refl s

/-! ## Attachment -/

theorem sameTables_becomeAttached (p : Port) : SameTables s (s.becomeAttached p) := by
  have placed : SameTables s (((s.modAttach p fun a => { a with state := .attached }).modPosts p fun b =>
      { b with ordinal := 0 }).placeResponse p kindHello (Reply.ok (.hello s.pool.clean.length))) :=
    ((sameTables_modAttach s p _).trans (sameTables_modPosts _ p _)).trans (sameTables_placeResponse _ p _ _)
  unfold State.becomeAttached
  dsimp only
  refine SameTables.trans ?_ (sameTables_modAttach _ p _)
  split
  · exact placed.trans (sameTables_pushPeers _ p _ _)
  · exact placed

theorem sameTables_finishCleanup (p : Port) : SameTables s (s.finishCleanup p) := by
  unfold State.finishCleanup
  split
  · exact sameTables_becomeAttached s p
  · exact .refl s

end Same

/-! ## A change of one handle entry -/

theorem setHandle_get (s : State) (p q : Port) (h k : HandleNo) (x : Option Handle) :
    (s.setHandle p h x).ports[q].handles[k] = if q = p ∧ k = h then x else s.ports[q].handles[k] := by
  rw [State.setHandle_eq, State.modPort_get]
  by_cases e : q = p
  · subst e
    simp only [if_true, handles_set_get, true_and]
  · simp only [e, if_false, false_and]

theorem setHandle_shares (s : State) (p : Port) (h : HandleNo) (x : Option Handle) :
    (s.setHandle p h x).shares = s.shares := rfl

/-! ## A step of a generation (R2) -/

theorem nextGeneration_ne (g : Nat) : nextGeneration g ≠ g := by
  unfold nextGeneration
  split <;> omega

@[simp] theorem Stage.op?_afterStep (i : ShareIdx) (g : Nat) (st : Stage) :
    (st.afterStep i g).op? = st.op?.map (Operation.afterStep i g) := by
  cases st <;> rfl

theorem stepGeneration_shares (s : State) (i j : ShareIdx) :
    (s.stepGeneration i).shares[j]
      = if j = i then { s.shares[i] with generation := nextGeneration s.shares[i].generation } else s.shares[j] :=
  State.modShare_get s i j fun sh => { sh with generation := nextGeneration s.shares[i].generation }

theorem stepGeneration_ports (s : State) (i : ShareIdx) (q : Port) :
    (s.stepGeneration i).ports[q] = { s.ports[q] with
      handles := Vector.ofFn fun h : Fin 32 =>
        Handle.afterStep i (nextGeneration s.shares[i].generation) s.ports[q].handles[h]
      stage := { s.ports[q].stage with
        stage := s.ports[q].stage.stage.afterStep i (nextGeneration s.shares[i].generation) } } :=
  State.mapPorts_get _ q _

theorem stepGeneration_handle (s : State) (i : ShareIdx) (q : Port) (k : HandleNo) :
    (s.stepGeneration i).ports[q].handles[k]
      = Handle.afterStep i (nextGeneration s.shares[i].generation) s.ports[q].handles[k] := by
  rw [stepGeneration_ports]
  simp

/-! ## A REVOKE's part of the tables -/

/-- The tables after a REVOKE of entry `i` by port `p` through handle `h`, before anybody is told (R19, R42). -/
def State.revoked (s : State) (p : Port) (h : HandleNo) (i : ShareIdx) : State :=
  ((s.stepGeneration i).restamp p h i).modShare i fun sh => { sh with handleCount := 1 }

theorem revoked_shares (s : State) (p : Port) (h : HandleNo) (i j : ShareIdx) :
    (s.revoked p h i).shares[j] = if j = i then
        { s.shares[i] with generation := nextGeneration s.shares[i].generation, handleCount := 1 }
      else s.shares[j] := by
  unfold State.revoked State.restamp
  rw [State.modShare_get]
  by_cases e : j = i
  · rw [if_pos e, if_pos e, setHandle_shares, stepGeneration_shares, if_pos rfl]
  · rw [if_neg e, if_neg e, setHandle_shares, stepGeneration_shares, if_neg e]

theorem revoked_ports (s : State) (p : Port) (h : HandleNo) (i : ShareIdx) (q : Port) :
    (s.revoked p h i).ports[q]
      = { (s.stepGeneration i).ports[q] with handles := (s.revoked p h i).ports[q].handles } := by
  unfold State.revoked State.restamp
  rw [State.modShare_ports, State.setHandle_eq, State.modPort_get]
  split
  · next e => rw [e]
  · rfl

/-- A current handle records the old generation, so the step of the generation leaves it. -/
theorem afterStep_current {s : State} {v : Handle} (current : s.current v = true) :
    Handle.afterStep v.share (nextGeneration s.shares[v.share].generation) (some v) = some v := by
  refine if_neg fun records => ?_
  have new := beq_iff_eq.mp (Bool.and_eq_true_iff.mp records).2
  have old := beq_iff_eq.mp (Bool.and_eq_true_iff.mp current).2
  exact nextGeneration_ne _ (new.symm.trans old)

theorem revoked_handle {s : State} {p : Port} {h : HandleNo} {v : Handle} (valid : s.handle p h = some v)
    (current : s.current v = true) (q : Port) (k : HandleNo) :
    (s.revoked p h v.share).ports[q].handles[k] = if q = p ∧ k = h then
        some { v with generation := nextGeneration s.shares[v.share].generation }
      else Handle.afterStep v.share (nextGeneration s.shares[v.share].generation) s.ports[q].handles[k] := by
  have kept : (s.stepGeneration v.share).ports[p].handles[h] = some v := by
    rw [stepGeneration_handle, show s.ports[p].handles[h] = some v from valid, afterStep_current current]
  unfold State.revoked State.restamp
  rw [State.modShare_ports, setHandle_get, stepGeneration_handle, State.handle_eq, kept, State.share_eq,
    stepGeneration_shares, if_pos rfl]
  rfl

/-! ## Reset and demand backing -/

theorem reset_shares (i : ShareIdx) : State.reset.shares[i] = Share.reset := by
  simp [State.reset]

theorem reset_ports (p : Port) : State.reset.ports[p] = PortState.reset := by
  simp [State.reset]

theorem bindNeed_shares (s : State) (i : ShareIdx) (need : List SlotNo) (j : ShareIdx) :
    (s.bindNeed i need).shares[j] = if j = i then
        { s.shares[i] with frameMap := bindSlots s.shares[i].frameMap need (s.pool.clean.take need.length) }
      else s.shares[j] :=
  State.modShare_get { s with pool := s.pool.take need.length } i j fun sh =>
    { sh with frameMap := bindSlots sh.frameMap need (s.pool.clean.take need.length) }

/-! ## Retirement and entry into CLOSING (R10, R11) -/

/-- The entry that a retirement leaves (R11). -/
def Share.retired (sh : Share) : Share :=
  { sh with state := .free, frameMap := Vector.replicate 32 none, claim := none, creator := none, scope := none, size := none,
            generation := nextGeneration sh.generation }

/-- The state of a retirement before its generation steps. -/
def State.unbind (s : State) (i : ShareIdx) : State :=
  { s with pool := s.pool.giveBack s.shares[i].frames }.modShare i fun sh =>
    { sh with state := .free, frameMap := Vector.replicate 32 none, claim := none, creator := none, scope := none,
              size := none }

theorem retire_eq (s : State) (i : ShareIdx) : s.retire i = (s.unbind i).stepGeneration i := rfl

theorem unbind_generation (s : State) (i : ShareIdx) : (s.unbind i).shares[i].generation = s.shares[i].generation := by
  unfold State.unbind
  rw [State.modShare_same]

theorem retire_shares (s : State) (i j : ShareIdx) :
    (s.retire i).shares[j] = if j = i then s.shares[i].retired else s.shares[j] := by
  rw [retire_eq, stepGeneration_shares]
  unfold State.unbind
  rw [State.modShare_same, State.modShare_get]
  split <;> rfl

theorem retire_ports (s : State) (i : ShareIdx) (q : Port) :
    (s.retire i).ports[q] = { s.ports[q] with
      handles := Vector.ofFn fun h : Fin 32 =>
        Handle.afterStep i (nextGeneration s.shares[i].generation) s.ports[q].handles[h]
      stage := { s.ports[q].stage with
        stage := s.ports[q].stage.stage.afterStep i (nextGeneration s.shares[i].generation) } } := by
  rw [retire_eq, stepGeneration_ports, unbind_generation]
  rfl

theorem retire_pool (s : State) (i : ShareIdx) : (s.retire i).pool = s.pool.giveBack s.shares[i].bySlot := rfl

theorem retireIfDone_of_done {s : State} {i : ShareIdx} (hc : s.shares[i].state = .closing) (hu : s.shares[i].inUse = 0) :
    s.retireIfDone i = s.retire i := by
  simp only [State.retireIfDone, State.share_eq, hc, hu, beq_self_eq_true, Bool.and_self, if_true]

theorem retireIfDone_of_used {s : State} {i : ShareIdx} (hu : s.shares[i].inUse ≠ 0) : s.retireIfDone i = s :=
  if_neg fun both => hu (by simpa using (Bool.and_eq_true_iff.mp both).2)

theorem retireIfDone_shares_other (s : State) {i j : ShareIdx} (h : j ≠ i) :
    (s.retireIfDone i).shares[j] = s.shares[j] := by
  unfold State.retireIfDone
  split
  · rw [retire_shares, if_neg h]
  · rfl

theorem markClosing_shares (s : State) (i j : ShareIdx) :
    (s.markClosing i).shares[j]
      = if j = i then { s.shares[i] with state := .closing, name := none, handleCount := 0 } else s.shares[j] :=
  State.modShare_get s i j fun sh => { sh with state := .closing, name := none, handleCount := 0 }

/-- The entry is not live after an entry into CLOSING, and no other entry changes. -/
theorem enterClosing_live (s : State) (i j : ShareIdx) :
    (s.enterClosing i).shares[j].live = if j = i then false else s.shares[j].live := by
  unfold State.enterClosing
  split
  · next e =>
    subst e
    unfold State.retireIfDone
    split
    · rw [retire_shares, if_pos rfl]
      rfl
    · rw [markClosing_shares, if_pos rfl]
      rfl
  · next e => rw [retireIfDone_shares_other _ e, markClosing_shares, if_neg e]

theorem SameTables.retire {s t : State} (h : SameTables s t) (i : ShareIdx) : SameTables (s.retire i) (t.retire i) where
  handles q := by simp only [retire_ports, h.handles q, h.generation i]
  operation q := by simp only [retire_ports, Stage.op?_afterStep, h.operation q, h.generation i]
  shares j := by
    rw [retire_shares, retire_shares]
    split
    · unfold Share.retired
      rw [← h.shares i]
    · exact h.shares j
  pool := by rw [retire_pool, retire_pool, h.pool, Share.bySlot, h.frameMap i]; rfl

theorem SameTables.retireIfDone {s t : State} (h : SameTables s t) (i : ShareIdx) :
    SameTables (s.retireIfDone i) (t.retireIfDone i) := by
  unfold State.retireIfDone
  rw [State.share_eq, State.share_eq, h.state i, h.inUse i]
  split
  · exact h.retire i
  · exact h

/-- CLOSE's notices and the end of the claim leave the tables to the entry into CLOSING. -/
theorem sameTables_closeShare (s : State) (p : Port) (i : ShareIdx) :
    SameTables (s.enterClosing i) (s.closeShare p i) :=
  ((sameTables_pushTold _ _ _ _ _ _).trans (sameTables_endClaim _ _ _ _)).retireIfDone i

end Sys2Proof.Machine
end

