-- ==== Sys2Proof/Proofs/StepInvariant.lean ====
section
/-! PROOFS. The induction over commands, once: an invariant of the tables that each of the few operations which change them
keeps is kept by every step. -/

namespace Sys2Proof.Machine

/-- Every handle table is emptied. -/
def State.clearTables (s : State) : State := s.mapPorts fun _ q => { q with handles := Vector.replicate 32 none }

/-- `P` is kept by each operation that changes the tables, under what its callers have checked. `stops` is what follows where a
burst is granted on a slot without a frame. -/
structure StepInvariant (P : State → Prop) (stops : Prop) : Prop where
  same {s t : State} : SameTables s t → P s → P t
  reset : P State.reset
  scrubbed {s : State} {sf : ScrubFrame} : s.pool.scrub = some sf → P s → P { s with pool := s.pool.scrubbed sf }
  makeShare {s : State} {p : Port} {f : CreateFields} {i : ShareIdx} {h : HandleNo} :
    f.ok = true → s.freeShare? = some i → s.emptyHandle? p = some h → s.pool.verdict f.need = none →
    P s → P (s.makeShare p f i h)
  attach {s : State} {p : Port} {i : ShareIdx} {h : HandleNo} (r : Rights) :
    s.shares[i].live = true → s.emptyHandle? p = some h → P s → P (s.makeHandle p h (attachHandle i s.shares[i] r))
  grant {s : State} {p : Port} {f : GrantFields} {k h : HandleNo} {v : Handle} :
    f.ok = true → s.resolve p f.source = .ok (k, v) → f.base + f.length ≤ v.length → s.emptyHandle? f.target = some h →
    P s → P (s.makeHandle f.target h (f.handle p v))
  enterClosing {s : State} {i : ShareIdx} : s.shares[i].live = true → P s → P (s.enterClosing i)
  revoked {s : State} {p : Port} {h : HandleNo} {v : Handle} :
    s.handle p h = some v → s.current v = true → P s → P (s.revoked p h v.share)
  emptyHandle {s : State} (p : Port) (h : HandleNo) : P s → P (s.emptyHandle p h)
  clearTables {s : State} : (∀ i : ShareIdx, s.shares[i].live = false) → P s → P s.clearTables
  startOperation {s : State} {p : Port} {k : DataKind} {body : List Byte} {a : Admit} :
    s.ports[p].stage.stage = .empty → s.checkData p k body = .ok a → P s → P (s.startOperation p k a)
  endOperation {s : State} {p : Port} {op : Operation} (answer : Option Reply) :
    s.ports[p].stage.stage.op? = some op → P s → P (s.endOperation p op answer)
  advance {s : State} {p : Port} {op : Operation} (bs : List Byte) :
    s.ports[p].stage.stage.op? = some op → P s → P (s.advance p (op.deliver bs op.pieceLength))
  unbacked {s : State} {p : Port} {op : Operation} :
    s.ports[p].stage.stage.op? = some op → s.shares[op.share].frameAt op.slot = none → P s → stops

/-- The outcome is a next state with `P`, or a fault where `stops` holds. -/
def Leads (P : State → Prop) (stops : Prop) : Out → Prop
  | .next t => P t
  | .fault _ => stops
  | .refused _ => False

namespace StepInvariant

variable {P : State → Prop} {stops : Prop} (inv : StepInvariant P stops) {s : State}
include inv

/-- Nothing but the ports, the shares and the pool matters. -/
theorem elsewhere {t : State} (h : P s) (ports : t.ports = s.ports := by rfl) (shares : t.shares = s.shares := by rfl)
    (pool : t.pool = s.pool := by rfl) : P t :=
  inv.same (.elsewhere ports shares pool) h

/-! ## Shared operations -/

theorem closeShare (p : Port) {i : ShareIdx} (hl : s.shares[i].live = true) (h : P s) : P (s.closeShare p i) :=
  inv.same (sameTables_closeShare s p i) (inv.enterClosing hl h)

theorem revokeShare {p : Port} {k : HandleNo} {v : Handle} (hv : s.handle p k = some v) (hc : s.current v = true) (h : P s) :
    P (s.revokeShare p k v.share) :=
  inv.same ((sameTables_pushTold _ _ _ _ _ _).trans (sameTables_endClaim _ _ _ _)) (inv.revoked hv hc h)

theorem emptyTable (p : Port) (h : P s) : P (s.emptyTable p) := by
  unfold State.emptyTable
  induction allHandles generalizing s with
  | nil => exact h
  | cons k l ih =>
    refine ih ?_
    dsimp only
    split
    · exact inv.same (sameTables_modAttach _ p _) (inv.emptyHandle p k h)
    · exact h

theorem closeLive_foldl (l : List ShareIdx) (h : P s) : P (l.foldl State.closeLive s) := by
  induction l generalizing s with
  | nil => exact h
  | cons i l ih =>
    refine ih ?_
    unfold State.closeLive
    split
    · next hl => exact inv.enterClosing hl h
    · exact h

omit inv in
theorem closeLive_live (s : State) (i j : ShareIdx) :
    (s.closeLive i).shares[j].live = if j = i then false else s.shares[j].live := by
  unfold State.closeLive
  split
  · exact enterClosing_live s i j
  · next hl =>
    split
    · next e => rw [e]; simpa using hl
    · rfl

omit inv in
/-- Once each of these entries was closed, each is live no more, and none has become live. -/
theorem closeLive_foldl_live (l : List ShareIdx) (s : State) (j : ShareIdx) (h : j ∈ l ∨ s.shares[j].live = false) :
    (l.foldl State.closeLive s).shares[j].live = false := by
  induction l generalizing s with
  | nil => exact h.resolve_left List.not_mem_nil
  | cons i l ih =>
    refine ih _ ?_
    rw [closeLive_live]
    by_cases e : j = i
    · simp [e]
    · rcases h with hm | hf
      · exact .inl ((List.mem_cons.mp hm).resolve_left e)
      · simp only [if_neg e]; exact .inr hf

theorem adoptClearAll (h : P s) : P s.adoptClearAll := by
  have none_live (j : ShareIdx) : (allShares.foldl State.closeLive s).shares[j].live = false :=
    closeLive_foldl_live _ s j (.inl (List.mem_finRange j))
  refine inv.same ?_ (inv.clearTables none_live (inv.closeLive_foldl allShares h))
  unfold State.adoptClearAll State.clearTables
  generalize allShares.foldl State.closeLive s = t
  constructor
  case handles => intro p; simp only [State.mapPorts_get]
  case operation => intro p; simp only [State.mapPorts_get]
  case shares => intro i; simp
  case pool => rfl

theorem adopt (a : ProposalAction) (h : P s) : P (s.adopt a) := by
  cases a with
  | settings r => exact inv.elsewhere h
  | clearAll => exact inv.adoptClearAll h

theorem endProposal (pr : Proposal) (o : ProposalOutcome) (h : P s) : P (s.endProposal pr o) := by
  have removed {t : State} (ht : P t) : P ({ t with proposal := none }.pushDecided pr o allPorts) :=
    inv.same (sameTables_pushDecided _ pr o allPorts) (inv.elsewhere ht)
  unfold State.endProposal
  dsimp only
  split
  · exact removed (inv.adopt pr.action h)
  · exact removed h

theorem agreementCleanup (p : Port) (c : CleanupCause) (h : P s) : P (s.agreementCleanup p c) := by
  unfold State.agreementCleanup
  split
  · exact h
  · split
    · exact inv.endProposal _ _ h
    · split
      · split
        · exact inv.endProposal _ _ h
        · dsimp only
          split
          · exact inv.endProposal _ _ h
          · exact inv.elsewhere h
      · exact h

theorem dataCleanup (p : Port) (h : P s) : P (s.dataCleanup p) := by
  have cleared : P (s.modPosts p fun b => { b.cleared with faults := 0 }) := inv.same (sameTables_modPosts s p _) h
  unfold State.dataCleanup
  dsimp only
  split
  · exact cleared
  · next op hs =>
    split
    · exact inv.endOperation none (congrArg Stage.op? hs) cleared
    · exact cleared
  · next op f bs hs =>
    split
    · exact inv.same (sameTables_setStage _ p _ (congrArg Stage.op? hs).symm) cleared
    · exact cleared

theorem cleanup (p : Port) (c : CleanupCause) (h : P s) : P (s.cleanup p c) :=
  inv.agreementCleanup p c (inv.dataCleanup p (inv.emptyTable p (inv.same (sameTables_claimCleanup s p) h)))

theorem takeHello (p : Port) (tag : Byte) (stay : List Frame) (h : P s) : P (s.takeHello p tag stay) := by
  unfold State.takeHello
  dsimp only
  refine inv.same (sameTables_finishCleanup _ p) ?_
  split
  · exact inv.same ((sameTables_flushQueues s p tag stay).trans (sameTables_modAttach _ p _)) h
  · exact inv.cleanup p _ (inv.same ((sameTables_flushQueues s p tag stay).trans (sameTables_modAttach _ p _)) h)

theorem arriveHello (p : Port) (tag : Byte) (h : P s) : P (s.arriveHello p tag) := by
  unfold State.arriveHello
  split
  · exact inv.takeHello p tag [] h
  · exact inv.same (sameTables_modAttach s p _) h

theorem takePending (p : Port) (h : P s) : P (s.takePending p) := by
  unfold State.takePending
  split
  · exact h
  · exact inv.takeHello p _ _ h

theorem takePending_foldl (l : List Port) (h : P s) : P (l.foldl State.takePending s) := by
  induction l generalizing s with
  | nil => exact h
  | cons p l ih => exact ih (inv.takePending p h)

theorem detachPort (p : Port) (h : P s) : P (s.detachPort p) := by
  unfold State.detachPort
  dsimp only
  refine inv.same (((((sameTables_modAttach _ p _).trans (sameTables_modNotices _ p _)).trans
    (sameTables_pushPeers _ p _ allPorts))).trans (sameTables_modAttach _ p _)) ?_
  exact inv.cleanup p _ (inv.same (sameTables_modAttach s p _) h)

theorem openProposal (p : Port) (a : ProposalAction) (h : P s) : P (s.openProposal p a).1 := by
  have stepped (n : Nat) : P { s with proposalCounter := n } := inv.elsewhere h
  unfold State.openProposal
  dsimp only
  split
  · exact inv.endProposal _ _ (stepped _)
  · exact inv.same (sameTables_pushOpened _ _ _) (inv.elsewhere h)

theorem castVote (p : Port) (pr : Proposal) (accept : Bool) (h : P s) : P (s.castVote p pr accept).1 := by
  unfold State.castVote
  split
  · dsimp only
    split
    · exact inv.endProposal _ _ h
    · exact inv.elsewhere h
  · exact inv.endProposal _ _ h

/-! ## The services of requests -/

theorem serveCreate (p : Port) (body : List Byte) (h : P s) : P (serveCreate p body s).1 := by
  unfold Machine.serveCreate
  split
  · exact h
  split
  · exact h
  split
  · exact h
  next hok =>
  split
  · exact h
  split
  · exact h
  next hfree =>
  split
  · exact h
  next hempty =>
  split
  · exact h
  split
  · exact h
  next hpool => exact inv.makeShare (by simpa using hok) hfree hempty hpool h

omit inv in
theorem named?_live {name : BitVec 32} {i : ShareIdx} (h : s.named? name = some i) : s.shares[i].live = true := by
  unfold State.named? at h
  have found := List.find?_some h
  exact (Bool.and_eq_true_iff.mp found).1

theorem serveAttach (p : Port) (body : List Byte) (h : P s) : P (serveAttach p body s).1 := by
  unfold Machine.serveAttach
  split
  · exact h
  split
  · exact h
  split
  · exact h
  split
  · exact h
  split
  · exact h
  next hnamed =>
  split
  · exact h
  split
  · exact h
  next hempty => exact inv.attach _ (named?_live hnamed) hempty h

theorem serveGrant (p : Port) (body : List Byte) (h : P s) : P (serveGrant p body s).1 := by
  unfold Machine.serveGrant
  split
  · exact h
  split
  · exact h
  split
  · exact h
  next hok =>
  split
  · exact h
  next hres =>
  split
  · exact h
  split
  · exact h
  next hwin =>
  split
  · exact h
  split
  · exact h
  split
  · exact h
  split
  · exact h
  next hempty =>
    exact inv.same (sameTables_push _ _ _) (inv.grant (by simpa using hok) hres (by omega) hempty h)

omit inv in
/-- What passes the checks of CLOSE and REVOKE is a current handle. -/
theorem checkAdmin_ok {p : Port} {body : List Byte} {k : HandleNo} {v : Handle} (e : s.checkAdmin p body = .ok (k, v)) :
    s.handle p k = some v ∧ s.current v = true := by
  unfold State.checkAdmin at e
  split at e
  · cases e
  split at e
  · cases e
  split at e
  · cases e
  next hres =>
  split at e
  · cases e
    exact (resolve_ok hres).2
  · cases e

theorem serveClose (p : Port) (body : List Byte) (h : P s) : P (serveClose p body s).1 := by
  unfold Machine.serveClose
  split
  · exact h
  · next hok => exact inv.closeShare p (Bool.and_eq_true_iff.mp (checkAdmin_ok hok).2).1 h

theorem serveRevoke (p : Port) (body : List Byte) (h : P s) : P (serveRevoke p body s).1 := by
  unfold Machine.serveRevoke
  split
  · exact h
  · next hok => exact inv.revokeShare (checkAdmin_ok hok).1 (checkAdmin_ok hok).2 h

omit inv in
theorem serveInfo (p : Port) (body : List Byte) (h : P s) : P (serveInfo p body s).1 := by
  unfold Machine.serveInfo
  split
  · exact h
  split
  · exact h
  split
  · exact h
  · exact h

theorem serveDrop (p : Port) (body : List Byte) (h : P s) : P (serveDrop p body s).1 := by
  unfold Machine.serveDrop
  split
  · exact h
  split
  · exact h
  split
  · split
    · exact h
    · exact inv.emptyHandle p _ (inv.same (sameTables_claimDrop s p _ _) h)
  · exact h

omit inv in
/-- A service whose body is empty and which then does `act`. -/
theorem emptyBody {p : Port} {body : List Byte} {act : State × Reply} (hact : P act.1) (h : P s) :
    P (if s.isAttached p = false then refuse .notAttached s
      else if body ≠ [] then refuse .badFrame s else act).1 := by
  split
  · exact h
  split
  · exact h
  · exact hact

theorem serveDetach (p : Port) (body : List Byte) (h : P s) : P (serveDetach p body s).1 :=
  emptyBody (inv.detachPort p h) h

omit inv in
theorem serveList (p : Port) (body : List Byte) (h : P s) : P (serveList p body s).1 := emptyBody h h

theorem serveFlush (p : Port) (body : List Byte) (h : P s) : P (serveFlush p body s).1 :=
  emptyBody (inv.same (sameTables_modPosts s p fun b => { b with faults := 0 }) h) h

theorem serveNotices (p : Port) (body : List Byte) (h : P s) : P (serveNotices p body s).1 :=
  emptyBody (inv.same (sameTables_modNotices s p fun nq => nq.collect s.settings.noticeDelay) h) h

omit inv in
theorem serveSettings (p : Port) (body : List Byte) (h : P s) : P (serveSettings p body s).1 := emptyBody h h

theorem serveClaim (p : Port) (body : List Byte) (h : P s) : P (serveClaim p body s).1 := by
  unfold Machine.serveClaim
  split
  · exact h
  · exact inv.same (sameTables_claimShare s _ _ _ _) h

theorem serveRelease (p : Port) (body : List Byte) (h : P s) : P (serveRelease p body s).1 := by
  unfold Machine.serveRelease
  split
  · exact h
  · exact inv.same (sameTables_releaseClaim s _ _) h

theorem serveRenew (p : Port) (body : List Byte) (h : P s) : P (serveRenew p body s).1 := by
  unfold Machine.serveRenew
  split
  · exact h
  · exact inv.same (sameTables_renewClaim s _ _) h

theorem servePropose (p : Port) (body : List Byte) (h : P s) : P (servePropose p body s).1 := by
  unfold Machine.servePropose
  split
  · exact h
  split
  · exact h
  split
  · exact h
  split
  · exact inv.openProposal p _ h
  split
  · exact h
  · exact inv.openProposal p _ h

theorem serveVote (p : Port) (body : List Byte) (h : P s) : P (serveVote p body s).1 := by
  unfold Machine.serveVote
  split
  · exact h
  split
  · exact h
  split
  · exact h
  split
  · exact h
  split
  · exact h
  split
  · exact h
  · exact inv.castVote p _ _ h

/-! ## Commands -/

theorem took {t : State} (h : P t) : Leads P stops (took t) := inv.same (sameTables_settle t) h

omit inv in
/-- R102 asks that the data stage is EMPTY. -/
theorem stage_empty_of_next {p : Port} {f : Frame} (h : s.nextRequest p = some f) : s.ports[p].stage.stage = .empty := by
  have may := ((nextRequest_some_iff s p f).mp h).2
  simp only [State.mayTake, Bool.and_eq_true, beq_iff_eq] at may
  exact may.1.2

theorem takeBy {p : Port} {isKind : Byte → Bool} {act : Frame → State → State}
    (hact : ∀ f t, t.ports[p].stage.stage = .empty → P t → P (act f t)) (h : P s) :
    Leads P stops (s.takeBy p isKind act) := by
  unfold State.takeBy
  split
  · next f hf =>
    split
    · refine inv.took (hact f _ ?_ (inv.same (sameTables_dequeue s p f) h))
      rw [dequeue_eq, State.modPort_same]
      exact stage_empty_of_next hf
    · exact h
  · exact h

theorem takeAndAnswer {p : Port} {kind : Byte} {serve : Service} (hserve : ∀ body t, P t → P (serve body t).1) (h : P s) :
    Leads P stops (s.takeAndAnswer p kind serve) :=
  inv.takeBy (fun f t _ ht => inv.same (sameTables_placeResponse _ p kind _) (hserve f.body t ht)) h

theorem takeData {p : Port} {kind : Byte} {k : DataKind} (h : P s) : Leads P stops (s.takeData p kind k) := by
  refine inv.takeBy (fun f t hempty ht => ?_) h
  split
  · exact inv.same (sameTables_placeResponse t p kind _) ht
  · next hok => exact inv.startOperation hempty hok ht

theorem execPost (p : Port) (h : P s) : Leads P stops (execPost p s) := by
  refine inv.takeBy (fun f t _ ht => inv.same (sameTables_drainForHead _ p) ?_) h
  unfold State.takePost
  split
  · exact inv.same (sameTables_modPosts t p _) ht
  · exact ht

theorem execPostRelease (p : Port) (h : P s) : Leads P stops (execPostRelease p s) := by
  unfold Machine.execPostRelease
  split
  · exact h
  next r hr =>
  have empty : s.ports[p].stage.stage = .empty := by
    unfold State.nextPost at hr
    dsimp only at hr
    split at hr
    · next hc =>
      simp only [Bool.and_eq_true, beq_iff_eq] at hc
      exact hc.2
    · cases hr
  have released : P (s.modPosts p PostBuffer.release) := inv.same (sameTables_modPosts s p _) h
  dsimp only
  split
  · exact inv.took (inv.same ((sameTables_push _ _ _).trans (sameTables_modPosts _ p _)) released)
  · next hok =>
    refine inv.took (inv.startOperation ?_ hok released)
    rw [State.modPosts_eq, State.modPort_same]
    exact empty

theorem execUnknownRequest (p : Port) (h : P s) : Leads P stops (execUnknownRequest p s) :=
  inv.takeBy (fun _ t _ ht => inv.same (sameTables_placeResponse t p _ _) ht) h

theorem completeBurst {p : Port} {op : Operation} {f : FrameNo} {captured : List Byte}
    (hs : s.ports[p].stage.stage = .bursting op f captured) (h : P s) : P (s.completeBurst p op f captured) := by
  have hop : s.ports[p].stage.stage.op? = some op := congrArg Stage.op? hs
  have stored (m : Memory) : P { s with mem := m } := inv.elsewhere h
  unfold State.completeBurst
  dsimp only
  split
  · exact inv.endOperation none hop h
  split
  · exact inv.endOperation _ hop (stored _)
  all_goals exact inv.advance _ hop (stored _)

theorem execBurstCompletion (p : Port) (h : P s) : Leads P stops (execBurstCompletion p s) := by
  unfold Machine.execBurstCompletion
  split
  · next op f captured hs =>
    split
    · refine inv.took (inv.same (sameTables_finishCleanup _ p) (inv.completeBurst hs ?_))
      exact inv.elsewhere h
    · exact h
  · exact h

theorem grantPort {p : Port} {op : Operation} (hs : s.ports[p].stage.stage = .waiting op) (h : P s) :
    Leads P stops (s.grantPort p op) := by
  have hop : s.ports[p].stage.stage.op? = some op := congrArg Stage.op? hs
  unfold State.grantPort
  split
  · exact inv.took (inv.same (sameTables_finishCleanup _ p) (inv.endOperation _ hop h))
  split
  · next hnone => exact inv.unbacked hop hnone h
  · refine inv.took (inv.same (sameTables_setStage _ p _ hop.symm) ?_)
    exact inv.elsewhere h

theorem execGrantDecision (h : P s) : Leads P stops (execGrantDecision s) := by
  unfold Machine.execGrantDecision
  split
  · split
    · next r pointer _ =>
      have pointed : P { s with arbiter := { s.arbiter with pointer := pointer } } :=
        inv.elsewhere h
      unfold State.grantTo
      split
      · exact inv.took (inv.elsewhere pointed)
      · split
        · next hs => exact inv.grantPort hs pointed
        · exact pointed
        · exact pointed
    · exact h
  · exact h

theorem execScrubBurstCompletion (h : P s) : Leads P stops (execScrubBurstCompletion s) := by
  unfold Machine.execScrubBurstCompletion
  split
  · split
    · next sf hsf =>
      exact inv.took (inv.elsewhere (inv.scrubbed hsf h))
    · exact inv.took (inv.elsewhere h)
  · exact h

theorem execLeaseExpiry (i : ShareIdx) (h : P s) : Leads P stops (execLeaseExpiry i s) := by
  unfold Machine.execLeaseExpiry
  split
  · split
    · exact inv.took (inv.same ((sameTables_push _ _ _).trans (sameTables_handover _ i _)) h)
    · exact h
  · exact h

theorem execVoteWindowExpiry (h : P s) : Leads P stops (execVoteWindowExpiry s) := by
  unfold Machine.execVoteWindowExpiry
  split
  · split
    · exact inv.took (inv.endProposal _ _ h)
    · exact h
  · exact h

omit inv in
theorem sameTables_loseBurst (s : State) : SameTables s s.loseBurst := by
  have freed (f : FrameNo) (n : Nat) : SameTables s (s.freeBlock f n) := by
    unfold State.freeBlock
    exact .elsewhere
  unfold State.loseBurst
  split
  · exact .refl s
  · split
    · exact freed _ _
    · exact .refl s
  · split
    · split
      · exact .refl s
      · exact freed _ _
    · exact .refl s
    · exact .refl s

omit inv in
theorem op?_held (st : Stage) : st.held.op? = st.op? := by cases st <;> rfl

theorem execResetAssert (h : P s) : Leads P stops (execResetAssert s) := by
  unfold Machine.execResetAssert
  split
  · exact h
  refine inv.same (SameTables.trans (sameTables_loseBurst s) ?_) h
  constructor
  case handles => intro p; simp only [State.mapPorts_get]; rfl
  case operation => intro p; simp only [State.mapPorts_get]; exact op?_held _
  case shares => intro i; simp [Share.held]
  case pool => rfl

theorem execPowerOn : Leads P stops (execPowerOn s) :=
  inv.same (s := State.reset) ⟨fun _ => rfl, fun _ => rfl, fun _ => rfl, rfl⟩ inv.reset

theorem judge (p : Port) (kind : Byte) (bytes : List Byte) (bits : Nat) (h : P s) : P (s.judge p kind bytes bits) := by
  unfold State.judge
  split
  · exact inv.same (sameTables_modLink s p _) h
  split
  · exact inv.arriveHello p _ h
  split
  · exact inv.same (sameTables_modLink s p _) h
  unfold State.admitFrame
  dsimp only
  split
  · exact inv.same ((sameTables_modLink s p _).trans (sameTables_drainForHead _ p)) h
  · exact inv.same (sameTables_modLink s p _) h

theorem execRequestFrame (p : Port) (bytes : List Byte) (bits : Nat) (h : P s) :
    Leads P stops (execRequestFrame p bytes bits s) := by
  unfold Machine.execRequestFrame
  split
  · exact inv.took (inv.same (sameTables_modLink s p _) h)
  · exact inv.took (inv.judge p _ bytes bits (inv.same (sameTables_modLink s p _) h))
  · exact h

theorem execHello (p : Port) (tag : Byte) (h : P s) : Leads P stops (execHello p tag s) := by
  unfold Machine.execHello
  split
  · exact inv.took (inv.same (sameTables_modLink s p _) h)
  · split
    · exact inv.took (inv.arriveHello p tag (inv.same (sameTables_modLink s p _) h))
    · exact h
  · exact h

omit inv in
theorem sameTables_wake (s : State) : SameTables s s.wake := by
  unfold State.wake
  split
  · exact .elsewhere
  · exact .refl s

theorem execSelectFallingEdge (p : Port) (h : P s) : Leads P stops (execSelectFallingEdge p s) := by
  unfold Machine.execSelectFallingEdge
  split
  · exact h
  · exact inv.took (inv.same ((sameTables_modLink s p _).trans (sameTables_wake _)) h)

theorem execFirstByteEnd (p : Port) (first : Byte) (h : P s) : Leads P stops (execFirstByteEnd p first s) := by
  unfold Machine.execFirstByteEnd
  split
  · exact inv.took (inv.same (sameTables_modLink s p _) h)
  · exact h

theorem execPoll (p : Port) (clocks : Nat) (h : P s) : Leads P stops (execPoll p clocks s) := by
  unfold Machine.execPoll
  split
  · exact inv.took (inv.same (sameTables_modLink s p _) h)
  · exact inv.took (inv.same (sameTables_modLink s p _) h)
  · exact h

theorem execFetch (p : Port) (clocks : Nat) (h : P s) : Leads P stops (execFetch p clocks s) := by
  unfold Machine.execFetch
  split
  · exact inv.took (inv.same (sameTables_modLink s p _) h)
  · exact inv.took (inv.same ((sameTables_modLink s p _).trans (sameTables_modLink _ p _)) h)
  · exact h

theorem execPostDelayExpiry (p : Port) (h : P s) : Leads P stops (execPostDelayExpiry p s) := by
  unfold Machine.execPostDelayExpiry
  split
  · exact inv.took (inv.same (sameTables_modPosts s p _) h)
  · exact h

theorem execNoticeDelayExpiry (p : Port) (h : P s) : Leads P stops (execNoticeDelayExpiry p s) := by
  unfold Machine.execNoticeDelayExpiry
  split
  · exact inv.took (inv.same (sameTables_modNotices s p _) h)
  · exact h

theorem execRestCountdownExpiry (h : P s) : Leads P stops (execRestCountdownExpiry s) := by
  unfold Machine.execRestCountdownExpiry
  split
  · exact inv.took (inv.elsewhere h)
  · exact h

theorem execWarmUpExpiry (h : P s) : Leads P stops (execWarmUpExpiry s) := by
  unfold Machine.execWarmUpExpiry
  split
  · exact inv.took (inv.takePending_foldl _ (inv.elsewhere h))
  · exact h

theorem exec (c : Instr) (h : P s) : Leads P stops (Machine.exec c s) := by
  cases c with
  | selectFallingEdge p => exact inv.execSelectFallingEdge p h
  | poll p clocks => exact inv.execPoll p clocks h
  | fetch p clocks => exact inv.execFetch p clocks h
  | requestFrame p bytes bits => exact inv.execRequestFrame p bytes bits h
  | hello p tag => exact inv.execHello p tag h
  | detach p => exact inv.takeAndAnswer (serve := Machine.serveDetach p) (fun body _ => inv.serveDetach p body) h
  | create p => exact inv.takeAndAnswer (serve := Machine.serveCreate p) (fun body _ => inv.serveCreate p body) h
  | attach p => exact inv.takeAndAnswer (serve := Machine.serveAttach p) (fun body _ => inv.serveAttach p body) h
  | close p => exact inv.takeAndAnswer (serve := Machine.serveClose p) (fun body _ => inv.serveClose p body) h
  | revoke p => exact inv.takeAndAnswer (serve := Machine.serveRevoke p) (fun body _ => inv.serveRevoke p body) h
  | info p => exact inv.takeAndAnswer (serve := Machine.serveInfo p) (fun body _ => serveInfo p body) h
  | grant p => exact inv.takeAndAnswer (serve := Machine.serveGrant p) (fun body _ => inv.serveGrant p body) h
  | drop p => exact inv.takeAndAnswer (serve := Machine.serveDrop p) (fun body _ => inv.serveDrop p body) h
  | list p => exact inv.takeAndAnswer (serve := Machine.serveList p) (fun body _ => serveList p body) h
  | read p => exact inv.takeData h
  | write p => exact inv.takeData h
  | cas p => exact inv.takeData h
  | post p => exact inv.execPost p h
  | postRelease p => exact inv.execPostRelease p h
  | flush p => exact inv.takeAndAnswer (serve := Machine.serveFlush p) (fun body _ => inv.serveFlush p body) h
  | claim p => exact inv.takeAndAnswer (serve := Machine.serveClaim p) (fun body _ => inv.serveClaim p body) h
  | release p => exact inv.takeAndAnswer (serve := Machine.serveRelease p) (fun body _ => inv.serveRelease p body) h
  | renew p => exact inv.takeAndAnswer (serve := Machine.serveRenew p) (fun body _ => inv.serveRenew p body) h
  | notices p => exact inv.takeAndAnswer (serve := Machine.serveNotices p) (fun body _ => inv.serveNotices p body) h
  | propose p => exact inv.takeAndAnswer (serve := Machine.servePropose p) (fun body _ => inv.servePropose p body) h
  | vote p => exact inv.takeAndAnswer (serve := Machine.serveVote p) (fun body _ => inv.serveVote p body) h
  | settings p => exact inv.takeAndAnswer (serve := Machine.serveSettings p) (fun body _ => serveSettings p body) h
  | unknownRequest p => exact inv.execUnknownRequest p h
  | grantDecision => exact inv.execGrantDecision h
  | burstCompletion p => exact inv.execBurstCompletion p h
  | scrubBurstCompletion => exact inv.execScrubBurstCompletion h
  | leaseExpiry i => exact inv.execLeaseExpiry i h
  | postDelayExpiry p => exact inv.execPostDelayExpiry p h
  | noticeDelayExpiry p => exact inv.execNoticeDelayExpiry p h
  | voteWindowExpiry => exact inv.execVoteWindowExpiry h
  | restCountdownExpiry => exact inv.execRestCountdownExpiry h
  | warmUpExpiry => exact inv.execWarmUpExpiry h
  | resetAssert => exact inv.execResetAssert h
  | powerOn => exact inv.execPowerOn
  | firstByteEnd p first => exact inv.execFirstByteEnd p first h

/-- A step keeps the invariant, and stops only where a burst is granted on a slot without a frame. -/
theorem step (h : P s) : Leads P stops (Machine.step s) := by
  unfold Machine.step
  split
  · exact h
  · exact inv.exec _ (inv.elsewhere h)

end StepInvariant

end Sys2Proof.Machine
end

