-- ==== Sys2Proof/Proofs/HandleCounts.lean ====
section
/-! PROOFS. The current-handle counts (R5): how the number of handles recorded on an entry changes with a handle entry and
with a step of a generation, and that every operation on the tables keeps the counts true. -/

namespace Sys2Proof.Machine

theorem mem_allPorts (p : Port) : p ∈ allPorts := by revert p; decide

/-! ## Counting over the entries of a list -/

/-- Where two predicates agree on all but one entry of a list without repetitions, their counts differ by that entry. -/
theorem countP_change {α : Type} {f g : α → Bool} {a : α} {l : List α} (nodup : l.Nodup) (mem : a ∈ l)
    (agree : ∀ x, x ≠ a → f x = g x) : l.countP f + (g a).toNat = l.countP g + (f a).toNat := by
  induction l with
  | nil => cases mem
  | cons b l ih =>
    obtain ⟨fresh, nodup⟩ := List.nodup_cons.mp nodup
    rw [List.countP_cons, List.countP_cons]
    by_cases e : b = a
    · subst e
      have same : l.countP f = l.countP g :=
        List.countP_congr fun x hx => by rw [agree x fun h => fresh (h ▸ hx)]
      cases f b <;> cases g b <;> simp [same]
    · have := ih nodup ((List.mem_cons.mp mem).resolve_left (Ne.symm e))
      rw [agree b e]
      omega

/-- The same for a sum over the entries of a list. -/
theorem sum_change {α : Type} {f g : α → Nat} {a : α} {l : List α} (nodup : l.Nodup) (mem : a ∈ l)
    (agree : ∀ x, x ≠ a → f x = g x) : (l.map f).sum + g a = (l.map g).sum + f a := by
  induction l with
  | nil => cases mem
  | cons b l ih =>
    obtain ⟨fresh, nodup⟩ := List.nodup_cons.mp nodup
    simp only [List.map_cons, List.sum_cons]
    by_cases e : b = a
    · subst e
      have same : l.map f = l.map g := List.map_congr_left fun x hx => agree x fun h => fresh (h ▸ hx)
      rw [same]
      omega
    · have := ih nodup ((List.mem_cons.mp mem).resolve_left (Ne.symm e))
      rw [agree b e]
      omega

/-! ## The handles recorded on an entry -/

/-- The handle entry names entry `i` and records generation `g`. -/
def recorded (i : ShareIdx) (g : Nat) (o : Option Handle) : Bool := o.any fun v => v.records i g

theorem handlesOn_eq (s : State) (i : ShareIdx) (g : Nat) :
    s.handlesOn i g = (allPorts.map fun p => allHandles.countP fun h => recorded i g s.ports[p].handles[h]).sum := rfl

/-- The number of handles on an entry depends on what each handle entry records of it. -/
theorem handlesOn_congr {s t : State} {i j : ShareIdx} {g g' : Nat}
    (h : ∀ (p : Port) (k : HandleNo), recorded j g' t.ports[p].handles[k] = recorded i g s.ports[p].handles[k]) :
    t.handlesOn j g' = s.handlesOn i g := by
  simp only [handlesOn_eq, h]

theorem handlesOn_zero {s : State} {i : ShareIdx} {g : Nat}
    (h : ∀ (p : Port) (k : HandleNo), recorded i g s.ports[p].handles[k] = false) : s.handlesOn i g = 0 := by
  simp only [handlesOn_eq, h]
  simp

/-- A change of one handle entry changes the number by that entry. -/
theorem handlesOn_setHandle (s : State) (p : Port) (h : HandleNo) (x : Option Handle) (i : ShareIdx) (g : Nat) :
    (s.setHandle p h x).handlesOn i g + (recorded i g s.ports[p].handles[h]).toNat
      = s.handlesOn i g + (recorded i g x).toNat := by
  have others (q : Port) (hq : q ≠ p) :
      (allHandles.countP fun k => recorded i g (s.setHandle p h x).ports[q].handles[k])
        = allHandles.countP fun k => recorded i g s.ports[q].handles[k] := by
    simp only [setHandle_get, hq, false_and, if_false]
  have changed : recorded i g (s.setHandle p h x).ports[p].handles[h] = recorded i g x := by
    rw [setHandle_get, if_pos ⟨rfl, rfl⟩]
  have table := countP_change (f := fun k => recorded i g (s.setHandle p h x).ports[p].handles[k])
    (g := fun k => recorded i g s.ports[p].handles[k]) (a := h) (List.nodup_finRange 32) (List.mem_finRange h)
    fun k hk => by simp only [setHandle_get, hk, and_false, if_false]
  have total := sum_change (l := allPorts) (by decide) (mem_allPorts p) others
  simp only [changed] at table
  rw [handlesOn_eq, handlesOn_eq]
  unfold allHandles at total ⊢
  omega

/-! ## The counts of one entry -/

/-- The current-handle count of the entry is true when `n` handles record its generation (R5). -/
def Share.counts (sh : Share) (n : Nat) : Prop :=
  (sh.live = true → sh.handleCount = n) ∧ (sh.live = false → sh.handleCount = 0) ∧ (sh.state = .free → n = 0)

theorem handleCountsTrue_iff (s : State) :
    HandleCountsTrue s ↔ ∀ i : ShareIdx, s.shares[i].counts (s.handlesOn i s.shares[i].generation) := Iff.rfl

/-- `t` has the handles of `s`, and its share entries the states, generations and counts. -/
structure SameCounts (s t : State) : Prop where
  handles : ∀ p : Port, t.ports[p].handles = s.ports[p].handles
  state : ∀ i : ShareIdx, t.shares[i].state = s.shares[i].state
  generation : ∀ i : ShareIdx, t.shares[i].generation = s.shares[i].generation
  handleCount : ∀ i : ShareIdx, t.shares[i].handleCount = s.shares[i].handleCount

theorem SameTables.sameCounts {s t : State} (h : SameTables s t) : SameCounts s t :=
  ⟨h.handles, h.state, h.generation, h.handleCount⟩

theorem sameCounts_modShare (s : State) (i : ShareIdx) (f : Share → Share)
    (state : (f s.shares[i]).state = s.shares[i].state) (generation : (f s.shares[i]).generation = s.shares[i].generation)
    (handleCount : (f s.shares[i]).handleCount = s.shares[i].handleCount) : SameCounts s (s.modShare i f) := by
  have entry (j : ShareIdx) := State.modShare_get s i j f
  refine ⟨fun _ => rfl, fun j => ?_, fun j => ?_, fun j => ?_⟩
  all_goals
    rw [entry j]
    split
    · next e => simp only [e, state, generation, handleCount]
    · rfl

theorem sameCounts_bindNeed (s : State) (i : ShareIdx) (need : List SlotNo) : SameCounts s (s.bindNeed i need) := by
  refine ⟨fun _ => rfl, fun j => ?_, fun j => ?_, fun j => ?_⟩
  all_goals
    rw [bindNeed_shares]
    split
    · next e => rw [e]
    · rfl

namespace HandleCountsTrue

variable {s t : State}

theorem same (h : HandleCountsTrue s) (e : SameCounts s t) : HandleCountsTrue t := fun i => by
  have number : t.handlesOn i t.shares[i].generation = s.handlesOn i s.shares[i].generation :=
    handlesOn_congr fun p k => by rw [e.handles, e.generation]
  simp only [State.share_eq, number, Share.live, e.state, e.handleCount]
  exact h i

/-- The counts stay true when entry `i` and the handles that record it change to agree again, and nothing else changes. -/
theorem change (h : HandleCountsTrue s) (i : ShareIdx) (others : ∀ j, j ≠ i → t.shares[j] = s.shares[j])
    (apart : ∀ j, j ≠ i → t.handlesOn j s.shares[j].generation = s.handlesOn j s.shares[j].generation)
    (entry : t.shares[i].counts (t.handlesOn i t.shares[i].generation)) : HandleCountsTrue t := by
  rw [handleCountsTrue_iff]
  intro j
  by_cases e : j = i
  · rw [e]
    exact entry
  · rw [others j e, apart j e]
    exact h j

end HandleCountsTrue

/-! ## What the searches find -/

theorem handle_of_emptyHandle? {s : State} {p : Port} {k : HandleNo} (h : s.emptyHandle? p = some k) :
    s.ports[p].handles[k] = none := by
  have found := List.find?_some h
  exact Option.isNone_iff_eq_none.mp found

theorem state_of_freeShare? {s : State} {i : ShareIdx} (h : s.freeShare? = some i) : s.shares[i].state = .free := by
  have found := List.find?_some h
  exact beq_iff_eq.mp found

/-! ## Steps of a generation -/

theorem recorded_afterStep (i j : ShareIdx) (g g' : Nat) (o : Option Handle) :
    recorded j g' (Handle.afterStep i g o) = (recorded j g' o && !recorded i g o) := by
  cases o with
  | none => rfl
  | some v =>
    simp only [Handle.afterStep, recorded, Option.any_some]
    cases v.records i g <;> simp

/-- A handle records one entry only. -/
theorem recorded_other {i j : ShareIdx} {g : Nat} {o : Option Handle} (h : recorded i g o = true) (hij : j ≠ i) (g' : Nat) :
    recorded j g' o = false := by
  cases o with
  | none => rfl
  | some v =>
    simp only [recorded, Option.any_some, Handle.records, Bool.and_eq_true, beq_iff_eq] at h ⊢
    rw [h.1, beq_eq_false_iff_ne.mpr hij.symm, Bool.false_and]

theorem recorded_afterStep_other {i j : ShareIdx} (hij : j ≠ i) (g g' : Nat) (o : Option Handle) :
    recorded j g' (Handle.afterStep i g o) = recorded j g' o := by
  rw [recorded_afterStep]
  cases e : recorded i g o with
  | true => rw [recorded_other e hij, Bool.false_and]
  | false => rw [Bool.not_false, Bool.and_true]

/-- A step of entry `i`'s generation empties the handles that record the new one, and no handle of another entry (R2). -/
theorem handlesOn_stepped {s t : State} {i : ShareIdx} {g : Nat}
    (h : ∀ (p : Port) (k : HandleNo), t.ports[p].handles[k] = Handle.afterStep i g s.ports[p].handles[k]) :
    t.handlesOn i g = 0 ∧ ∀ j, j ≠ i → ∀ g', t.handlesOn j g' = s.handlesOn j g' := by
  refine ⟨handlesOn_zero fun p k => ?_, fun j hj g' => handlesOn_congr fun p k => ?_⟩
  · rw [h, recorded_afterStep, Bool.and_not_self]
  · rw [h, recorded_afterStep_other hj]

theorem retire_handle (s : State) (i : ShareIdx) (q : Port) (k : HandleNo) :
    (s.retire i).ports[q].handles[k]
      = Handle.afterStep i (nextGeneration s.shares[i].generation) s.ports[q].handles[k] := by
  rw [retire_ports]
  simp

theorem Share.loseHandle_live (sh : Share) (admin : Bool) : (sh.loseHandle admin).live = sh.live := by
  simp only [Share.loseHandle, Share.live]
  cases sh.state <;> cases admin <;> rfl

namespace HandleCountsTrue

variable {s : State}

theorem retireIfDone (h : HandleCountsTrue s) (i : ShareIdx) : HandleCountsTrue (s.retireIfDone i) := by
  unfold State.retireIfDone
  split
  · next done =>
    have closing : s.shares[i].state = .closing := by simpa using (Bool.and_eq_true_iff.mp done).1
    obtain ⟨emptied, apart⟩ := handlesOn_stepped (retire_handle s i)
    have no_handles : s.shares[i].handleCount = 0 := (h i).2.1 (by simp only [State.share_eq, Share.live, closing]; rfl)
    refine h.change i (fun j hj => by rw [retire_shares, if_neg hj]) (fun j hj => apart j hj _) ?_
    rw [retire_shares, if_pos rfl]
    exact ⟨fun live => absurd live Bool.false_ne_true, fun _ => no_handles, fun _ => emptied⟩
  · exact h

theorem enterClosing (h : HandleCountsTrue s) (i : ShareIdx) : HandleCountsTrue (s.enterClosing i) := by
  refine retireIfDone (s := s.markClosing i) (h.change i (fun j hj => ?_) (fun _ _ => rfl) ?_) i
  · rw [markClosing_shares, if_neg hj]
  · rw [markClosing_shares, if_pos rfl]
    exact ⟨fun live => absurd live Bool.false_ne_true, fun _ => rfl, fun free => by cases free⟩

/-! ## Handles made and emptied -/

/-- A handle made in an EMPTY entry, current on a live entry, is counted. -/
theorem makeHandle (h : HandleCountsTrue s) {p : Port} {k : HandleNo} {v : Handle} (empty : s.emptyHandle? p = some k)
    (live : s.shares[v.share].live = true) (current : v.generation = s.shares[v.share].generation) :
    HandleCountsTrue (s.makeHandle p k v) := by
  have number (j : ShareIdx) (g : Nat) : (s.makeHandle p k v).handlesOn j g = s.handlesOn j g + (v.records j g).toNat := by
    have := handlesOn_setHandle s p k (some v) j g
    rw [handle_of_emptyHandle? empty] at this
    exact this
  refine h.change v.share (fun j hj => State.modShare_other _ _ hj) (fun j hj => ?_) ?_
  · rw [number, Handle.records, beq_eq_false_iff_ne.mpr hj.symm]
    rfl
  · have entry : (s.makeHandle p k v).shares[v.share]
        = { s.shares[v.share] with handleCount := s.shares[v.share].handleCount + 1 } := State.modShare_same _ _ _
    rw [number, entry, Handle.records, current, beq_self_eq_true, beq_self_eq_true]
    refine ⟨fun _ => congrArg (· + 1) ((h v.share).1 live), fun dead => ?_, fun free => ?_⟩
    · exact absurd (live.symm.trans dead) (by decide)
    · simp only at free
      rw [Share.live, free] at live
      exact absurd live (by decide)

/-- The making of a share in a FREE entry, before its handle is made: the entry is OPEN with a count of 0, and no handle
records its generation (R2, R14). -/
theorem openEntry (h : HandleCountsTrue s) {i : ShareIdx} (free : s.shares[i].state = .free) (q : Pool) {f : Share → Share}
    (opened : (f s.shares[i]).handleCount = 0) (kept : (f s.shares[i]).generation = s.shares[i].generation)
    (state : (f s.shares[i]).state = .opened) : HandleCountsTrue ({ s with pool := q }.modShare i f) := by
  refine h.change i (fun j hj => State.modShare_other _ _ hj) (fun _ _ => rfl) ?_
  have none_records : s.handlesOn i s.shares[i].generation = 0 := (h i).2.2 free
  rw [State.modShare_same]
  refine ⟨fun _ => ?_, fun _ => opened, fun h => ?_⟩
  · rw [opened, kept]
    exact none_records.symm
  · rw [state] at h
    cases h

theorem makeShare (h : HandleCountsTrue s) {p : Port} {f : CreateFields} {i : ShareIdx} {k : HandleNo}
    (free : s.freeShare? = some i) (empty : s.emptyHandle? p = some k) : HandleCountsTrue (s.makeShare p f i k) := by
  refine makeHandle (h.openEntry (state_of_freeShare? free) _ rfl rfl rfl) (v := ⟨_, _, _, _, _, _⟩) empty ?_ rfl
  rw [State.modShare_same]
  rfl

theorem closeIfUnused (h : HandleCountsTrue s) (i : ShareIdx) : HandleCountsTrue (s.closeIfUnused i) := by
  unfold State.closeIfUnused
  split
  · exact h.enterClosing i
  · exact h

/-- The emptying of a handle: a current one leaves the count, and no other was in it. -/
theorem emptyHandle (h : HandleCountsTrue s) (p : Port) (k : HandleNo) : HandleCountsTrue (s.emptyHandle p k) := by
  unfold State.emptyHandle
  split
  · exact h
  next v hv =>
  have number (j : ShareIdx) (g : Nat) :
      (s.setHandle p k none).handlesOn j g + (v.records j g).toNat = s.handlesOn j g := by
    have := handlesOn_setHandle s p k none j g
    rw [show s.ports[p].handles[k] = some v from hv] at this
    exact this
  dsimp only
  split
  · next current =>
    simp only [State.current, State.share_eq, Bool.and_eq_true, beq_iff_eq] at current
    obtain ⟨live, generation⟩ := current
    refine closeIfUnused (h.change v.share (fun j hj => ?_) (fun j hj => ?_) ?_) v.share
    · rw [State.modShare_other _ _ hj, setHandle_shares]
    · have := number j s.shares[j].generation
      rw [Handle.records, beq_eq_false_iff_ne.mpr hj.symm] at this
      exact this
    · have left := number v.share s.shares[v.share].generation
      rw [Handle.records, generation, beq_self_eq_true, beq_self_eq_true] at left
      have counted : s.shares[v.share].handleCount = s.handlesOn v.share s.shares[v.share].generation := (h v.share).1 live
      rw [State.modShare_same]
      refine ⟨fun _ => ?_, fun dead => ?_, fun free => ?_⟩
      · exact Nat.sub_eq_of_eq_add (counted.trans left.symm)
      · rw [setHandle_shares, Share.loseHandle_live, live] at dead
        cases dead
      · have := Share.loseHandle_live s.shares[v.share] v.rights.admin
        rw [setHandle_shares] at free
        rw [Share.live, free, live] at this
        cases this
  · next stale =>
    intro j
    have left := number j s.shares[j].generation
    obtain ⟨counted, uncounted, unrecorded⟩ := h j
    refine ⟨fun live => (counted live).trans ?_, uncounted, fun free => ?_⟩
    · have other : v.records j s.shares[j].generation = false := by
        rw [Bool.eq_false_iff]
        intro records
        simp only [Handle.records, Bool.and_eq_true, beq_iff_eq] at records
        obtain ⟨rfl, generation⟩ := records
        exact stale (Bool.and_eq_true_iff.mpr ⟨live, beq_iff_eq.mpr generation⟩)
      rw [other] at left
      exact left.symm
    · exact Nat.eq_zero_of_add_eq_zero_right (left.trans (unrecorded free))

/-- The restamped handle is the only one that records the new generation. -/
theorem handlesOn_revoked {p : Port} {k : HandleNo} {v : Handle} (valid : s.handle p k = some v)
    (current : s.current v = true) :
    (s.revoked p k v.share).handlesOn v.share (nextGeneration s.shares[v.share].generation) = 1 := by
  have but_one : ((s.revoked p k v.share).setHandle p k none).handlesOn v.share
      (nextGeneration s.shares[v.share].generation) = 0 := handlesOn_zero fun q c => by
    rw [setHandle_get]
    split
    · rfl
    · next other => rw [revoked_handle valid current, if_neg other, recorded_afterStep, Bool.and_not_self]
  have change := handlesOn_setHandle (s.revoked p k v.share) p k none v.share
    (nextGeneration s.shares[v.share].generation)
  rw [but_one, revoked_handle valid current, if_pos ⟨rfl, rfl⟩, recorded, Option.any_some, Handle.records,
    beq_self_eq_true, beq_self_eq_true] at change
  exact change.symm.trans (by rfl)

/-- A REVOKE empties what recorded the new generation, and the requesting handle alone is restamped with it. -/
theorem revoked (h : HandleCountsTrue s) {p : Port} {k : HandleNo} {v : Handle} (valid : s.handle p k = some v)
    (current : s.current v = true) : HandleCountsTrue (s.revoked p k v.share) := by
  have live : s.shares[v.share].live = true := (Bool.and_eq_true_iff.mp current).1
  refine h.change v.share (fun j hj => by rw [revoked_shares, if_neg hj]) (fun j hj => ?_) ?_
  · refine handlesOn_congr fun q c => ?_
    rw [revoked_handle valid current]
    split
    · next e =>
      obtain ⟨rfl, rfl⟩ := e
      rw [show s.ports[q].handles[c] = some v from valid]
      simp only [recorded, Option.any_some, Handle.records, beq_eq_false_iff_ne.mpr hj.symm, Bool.false_and]
    · exact recorded_afterStep_other hj _ _ _
  · rw [revoked_shares, if_pos rfl]
    refine ⟨fun _ => (handlesOn_revoked valid current).symm, fun dead => ?_, fun free => ?_⟩
    · exact absurd (live.symm.trans dead) (by decide)
    · rw [Share.live, show s.shares[v.share].state = .free from free] at live
      exact absurd live (by decide)

/-- With every table empty and no live entry left, all counts are 0. -/
theorem clearTables (h : HandleCountsTrue s) (dead : ∀ i : ShareIdx, s.shares[i].live = false) :
    HandleCountsTrue s.clearTables := by
  intro i
  refine ⟨fun live => absurd ((dead i).symm.trans live) Bool.false_ne_true, (h i).2.1, fun _ => handlesOn_zero fun p k => ?_⟩
  unfold State.clearTables
  rw [State.mapPorts_get]
  simp [recorded]

/-! ## Operations on shares -/

theorem releaseUse (h : HandleCountsTrue s) (i : ShareIdx) : HandleCountsTrue (s.releaseUse i) :=
  retireIfDone (h.same (sameCounts_modShare s i _ rfl rfl rfl)) i

theorem setStage (h : HandleCountsTrue s) (p : Port) (d : DataStage) : HandleCountsTrue (s.setStage p d) := by
  refine h.same ⟨fun q => ?_, fun _ => rfl, fun _ => rfl, fun _ => rfl⟩
  rw [State.setStage_eq, State.modPort_get]
  split
  · next e => rw [e]
  · rfl

theorem endOperation (h : HandleCountsTrue s) (p : Port) (op : Operation) (answer : Option Reply) :
    HandleCountsTrue (s.endOperation p op answer) := by
  unfold State.endOperation
  refine setStage ?_ p _
  cases answer with
  | none => exact h.releaseUse op.share
  | some r => exact (h.releaseUse op.share).same (sameTables_placeResponse _ p _ r).sameCounts

theorem advance (h : HandleCountsTrue s) (p : Port) (op : Operation) : HandleCountsTrue (s.advance p op) := by
  unfold State.advance
  split
  · exact h.setStage p _
  · exact h.endOperation p _ _
  · exact h.endOperation p _ _

theorem startOperation (h : HandleCountsTrue s) (p : Port) (k : DataKind) (a : Admit) :
    HandleCountsTrue (s.startOperation p k a) := by
  have bound : HandleCountsTrue (s.bindNeed a.handle.share a.need) :=
    h.same (sameCounts_bindNeed s _ _)
  exact advance (bound.same (sameCounts_modShare _ a.handle.share _ rfl rfl rfl)) p _

theorem reset : HandleCountsTrue State.reset := by
  intro i
  rw [State.share_eq, reset_shares]
  refine ⟨fun live => absurd live Bool.false_ne_true, fun _ => rfl, fun _ => handlesOn_zero fun p k => ?_⟩
  rw [reset_ports]
  simp [PortState.reset, recorded]

end HandleCountsTrue

/-- Every operation on the tables keeps the current-handle counts true. -/
theorem handleCountsTrue_invariant : StepInvariant HandleCountsTrue True where
  same e h := h.same e.sameCounts
  reset := HandleCountsTrue.reset
  scrubbed _ h := h
  makeShare _ free empty _ h := h.makeShare free empty
  attach _ live empty h := h.makeHandle empty live rfl
  grant _ resolved _ empty h :=
    have ⟨live, generation⟩ := Bool.and_eq_true_iff.mp (resolve_ok resolved).2.2
    h.makeHandle empty live (beq_iff_eq.mp generation)
  enterClosing _ h := h.enterClosing _
  revoked valid current h := h.revoked valid current
  emptyHandle p k h := h.emptyHandle p k
  clearTables dead h := h.clearTables dead
  startOperation _ _ h := h.startOperation _ _ _
  endOperation answer _ h := h.endOperation _ _ answer
  advance _ _ h := h.advance _ _
  unbacked _ _ _ := trivial

/-- Settles O56: each operation on the tables keeps the counts true, so every step does. -/
theorem stepKeepsHandleCountsTrue : Obligations.StepKeepsHandleCountsTrue := by
  intro s t h e
  have led := handleCountsTrue_invariant.step h
  rw [e] at led
  exact led

end Sys2Proof.Machine
end

