-- ==== Sys2Proof/Proofs/DataPath.lean ====
section
/-! PROOFS. The data path (R84, R6): the operations in flight are counted by the in-use counts, and what they have still to do
lies in backed slots. `InFlight` says so of operations given apart from the state, so that one whose data stage is about to
change can be followed through the end of its use. -/

namespace Sys2Proof.Machine

/-! ## Operations in flight -/

/-- How many of these operations are on entry `i`. -/
def operationsIn (held : Port → Option Operation) (i : ShareIdx) : Nat :=
  allPorts.countP fun p => (held p).any fun op => op.share == i

/-- The in-use count of the entry is `n`; a CLOSING entry waits for at least one operation, and a FREE entry has none (R6,
R11). -/
def Share.usedBy (sh : Share) (n : Nat) : Prop :=
  sh.inUse = n ∧ (sh.state = .closing → 1 ≤ sh.inUse) ∧ (sh.state = .free → sh.inUse = 0)

/-- The operations that the data stages hold. -/
def State.held (s : State) (p : Port) : Option Operation := s.ports[p].stage.stage.op?

/-- The operations `held` are those that the in-use counts count, and each but that of `hand` has what is left of it backed. -/
structure InFlight (s : State) (held : Port → Option Operation) (hand : Option Port) : Prop where
  used : ∀ i : ShareIdx, s.shares[i].usedBy (operationsIn held i)
  windows : WindowsLegal s
  backed : ∀ (p : Port) (op : Operation), hand ≠ some p → held p = some op → op.backedIn (s.share op.share)

theorem dataPathSound_iff (s : State) : DataPathSound s ↔ InFlight s s.held none :=
  ⟨fun ⟨used, windows, backed⟩ => ⟨used, windows, fun p op _ => backed p op⟩,
   fun ⟨used, windows, backed⟩ => ⟨used, windows, fun p op => backed p op nofun⟩⟩

/-- The operation but for the copy of the generation, on which neither its place nor its backing depends. -/
def Operation.span (op : Operation) : Operation := { op with generation := 0 }

theorem Operation.span_afterStep (op : Operation) (i : ShareIdx) (g : Nat) : (op.afterStep i g).span = op.span := by
  unfold Operation.afterStep
  split
  · split <;> rfl
  all_goals rfl

theorem Operation.backedIn_span (op : Operation) (sh : Share) : op.span.backedIn sh ↔ op.backedIn sh := Iff.rfl

theorem Operation.backedIn_of_span {op op' : Operation} (h : op.span = op'.span) {sh : Share} (b : op'.backedIn sh) :
    op.backedIn sh := by
  rw [← Operation.backedIn_span, h]
  exact b

theorem Operation.share_of_span {op op' : Operation} (h : op.span = op'.span) : op.share = op'.share :=
  (congrArg Operation.share h :)

theorem operationsIn_of_span {held held' : Port → Option Operation}
    (h : ∀ p, (held p).map Operation.span = (held' p).map Operation.span) (i : ShareIdx) :
    operationsIn held i = operationsIn held' i := by
  have on (o : Option Operation) : (o.any fun op => op.share == i) = (o.map Operation.span).any fun op => op.share == i := by
    cases o <;> rfl
  unfold operationsIn
  exact List.countP_congr fun p _ => by rw [on (held p), on (held' p), h]

/-- A change of one port's operation changes the number by it. -/
theorem operationsIn_update (held : Port → Option Operation) (p : Port) (o : Option Operation) (i : ShareIdx) :
    operationsIn (Function.update held p o) i + ((held p).any fun op => op.share == i).toNat
      = operationsIn held i + (o.any fun op => op.share == i).toNat := by
  have change := countP_change (f := fun q => (Function.update held p o q).any fun op => op.share == i)
    (g := fun q => (held q).any fun op => op.share == i) (a := p) (l := allPorts) (by decide) (mem_allPorts p)
    fun q hq => by simp only [Function.update_of_ne hq]
  simp only [Function.update_self] at change
  exact change

theorem operationsIn_update_other (held : Port → Option Operation) {p : Port} {o : Option Operation} {i j : ShareIdx}
    (before : ∀ op, held p = some op → op.share = i) (after : ∀ op, o = some op → op.share = i) (hj : j ≠ i) :
    operationsIn (Function.update held p o) j = operationsIn held j := by
  have not_on {o : Option Operation} (h : ∀ op, o = some op → op.share = i) : (o.any fun op => op.share == j) = false := by
    cases o with
    | none => rfl
    | some op => simpa [h op rfl] using hj.symm
  have := operationsIn_update held p o j
  rw [not_on before, not_on after] at this
  exact this

/-- An operation in flight keeps its entry in use. -/
theorem operationsIn_pos {held : Port → Option Operation} {p : Port} {op : Operation} (h : held p = some op) :
    0 < operationsIn held op.share :=
  List.countP_pos_iff.mpr ⟨p, mem_allPorts p, by rw [h]; simp⟩

namespace InFlight

variable {s t : State} {held held' : Port → Option Operation} {hand : Option Port}

/-- The operations matter but for their generations. -/
theorem of_span (h : InFlight s held hand) (e : ∀ p, (held' p).map Operation.span = (held p).map Operation.span) :
    InFlight s held' hand where
  used i := by
    rw [operationsIn_of_span e]
    exact h.used i
  windows := h.windows
  backed p op hp hop := by
    have := e p
    rw [hop, Option.map_some] at this
    obtain ⟨op', hop', span⟩ := Option.map_eq_some_iff.mp this.symm
    rw [Operation.share_of_span span.symm]
    exact Operation.backedIn_of_span span.symm (h.backed p op' hp hop')

theorem of_shares (h : InFlight s held hand) (shares : t.shares = s.shares)
    (handles : ∀ p : Port, t.ports[p].handles = s.ports[p].handles) : InFlight t held hand where
  used i := by
    rw [shares]
    exact h.used i
  windows := ⟨fun p k v hv => h.windows.1 p k v (by rw [State.handle_eq, ← handles]; exact hv), fun i n hn =>
    h.windows.2 i n (by rw [State.share_eq, ← shares]; exact hn)⟩
  backed p op hp hop := by
    rw [State.share_eq, shares]
    exact h.backed p op hp hop

/-- With none in hand, the operations of the data stages make a sound data path. -/
theorem dataPathSound (h : InFlight s held none) (e : ∀ p, (s.held p).map Operation.span = (held p).map Operation.span) :
    DataPathSound s := (dataPathSound_iff s).mpr (h.of_span e)

/-- One entry changes, with the operations on it. -/
theorem change (h : InFlight s held hand) {hand' : Option Port} (i : ShareIdx)
    (others : ∀ j, j ≠ i → t.shares[j] = s.shares[j])
    (apart : ∀ j, j ≠ i → operationsIn held' j = operationsIn held j) (windows : WindowsLegal t)
    (entry : t.shares[i].usedBy (operationsIn held' i))
    (still : ∀ p op, hand' ≠ some p → held' p = some op → hand ≠ some p ∧ held p = some op)
    (backed : ∀ p op, held' p = some op → op.share = i → op.backedIn s.shares[i] → op.backedIn t.shares[i]) :
    InFlight t held' hand' where
  used j := by
    by_cases e : j = i
    · rw [e]
      exact entry
    · rw [others j e, apart j e]
      exact h.used j
  windows := windows
  backed p op hp hop := by
    obtain ⟨hp, before⟩ := still p op hp hop
    have was := h.backed p op hp before
    by_cases e : op.share = i
    · rw [e] at was ⊢
      exact backed p op hop e was
    · rw [State.share_eq, others _ e]
      exact was

end InFlight

theorem Operation.backedIn_mono {op : Operation} {sh sh' : Share}
    (h : ∀ k, (sh.frameAt k).isSome = true → (sh'.frameAt k).isSome = true) (b : op.backedIn sh) : op.backedIn sh' :=
  ⟨b.1, b.2.1, h _ b.2.2.1, fun write x lo hi => h _ (b.2.2.2 write x lo hi)⟩

theorem Operation.backedIn_of_frameMap {op : Operation} {sh sh' : Share} (h : sh'.frameMap = sh.frameMap)
    (b : op.backedIn sh) : op.backedIn sh' :=
  Operation.backedIn_mono (fun k hk => by rw [Share.frameAt, h]; exact hk) b

/-! ## Windows and sizes -/

/-- The window lies in a share, in steps of 64 (R27). -/
def Handle.inWindow (v : Handle) : Prop := v.base % 64 = 0 ∧ v.length % 64 = 0 ∧ v.base + v.length ≤ 32768

namespace WindowsLegal

variable {s t : State}

theorem of_handles (h : WindowsLegal s)
    (handles : ∀ (p : Port) (k : HandleNo) (v : Handle),
      t.ports[p].handles[k] = some v → s.ports[p].handles[k] = some v ∨ v.inWindow)
    (sizes : ∀ (i : ShareIdx) (n : Nat), t.shares[i].size = some n → s.shares[i].size = some n ∨ n ≤ 32) : WindowsLegal t :=
  ⟨fun p k v hv => (handles p k v hv).elim (h.1 p k v) id, fun i n hn => (sizes i n hn).elim (h.2 i n) id⟩

theorem modShare (h : WindowsLegal s) (i : ShareIdx) {f : Share → Share}
    (size : ∀ n, (f s.shares[i]).size = some n → s.shares[i].size = some n ∨ n ≤ 32) : WindowsLegal (s.modShare i f) :=
  h.of_handles (fun _ _ _ => .inl) fun j n hn => by
    rw [State.modShare_get] at hn
    split at hn
    · next e => rw [e]; exact size n hn
    · exact .inl hn

theorem setHandle (h : WindowsLegal s) (p : Port) (k : HandleNo) {o : Option Handle}
    (window : ∀ v, o = some v → v.inWindow) : WindowsLegal (s.setHandle p k o) :=
  h.of_handles (fun q l v hv => by
    rw [setHandle_get] at hv
    split at hv
    · exact .inr (window v hv)
    · exact .inl hv) fun _ _ => .inl

theorem of_afterStep {i : ShareIdx} {g : Nat} {o : Option Handle} {v : Handle}
    (h : Handle.afterStep i g o = some v) : o = some v := by
  cases o with
  | none => cases h
  | some w =>
    simp only [Handle.afterStep] at h
    split at h
    · cases h
    · exact h

theorem retireIfDone (h : WindowsLegal s) (i : ShareIdx) : WindowsLegal (s.retireIfDone i) := by
  unfold State.retireIfDone
  split
  · refine h.of_handles (fun p k v hv => ?_) fun j n hn => ?_
    · rw [retire_handle] at hv
      exact .inl (of_afterStep hv)
    · rw [retire_shares] at hn
      split at hn
      · cases hn
      · exact .inl hn
  · exact h

end WindowsLegal

/-! ## The entry into CLOSING and the end of an operation -/

theorem retireIfDone_held (s : State) (i : ShareIdx) (p : Port) :
    ((s.retireIfDone i).held p).map Operation.span = (s.held p).map Operation.span := by
  unfold State.retireIfDone
  split
  · unfold State.held
    rw [retire_ports, Stage.op?_afterStep, Option.map_map]
    exact congrArg (Option.map · _) (funext fun op => op.span_afterStep i _)
  · rfl

theorem held_setStage (s : State) (p q : Port) (d : DataStage) :
    (s.setStage p d).held q = if q = p then d.stage.op? else s.held q := by
  unfold State.held
  rw [State.setStage_eq, State.modPort_get]
  split <;> rfl

theorem setStage_handles (s : State) (p q : Port) (d : DataStage) :
    (s.setStage p d).ports[q].handles = s.ports[q].handles := by
  rw [State.setStage_eq, State.modPort_get]
  split
  · next e => rw [e]
  · rfl

/-- The state of an operation's end before its data stage is EMPTY: its use of the entry has ended and its answer is placed. -/
def State.released (s : State) (p : Port) (op : Operation) (answer : Option Reply) : State :=
  match answer with
  | some r => (s.releaseUse op.share).placeResponse p op.kind.requestKind r
  | none => s.releaseUse op.share

theorem endOperation_eq (s : State) (p : Port) (op : Operation) (answer : Option Reply) :
    s.endOperation p op answer = (s.released p op answer).setStage p { stage := .empty, abandon := false } := by
  cases answer <;> rfl

theorem sameTables_released (s : State) (p : Port) (op : Operation) (answer : Option Reply) :
    SameTables (s.releaseUse op.share) (s.released p op answer) := by
  cases answer with
  | none => exact .refl _
  | some r => exact sameTables_placeResponse _ p _ r

theorem released_held (s : State) (p : Port) (op : Operation) (answer : Option Reply) (q : Port) :
    ((s.released p op answer).held q).map Operation.span = (s.held q).map Operation.span := by
  rw [State.held, (sameTables_released s p op answer).operation]
  exact retireIfDone_held _ op.share q

theorem released_shares (s : State) (p : Port) (op : Operation) (answer : Option Reply) :
    (s.released p op answer).shares = (s.releaseUse op.share).shares := by
  cases answer <;> rfl

namespace InFlight

variable {s : State} {held held' : Port → Option Operation} {hand hand' : Option Port}

/-- Entry `i` changes, with the operations on it, and retires when it is CLOSING with none left. -/
theorem retireIfDone (h : InFlight s held hand) (i : ShareIdx) (f : Share → Share)
    (apart : ∀ j, j ≠ i → operationsIn held' j = operationsIn held j)
    (still : ∀ p op, hand' ≠ some p → held' p = some op → hand ≠ some p ∧ held p = some op)
    (count : (f s.shares[i]).inUse = operationsIn held' i)
    (free : (f s.shares[i]).state = .free → (f s.shares[i]).inUse = 0)
    (frameMap : (f s.shares[i]).frameMap = s.shares[i].frameMap) (size : (f s.shares[i]).size = s.shares[i].size) :
    InFlight ((s.modShare i f).retireIfDone i) held' hand' := by
  have windows : WindowsLegal ((s.modShare i f).retireIfDone i) :=
    (h.windows.modShare i fun n hn => .inl (size ▸ hn)).retireIfDone i
  have others (j : ShareIdx) (hj : j ≠ i) : ((s.modShare i f).retireIfDone i).shares[j] = s.shares[j] := by
    rw [retireIfDone_shares_other _ hj, State.modShare_other _ _ hj]
  by_cases done : (f s.shares[i]).state = .closing ∧ (f s.shares[i]).inUse = 0
  · have entry : ((s.modShare i f).retireIfDone i).shares[i] = (f s.shares[i]).retired := by
      rw [retireIfDone_of_done (by rw [State.modShare_same]; exact done.1) (by rw [State.modShare_same]; exact done.2),
        retire_shares, if_pos rfl, State.modShare_same]
    refine h.change i others apart windows ?_ still fun p op hop e _ => ?_
    · rw [entry, ← count]
      exact ⟨rfl, nofun, fun _ => done.2⟩
    · have := operationsIn_pos hop
      rw [e, ← count, done.2] at this
      cases this
  · have entry : ((s.modShare i f).retireIfDone i).shares[i] = f s.shares[i] := by
      unfold State.retireIfDone
      rw [State.share_eq, State.modShare_same, if_neg (by simpa using done), State.modShare_same]
    refine h.change i others apart windows ?_ still fun p op _ _ => ?_
    · rw [entry]
      exact ⟨count, fun closing => Nat.pos_of_ne_zero fun zero => done ⟨closing, zero⟩, free⟩
    · rw [entry]
      exact Operation.backedIn_of_frameMap frameMap

/-- The use that operation `op` of port `p` makes of its entry ends. -/
theorem releaseUse (h : InFlight s held hand) {p : Port} {op : Operation} (hop : held p = some op)
    (only : ∀ q, q ≠ p → hand ≠ some q) : InFlight (s.releaseUse op.share) (Function.update held p none) none := by
  have before : ∀ op', held p = some op' → op'.share = op.share := fun op' h' => by rw [hop] at h'; cases h'; rfl
  have left := operationsIn_update held p none op.share
  rw [hop, Option.any_some, beq_self_eq_true, Option.any_none] at left
  have used : s.shares[op.share].inUse = operationsIn (Function.update held p none) op.share + 1 :=
    (h.used op.share).1.trans left.symm
  refine h.retireIfDone op.share (fun sh => { sh with inUse := sh.inUse - 1 })
    (fun j hj => operationsIn_update_other held before nofun hj) (fun q op' _ hop' => ?_) (Nat.sub_eq_of_eq_add used)
    (fun free => ?_) rfl rfl
  · by_cases e : q = p
    · rw [e, Function.update_self] at hop'
      cases hop'
    · rw [Function.update_of_ne e] at hop'
      exact ⟨only q e, hop'⟩
  · exact congrArg (· - 1) ((h.used op.share).2.2 free)

/-- Port `p`'s operation ends (R86). -/
theorem endOperation (h : InFlight s held hand) {p : Port} {op : Operation} (hop : held p = some op)
    (only : ∀ q, q ≠ p → hand ≠ some q) (stages : ∀ q, q ≠ p → s.held q = held q) {op' : Operation}
    (share : op'.share = op.share) (answer : Option Reply) : DataPathSound (s.endOperation p op' answer) := by
  have ended := h.releaseUse hop only
  rw [← share] at ended
  rw [endOperation_eq]
  refine (ended.of_shares (t := (s.released p op' answer).setStage p _) (released_shares s p op' answer)
    fun q => ?_).dataPathSound fun q => ?_
  · rw [setStage_handles, (sameTables_released s p op' answer).handles]
  · rw [held_setStage]
    by_cases e : q = p
    · rw [if_pos e, e, Function.update_self]
      rfl
    · rw [if_neg e, Function.update_of_ne e, released_held, stages q e]

end InFlight

/-! ## The next piece (R74, R84, R85) -/

/-- The operation can go on at the offset it has reached: its span lies in a share, and all that a write-type operation has
still to do is backed. -/
def Operation.canGoOn (op : Operation) (sh : Share) : Prop :=
  op.stop ≤ 32768
    ∧ (op.kind.isRead = false → ∀ x, op.pos ≤ x → x < op.stop → (sh.frameAt (x / Config.frameBytes)).isSome = true)

theorem Operation.canGoOn_of_backedIn {op : Operation} {sh : Share} (b : op.backedIn sh) : op.canGoOn sh :=
  ⟨b.2.1, b.2.2.2⟩

theorem Operation.share_deliver (op : Operation) (bs : List Byte) (n : Nat) : (op.deliver bs n).share = op.share := by
  unfold Operation.deliver; split <;> rfl

theorem Operation.stop_deliver (op : Operation) (bs : List Byte) (n : Nat) : (op.deliver bs n).stop = op.stop := by
  unfold Operation.deliver; split <;> rfl

theorem Operation.pos_deliver (op : Operation) (bs : List Byte) (n : Nat) : (op.deliver bs n).pos = op.pos + n := by
  unfold Operation.deliver; split <;> rfl

theorem Operation.isRead_deliver (op : Operation) (bs : List Byte) (n : Nat) :
    (op.deliver bs n).kind.isRead = op.kind.isRead := by
  unfold Operation.deliver; split
  · next h => rw [h]; rfl
  all_goals rfl

theorem Operation.canGoOn_deliver {op : Operation} {sh : Share} (h : op.canGoOn sh) (bs : List Byte) (n : Nat) :
    (op.deliver bs n).canGoOn sh := by
  unfold Operation.canGoOn
  rw [op.stop_deliver, op.pos_deliver, op.isRead_deliver]
  exact ⟨h.1, fun write x lo hi => h.2 write x (by omega) hi⟩

/-- An unbacked span that is reached is not empty. -/
theorem Operation.unbackedLength_pos {op : Operation} (h : op.pos < op.stop) : 0 < op.unbackedLength := by
  unfold Operation.unbackedLength Operation.slot Config.frameBytes
  omega

/-- The operation that the data stage is left with. -/
def Reached.op : Reached → Operation
  | .burst op => op
  | .finished op => op
  | .cut op _ => op

/-- What is reached is of the same operation. -/
theorem reachPiece_share (sh : Share) (fuel : Nat) (op : Operation) : (reachPiece sh fuel op).op.share = op.share := by
  induction fuel generalizing op with
  | zero => rfl
  | succ fuel ih =>
    unfold reachPiece
    split
    · rfl
    split
    · split
      · rfl
      · rw [ih, op.share_deliver]
    · rfl

/-- A burst that is requested is backed. -/
theorem reachPiece_burst {sh : Share} {fuel : Nat} {op op' : Operation} (enough : op.stop - op.pos < fuel)
    (ready : op.canGoOn sh) (h : reachPiece sh fuel op = .burst op') : op'.backedIn sh := by
  induction fuel generalizing op with
  | zero => cases enough
  | succ fuel ih =>
    unfold reachPiece at h
    split at h
    · cases h
    next left =>
    have left : op.pos < op.stop := Nat.lt_of_not_le left
    split at h
    · split at h
      · cases h
      · refine ih ?_ (Operation.canGoOn_deliver ready _ _) h
        have := Operation.unbackedLength_pos left
        rw [op.stop_deliver, op.pos_deliver]
        omega
    · next backed =>
      cases h
      refine ⟨left, ready.1, ?_, ready.2⟩
      cases read : op'.kind.isRead with
      | false => exact ready.2 read op'.pos (Nat.le_refl _) left
      | true =>
        rw [read, Bool.true_and, Bool.not_eq_true, Option.isNone_eq_false_iff] at backed
        exact backed

/-- The operation in hand goes back to the data stage, at a piece that is backed. -/
theorem InFlight.putBack {s : State} {held : Port → Option Operation} {p : Port} {op op' : Operation}
    (h : InFlight s held (some p)) (hop : held p = some op) (share : op'.share = op.share)
    (backed : op'.backedIn (s.share op.share)) : InFlight s (Function.update held p (some op')) none where
  used i := by
    have before : ∀ op₀, held p = some op₀ → op₀.share = op.share := fun op₀ h₀ => by rw [hop] at h₀; cases h₀; rfl
    have after : ∀ op₀, some op' = some op₀ → op₀.share = op.share := fun op₀ h₀ => by cases h₀; exact share
    have count := operationsIn_update held p (some op') op.share
    rw [hop, Option.any_some, Option.any_some, share, beq_self_eq_true] at count
    by_cases e : i = op.share
    · rw [e, Nat.add_right_cancel count]
      exact h.used op.share
    · rw [operationsIn_update_other held before after e]
      exact h.used i
  windows := h.windows
  backed q op₀ _ h₀ := by
    by_cases e : q = p
    · rw [e, Function.update_self] at h₀
      cases h₀
      rw [share]
      exact backed
    · rw [Function.update_of_ne e] at h₀
      exact h.backed q op₀ (fun e' => e (Option.some.inj e').symm) h₀

/-- The data stage of a port goes on with the operation in its hand. -/
theorem InFlight.advance {s : State} {held : Port → Option Operation} {p : Port} {op : Operation}
    (h : InFlight s held (some p)) (hop : held p = some op) (stages : ∀ q, q ≠ p → s.held q = held q)
    (ready : op.canGoOn (s.share op.share)) : DataPathSound (s.advance p op) := by
  have share := reachPiece_share (s.share op.share) (op.stop - op.pos + 1) op
  have ends {op' : Operation} (e : op'.share = op.share) (answer : Option Reply) :
      DataPathSound (s.endOperation p op' answer) :=
    h.endOperation hop (fun q hq e => hq (Option.some.inj e).symm) stages e answer
  unfold State.advance
  split
  · next op' e =>
    rw [e] at share
    have goes := h.putBack hop share (reachPiece_burst (Nat.lt_succ_self _) ready e)
    refine (goes.of_shares (t := s.setStage p _) rfl fun q => setStage_handles s p q _).dataPathSound fun q => ?_
    rw [held_setStage]
    by_cases e : q = p
    · rw [if_pos e, e, Function.update_self]
      rfl
    · rw [if_neg e, Function.update_of_ne e, stages q e]
  · next e =>
    rw [e] at share
    exact ends share _
  · next e =>
    rw [e] at share
    exact ends share _


/-! ## Admission (R64, R70, R72) -/

/-- What the checks of a data request have found when it passes them all. -/
structure Admitted (s : State) (p : Port) (k : DataKind) (a : Admit) : Prop where
  valid : ∃ h, s.handle p h = some a.handle
  current : s.current a.handle = true
  length : 1 ≤ a.fields.length
  window : a.fields.offset + a.fields.length ≤ a.handle.length
  need : a.need = if k = .read then []
    else (s.share a.handle.share).unbackedSlots (a.handle.base + a.fields.offset) a.fields.length
  served : a.need.length ≤ s.pool.clean.length

theorem verdict_none {q : Pool} {n : Nat} (h : q.verdict n = none) : n ≤ q.clean.length := by
  unfold Pool.verdict at h
  split at h
  · assumption
  split at h
  · cases h
  · cases h

theorem fields_length {k : DataKind} {body : List Byte} {f : DataFields} (h : k.fields body = some f) : 1 ≤ f.length := by
  unfold DataKind.fields at h
  split at h
  · cases h
  split at h
  · next ok =>
    cases h
    exact ok.2.1
  · cases h

theorem checkData_ok {s : State} {p : Port} {k : DataKind} {body : List Byte} {a : Admit}
    (h : s.checkData p k body = .ok a) : Admitted s p k a := by
  unfold State.checkData at h
  split at h
  · cases h
  split at h
  · cases h
  next hf =>
  split at h
  · cases h
  next resolved =>
  unfold State.checkAccess at h
  dsimp only at h
  split at h
  · cases h
  split at h
  · cases h
  split at h
  · cases h
  next window =>
  split at h
  · cases h
  generalize need : (if k = .read then [] else _) = slots at h
  split at h
  · cases h
  next served =>
  cases h
  obtain ⟨_, valid, current⟩ := resolve_ok resolved
  exact ⟨⟨_, valid⟩, current, fields_length hf, Nat.le_of_not_lt window, need.symm, verdict_none served⟩

/-! ## Demand backing (R56) -/

theorem slots_set_get (m : Vector (Option FrameNo) 32) (j k : SlotNo) (x : Option FrameNo) :
    (m.set j x)[k] = if k = j then x else m[k] := by
  by_cases e : k = j
  · subst e; simp
  · have : j.val ≠ k.val := fun c => e (Fin.ext c.symm)
    simp [e, this]

/-- A slot that is backed stays backed. -/
theorem bindSlots_keeps (ks : List SlotNo) (fs : List FrameNo) (m : Vector (Option FrameNo) 32) (k : SlotNo)
    (h : m[k].isSome = true) : (bindSlots m ks fs)[k].isSome = true := by
  induction ks generalizing m fs with
  | nil => exact h
  | cons j ks ih =>
    cases fs with
    | nil => exact h
    | cons f fs =>
      refine ih fs (m.set j (some f)) ?_
      rw [slots_set_get]
      split
      · rfl
      · exact h

/-- With a frame for each, every slot of the list is backed. -/
theorem bindSlots_binds (ks : List SlotNo) (fs : List FrameNo) (m : Vector (Option FrameNo) 32) (k : SlotNo)
    (mem : k ∈ ks) (enough : ks.length ≤ fs.length) : (bindSlots m ks fs)[k].isSome = true := by
  induction ks generalizing m fs with
  | nil => cases mem
  | cons j ks ih =>
    cases fs with
    | nil => cases enough
    | cons f fs =>
      rcases List.mem_cons.mp mem with e | later
      · refine bindSlots_keeps ks fs (m.set j (some f)) k ?_
        rw [slots_set_get, if_pos e]
        rfl
      · exact ih fs _ later (Nat.le_of_succ_le_succ enough)

theorem frameAt_of_lt (sh : Share) {k : Nat} (h : k < 32) : sh.frameAt k = sh.frameMap[(⟨k, h⟩ : SlotNo)] := dif_pos h

theorem frameAt_isSome_lt {sh : Share} {k : Nat} (h : (sh.frameAt k).isSome = true) : k < 32 := by
  unfold Share.frameAt at h
  split at h
  · assumption
  · cases h

/-- The entry of an admission: the need is backed and the in-use count raised (R72). -/
def Share.admitting (sh : Share) (need : List SlotNo) (fs : List FrameNo) : Share :=
  { sh with frameMap := bindSlots sh.frameMap need fs, inUse := sh.inUse + 1 }

/-- The state of an admission before its operation reaches its first piece. -/
def State.admitting (s : State) (a : Admit) : State :=
  (s.bindNeed a.handle.share a.need).modShare a.handle.share fun sh => { sh with inUse := sh.inUse + 1 }

theorem startOperation_eq (s : State) (p : Port) (k : DataKind) (a : Admit) :
    s.startOperation p k a = (s.admitting a).advance p (a.operation k) := rfl

theorem admitting_shares (s : State) (a : Admit) (j : ShareIdx) :
    (s.admitting a).shares[j] = if j = a.handle.share then
        s.shares[a.handle.share].admitting a.need (s.pool.clean.take a.need.length)
      else s.shares[j] := by
  unfold State.admitting
  rw [State.modShare_get]
  split
  · rw [bindNeed_shares, if_pos rfl]
    rfl
  · next e => rw [bindNeed_shares, if_neg e]

theorem frameAt_admitting {sh : Share} (need : List SlotNo) (fs : List FrameNo) (k : Nat)
    (h : (sh.frameAt k).isSome = true) : ((sh.admitting need fs).frameAt k).isSome = true := by
  have lt := frameAt_isSome_lt h
  rw [frameAt_of_lt _ lt] at h ⊢
  exact bindSlots_keeps need fs sh.frameMap _ h

/-- An admitted operation can go on: what its span needs is backed (R70, R56). -/
theorem Admitted.canGoOn {s : State} {p : Port} {k : DataKind} {a : Admit} (adm : Admitted s p k a) (w : WindowsLegal s) :
    (a.operation k).canGoOn (s.shares[a.handle.share].admitting a.need (s.pool.clean.take a.need.length)) := by
  obtain ⟨h, valid⟩ := adm.valid
  obtain ⟨_, _, inShare⟩ := w.1 p h a.handle valid
  have window := adm.window
  have stop : (a.operation k).stop ≤ 32768 := by
    show a.handle.base + a.fields.offset + a.fields.length ≤ 32768
    omega
  refine ⟨stop, fun write x lo hi => ?_⟩
  have lo : a.handle.base + a.fields.offset ≤ x := lo
  have hi : x < a.handle.base + a.fields.offset + a.fields.length := hi
  have slot : x / 1024 < 32 := by omega
  have not_read : k ≠ .read := fun e => by rw [e] at write; cases write
  by_cases backed : (s.shares[a.handle.share].frameAt (x / 1024)).isSome = true
  · exact frameAt_admitting _ _ _ backed
  · rw [frameAt_of_lt _ slot] at backed
    show ((s.shares[a.handle.share].admitting a.need _).frameAt (x / 1024)).isSome = true
    rw [frameAt_of_lt _ slot]
    refine bindSlots_binds _ _ _ ⟨x / 1024, slot⟩ ?_ (by rw [List.length_take]; have := adm.served; omega)
    rw [adm.need, if_neg not_read, Share.unbackedSlots, List.mem_filter]
    refine ⟨List.mem_finRange _, ?_⟩
    have below : x / 1024 * 1024 < a.handle.base + a.fields.offset + a.fields.length := by omega
    have above : a.handle.base + a.fields.offset < (x / 1024 + 1) * 1024 := by omega
    simp only [Config.frameBytes, below, above, decide_true, Bool.true_and]
    simpa using backed

/-- An admission starts from a sound data path with an EMPTY stage, and its operation is the one in hand (R72). -/
theorem Admitted.inFlight {s : State} {p : Port} {k : DataKind} {a : Admit} (adm : Admitted s p k a) (h : DataPathSound s)
    (empty : s.held p = none) :
    InFlight (s.admitting a) (Function.update s.held p (some (a.operation k))) (some p) := by
  have sound := (dataPathSound_iff s).mp h
  have after : ∀ op, some (a.operation k) = some op → op.share = a.handle.share := fun op e => by cases e; rfl
  have before : ∀ op, s.held p = some op → op.share = a.handle.share := fun op e => by rw [empty] at e; cases e
  have count := operationsIn_update s.held p (some (a.operation k)) a.handle.share
  rw [empty, Option.any_none, Option.any_some, after _ rfl, beq_self_eq_true] at count
  refine sound.change a.handle.share (fun j hj => by rw [admitting_shares, if_neg hj])
    (fun j hj => operationsIn_update_other s.held before after hj) ?_ ?_ (fun q op hq hop => ?_) fun q op _ _ b => ?_
  · refine sound.windows.of_handles (fun _ _ _ => .inl) fun j n hn => .inl ?_
    rw [admitting_shares] at hn
    split at hn
    · next e => rw [e]; exact hn
    · exact hn
  · rw [admitting_shares, if_pos rfl]
    refine ⟨?_, fun _ => Nat.le_add_left _ _, fun free => ?_⟩
    · exact (congrArg (· + 1) (sound.used a.handle.share).1).trans count.symm
    · have live := (Bool.and_eq_true_iff.mp adm.current).1
      rw [State.share_eq, Share.live, show s.shares[a.handle.share].state = .free from free] at live
      exact absurd live (by decide)
  · have e : q ≠ p := fun e => hq (congrArg some e.symm)
    rw [Function.update_of_ne e] at hop
    exact ⟨nofun, hop⟩
  · rw [admitting_shares, if_pos rfl]
    exact Operation.backedIn_mono (frameAt_admitting _ _) b

/-- What concerns operations is the same in both entries. -/
structure SameUse (sh sh' : Share) : Prop where
  inUse : sh'.inUse = sh.inUse
  frameMap : sh'.frameMap = sh.frameMap
  closing : sh'.state = .closing → sh.state = .closing
  free : sh'.state = .free → sh.state = .free

namespace SameUse

theorem of_state {sh sh' : Share} (inUse : sh'.inUse = sh.inUse := by rfl) (frameMap : sh'.frameMap = sh.frameMap := by rfl)
    (state : sh'.state = sh.state := by rfl) : SameUse sh sh' :=
  ⟨inUse, frameMap, fun e => state ▸ e, fun e => state ▸ e⟩

theorem refl (sh : Share) : SameUse sh sh := .of_state

theorem loseHandle (sh : Share) (admin : Bool) : SameUse sh (sh.loseHandle admin) := by
  refine ⟨rfl, rfl, fun e => ?_, fun e => ?_⟩
  all_goals
    simp only [Share.loseHandle] at e
    split at e
    · cases e
    · exact e

end SameUse

theorem inWindow_attachHandle {s : State} (w : WindowsLegal s) (i : ShareIdx) (r : Rights) :
    (attachHandle i s.shares[i] r).inWindow := by
  have size : s.shares[i].size.getD 0 ≤ 32 := by
    cases e : s.shares[i].size with
    | none => exact Nat.zero_le 32
    | some n => exact w.2 i n e
  refine ⟨rfl, ?_, ?_⟩
  · show s.shares[i].size.getD 0 * 1024 % 64 = 0
    omega
  · show 0 + s.shares[i].size.getD 0 * 1024 ≤ 32768
    omega

theorem inWindow_grant {s : State} (w : WindowsLegal s) {p : Port} {k : HandleNo} {v : Handle} {f : GrantFields}
    (ok : f.ok = true) (valid : s.handle p k = some v) (window : f.base + f.length ≤ v.length) :
    (f.handle p v).inWindow := by
  obtain ⟨base, _, inShare⟩ := w.1 p k v valid
  simp only [GrantFields.ok, Bool.and_eq_true, decide_eq_true_eq] at ok
  simp only [Handle.inWindow, GrantFields.handle]
  omega

namespace DataPathSound

variable {s t : State}

theorem startOperation {p : Port} {k : DataKind} {a : Admit} (h : DataPathSound s)
    (empty : s.ports[p].stage.stage = .empty) (adm : Admitted s p k a) : DataPathSound (s.startOperation p k a) := by
  have held_none : s.held p = none := congrArg Stage.op? empty
  rw [startOperation_eq]
  refine (adm.inFlight h held_none).advance (Function.update_self ..) (fun q hq => (Function.update_of_ne hq ..).symm) ?_
  rw [State.share_eq, admitting_shares, if_pos (show (a.operation k).share = a.handle.share from rfl)]
  exact adm.canGoOn h.2.1

/-- The operation of a data stage ends. -/
theorem endOperation (h : DataPathSound s) {p : Port} {op : Operation} (hop : s.held p = some op) (answer : Option Reply) :
    DataPathSound (s.endOperation p op answer) :=
  ((dataPathSound_iff s).mp h).endOperation hop (fun _ _ => nofun) (fun _ _ => rfl) rfl answer

/-- The operation of a data stage goes on behind the piece delivered. -/
theorem advance (h : DataPathSound s) {p : Port} {op : Operation} (hop : s.held p = some op) (bs : List Byte) (n : Nat) :
    DataPathSound (s.advance p (op.deliver bs n)) := by
  have sound := (dataPathSound_iff s).mp h
  have same : ∀ op₀, s.held p = some op₀ → op₀.share = op.share := fun op₀ h₀ => by rw [hop] at h₀; cases h₀; rfl
  have share := op.share_deliver bs n
  have count := operationsIn_update s.held p (some (op.deliver bs n)) op.share
  rw [hop, Option.any_some, Option.any_some, share, beq_self_eq_true] at count
  have inHand : InFlight s (Function.update s.held p (some (op.deliver bs n))) (some p) := by
    refine sound.change op.share (fun _ _ => rfl)
      (fun j hj => operationsIn_update_other s.held same (fun op₀ h₀ => by cases h₀; exact share) hj) sound.windows ?_
      (fun q op₀ hq h₀ => ?_) fun _ _ _ _ => id
    · rw [Nat.add_right_cancel count]
      exact sound.used op.share
    · rw [Function.update_of_ne fun e => hq (congrArg some e.symm)] at h₀
      exact ⟨nofun, h₀⟩
  refine inHand.advance (Function.update_self ..) (fun q hq => (Function.update_of_ne hq ..).symm) ?_
  rw [share]
  exact Operation.canGoOn_deliver (Operation.canGoOn_of_backedIn (h.2.2 p op hop)) bs n

/-! ## Changes that concern no operation -/

/-- A change of handles, and of share entries in what does not concern operations. -/
theorem of_entries (h : DataPathSound s) (windows : WindowsLegal t)
    (stages : ∀ p, (t.held p).map Operation.span = (s.held p).map Operation.span)
    (entries : ∀ i : ShareIdx, SameUse s.shares[i] t.shares[i]) : DataPathSound t := by
  have sound := (dataPathSound_iff s).mp h
  refine InFlight.dataPathSound (held := s.held) ⟨fun i => ?_, windows, fun p op hp hop => ?_⟩ stages
  · obtain ⟨count, closing, free⟩ := sound.used i
    rw [Share.usedBy, (entries i).inUse]
    exact ⟨count, fun e => closing ((entries i).closing e), fun e => free ((entries i).free e)⟩
  · exact Operation.backedIn_of_frameMap (entries op.share).frameMap (sound.backed p op hp hop)

theorem same (h : DataPathSound s) (e : SameTables s t) : DataPathSound t :=
  h.of_entries
    (h.2.1.of_handles (fun p k v hv => .inl (by rw [← e.handles]; exact hv)) fun i n hn => .inl (by rw [← e.size]; exact hn))
    (fun p => congrArg _ (e.operation p))
    fun i => ⟨e.inUse i, e.frameMap i, fun c => e.state i ▸ c, fun c => e.state i ▸ c⟩

/-- A change of one entry in what does not concern operations. -/
theorem modShare (h : DataPathSound s) (i : ShareIdx) {f : Share → Share} (use : SameUse s.shares[i] (f s.shares[i]))
    (size : (f s.shares[i]).size = s.shares[i].size) : DataPathSound (s.modShare i f) := by
  refine h.of_entries (h.2.1.modShare i fun n hn => .inl (size ▸ hn)) (fun _ => rfl) fun j => ?_
  rw [State.modShare_get]
  split
  · next e => rw [e]; exact use
  · exact .refl _

theorem setHandle (h : DataPathSound s) (p : Port) (k : HandleNo) {o : Option Handle}
    (window : ∀ v, o = some v → v.inWindow) : DataPathSound (s.setHandle p k o) := by
  refine h.of_entries (h.2.1.setHandle p k window) (fun q => ?_) fun _ => .refl _
  unfold State.held
  rw [State.setHandle_eq, State.modPort_get]
  split
  · next e => rw [e]
  · rfl

theorem makeHandle (h : DataPathSound s) {p : Port} {k : HandleNo} {v : Handle} (window : v.inWindow) :
    DataPathSound (s.makeHandle p k v) :=
  (h.setHandle p k fun w e => by cases e; exact window).modShare v.share .of_state rfl

theorem enterClosing (h : DataPathSound s) (i : ShareIdx) : DataPathSound (s.enterClosing i) := by
  have sound := (dataPathSound_iff s).mp h
  have closed : InFlight (s.enterClosing i) s.held none :=
    sound.retireIfDone i (fun sh => { sh with state := .closing, name := none, handleCount := 0 }) (fun _ _ => rfl)
      (fun _ _ hp hop => ⟨hp, hop⟩) (sound.used i).1 nofun rfl rfl
  exact closed.dataPathSound fun p => retireIfDone_held _ i p

theorem emptyHandle (h : DataPathSound s) (p : Port) (k : HandleNo) : DataPathSound (s.emptyHandle p k) := by
  have emptied : DataPathSound (s.setHandle p k none) := h.setHandle p k nofun
  unfold State.emptyHandle
  split
  · exact h
  next v _ =>
  dsimp only
  split
  · have lost := emptied.modShare v.share (f := fun sh => sh.loseHandle v.rights.admin) (.loseHandle _ _) rfl
    unfold State.closeIfUnused
    split
    · exact lost.enterClosing v.share
    · exact lost
  · exact emptied

theorem revoked (h : DataPathSound s) {p : Port} {k : HandleNo} {v : Handle} (valid : s.handle p k = some v)
    (current : s.current v = true) : DataPathSound (s.revoked p k v.share) := by
  refine h.of_entries (h.2.1.of_handles (fun q c w hw => ?_) fun i n hn => .inl ?_) (fun q => ?_) fun i => ?_
  · rw [revoked_handle valid current] at hw
    split at hw
    · cases hw
      exact .inr (h.2.1.1 p k v valid)
    · exact .inl (WindowsLegal.of_afterStep hw)
  · rw [revoked_shares] at hn
    split at hn
    · next e => rw [e]; exact hn
    · exact hn
  · unfold State.held
    rw [revoked_ports, stepGeneration_ports, Stage.op?_afterStep, Option.map_map]
    exact congrArg (Option.map · _) (funext fun op => op.span_afterStep _ _)
  · rw [revoked_shares]
    split
    · next e => rw [e]; exact .of_state
    · exact .refl _

theorem clearTables (h : DataPathSound s) : DataPathSound s.clearTables := by
  refine h.of_entries (h.2.1.of_handles (fun p k v hv => ?_) fun _ _ => .inl) (fun p => ?_) fun _ => .refl _
  · unfold State.clearTables at hv
    rw [State.mapPorts_get] at hv
    simp at hv
  · unfold State.clearTables State.held
    rw [State.mapPorts_get]

/-- A FREE entry has no operations, so nothing is asked of the frames a CREATE binds to it. -/
theorem openEntry (h : DataPathSound s) {p : Port} {f : CreateFields} {i : ShareIdx} (ok : f.ok = true)
    (free : s.shares[i].state = .free) (q : Pool) (fs : List FrameNo) :
    DataPathSound ({ s with pool := q }.modShare i (f.entry p fs)) := by
  have sound := (dataPathSound_iff s).mp h
  have unused : operationsIn s.held i = 0 := (sound.used i).1.symm.trans ((sound.used i).2.2 free)
  have entry : ({ s with pool := q }.modShare i (f.entry p fs)).shares[i] = f.entry p fs s.shares[i] :=
    State.modShare_same _ _ _
  simp only [CreateFields.ok, Bool.and_eq_true, decide_eq_true_eq] at ok
  have opened : InFlight ({ s with pool := q }.modShare i (f.entry p fs)) s.held none := by
    refine sound.change i (fun j hj => State.modShare_other _ _ hj) (fun _ _ => rfl) ?_ ?_ (fun _ _ hq hop => ⟨hq, hop⟩)
      fun q op hop e _ => ?_
    · refine sound.windows.modShare i fun n hn => .inr ?_
      cases hn
      exact ok.1.1.2
    · rw [entry, unused]
      exact ⟨rfl, nofun, fun _ => rfl⟩
    · have := operationsIn_pos hop
      rw [e, unused] at this
      cases this
  exact opened.dataPathSound fun _ => rfl

theorem makeShare (h : DataPathSound s) {p : Port} {f : CreateFields} {i : ShareIdx} {k : HandleNo} (ok : f.ok = true)
    (free : s.shares[i].state = .free) : DataPathSound (s.makeShare p f i k) := by
  have size : f.size ≤ 32 := by
    simp only [CreateFields.ok, Bool.and_eq_true, decide_eq_true_eq] at ok
    exact ok.1.1.2
  refine (h.openEntry ok free _ _).makeHandle ⟨rfl, ?_, ?_⟩
  · show f.size * 1024 % 64 = 0
    omega
  · show 0 + f.size * 1024 ≤ 32768
    omega

theorem reset : DataPathSound State.reset := by
  have no_operation (p : Port) : State.reset.held p = none := by
    unfold State.held
    rw [reset_ports]
    rfl
  refine (dataPathSound_iff _).mpr ⟨fun i => ?_, ⟨fun p k v hv => ?_, fun i n hn => ?_⟩, fun p op _ hop => ?_⟩
  · have none_on : operationsIn State.reset.held i = 0 := by simp [operationsIn, no_operation]
    rw [reset_shares, none_on]
    exact ⟨rfl, nofun, fun _ => rfl⟩
  · rw [State.handle_eq, reset_ports] at hv
    simp [PortState.reset] at hv
  · rw [State.share_eq, reset_shares] at hn
    cases hn
  · rw [no_operation] at hop
    cases hop

end DataPathSound

/-- Every operation on the tables keeps the data path sound, and no burst is granted on a slot without a frame. -/
theorem dataPathSound_invariant : StepInvariant DataPathSound False where
  same e h := h.same e
  reset := DataPathSound.reset
  scrubbed _ h := h.of_entries h.2.1 (fun _ => rfl) fun _ => .refl _
  makeShare ok free _ _ h := h.makeShare ok (state_of_freeShare? free)
  attach r _ _ h := h.makeHandle (inWindow_attachHandle h.2.1 _ r)
  grant ok resolved window _ h := h.makeHandle (inWindow_grant h.2.1 ok (resolve_ok resolved).2.1 window)
  enterClosing _ h := h.enterClosing _
  revoked valid current h := h.revoked valid current
  emptyHandle p k h := h.emptyHandle p k
  clearTables _ h := h.clearTables
  startOperation empty ok h := h.startOperation empty (checkData_ok ok)
  endOperation answer hop h := h.endOperation hop answer
  advance bs hop h := h.advance hop bs _
  unbacked hop none h := by
    have backed := (h.2.2 _ _ hop).2.2.1
    rw [State.share_eq, none] at backed
    cases backed

/-- Settles O57: each operation on the tables keeps the data path sound, and there every burst granted is backed. -/
theorem stepNeverStopsOnASoundDataPath : Obligations.StepNeverStopsOnASoundDataPath := by
  intro s h
  have led := dataPathSound_invariant.step h
  cases e : step s with
  | next t =>
    rw [e] at led
    exact ⟨t, rfl, led⟩
  | fault r =>
    rw [e] at led
    exact led.elim
  | refused r =>
    rw [e] at led
    exact led.elim

end Sys2Proof.Machine
end

