-- ==== Sys2Proof/Proofs/Requests.lean ====
section
/-! PROOFS. The take of a request that is answered at once (R102, R12): what it leaves of each port, what a service reads of the
state the take hands it, and the ordered checks as one equation for each service. -/

namespace Sys2Proof.Machine

/-! ## What a service reads -/

section Dequeued

variable (s : State) (p : Port) (f : Frame)

theorem dequeue_port (q : Port) :
    (s.dequeue p f).ports[q] = { s.ports[q] with link := (s.dequeue p f).ports[q].link } := by
  rw [dequeue_eq, State.modPort_get]
  split
  · next e => rw [e]
  · rfl

theorem dequeue_link_other {q : Port} (h : q ≠ p) : (s.dequeue p f).ports[q].link = s.ports[q].link := by
  rw [dequeue_eq, State.modPort_other s _ h]

theorem dequeue_share (i : ShareIdx) : (s.dequeue p f).share i = s.share i := rfl

theorem dequeue_handle (q : Port) (k : HandleNo) : (s.dequeue p f).handle q k = s.handle q k := by
  rw [State.handle_eq, dequeue_port]
  rfl

theorem dequeue_isAttached (q : Port) : (s.dequeue p f).isAttached q = s.isAttached q := by
  unfold State.isAttached
  rw [State.port_eq, dequeue_port]
  rfl

theorem dequeue_entryAt (q : Port) (b : Byte) : (s.dequeue p f).entryAt q b = s.entryAt q b := by
  simp only [State.entryAt, dequeue_handle]

theorem dequeue_emptyHandle? (q : Port) : (s.dequeue p f).emptyHandle? q = s.emptyHandle? q := by
  simp only [State.emptyHandle?, dequeue_handle]

theorem dequeue_tableFull (q : Port) : (s.dequeue p f).tableFull q = s.tableFull q := by
  simp only [State.tableFull, dequeue_handle]

theorem dequeue_resolution (q : Port) (b : Byte) : resolution (s.dequeue p f) q b = resolution s q b := by
  simp only [resolution, dequeue_entryAt, dequeue_share]

theorem dequeue_resolve (q : Port) (b : Byte) : (s.dequeue p f).resolve q b = s.resolve q b := by
  simp only [State.resolve, dequeue_handle]
  rfl

theorem dequeue_handleChecks (q : Port) (body : List Byte) (may : Rights → Bool) :
    handleChecks (s.dequeue p f) q body may = handleChecks s q body may := by
  simp only [handleChecks, dequeue_entryAt, dequeue_isAttached, dequeue_resolution]

theorem dequeue_createChecks (q : Port) (c : CreateFields) :
    createChecks (s.dequeue p f) q c = createChecks s q c := by
  simp only [createChecks, dequeue_isAttached, dequeue_tableFull]
  rfl

theorem dequeue_attachChecks (q : Port) (name : BitVec 32) (wanted : Rights) :
    attachChecks (s.dequeue p f) q name wanted = attachChecks s q name wanted := by
  simp only [attachChecks, dequeue_isAttached, dequeue_tableFull]
  rfl

theorem dequeue_grantChecks (q : Port) (g : GrantFields) : grantChecks (s.dequeue p f) q g = grantChecks s q g := by
  simp only [grantChecks, dequeue_isAttached, dequeue_tableFull, dequeue_entryAt, dequeue_resolution]
  rfl

end Dequeued

/-! ## The answer -/

theorem settle_eq (s : State) : s.settle = { s with ports := s.settle.ports, restCountdown := s.settle.restCountdown } := by
  unfold State.settle State.driveAttention State.driveCountdown
  split <;> split <;> rfl

/-- The close of an event that changed ports, shares and the pool. -/
theorem onlyPortsSharesPool_settle {s u : State} (k : Keeps s u) : OnlyPortsSharesPool s u.settle := by
  unfold OnlyPortsSharesPool
  rw [settle_eq]
  obtain ⟨⟨hmem, -, hcounter, hpower, -, hwarm, hreset, hfree, hpending⟩, hsettings, harbiter, hproposal⟩ := k
  cases u
  simp only at hmem hcounter hpower hwarm hreset hfree hpending hsettings harbiter hproposal
  subst hmem hcounter hpower hwarm hreset hfree hpending hsettings harbiter hproposal
  rfl

theorem onlyPortsShares_of_pool {s t : State} (h : OnlyPortsSharesPool s t) (pool : t.pool = s.pool) :
    OnlyPortsShares s t := by
  unfold OnlyPortsShares
  rw [← pool]
  exact h

theorem onlyPorts_of_shares {s t : State} (h : OnlyPortsShares s t) (shares : t.shares = s.shares) : OnlyPorts s t := by
  unfold OnlyPorts
  rw [← shares]
  exact h

/-- The answer `r` to the request `f` of port `p` is placed, and the event closes. -/
def State.answer (u : State) (p : Port) (f : Frame) (r : Reply) : State := (u.placeResponse p f.kind r).settle

theorem answer_port (u : State) (p : Port) (f : Frame) (r : Reply) (q : Port) :
    (u.answer p f r).ports[q] = { u.ports[q] with
      link := (u.answer p f r).ports[q].link, attention := (u.answer p f r).ports[q].attention } := by
  unfold State.answer
  rw [State.settle_get, State.placeResponse_eq, State.modPort_get]
  split
  · next e => rw [e]
  · rfl

theorem answer_link_other (u : State) (p : Port) (f : Frame) (r : Reply) {q : Port} (h : q ≠ p) :
    (u.answer p f r).ports[q].link = u.ports[q].link := by
  unfold State.answer
  rw [State.settle_get, State.placeResponse_eq, State.modPort_other u _ h]

theorem answer_shares (u : State) (p : Port) (f : Frame) (r : Reply) : (u.answer p f r).shares = u.shares :=
  State.settle_shares _

theorem answer_pool (u : State) (p : Port) (f : Frame) (r : Reply) : (u.answer p f r).pool = u.pool := State.settle_pool _

/-- A service that leaves the link alone is answered behind the responses that wait (R102, R183). -/
theorem answer_link {s u : State} {p : Port} {f : Frame} (r : Reply) (completed : (s.port p).link.allCompleted = true)
    (kind : f.kind ≠ kindPost) (link : u.ports[p].link = (s.dequeue p f).ports[p].link) :
    (u.answer p f r).ports[p].link = (s.port p).link.answered f r := by
  have last := completeReserved_last f.kind f.tag r s.ports[p].link.responses completed
  rw [dequeue_eq, State.modPort_same] at link
  unfold State.answer
  rw [State.settle_get, State.placeResponse_eq, State.modPort_same]
  simp only [link, if_neg kind, last]
  rfl

/-- A request answered at its take: what its service leaves, with the answer placed. -/
theorem takeAndAnswer_takes {s : State} {p : Port} {kind : Byte} {f : Frame} (h : Takes s p kind f) {serve : Service}
    {u : State} {r : Reply} (served : serve f.body (s.dequeue p f) = (u, r)) :
    s.takeAndAnswer p kind serve = .next (u.answer p f r) := by
  obtain ⟨next, rfl, -⟩ := h
  rw [takeAndAnswer_of_next next, served]
  rfl

/-! ## Requests that change nothing but the queues of their port -/

theorem onlyAnswers_answer {s : State} {p : Port} {f : Frame} (r : Reply) (completed : (s.port p).link.allCompleted = true)
    (kind : f.kind ≠ kindPost) : OnlyAnswers s ((s.dequeue p f).answer p f r) p f r := by
  have keeps : Keeps s ((s.dequeue p f).placeResponse p f.kind r) := (keeps_dequeue s p f).trans (keeps_placeResponse _ _ _ _)
  refine ⟨onlyPorts_of_shares (onlyPortsShares_of_pool (onlyPortsSharesPool_settle keeps) (answer_pool ..))
    (answer_shares ..), fun q hq => ?_, ?_⟩
  · have other : q ≠ p := fun e => hq (List.mem_singleton.mpr e)
    unfold SamePort
    rw [State.port_eq, State.port_eq, answer_port, answer_link_other _ _ _ _ other, dequeue_link_other _ _ _ other,
      dequeue_port, dequeue_link_other _ _ _ other]
  · rw [State.port_eq, answer_port, answer_link r completed kind rfl, dequeue_port]
    rfl

/-- A service that only reports, or refuses, changes nothing but the queues of its port (R12). -/
theorem onlyAnswers_of_takes {s : State} {p : Port} {kind : Byte} {f : Frame} (h : Takes s p kind f)
    (post : kind ≠ kindPost) {serve : Service} {r : Reply}
    (served : serve f.body (s.dequeue p f) = (s.dequeue p f, r)) :
    ∃ t, s.takeAndAnswer p kind serve = .next t ∧ OnlyAnswers s t p f r := by
  refine ⟨_, takeAndAnswer_takes h served, ?_⟩
  obtain ⟨-, rfl, completed⟩ := h
  exact onlyAnswers_answer r completed post

/-! ## Ordered checks -/

/-- A request is refused with the code of the first check that fails, and else served by `act`. -/
def checked (checks : List (Bool × Result)) (s : State) (act : State × Reply) : State × Reply :=
  match firstFailing checks with
  | some code => refuse code s
  | none => act

theorem checked_nil (s : State) (act : State × Reply) : checked [] s act = act := rfl

theorem checked_cons (bad : Bool) (code : Result) (checks : List (Bool × Result)) (s : State) (act : State × Reply) :
    checked ((bad, code) :: checks) s act = if bad = true then refuse code s else checked checks s act := by
  cases bad <;> rfl

theorem checked_append (a b : List (Bool × Result)) (s : State) (act : State × Reply) :
    checked (a ++ b) s act = checked a s (checked b s act) := by
  induction a with
  | nil => rfl
  | cons c a ih =>
    obtain ⟨bad, code⟩ := c
    rw [List.cons_append, checked_cons, checked_cons, ih]

theorem checked_of_failing {checks : List (Bool × Result)} {code : Result} (h : firstFailing checks = some code) (s : State)
    (act : State × Reply) : checked checks s act = refuse code s := by
  rw [checked, h]

theorem checked_of_passing {checks : List (Bool × Result)} (h : firstFailing checks = none) (s : State)
    (act : State × Reply) : checked checks s act = act := by
  rw [checked, h]

/-- Handle resolution makes its checks in R33's order. -/
theorem firstFailing_resolution (s : State) (p : Port) (b : Byte) :
    firstFailing (resolution s p b) = match s.resolve p b with
      | .error code => some code
      | .ok _ => none := by
  unfold resolution State.resolve State.entryAt
  simp only [firstFailing]
  by_cases range : b.toNat < 32
  · rw [dif_pos range, dif_pos range, if_neg (by simpa using range)]
    cases s.handle p ⟨b.toNat, range⟩ with
    | none => rfl
    | some v =>
      simp only [Option.isNone_some, Option.any_some, bne_iff_ne, Bool.not_eq_true', Bool.false_eq_true, if_false]
      by_cases dead : (s.share v.share).live = false
      · simp only [dead, if_true]
      · by_cases g : v.generation = (s.share v.share).generation
        · simp only [dead, g, ne_eq, not_true_eq_false, Bool.true_eq_false, if_false]
        · simp only [dead, g, ne_eq, not_false_eq_true, Bool.true_eq_false, if_false, if_true]
  · rw [if_pos (by simpa using range), dif_neg range]

theorem checked_resolution (s : State) (p : Port) (b : Byte) (act : State × Reply) :
    checked (resolution s p b) s act = match s.resolve p b with
      | .error code => refuse code s
      | .ok _ => act := by
  rw [checked, firstFailing_resolution]
  cases s.resolve p b <;> rfl

theorem entryAt_of_resolve {s : State} {p : Port} {b : Byte} {h : HandleNo} {v : Handle} (e : s.resolve p b = .ok (h, v)) :
    s.entryAt p b = some v := by
  obtain ⟨number, valid, -⟩ := resolve_ok e
  have range : b.toNat < 32 := number ▸ h.isLt
  rw [State.entryAt, dif_pos range, ← valid]
  exact congrArg (s.handle p) (Fin.ext number.symm)

theorem resolve_of_resolves {s : State} {p : Port} {b : Byte} {h : HandleNo} {v : Handle} (r : Resolves s p b h v) :
    s.resolve p b = .ok (h, v) := by
  obtain ⟨number, valid, current⟩ := r
  obtain ⟨live, generation⟩ := Bool.and_eq_true_iff.mp current
  have range : b.toNat < 32 := number ▸ h.isLt
  have entry : (⟨b.toNat, range⟩ : HandleNo) = h := Fin.ext number.symm
  unfold State.resolve
  rw [dif_pos range, entry, valid]
  simp only [live, beq_iff_eq.mp generation, Bool.true_eq_false, ne_eq, not_true_eq_false, if_false]

/-! ## Searches -/

theorem emptyHandle?_isNone (s : State) (p : Port) : s.tableFull p = (s.emptyHandle? p).isNone := by
  rw [Bool.eq_iff_iff, Option.isNone_iff_eq_none, State.emptyHandle?, List.find?_eq_none, State.tableFull, List.all_eq_true]
  exact forall_congr' fun h => imp_congr_right fun _ => by rw [Bool.not_eq_true, Option.isNone_eq_false_iff]

theorem freeShare?_isNone (s : State) : (allShares.all fun i => (s.share i).state != .free) = s.freeShare?.isNone := by
  rw [Bool.eq_iff_iff, Option.isNone_iff_eq_none, State.freeShare?, List.find?_eq_none, List.all_eq_true]
  simp only [bne_iff_ne, beq_iff_eq, ne_eq]

theorem named?_isSome (s : State) (name : BitVec 32) :
    (allShares.any fun i => (s.share i).live && (s.share i).name == some name) = (s.named? name).isSome := by
  rw [State.named?, Bool.eq_iff_iff, List.find?_isSome, List.any_eq_true]

/-- The first that passes is the lowest. -/
theorem find?_finRange_eq {n : Nat} {ok : Fin n → Bool} {k : Fin n} (passes : ok k = true)
    (lowest : ∀ j, j < k → ok j = false) : (List.finRange n).find? ok = some k := by
  refine List.find?_eq_some_iff_getElem.mpr ⟨passes, k.val, by simp, by simp, fun j hj => ?_⟩
  rw [List.getElem_finRange]
  exact Bool.not_eq_true' _ ▸ lowest _ hj

theorem freeShare?_of_lowest {s : State} {i : ShareIdx} (h : LowestFree s i) : s.freeShare? = some i :=
  find?_finRange_eq (beq_iff_eq.mpr h.1) fun j hj => beq_eq_false_iff_ne.mpr (h.2 j hj)

theorem emptyHandle?_of_lowest {s : State} {p : Port} {h : HandleNo} (e : LowestEmpty s p h) : s.emptyHandle? p = some h :=
  find?_finRange_eq (Option.isNone_iff_eq_none.mpr e.1) fun j hj => Option.isNone_eq_false_iff.mpr
    (Option.isSome_iff_ne_none.mpr (e.2 j hj))

theorem named?_of_carries {s : State} {i : ShareIdx} {name : BitVec 32} (h : Carries s i name) : s.named? name = some i := by
  obtain ⟨live, carries, only⟩ := h
  refine find?_finRange_eq (by rw [live, carries]; exact beq_self_eq_true _) fun j hj => ?_
  refine Bool.eq_false_iff.mpr fun both => absurd ?_ (Nat.ne_of_lt hj)
  obtain ⟨live, carries⟩ := Bool.and_eq_true_iff.mp both
  exact congrArg Fin.val (only j live (beq_iff_eq.mp carries))

/-! ## CREATE, ATTACH and GRANT -/

/-- What a CREATE does when every check passes; with no FREE or no EMPTY entry a check has failed. -/
def State.creating (s : State) (p : Port) (f : CreateFields) : State × Reply :=
  match s.freeShare?, s.emptyHandle? p with
  | some i, some h => (s.makeShare p f i h, Reply.ok (.created i h (s.share i).generation))
  | _, _ => refuse .handleTableFull s

theorem creatable_iff (f : CreateFields) : f.ok = false ↔ (f.size == 0 || decide (32 < f.size)
    || (f.scope == .privateScope && f.name != 0) || (f.scope == .common && f.name == 0) || f.rights.admin) = true := by
  have size : (decide (1 ≤ f.size) && decide (f.size ≤ 32)) = !(f.size == 0 || decide (32 < f.size)) := by
    rw [Bool.eq_iff_iff]
    simp only [Bool.and_eq_true, Bool.not_eq_true', Bool.or_eq_false_iff, decide_eq_true_eq, decide_eq_false_iff_not,
      beq_eq_false_iff_ne]
    omega
  have name : ((f.scope == .common) == (f.name != 0))
      = !((f.scope == .privateScope && f.name != 0) || (f.scope == .common && f.name == 0)) := by
    unfold bne
    cases f.scope <;> cases f.name == 0 <;> rfl
  unfold CreateFields.ok
  rw [size, name, ← Bool.not_or, ← Bool.not_or, Bool.not_eq_false']
  simp only [Bool.or_assoc]

/-- The pool's verdict on a CREATE's need is R13's last two checks: POOL_EMPTY before POOL_BUSY (R53, R55). -/
theorem verdict_eq (s : State) (f : CreateFields) (act : State × Reply) :
    (match s.pool.verdict f.need with
      | some code => refuse code s
      | none => act)
    = if (!f.onDemand && decide (s.pool.supply < f.size)) = true then refuse .poolEmpty s
      else if (!f.onDemand && decide (s.pool.clean.length < f.size)) = true then refuse .poolBusy s else act := by
  have clean_le : s.pool.clean.length ≤ s.pool.supply := by unfold Pool.supply; omega
  unfold Pool.verdict CreateFields.need
  cases f.onDemand with
  | true => rfl
  | false =>
    simp only [Bool.false_eq_true, if_false, Bool.not_false, Bool.true_and, decide_eq_true_eq]
    by_cases clean : f.size ≤ s.pool.clean.length
    · rw [if_pos clean, if_neg (by omega), if_neg (by omega)]
    · rw [if_neg clean]
      by_cases supply : f.size ≤ s.pool.supply
      · rw [if_pos supply, if_neg (by omega), if_pos (by omega)]
      · rw [if_neg supply, if_pos (by omega)]

theorem serveCreate_eq {s : State} {p : Port} {body : List Byte} {f : CreateFields} (hf : createFields body = some f) :
    serveCreate p body s = checked (createChecks s p f) s (s.creating p f) := by
  unfold serveCreate createChecks State.creating
  simp only [hf, checked_cons, checked_nil]
  refine if_congr (by rw [Bool.not_eq_true']) rfl ?_
  refine if_congr (creatable_iff f) rfl ?_
  refine if_congr (by rw [Bool.and_eq_true, beq_iff_eq]) rfl ?_
  rw [freeShare?_isNone, emptyHandle?_isNone, named?_isSome]
  cases s.freeShare? with
  | none => rfl
  | some i =>
    cases s.emptyHandle? p with
    | none => rfl
    | some h =>
      simp only [Option.isNone_some, Bool.false_eq_true, if_false]
      refine if_congr (by rw [Bool.and_eq_true, beq_iff_eq]) rfl ?_
      exact verdict_eq s f _

/-- What an ATTACH does when every check passes. -/
def State.attaching (s : State) (p : Port) (name : BitVec 32) (wanted : Rights) : State × Reply :=
  match s.named? name, s.emptyHandle? p with
  | some i, some h =>
    (s.makeHandle p h (attachHandle i (s.share i) wanted), Reply.ok (.attached h i (s.share i).generation))
  | _, _ => refuse .handleTableFull s

theorem serveAttach_eq {s : State} {p : Port} {body : List Byte} {name : BitVec 32} {wanted : Rights}
    (hf : attachFields body = some (name, wanted)) :
    serveAttach p body s = checked (attachChecks s p name wanted) s (s.attaching p name wanted) := by
  unfold serveAttach attachChecks State.attaching
  simp only [hf, checked_cons, checked_nil]
  refine if_congr (by rw [Bool.not_eq_true']) rfl ?_
  refine if_congr Iff.rfl rfl ?_
  refine if_congr Iff.rfl rfl ?_
  rw [← State.named?_isNone, ← State.named?_any, emptyHandle?_isNone]
  cases s.named? name with
  | none => rfl
  | some i =>
    simp only [Option.isNone_some, Option.any_some, Bool.false_eq_true, if_false]
    refine if_congr (by rw [Bool.not_eq_true']) rfl ?_
    cases s.emptyHandle? p <;> rfl

/-- What a GRANT does when every check passes. -/
def State.granting (s : State) (p : Port) (f : GrantFields) : State × Reply :=
  match s.entryAt p f.source, s.emptyHandle? f.target with
  | some v, some h => (s.grantHandle p f v h, Reply.ok (.granted h))
  | _, _ => refuse .targetFull s

theorem GrantFields.ok_iff (f : GrantFields) :
    f.ok = false ↔ (f.base % 64 != 0 || f.length % 64 != 0 || f.length == 0) = true := by
  unfold GrantFields.ok
  simp only [Bool.and_eq_false_iff, decide_eq_false_iff_not, Bool.or_eq_true, bne_iff_ne, beq_iff_eq, ne_eq, not_not]

theorem GrantFields.rightsOk_iff (f : GrantFields) (v : Handle) :
    f.rightsOk v = false ↔ (!v.rights.grant || f.rights.isEmpty || f.rights.admin || !f.rights.subset v.rights) = true := by
  unfold GrantFields.rightsOk
  cases v.rights.grant <;> cases f.rights.isEmpty <;> cases f.rights.admin <;> simp

theorem serveGrant_eq {s : State} {p : Port} {body : List Byte} {f : GrantFields} (hf : grantFields body = some f) :
    serveGrant p body s = checked (grantChecks s p f) s (s.granting p f) := by
  unfold serveGrant grantChecks State.granting
  rw [checked_append, checked_append, checked_resolution]
  simp only [hf, checked_cons, checked_nil]
  refine if_congr (by rw [Bool.not_eq_true']) rfl ?_
  refine if_congr f.ok_iff rfl ?_
  cases resolved : s.resolve p f.source with
  | error code => rfl
  | ok found =>
    obtain ⟨h, v⟩ := found
    rw [entryAt_of_resolve resolved, emptyHandle?_isNone]
    simp only [Option.any_some]
    refine if_congr (f.rightsOk_iff v) rfl ?_
    refine if_congr decide_eq_true_iff.symm rfl ?_
    refine if_congr beq_iff_eq.symm rfl ?_
    refine if_congr (by rw [Bool.not_eq_true']) rfl ?_
    refine if_congr (by rw [Bool.and_eq_true, beq_iff_eq]) rfl ?_
    cases s.emptyHandle? f.target <;> rfl

/-- A body without the length and codes of its kind is refused behind NOT_ATTACHED alone. -/
def badBody (s : State) (p : Port) : Result := if s.isAttached p then .badFrame else .notAttached

theorem badBody_dequeue (s : State) (p : Port) (f : Frame) : badBody (s.dequeue p f) p = badBody s p := by
  rw [badBody, dequeue_isAttached, badBody]

theorem serveCreate_badBody {s : State} {p : Port} {body : List Byte} (hf : createFields body = none) :
    serveCreate p body s = refuse (badBody s p) s := by
  unfold serveCreate badBody
  rw [hf]
  cases s.isAttached p <;> rfl

theorem serveAttach_badBody {s : State} {p : Port} {body : List Byte} (hf : attachFields body = none) :
    serveAttach p body s = refuse (badBody s p) s := by
  unfold serveAttach badBody
  rw [hf]
  cases s.isAttached p <;> rfl

theorem serveGrant_badBody {s : State} {p : Port} {body : List Byte} (hf : grantFields body = none) :
    serveGrant p body s = refuse (badBody s p) s := by
  unfold serveGrant badBody
  rw [hf]
  cases s.isAttached p <;> rfl

/-- A service that makes ordered checks refuses with the first that fails, and changes nothing (R12). -/
theorem refusal_of_checked {s : State} {p : Port} {kind : Byte} {f : Frame} (h : Takes s p kind f) (post : kind ≠ kindPost)
    {serve : Service} {checks : List (Bool × Result)} {act : State × Reply}
    (served : serve f.body (s.dequeue p f) = checked checks (s.dequeue p f) act) {code : Result}
    (failing : firstFailing checks = some code) :
    ∃ t, s.takeAndAnswer p kind serve = .next t ∧ OnlyAnswers s t p f (Reply.refusal code) :=
  onlyAnswers_of_takes h post (served.trans (checked_of_failing failing _ _))

/-- Settles O17: each service makes its checks as its rule lists them (`serveCreate_eq`, `serveAttach_eq`, `serveGrant_eq`). -/
theorem createAttachAndGrantRefuse : Obligations.CreateAttachAndGrantRefuse := by
  refine ⟨⟨?_, ?_, ?_, ?_⟩, ?_, ?_⟩
  · intro s p fr h hf
    refine onlyAnswers_of_takes (serve := serveCreate p) h (by decide) ((serveCreate_badBody hf).trans ?_)
    rw [badBody_dequeue]
    rfl
  · intro s p fr f code h hf failing
    rw [← dequeue_createChecks s p fr] at failing
    exact refusal_of_checked (serve := serveCreate p) h (by decide) (serveCreate_eq hf) failing
  · intro s p fr h hf
    refine onlyAnswers_of_takes (serve := serveAttach p) h (by decide) ((serveAttach_badBody hf).trans ?_)
    rw [badBody_dequeue]
    rfl
  · intro s p fr name wanted code h hf failing
    rw [← dequeue_attachChecks s p fr] at failing
    exact refusal_of_checked (serve := serveAttach p) h (by decide) (serveAttach_eq hf) failing
  · intro s p fr h hf
    refine onlyAnswers_of_takes (serve := serveGrant p) h (by decide) ((serveGrant_badBody hf).trans ?_)
    rw [badBody_dequeue]
    rfl
  · intro s p fr f code h hf failing
    rw [← dequeue_grantChecks s p fr] at failing
    exact refusal_of_checked (serve := serveGrant p) h (by decide) (serveGrant_eq hf) failing

/-! ## Requests of one handle -/

theorem firstFailing_append (a b : List (Bool × Result)) :
    firstFailing (a ++ b) = (firstFailing a).or (firstFailing b) := by
  induction a with
  | nil => rfl
  | cons c a ih =>
    obtain ⟨bad, code⟩ := c
    rw [List.cons_append, firstFailing, firstFailing, ih]
    cases bad <;> rfl

/-- The checks of a request of one handle, in the order R17, R19 and R22 list them. -/
theorem firstFailing_handleChecks (s : State) (p : Port) (body : List Byte) (may : Rights → Bool) :
    firstFailing (handleChecks s p body may) =
      if s.isAttached p = false then some .notAttached
      else match handleField body with
        | none => some .badFrame
        | some b => match s.resolve p b with
          | .error code => some code
          | .ok (_, v) => if may v.rights = true then none else some .rights := by
  rw [handleChecks, firstFailing_append, firstFailing_append, firstFailing_resolution]
  cases s.isAttached p with
  | false => rfl
  | true =>
    match body with
    | [] => rfl
    | [b] =>
      simp only [handleField, List.headD_cons, Bool.true_eq_false, if_false]
      cases resolved : s.resolve p b with
      | error code => rfl
      | ok found =>
        obtain ⟨h, v⟩ := found
        simp only [entryAt_of_resolve resolved, Option.any_some, firstFailing]
        cases may v.rights <;> rfl
    | b :: c :: rest => rfl

/-- Which of them failed, when one did. -/
theorem failing_handleChecks {s : State} {p : Port} {body : List Byte} {may : Rights → Bool} {code : Result}
    (h : firstFailing (handleChecks s p body may) = some code) :
    s.isAttached p = false ∧ code = .notAttached
      ∨ s.isAttached p = true ∧ (handleField body = none ∧ code = .badFrame
        ∨ ∃ b, handleField body = some b ∧ (s.resolve p b = .error code
          ∨ ∃ k v, s.resolve p b = .ok (k, v) ∧ may v.rights = false ∧ code = .rights)) := by
  rw [firstFailing_handleChecks] at h
  split at h
  · next detached => exact .inl ⟨detached, (Option.some.inj h).symm⟩
  next attached =>
  refine .inr ⟨by simpa using attached, ?_⟩
  split at h
  · next field => exact .inl ⟨field, (Option.some.inj h).symm⟩
  next b field =>
  refine .inr ⟨b, field, ?_⟩
  split at h
  · next resolved => exact .inl (resolved.trans (congrArg Except.error (Option.some.inj h)))
  next k v resolved =>
  split at h
  · cases h
  · next may_not => exact .inr ⟨k, v, resolved, by simpa using may_not, (Option.some.inj h).symm⟩

/-- CLOSE and REVOKE make them with ADMIN (R17, R19). -/
theorem checkAdmin_of_failing {s : State} {p : Port} {body : List Byte} {code : Result}
    (h : firstFailing (handleChecks s p body Rights.admin) = some code) : s.checkAdmin p body = .error code := by
  unfold State.checkAdmin
  rcases failing_handleChecks h with ⟨detached, rfl⟩ | ⟨attached, ⟨field, rfl⟩ | ⟨b, field, resolved | ⟨k, v, resolved, no, rfl⟩⟩⟩
  · rw [if_pos detached]
  · simp only [attached, field, Bool.true_eq_false, if_false]
  · simp only [attached, field, resolved, Bool.true_eq_false, if_false]
  · simp only [attached, field, resolved, no, Bool.true_eq_false, Bool.false_eq_true, if_false]

/-- INFO makes them for any handle that resolves (R22). -/
theorem serveInfo_of_failing {s : State} {p : Port} {body : List Byte} {code : Result}
    (h : firstFailing (handleChecks s p body fun _ => true) = some code) : serveInfo p body s = refuse code s := by
  unfold serveInfo
  rcases failing_handleChecks h with ⟨detached, rfl⟩ | ⟨attached, ⟨field, rfl⟩ | ⟨b, field, resolved | ⟨k, v, _, no, _⟩⟩⟩
  · rw [if_pos detached]
  · simp only [attached, field, Bool.true_eq_false, if_false]
  · simp only [attached, field, resolved, Bool.true_eq_false, if_false]
  · cases no

/-- DROP asks only that the number is in range and its entry VALID (R39). -/
theorem serveDrop_of_failing {s : State} {p : Port} {body : List Byte} {code : Result}
    (h : firstFailing [(!s.isAttached p, .notAttached), (body.length != 1, .badFrame),
      (decide (32 ≤ (body.headD 0).toNat), .handleRange), ((s.entryAt p (body.headD 0)).isNone, .handleEmpty)] = some code) :
    serveDrop p body s = refuse code s := by
  unfold serveDrop
  cases attached : s.isAttached p with
  | false =>
    rw [attached] at h
    cases h
    rfl
  | true =>
    rw [attached] at h
    match body, h with
    | [], h => cases h; rfl
    | b :: c :: rest, h => cases h; rfl
    | [b], h =>
      have h : (if decide (32 ≤ b.toNat) = true then some .handleRange
        else if (s.entryAt p b).isNone = true then some .handleEmpty else none) = some code := h
      simp only [handleField, Bool.true_eq_false, if_false]
      by_cases range : b.toNat < 32
      · rw [if_neg (by simpa using range), State.entryAt, dif_pos range] at h
        rw [dif_pos range]
        cases valid : s.handle p ⟨b.toNat, range⟩ with
        | none =>
          rw [valid] at h
          cases h
          rfl
        | some v =>
          rw [valid] at h
          cases h
      · rw [if_pos (by simpa using range)] at h
        cases h
        rw [dif_neg range]

/-! ## Requests of an empty body -/

theorem emptyBody_eq (s : State) (p : Port) (body : List Byte) (act : State × Reply) :
    (if s.isAttached p = false then refuse .notAttached s else if body ≠ [] then refuse .badFrame s else act)
      = checked [(!s.isAttached p, .notAttached), (!body.isEmpty, .badFrame)] s act := by
  rw [checked_cons, checked_cons, checked_nil]
  refine if_congr (by rw [Bool.not_eq_true']) rfl (if_congr ?_ rfl rfl)
  cases body <;> simp

/-- Settles O20: each service refuses with the first check that fails, as `checkAdmin_of_failing`, `serveInfo_of_failing`,
`serveDrop_of_failing` and `emptyBody_eq` say. -/
theorem oneHandleAndEmptyBodyRequestsRefuse : Obligations.OneHandleAndEmptyBodyRequestsRefuse := by
  refine ⟨⟨?_, ?_⟩, ?_⟩
  · intro s p f code c kind may which h failing
    rw [← dequeue_handleChecks s p f] at failing
    rcases which with ⟨e, rfl⟩ | ⟨e, rfl⟩ | ⟨e, rfl⟩
    all_goals cases e
    · refine onlyAnswers_of_takes (serve := serveClose p) h (by decide) ?_
      unfold serveClose
      rw [checkAdmin_of_failing failing]
      rfl
    · refine onlyAnswers_of_takes (serve := serveRevoke p) h (by decide) ?_
      unfold serveRevoke
      rw [checkAdmin_of_failing failing]
      rfl
    · exact onlyAnswers_of_takes (serve := serveInfo p) h (by decide) (serveInfo_of_failing failing)
  · intro s p f code h failing
    rw [← dequeue_isAttached s p f p, ← dequeue_entryAt s p f p] at failing
    exact onlyAnswers_of_takes (serve := serveDrop p) h (by decide) (serveDrop_of_failing failing)
  · intro s p f code c kind which h failing
    simp only [List.mem_cons, List.not_mem_nil, or_false] at which
    rw [← dequeue_isAttached s p f p] at failing
    rcases which with e | e | e | e | e
    all_goals cases e
    · exact refusal_of_checked (serve := serveDetach p) h (by decide) (emptyBody_eq _ p _ _) failing
    · exact refusal_of_checked (serve := serveList p) h (by decide) (emptyBody_eq _ p _ _) failing
    · exact refusal_of_checked (serve := serveFlush p) h (by decide) (emptyBody_eq _ p _ _) failing
    · exact refusal_of_checked (serve := serveNotices p) h (by decide) (emptyBody_eq _ p _ _) failing
    · exact refusal_of_checked (serve := serveSettings p) h (by decide) (emptyBody_eq _ p _ _) failing

/-! ## Reports -/

theorem backed_eq_countP (sh : Share) : sh.backed = allSlots.countP fun k => (sh.frameMap[k]).isSome :=
  List.length_filterMap_eq_countP

/-- LIST reports the VALID entries in ascending order (R41). -/
theorem listOf_numbers (s : State) (p : Port) :
    ((s.listOf p).map fun r => r.number) = allHandles.filter fun h => (s.handle p h).isSome := by
  unfold State.listOf
  induction allHandles with
  | nil => rfl
  | cons h l ih =>
    rw [List.filterMap_cons, List.filter_cons]
    cases s.handle p h with
    | none => exact ih
    | some v => exact congrArg (h :: ·) ih

theorem listOf_entries (s : State) (p : Port) :
    ∀ r ∈ s.listOf p, s.handle p r.number = some r.handle ∧ r.current = s.current r.handle := by
  intro r hr
  obtain ⟨h, -, found⟩ := List.mem_filterMap.mp hr
  obtain ⟨v, valid, rfl⟩ := Option.map_eq_some_iff.mp found
  exact ⟨valid, rfl⟩

theorem dequeue_listOf (s : State) (p q : Port) (f : Frame) : (s.dequeue p f).listOf q = s.listOf q := by
  simp only [State.listOf, dequeue_handle]
  rfl

/-- On an ATTACHED port a request of an empty body is served. -/
theorem emptyBody_served {s : State} {p : Port} {body : List Byte} (attached : s.isAttached p = true) (empty : body = [])
    (act : State × Reply) :
    (if s.isAttached p = false then refuse .notAttached s else if body ≠ [] then refuse .badFrame s else act) = act := by
  rw [if_neg (by rw [attached]; decide), if_neg (not_not_intro empty)]

theorem serveInfo_of_resolve {s : State} {p : Port} {b : Byte} {h : HandleNo} {v : Handle} (attached : s.isAttached p = true)
    (resolved : s.resolve p b = .ok (h, v)) : serveInfo p [b] s = (s, Reply.ok (.info (s.infoOf v.share))) := by
  unfold serveInfo
  simp only [attached, handleField, resolved, Bool.true_eq_false, if_false]

theorem dequeue_infoOf (s : State) (p : Port) (f : Frame) (i : ShareIdx) :
    (s.dequeue p f).infoOf i = s.infoOf i := rfl

/-- What INFO reports, with the backed slots counted (R22). -/
theorem infoOf_eq (s : State) (i : ShareIdx) : s.infoOf i =
    { index := i, state := (s.share i).state, scope := (s.share i).scope, size := (s.share i).size.getD 0
      backed := allSlots.countP fun k => ((s.share i).frameMap[k]).isSome
      handleCount := (s.share i).handleCount, holder := (s.share i).claim.map fun c => c.holder
      waiters := ((s.share i).claim.map fun c => c.waiters.length).getD 0, creator := (s.share i).creator } := by
  rw [← backed_eq_countP]
  rfl

/-- Settles O16: none of the four services changes the state it is handed. -/
theorem reportsAndUnknownKindsOnlyAnswer : Obligations.ReportsAndUnknownKindsOnlyAnswer := by
  refine ⟨fun s p f h undefined => ?_, fun s p f attached => ⟨fun b k v h body r => ?_, fun h body => ?_, fun h body => ?_⟩⟩
  · obtain ⟨next, -, completed⟩ := h
    have post : f.kind ≠ kindPost := fun e => undefined (by rw [e]; decide)
    have unknown : (!definedKinds.contains f.kind) = true := by
      rw [Bool.not_eq_true', List.contains_eq_mem]
      exact decide_eq_false undefined
    have taken : exec (.unknownRequest p) s = .next ((s.dequeue p f).answer p f (Reply.refusal .unknownRequest)) :=
      takeBy_of_next (isKind := fun k => !definedKinds.contains k) next unknown fun f t =>
        t.placeResponse p f.kind (Reply.refusal .unknownRequest)
    exact ⟨_, taken, onlyAnswers_answer _ completed post⟩
  all_goals rw [← dequeue_isAttached s p f p] at attached
  · have resolved : (s.dequeue p f).resolve p b = .ok (k, v) := (dequeue_resolve s p f p b).trans (resolve_of_resolves r)
    have served := serveInfo_of_resolve attached resolved
    rw [← body, dequeue_infoOf, infoOf_eq] at served
    exact onlyAnswers_of_takes (serve := serveInfo p) h (by decide) served
  · have served : serveList p f.body (s.dequeue p f) = _ := emptyBody_served attached body _
    rw [dequeue_listOf] at served
    obtain ⟨t, taken, answers⟩ := onlyAnswers_of_takes (serve := serveList p) h (by decide) served
    exact ⟨t, s.listOf p, taken, answers, listOf_numbers s p, listOf_entries s p⟩
  · have served : serveSettings p f.body (s.dequeue p f) = _ := emptyBody_served attached body _
    exact onlyAnswers_of_takes (serve := serveSettings p) h (by decide) served

end Sys2Proof.Machine
end

