-- ==== Sys2Proof/Proofs/NewHandles.lean ====
section
/-! PROOFS. CREATE and ATTACH (R14, R16): the frames bound to the slots of a new share, and the handle made in the lowest EMPTY
entry. -/

namespace Sys2Proof.Machine

/-! ## Frames bound in slot order (R55) -/

/-- A slot of the list takes the frame at its place, if there is one, and every other slot stays. -/
theorem bindSlots_get {ks : List SlotNo} (nodup : ks.Nodup) (fs : List FrameNo) (m : Vector (Option FrameNo) 32) (k : SlotNo) :
    (bindSlots m ks fs)[k] = if k ∈ ks then (fs[ks.idxOf k]?).or m[k] else m[k] := by
  induction ks generalizing m fs with
  | nil => rfl
  | cons j ks ih =>
    obtain ⟨fresh, nodup⟩ := List.nodup_cons.mp nodup
    cases fs with
    | nil =>
      show m[k] = _
      simp
    | cons f fs =>
      show (bindSlots (m.set j (some f)) ks fs)[k] = _
      rw [ih nodup, slots_set_get]
      by_cases e : k = j
      · subst e
        simp [fresh]
      · have later : (j :: ks).idxOf k = ks.idxOf k + 1 := List.idxOf_cons_ne ks (Ne.symm e)
        simp [e, later]

/-- Slots 0 to `n` - 1 of an unbacked map take the frames in order. -/
theorem bindSlots_take (n : Nat) (fs : List FrameNo) (k : SlotNo) :
    (bindSlots (Vector.replicate 32 none) (allSlots.take n) fs)[k] = if k.val < n then fs[k.val]? else none := by
  have nodup : (allSlots.take n).Nodup := (List.nodup_finRange 32).take
  have place : allSlots.idxOf k = k.val := List.idxOf_finRange k
  have mem : k ∈ allSlots.take n ↔ k.val < n := by
    rw [← place]
    exact List.mem_take_iff_idxOf_lt (List.mem_finRange k)
  rw [bindSlots_get nodup]
  refine if_ctx_congr mem (fun lt => ?_) fun _ => by simp
  have same : (allSlots.take n).idxOf k = k.val := by
    rw [← place]
    conv_rhs => rw [← List.take_append_drop n allSlots]
    exact (List.idxOf_append_of_mem (mem.mpr lt)).symm
  rw [same]
  simp

/-! ## A handle made and answered for -/

theorem makeHandle_ports (s : State) (p : Port) (h : HandleNo) (v : Handle) (q : Port) :
    (s.makeHandle p h v).ports[q]
      = if q = p then { s.ports[p] with handles := s.ports[p].handles.set h (some v) } else s.ports[q] :=
  State.modPort_get s p q fun r => { r with handles := r.handles.set h (some v) }

theorem makeHandle_shares (s : State) (p : Port) (h : HandleNo) (v : Handle) (j : ShareIdx) :
    (s.makeHandle p h v).shares[j] = if j = v.share then
        { s.shares[v.share] with handleCount := s.shares[v.share].handleCount + 1 }
      else s.shares[j] :=
  State.modShare_get _ v.share j fun sh => { sh with handleCount := sh.handleCount + 1 }

section Made

variable {s d : State} {p : Port} {f : Frame} (h : HandleNo) (v : Handle) (r : Reply)

/-- The requesting port gets its answer and the handle. -/
theorem makeHandle_answer_port (ports : d.ports = (s.dequeue p f).ports) (completed : (s.port p).link.allCompleted = true)
    (post : f.kind ≠ kindPost) :
    ((d.makeHandle p h v).answer p f r).port p = { s.port p with
      link := (s.port p).link.answered f r
      handles := (s.port p).handles.set h (some v)
      attention := (((d.makeHandle p h v).answer p f r).port p).attention } := by
  have made : (d.makeHandle p h v).ports[p] = { (s.dequeue p f).ports[p] with
      handles := (s.dequeue p f).ports[p].handles.set h (some v) } := by
    rw [makeHandle_ports, if_pos rfl, ports]
  have link : (d.makeHandle p h v).ports[p].link = (s.dequeue p f).ports[p].link := by rw [made]
  rw [State.port_eq, answer_port, answer_link r completed post link, made, dequeue_port]
  rfl

/-- No other port changes. -/
theorem makeHandle_answer_others (ports : d.ports = (s.dequeue p f).ports) :
    OtherPortsSame s ((d.makeHandle p h v).answer p f r) [p] := by
  intro q hq
  have other : q ≠ p := fun e => hq (List.mem_singleton.mpr e)
  have same : (d.makeHandle p h v).ports[q] = s.ports[q] := by
    rw [makeHandle_ports, if_neg other, ports, dequeue_eq, State.modPort_other s _ other]
  unfold SamePort
  rw [State.port_eq, State.port_eq, answer_port, answer_link_other _ _ _ _ other, same]

end Made

/-! ## ATTACH -/

/-- Settles O19: the handle is made on the share that carries the name, in the lowest EMPTY entry. -/
theorem attachMakesHandle : Obligations.AttachMakesHandle := by
  intro s p fr name wanted i h takes fields passing carries lowest
  rw [← dequeue_attachChecks s p fr] at passing
  have named : (s.dequeue p fr).named? name = some i := named?_of_carries carries
  have empty : (s.dequeue p fr).emptyHandle? p = some h :=
    (dequeue_emptyHandle? s p fr p).trans (emptyHandle?_of_lowest lowest)
  have served : serveAttach p fr.body (s.dequeue p fr)
      = ((s.dequeue p fr).makeHandle p h (attachHandle i (s.share i) wanted),
         Reply.ok (.attached h i (s.share i).generation)) := by
    rw [serveAttach_eq fields, checked_of_passing passing, State.attaching, named, empty]
    rfl
  have taken := takeAndAnswer_takes (serve := serveAttach p) takes served
  obtain ⟨-, kind, completed⟩ := takes
  have post : fr.kind ≠ kindPost := by rw [kind]; decide
  have keeps := ((keeps_dequeue s p fr).trans (keeps_makeHandle _ p h (attachHandle i (s.share i) wanted))).trans
    (keeps_placeResponse _ p fr.kind (Reply.ok (.attached h i (s.share i).generation)))
  refine ⟨_, taken, ?_, makeHandle_answer_port h _ _ rfl completed post, makeHandle_answer_others h _ _ rfl, ?_,
    onlyPortsShares_of_pool (onlyPortsSharesPool_settle keeps) (answer_pool ..)⟩
  · rw [State.share_eq, answer_shares, makeHandle_shares]
    exact if_pos rfl
  · intro j hj
    rw [State.share_eq, answer_shares, makeHandle_shares]
    exact if_neg hj

/-! ## CREATE -/

/-- The state of a CREATE before the administrator's handle is made. -/
def State.openShare (s : State) (p : Port) (f : CreateFields) (i : ShareIdx) : State :=
  { s with pool := s.pool.take f.need }.modShare i (f.entry p (s.pool.clean.take f.need))

theorem openShare_shares (s : State) (p : Port) (f : CreateFields) (i j : ShareIdx) :
    (s.openShare p f i).shares[j]
      = if j = i then f.entry p (s.pool.clean.take f.need) s.shares[i] else s.shares[j] :=
  State.modShare_get { s with pool := s.pool.take f.need } i j (f.entry p (s.pool.clean.take f.need))

/-- The administrator's handle on a new share of generation `g` (R14). -/
def CreateFields.adminHandle (f : CreateFields) (i : ShareIdx) (g : Nat) : Handle :=
  { share := i, generation := g, rights := Rights.all, base := 0, length := f.size * Config.frameBytes, origin := .created }

theorem makeShare_eq (s : State) (p : Port) (f : CreateFields) (i : ShareIdx) (h : HandleNo) :
    s.makeShare p f i h = (s.openShare p f i).makeHandle p h (f.adminHandle i s.shares[i].generation) := by
  have generation : (s.openShare p f i).shares[i].generation = s.shares[i].generation := by
    rw [openShare_shares, if_pos rfl]
    rfl
  rw [← generation]
  rfl

theorem keeps_makeShare (s : State) (p : Port) (f : CreateFields) (i : ShareIdx) (h : HandleNo) :
    Keeps s (s.makeShare p f i h) :=
  ((keeps_setPool s _).trans (keeps_modShare _ i _)).trans (keeps_makeHandle _ p h _)

/-- The slots of a new share (R55): EAGER backing binds the frames at the head of the clean list to slots 0 to size - 1. -/
theorem entry_frameMap (f : CreateFields) (p : Port) (clean : List FrameNo) (sh : Share) (k : SlotNo) :
    (f.entry p (clean.take f.need) sh).frameMap[k]
      = if f.onDemand = false ∧ k.val < f.size then clean[k.val]? else none := by
  show (bindSlots (Vector.replicate 32 none) (allSlots.take f.need) (clean.take f.need))[k] = _
  rw [bindSlots_take]
  cases backing : f.onDemand with
  | true =>
    have need : f.need = 0 := by rw [CreateFields.need, backing]; rfl
    rw [need, if_neg (Nat.not_lt_zero _), if_neg fun both => Bool.noConfusion both.1]
  | false =>
    have need : f.need = f.size := by rw [CreateFields.need, backing]; rfl
    rw [need]
    exact if_ctx_congr (by simp) (fun both => List.getElem?_take_of_lt both.2) fun _ => rfl

/-- The making of the administrator's handle brings the current-handle count to 1 (R14). -/
theorem openShare_makeHandle (s : State) (p : Port) (f : CreateFields) (i : ShareIdx) (h : HandleNo) (g : Nat) :
    ((s.openShare p f i).makeHandle p h (f.adminHandle i g)).shares[i]
      = { f.entry p (s.pool.clean.take f.need) s.shares[i] with handleCount := 1 } := by
  have opened := openShare_shares s p f i i
  rw [if_pos rfl] at opened
  rw [makeHandle_shares]
  refine (if_pos rfl).trans ?_
  show { (s.openShare p f i).shares[i] with handleCount := (s.openShare p f i).shares[i].handleCount + 1 } = _
  rw [opened]
  rfl

/-- Settles O18: the lowest FREE entry becomes the share, and the lowest EMPTY entry its administrator's handle. -/
theorem createMakesShareAndHandle : Obligations.CreateMakesShareAndHandle := by
  intro s p fr f i h takes fields passing lowestFree lowestEmpty
  rw [← dequeue_createChecks s p fr] at passing
  have free : (s.dequeue p fr).freeShare? = some i := freeShare?_of_lowest lowestFree
  have empty : (s.dequeue p fr).emptyHandle? p = some h :=
    (dequeue_emptyHandle? s p fr p).trans (emptyHandle?_of_lowest lowestEmpty)
  have served : serveCreate p fr.body (s.dequeue p fr)
      = ((s.dequeue p fr).makeShare p f i h, Reply.ok (.created i h (s.share i).generation)) := by
    rw [serveCreate_eq fields, checked_of_passing passing, State.creating, free, empty]
    rfl
  have taken := takeAndAnswer_takes (serve := serveCreate p) takes served
  obtain ⟨-, kind, completed⟩ := takes
  have post : fr.kind ≠ kindPost := by rw [kind]; decide
  have keeps := ((keeps_dequeue s p fr).trans (keeps_makeShare _ p f i h)).trans
    (keeps_placeResponse _ p fr.kind (Reply.ok (.created i h (s.share i).generation)))
  rw [makeShare_eq] at taken keeps
  have entry : ((((s.dequeue p fr).openShare p f i).makeHandle p h
      (f.adminHandle i (s.dequeue p fr).shares[i].generation)).answer p fr
        (Reply.ok (.created i h (s.share i).generation))).share i
      = { f.entry p (s.pool.clean.take f.need) (s.share i) with handleCount := 1 } := by
    rw [State.share_eq, answer_shares]
    exact openShare_makeHandle _ p f i h _
  refine ⟨_, taken, ?_, fun k => ?_, ?_, makeHandle_answer_port h _ _ rfl completed post,
    makeHandle_answer_others h _ _ rfl, fun j hj => ?_, onlyPortsSharesPool_settle keeps⟩
  · rw [entry]
    rfl
  · rw [entry]
    exact entry_frameMap f p s.pool.clean (s.share i) k
  · rw [answer_pool]
    rfl
  · rw [State.share_eq, answer_shares, makeHandle_shares]
    exact (if_neg hj).trans ((openShare_shares _ p f i j).trans (if_neg hj))

end Sys2Proof.Machine
end

