-- ==== Sys2Proof/Proofs/EndsOfShares.lean ====
section
/-! PROOFS. CLOSE and REVOKE (R17 to R20): whom they tell, in which order, and what a share's end or a new generation leaves of
handles and data stages. -/

namespace Sys2Proof.Machine

/-! ## Pushes -/

theorem NoticeQueue.pushAll_append (nq : NoticeQueue) (r : Settings) (a b : List Notice) :
    nq.pushAll r (a ++ b) = (nq.pushAll r a).pushAll r b := by
  induction a generalizing nq with
  | nil => rfl
  | cons n a ih => exact ih _

/-- From `s` to `t` these notices were pushed to each port, and no port record changed otherwise. -/
structure Pushed (s t : State) (ns : Port → List Notice) : Prop where
  ports : ∀ q : Port, t.ports[q] = { s.ports[q] with notices := t.ports[q].notices }
  settings : t.settings = s.settings
  told : ∀ q : Port, Told s t q (ns q)

namespace Pushed

variable {s t u : State} {ns ms : Port → List Notice}

/-- Nothing is pushed where no port record changes. -/
theorem of_ports (ports : t.ports = s.ports) (settings : t.settings = s.settings) : Pushed s t fun _ => [] where
  ports q := by rw [ports]
  settings := settings
  told q := by
    unfold Told
    rw [State.port_eq, State.port_eq, ports]
    exact (ite_self _).symm

theorem isAttached (h : Pushed s t ns) (q : Port) : t.isAttached q = s.isAttached q := by
  unfold State.isAttached
  rw [State.port_eq, h.ports q]
  rfl

theorem trans (a : Pushed s t ns) (b : Pushed t u ms) : Pushed s u fun q => ns q ++ ms q where
  ports q := by rw [b.ports q, a.ports q]
  settings := b.settings.trans a.settings
  told q := by
    have first := a.told q
    have second := b.told q
    unfold Told at first second ⊢
    rw [a.isAttached q, first, a.settings] at second
    rw [second, NoticeQueue.pushAll_append]
    split <;> rfl

theorem congr (h : Pushed s t ns) (e : ∀ q, ns q = ms q) : Pushed s t ms where
  ports := h.ports
  settings := h.settings
  told q := e q ▸ h.told q

theorem push (s : State) (q : Port) (n : Notice) : Pushed s (s.push q n) fun r => if r = q then [n] else [] where
  ports r := by
    unfold State.push
    split
    · rw [State.modNotices_eq, State.modPort_get]
      split
      · next e => rw [e]
      · rfl
    · rfl
  settings := (keeps_push s q n).settings
  told r := push_told s q r n

theorem pushTold (s : State) (k : NoticeKind) (p : Port) (i : ShareIdx) (value : Nat) (l : List (Port × HandleNo)) :
    Pushed s (s.pushTold k p i value l) fun q =>
      (l.filter fun x => x.1 == q).map fun x => shareNotice k (some p) x.2 i value := by
  induction l generalizing s with
  | nil => exact of_ports rfl rfl
  | cons x l ih =>
    refine ((push s x.1 _).trans (ih _)).congr fun q => ?_
    rw [List.filter_cons]
    by_cases e : q = x.1
    · rw [if_pos e, if_pos (beq_iff_eq.mpr e.symm)]
      rfl
    · rw [if_neg e, if_neg fun h => e (beq_iff_eq.mp h).symm]
      rfl

theorem pushEnded (s : State) (p : Port) (i : ShareIdx) (cause : Nat) (l : List (Port × HandleNo)) :
    Pushed s (s.pushEnded p i cause l) fun q =>
      (l.filter fun x => x.1 == q && x.1 != p).map fun x => shareNotice .claimEnded (some p) x.2 i cause := by
  induction l generalizing s with
  | nil => exact of_ports rfl rfl
  | cons x l ih =>
    unfold State.pushEnded
    by_cases own : x.1 = p
    · rw [if_pos own]
      refine (ih s).congr fun q => ?_
      rw [List.filter_cons, if_neg (by simp [own])]
    · rw [if_neg own]
      refine ((push s x.1 _).trans (ih _)).congr fun q => ?_
      rw [List.filter_cons]
      by_cases e : q = x.1
      · rw [if_pos e, if_pos (by simp [e, own])]
        rfl
      · rw [if_neg e, if_neg (by simp [Ne.symm e])]
        rfl

end Pushed

theorem push_shares (s : State) (q : Port) (n : Notice) : (s.push q n).shares = s.shares := by
  unfold State.push; split <;> rfl

theorem pushTold_shares (s : State) (k : NoticeKind) (p : Port) (i : ShareIdx) (value : Nat)
    (l : List (Port × HandleNo)) : (s.pushTold k p i value l).shares = s.shares := by
  induction l generalizing s with
  | nil => rfl
  | cons x l ih => exact (ih _).trans (push_shares ..)

theorem pushEnded_shares (s : State) (p : Port) (i : ShareIdx) (cause : Nat) (l : List (Port × HandleNo)) :
    (s.pushEnded p i cause l).shares = s.shares := by
  induction l generalizing s with
  | nil => rfl
  | cons x l ih =>
    unfold State.pushEnded
    rw [ih]
    split
    · rfl
    · exact push_shares ..

theorem endClaim_shares (s : State) (p : Port) (i : ShareIdx) (cause : Nat) (j : ShareIdx) :
    (s.endClaim p i cause).shares[j] = if j = i then { s.shares[i] with claim := none } else s.shares[j] := by
  unfold State.endClaim
  split
  · next none =>
    split
    · next e =>
      rw [e, ← show s.shares[i].claim = Option.none from none]
    · rfl
  · rw [pushEnded_shares, State.setClaim_eq, State.modShare_get]

theorem Pushed.endClaim (s : State) (p : Port) (i : ShareIdx) (cause : Nat) :
    Pushed s (s.endClaim p i cause) fun q => s.shares[i].endedTo p i cause q := by
  unfold State.endClaim
  split
  · next none =>
    refine (Pushed.of_ports rfl rfl).congr fun q => ?_
    rw [Share.endedTo, show s.shares[i].claim = Option.none from none]
  · next c some =>
    refine ((Pushed.of_ports (s := s) (t := s.setClaim i none) rfl rfl).trans
      (Pushed.pushEnded _ p i cause c.places)).congr fun q => ?_
    rw [Share.endedTo, show s.shares[i].claim = Option.some c from some]
    rfl

/-! ## Who is told -/

/-- Of a list made of one entry for each port that has one, the entry of port `q`. -/
theorem filter_filterMap_port (g : Port → Option HandleNo) (q : Port) {l : List Port} (nodup : l.Nodup) :
    ((l.filterMap fun r => (g r).map fun h => (r, h)).filter fun x => x.1 == q).map Prod.snd
      = if q ∈ l then (g q).toList else [] := by
  induction l with
  | nil => rfl
  | cons r l ih =>
    obtain ⟨fresh, nodup⟩ := List.nodup_cons.mp nodup
    have rest := ih nodup
    rw [List.filterMap_cons]
    by_cases e : q = r
    · subst e
      rw [if_neg fresh] at rest
      rw [if_pos List.mem_cons_self]
      cases g q with
      | none => exact rest
      | some h => simpa using rest
    · have later : (q ∈ r :: l) ↔ q ∈ l := by simp [e]
      simp only [later]
      cases g r with
      | none => exact rest
      | some h => simpa [Ne.symm e] using rest

/-- Every other port is told of its lowest current handle, and the requesting port of nothing (R17, R19). -/
theorem told_filter (s : State) (p q : Port) (i : ShareIdx) :
    ((s.told p i).filter fun x => x.1 == q).map Prod.snd = if q = p then [] else s.lowestOn q i := by
  have listed : s.told p i = allPorts.filterMap fun r =>
      (if r = p then none else s.lowestCurrent? r i).map fun h => (r, h) := by
    unfold State.told
    congr 1
    funext r
    split <;> rfl
  rw [listed, filter_filterMap_port (fun r => if r = p then none else s.lowestCurrent? r i) q (by decide),
    if_pos (mem_allPorts q)]
  split
  · rfl
  · exact s.lowestCurrent?_toList q i

theorem Share.endedTo_self (sh : Share) (p : Port) (i : ShareIdx) (cause : Nat) : sh.endedTo p i cause p = [] := by
  unfold Share.endedTo
  split
  · rfl
  · next c _ =>
    have none_passes : c.places.filter (fun x => x.1 == p && x.1 != p) = [] :=
      List.filter_eq_nil_iff.mpr fun x _ => by simp
    rw [none_passes]
    rfl

theorem Share.endedTo_congr {sh sh' : Share} (h : sh'.claim = sh.claim) (p : Port) (i : ShareIdx) (cause : Nat) (q : Port) :
    sh'.endedTo p i cause q = sh.endedTo p i cause q := by
  unfold Share.endedTo
  rw [h]

/-- The notices of a CLOSE or REVOKE of entry `i` by port `p` to each port: the kind for its lowest current handle, and
CLAIM_ENDED for its places in the claim record, none to `p` itself. -/
def State.endNotices (s : State) (k : NoticeKind) (p : Port) (i : ShareIdx) (value cause : Nat) (q : Port) : List Notice :=
  if q = p then []
  else ((s.lowestOn q i).map fun h => shareNotice k (some p) h i value) ++ s.shares[i].endedTo p i cause q

/-- The ports told are fixed in `s` before the tables change to those of `b`, and are told then, before the claim ends. -/
theorem Pushed.ends (s : State) {b : State} {i : ShareIdx} (claim : b.shares[i].claim = s.shares[i].claim) (k : NoticeKind)
    (p : Port) (value cause : Nat) :
    Pushed b ((b.pushTold k p i value (s.told p i)).endClaim p i cause) (s.endNotices k p i value cause) := by
  refine ((Pushed.pushTold b k p i value _).trans (Pushed.endClaim _ p i cause)).congr fun q => ?_
  have handles : (((s.told p i).filter fun x => x.1 == q).map fun x => shareNotice k (some p) x.2 i value)
      = (if q = p then [] else s.lowestOn q i).map fun h => shareNotice k (some p) h i value := by
    rw [← told_filter, List.map_map]
    rfl
  rw [pushTold_shares, Share.endedTo_congr claim, State.endNotices, handles]
  split
  · next e => rw [e, Share.endedTo_self]; rfl
  · rfl

/-- What the requesting port's answer and a change of tables leave of the notices told. -/
theorem Told.of_notices {s s' t t' : State} {q : Port} {ns : List Notice} (h : Told s t q ns)
    (attach : s'.ports[q].attach = s.ports[q].attach) (notices : s'.ports[q].notices = s.ports[q].notices)
    (settings : s'.settings = s.settings) (pushed : t'.ports[q].notices = t.ports[q].notices) : Told s' t' q ns := by
  have attached : s'.isAttached q = s.isAttached q := by
    unfold State.isAttached
    rw [State.port_eq, State.port_eq, attach]
  unfold Told at h ⊢
  rw [attached, settings, show (t'.port q).notices = (t.port q).notices from pushed,
    show (s'.port q).notices = (s.port q).notices from notices]
  exact h

theorem dequeue_lowestOn (s : State) (p q : Port) (f : Frame) (i : ShareIdx) :
    (s.dequeue p f).lowestOn q i = s.lowestOn q i := by
  simp only [State.lowestOn, State.currentOn, dequeue_handle, dequeue_share]

theorem dequeue_endNotices (s : State) (p : Port) (f : Frame) (k : NoticeKind) (i : ShareIdx) (value cause : Nat) (q : Port) :
    (s.dequeue p f).endNotices k p i value cause q = s.endNotices k p i value cause q := by
  simp only [State.endNotices, dequeue_lowestOn]
  rfl

/-! ## A step of a generation, as R2 says it -/

theorem stepped_afterStep (i : ShareIdx) (g : Nat) (o : Option Handle) : Stepped i g o (Handle.afterStep i g o) := by
  unfold Stepped
  cases o with
  | none => rfl
  | some v => rfl

theorem Operation.afterStep_eq (op : Operation) (i : ShareIdx) (g : Nat) :
    op.afterStep i g
      = if op.kind.isRead && op.share == i && op.generation == g then { op with generation := 0 } else op := by
  unfold Operation.afterStep
  cases op.kind <;> rfl

theorem stageStepped_afterStep (i : ShareIdx) (g : Nat) (d : DataStage) :
    StageStepped i g d { d with stage := d.stage.afterStep i g } := by
  refine ⟨rfl, ?_⟩
  cases d.stage with
  | empty => rfl
  | waiting op => exact congrArg Stage.waiting (op.afterStep_eq i g)
  | bursting op f bs => exact congrArg (Stage.bursting · f bs) (op.afterStep_eq i g)

/-! ## CLOSE -/

/-- CLOSE up to the retirement: the entry is CLOSING, everybody is told, and the claim has ended. -/
def State.closing (s : State) (p : Port) (i : ShareIdx) : State :=
  ((s.markClosing i).pushTold .shareClosed p i s.shares[i].generation (s.told p i)).endClaim p i 2

theorem closeShare_eq (s : State) (p : Port) (i : ShareIdx) : s.closeShare p i = (s.closing p i).retireIfDone i := rfl

theorem closing_shares (s : State) (p : Port) (i j : ShareIdx) :
    (s.closing p i).shares[j] = if j = i then
        { s.shares[i] with state := .closing, name := none, handleCount := 0, claim := none }
      else s.shares[j] := by
  unfold State.closing
  rw [endClaim_shares, pushTold_shares, markClosing_shares, markClosing_shares, if_pos rfl]
  split <;> rfl

theorem closing_pushed (s : State) (p : Port) (i : ShareIdx) :
    Pushed s (s.closing p i) (s.endNotices .shareClosed p i s.shares[i].generation 2) := by
  have claim : (s.markClosing i).shares[i].claim = s.shares[i].claim := by rw [markClosing_shares, if_pos rfl]
  exact (Pushed.of_ports (s := s) (t := s.markClosing i) rfl rfl).trans (Pushed.ends s claim _ p _ 2)

theorem keeps_closing (s : State) (p : Port) (i : ShareIdx) : Keeps s (s.closing p i) :=
  ((keeps_modShare s i _).trans (keeps_pushTold _ _ _ _ _ _)).trans (keeps_endClaim _ _ _ _)

theorem closing_pool (s : State) (p : Port) (i : ShareIdx) : (s.closing p i).pool = s.pool :=
  ((sameTables_pushTold _ _ _ _ _ _).trans (sameTables_endClaim _ _ _ _)).pool

theorem closeShare_of_used {s : State} {p : Port} {i : ShareIdx} (used : s.shares[i].inUse ≠ 0) :
    s.closeShare p i = s.closing p i := by
  rw [closeShare_eq]
  exact retireIfDone_of_used (by rw [closing_shares, if_pos rfl]; exact used)

theorem closeShare_of_unused {s : State} {p : Port} {i : ShareIdx} (unused : s.shares[i].inUse = 0) :
    s.closeShare p i = (s.closing p i).retire i := by
  rw [closeShare_eq]
  exact retireIfDone_of_done (by rw [closing_shares, if_pos rfl]) (by rw [closing_shares, if_pos rfl]; exact unused)

/-- The entry is as R10 and R11 say, its claim ended. -/
theorem closeShare_shares (s : State) (p : Port) (i j : ShareIdx) :
    (s.closeShare p i).shares[j] = if j = i then { s.shares[i].closed with claim := none } else s.shares[j] := by
  unfold Share.closed
  by_cases unused : s.shares[i].inUse = 0
  · rw [closeShare_of_unused unused, retire_shares, closing_shares, closing_shares, if_pos rfl, if_pos unused]
    split <;> rfl
  · rw [closeShare_of_used unused, closing_shares, if_neg unused]

theorem closeShare_pool (s : State) (p : Port) (i : ShareIdx) :
    (s.closeShare p i).pool = if s.shares[i].inUse = 0 then s.pool.giveBack s.shares[i].bySlot else s.pool := by
  by_cases unused : s.shares[i].inUse = 0
  · rw [closeShare_of_unused unused, retire_pool, closing_pool, closing_shares, if_pos rfl, if_pos unused]
    rfl
  · rw [closeShare_of_used unused, closing_pool, if_neg unused]

theorem closeShare_handle (s : State) (p : Port) (i : ShareIdx) (q : Port) (k : HandleNo) :
    (s.closeShare p i).ports[q].handles[k]
      = if s.shares[i].inUse = 0 then Handle.afterStep i (nextGeneration s.shares[i].generation) s.ports[q].handles[k]
        else s.ports[q].handles[k] := by
  have kept : (s.closing p i).ports[q].handles = s.ports[q].handles := by rw [(closing_pushed s p i).ports q]
  by_cases unused : s.shares[i].inUse = 0
  · rw [closeShare_of_unused unused, retire_handle, closing_shares, if_pos rfl, kept, if_pos unused]
  · rw [closeShare_of_used unused, kept, if_neg unused]

theorem closeShare_port (s : State) (p : Port) (i : ShareIdx) (q : Port) :
    (s.closeShare p i).ports[q] = { s.ports[q] with
      notices := (s.closing p i).ports[q].notices
      handles := (s.closeShare p i).ports[q].handles
      stage := if s.shares[i].inUse = 0 then
          { s.ports[q].stage with
            stage := s.ports[q].stage.stage.afterStep i (nextGeneration s.shares[i].generation) }
        else s.ports[q].stage } := by
  have kept := (closing_pushed s p i).ports q
  by_cases unused : s.shares[i].inUse = 0
  · rw [closeShare_of_unused unused, retire_ports, closing_shares, if_pos rfl, if_pos unused, kept]
  · rw [closeShare_of_used unused, if_neg unused, kept]

theorem keeps_closeShare (s : State) (p : Port) (i : ShareIdx) : Keeps s (s.closeShare p i) :=
  (keeps_closing s p i).trans (keeps_retireIfDone _ i)

/-- An administrator's current handle passes the checks of CLOSE and REVOKE (R17, R19). -/
theorem checkAdmin_of_resolves {s : State} {p : Port} {f : Frame} {b : Byte} {h : HandleNo} {v : Handle}
    (attached : s.isAttached p = true) (body : f.body = [b]) (r : Resolves s p b h v) (admin : v.rights.admin = true) :
    (s.dequeue p f).checkAdmin p f.body = .ok (h, v) := by
  unfold State.checkAdmin
  rw [dequeue_isAttached, attached, body]
  simp only [handleField, dequeue_resolve, resolve_of_resolves r, admin, Bool.true_eq_false, if_false, if_true]

/-- The record of port `q` after a CLOSE, answered. -/
theorem closeShare_answer_port (s : State) (p : Port) (f : Frame) (i : ShareIdx) (a : Reply) (q : Port) :
    (((s.dequeue p f).closeShare p i).answer p f a).ports[q] = { s.ports[q] with
      link := (((s.dequeue p f).closeShare p i).answer p f a).ports[q].link
      attention := (((s.dequeue p f).closeShare p i).answer p f a).ports[q].attention
      notices := ((s.dequeue p f).closing p i).ports[q].notices
      handles := ((s.dequeue p f).closeShare p i).ports[q].handles
      stage := if s.shares[i].inUse = 0 then
          { s.ports[q].stage with
            stage := s.ports[q].stage.stage.afterStep i (nextGeneration s.shares[i].generation) }
        else s.ports[q].stage } := by
  rw [answer_port, closeShare_port, dequeue_port]
  rfl

theorem closeShare_answer_handle (s : State) (p : Port) (f : Frame) (i : ShareIdx) (a : Reply) (q : Port) (k : HandleNo) :
    (((s.dequeue p f).closeShare p i).answer p f a).handle q k
      = if s.shares[i].inUse = 0 then Handle.afterStep i (nextGeneration s.shares[i].generation) (s.handle q k)
        else s.handle q k := by
  rw [State.handle_eq, closeShare_answer_port, closeShare_handle, ← State.handle_eq, dequeue_handle]
  rfl

/-- The notices of a CLOSE, for each port. -/
theorem closeShare_told (s : State) (p : Port) (f : Frame) (i : ShareIdx) (a : Reply) (q : Port) :
    Told s (((s.dequeue p f).closeShare p i).answer p f a) q (s.endNotices .shareClosed p i s.shares[i].generation 2 q) := by
  have told := (closing_pushed (s.dequeue p f) p i).told q
  rw [dequeue_endNotices] at told
  refine told.of_notices ?_ ?_ rfl ?_
  · rw [dequeue_port]
  · rw [dequeue_port]
  · rw [closeShare_answer_port]

/-- A port told nothing keeps its queue. -/
theorem notices_of_told_nil {s t : State} {q : Port} (h : Told s t q []) : (t.port q).notices = (s.port q).notices :=
  h.trans (ite_self _)

/-- Settles O21: the entry, the pool, the notices and R2's search after a CLOSE, part by part. -/
theorem closeEndsTheShare : Obligations.CloseEndsTheShare := by
  intro s p f b h v takes attached body r admin
  have served : serveClose p f.body (s.dequeue p f) = ((s.dequeue p f).closeShare p v.share, Reply.ok .empty) := by
    unfold serveClose
    rw [checkAdmin_of_resolves attached body r admin]
  have taken := takeAndAnswer_takes (serve := serveClose p) takes served
  obtain ⟨-, kind, completed⟩ := takes
  have post : f.kind ≠ kindPost := by rw [kind]; decide
  have keeps := ((keeps_dequeue s p f).trans (keeps_closeShare _ p v.share)).trans
    (keeps_placeResponse _ p f.kind (Reply.ok .empty))
  have port := closeShare_answer_port s p f v.share (Reply.ok .empty)
  have told := closeShare_told s p f v.share (Reply.ok .empty)
  refine ⟨_, taken, ?_, ?_, ?_, fun q hq => ⟨?_, ?_⟩, ?_, fun q k => ?_, fun q => ?_, fun q => ?_, fun j hj => ?_,
    onlyPortsSharesPool_settle keeps⟩
  · rw [State.share_eq, answer_shares, closeShare_shares]
    exact if_pos rfl
  · rw [answer_pool]
    exact closeShare_pool _ p v.share
  · exact answer_link _ completed post (by rw [closeShare_port])
  · rw [State.port_eq, answer_link_other _ _ _ _ hq, closeShare_port]
    exact dequeue_link_other s p f hq
  · have := told q
    rw [State.endNotices, if_neg hq] at this
    exact this
  · have := told p
    rw [State.endNotices, if_pos rfl] at this
    exact notices_of_told_nil this
  · rw [closeShare_answer_handle, State.share_eq]
    split
    · exact stepped_afterStep _ _ _
    · rfl
  · rw [State.port_eq s, State.port_eq, port q, State.share_eq]
    by_cases unused : s.shares[v.share].inUse = 0
    · simp only [unused, if_true]
      exact stageStepped_afterStep _ _ _
    · simp only [unused, if_false]
  · rw [State.port_eq s, State.port_eq, port q]
    exact ⟨rfl, rfl⟩
  · rw [State.share_eq, answer_shares, closeShare_shares]
    exact if_neg hj

/-! ## REVOKE -/

theorem revokeShare_eq (s : State) (p : Port) (h : HandleNo) (i : ShareIdx) :
    s.revokeShare p h i = (((s.revoked p h i).pushTold .revoked p i (nextGeneration s.shares[i].generation)
      (s.told p i)).endClaim p i 1) := by
  have generation : (s.revoked p h i).shares[i].generation = nextGeneration s.shares[i].generation := by
    rw [revoked_shares, if_pos rfl]
  rw [← generation]
  rfl

theorem revokeShare_shares (s : State) (p : Port) (h : HandleNo) (i j : ShareIdx) :
    (s.revokeShare p h i).shares[j] = if j = i then { s.shares[i] with
        generation := nextGeneration s.shares[i].generation, handleCount := 1, claim := none }
      else s.shares[j] := by
  rw [revokeShare_eq, endClaim_shares, pushTold_shares, revoked_shares, revoked_shares, if_pos rfl]
  split <;> rfl

theorem revokeShare_pushed (s : State) (p : Port) (h : HandleNo) (i : ShareIdx) :
    Pushed (s.revoked p h i) (s.revokeShare p h i)
      (s.endNotices .revoked p i (nextGeneration s.shares[i].generation) 1) := by
  have claim : (s.revoked p h i).shares[i].claim = s.shares[i].claim := by rw [revoked_shares, if_pos rfl]
  rw [revokeShare_eq]
  exact Pushed.ends s claim _ p _ 1

theorem keeps_revokeShare (s : State) (p : Port) (h : HandleNo) (i : ShareIdx) : Keeps s (s.revokeShare p h i) :=
  ((((keeps_stepGeneration s i).trans (keeps_setHandle _ p h _)).trans (keeps_modShare _ i _)).trans
    (keeps_pushTold _ _ _ _ _ _)).trans (keeps_endClaim _ _ _ _)

theorem revokeShare_pool (s : State) (p : Port) (h : HandleNo) (i : ShareIdx) : (s.revokeShare p h i).pool = s.pool := by
  rw [revokeShare_eq]
  exact ((sameTables_pushTold _ _ _ _ _ _).trans (sameTables_endClaim _ _ _ _)).pool

theorem revokeShare_port (s : State) (p : Port) (h : HandleNo) (i : ShareIdx) (q : Port) :
    (s.revokeShare p h i).ports[q] = { s.ports[q] with
      notices := (s.revokeShare p h i).ports[q].notices
      handles := (s.revoked p h i).ports[q].handles
      stage := { s.ports[q].stage with
        stage := s.ports[q].stage.stage.afterStep i (nextGeneration s.shares[i].generation) } } := by
  rw [(revokeShare_pushed s p h i).ports q, revoked_ports, stepGeneration_ports]

/-- The record of port `q` after a REVOKE, answered. -/
theorem revokeShare_answer_port (s : State) (p : Port) (f : Frame) (h : HandleNo) (i : ShareIdx) (a : Reply) (q : Port) :
    (((s.dequeue p f).revokeShare p h i).answer p f a).ports[q] = { s.ports[q] with
      link := (((s.dequeue p f).revokeShare p h i).answer p f a).ports[q].link
      attention := (((s.dequeue p f).revokeShare p h i).answer p f a).ports[q].attention
      notices := ((s.dequeue p f).revokeShare p h i).ports[q].notices
      handles := ((s.dequeue p f).revoked p h i).ports[q].handles
      stage := { s.ports[q].stage with
        stage := s.ports[q].stage.stage.afterStep i (nextGeneration s.shares[i].generation) } } := by
  rw [answer_port, revokeShare_port, dequeue_port]
  rfl

/-- The notices of a REVOKE, for each port. -/
theorem revokeShare_told (s : State) (p : Port) (f : Frame) (h : HandleNo) (i : ShareIdx) (a : Reply) (q : Port) :
    Told s (((s.dequeue p f).revokeShare p h i).answer p f a) q
      (s.endNotices .revoked p i (nextGeneration s.shares[i].generation) 1 q) := by
  have told := (revokeShare_pushed (s.dequeue p f) p h i).told q
  rw [dequeue_endNotices] at told
  refine told.of_notices ?_ ?_ rfl ?_
  · rw [revoked_ports, stepGeneration_ports, dequeue_port]
  · rw [revoked_ports, stepGeneration_ports, dequeue_port]
  · rw [revokeShare_answer_port]

/-- The handle a REVOKE came through is restamped, and every other entry is as the step of the generation leaves it. -/
theorem revokeShare_answer_handle {s : State} {p : Port} {h : HandleNo} {v : Handle} (f : Frame)
    (valid : s.handle p h = some v) (current : s.current v = true) (a : Reply) (q : Port) (k : HandleNo) :
    (((s.dequeue p f).revokeShare p h v.share).answer p f a).handle q k = if q = p ∧ k = h then
        some { v with generation := nextGeneration (s.share v.share).generation }
      else Handle.afterStep v.share (nextGeneration (s.share v.share).generation) (s.handle q k) := by
  have valid : (s.dequeue p f).handle p h = some v := (dequeue_handle s p f p h).trans valid
  have current : (s.dequeue p f).current v = true := current
  rw [State.handle_eq, revokeShare_answer_port, revoked_handle valid current, ← State.handle_eq, dequeue_handle]
  rfl

/-- Settles O22: the entry, the handles, the stages and the notices after a REVOKE, part by part. -/
theorem revokeStepsTheGeneration : Obligations.RevokeStepsTheGeneration := by
  intro s p f b h v takes attached body r admin
  have served : serveRevoke p f.body (s.dequeue p f) = ((s.dequeue p f).revokeShare p h v.share,
      Reply.ok (.revoked (nextGeneration (s.share v.share).generation))) := by
    unfold serveRevoke
    rw [checkAdmin_of_resolves attached body r admin]
    rfl
  have taken := takeAndAnswer_takes (serve := serveRevoke p) takes served
  obtain ⟨-, kind, completed⟩ := takes
  obtain ⟨-, valid, current⟩ := r
  have post : f.kind ≠ kindPost := by rw [kind]; decide
  have keeps := ((keeps_dequeue s p f).trans (keeps_revokeShare _ p h v.share)).trans
    (keeps_placeResponse _ p f.kind (Reply.ok (.revoked (nextGeneration (s.share v.share).generation))))
  have port := revokeShare_answer_port s p f h v.share (Reply.ok (.revoked (nextGeneration (s.share v.share).generation)))
  have told := revokeShare_told s p f h v.share (Reply.ok (.revoked (nextGeneration (s.share v.share).generation)))
  have handle := revokeShare_answer_handle f valid current (Reply.ok (.revoked (nextGeneration (s.share v.share).generation)))
  refine ⟨_, taken, rfl, ?_, ?_, fun q k other => ?_, fun q => ?_, ?_, fun q hq => ⟨?_, ?_⟩, ?_, fun q => ?_, fun j hj => ?_,
    onlyPortsShares_of_pool (onlyPortsSharesPool_settle keeps) ?_⟩
  · rw [State.share_eq, answer_shares, revokeShare_shares]
    exact if_pos rfl
  · rw [handle]
    exact if_pos ⟨rfl, rfl⟩
  · rw [handle, if_neg other]
    exact stepped_afterStep _ _ _
  · rw [State.port_eq s, State.port_eq, port q]
    exact stageStepped_afterStep _ _ _
  · exact answer_link _ completed post (by rw [revokeShare_port])
  · rw [State.port_eq, answer_link_other _ _ _ _ hq, revokeShare_port]
    exact dequeue_link_other s p f hq
  · have := told q
    rw [State.endNotices, if_neg hq] at this
    exact this
  · have := told p
    rw [State.endNotices, if_pos rfl] at this
    exact notices_of_told_nil this
  · rw [State.port_eq s, State.port_eq, port q]
    exact ⟨rfl, rfl⟩
  · rw [State.share_eq, answer_shares, revokeShare_shares]
    exact if_neg hj
  · exact (answer_pool ..).trans (revokeShare_pool ..)

end Sys2Proof.Machine
end

