-- ==== Sys2Proof/Proofs/GrantAndDrop.lean ====
section
/-! PROOFS. GRANT and DROP (R36, R37, R39, R40): the handle made for another port, and what the emptying of a handle leaves of
its share, of the claim held or waited for through it, and of the other tables. -/

namespace Sys2Proof.Machine

/-! ## GRANT -/

/-- Where no check fails, none of those listed is bad. -/
theorem not_bad_of_passing {checks : List (Bool × Result)} (passing : firstFailing checks = none) {bad : Bool} {code : Result}
    (listed : (bad, code) ∈ checks) : bad = false := by
  induction checks with
  | nil => cases listed
  | cons c checks ih =>
    obtain ⟨first, other⟩ := c
    cases first with
    | true => cases passing
    | false =>
      rcases List.mem_cons.mp listed with e | later
      · exact congrArg Prod.fst e
      · exact ih passing later

/-- A GRANT that passes its checks is for another port (R35). -/
theorem target_ne_of_passing {s : State} {p : Port} {f : GrantFields} (passing : firstFailing (grantChecks s p f) = none) :
    f.target ≠ p :=
  beq_eq_false_iff_ne.mp (not_bad_of_passing passing (code := .selfGrant) (by simp [grantChecks]))

theorem push_port_other (s : State) (n : Notice) {q r : Port} (other : r ≠ q) : (s.push q n).ports[r] = s.ports[r] := by
  unfold State.push
  split
  · exact State.modPort_other s _ other
  · rfl

section Granted

variable (s : State) (p : Port) (f : GrantFields) (v : Handle) (k : HandleNo)

theorem grantHandle_shares (j : ShareIdx) :
    (s.grantHandle p f v k).shares[j] = if j = v.share then
        { s.shares[v.share] with handleCount := s.shares[v.share].handleCount + 1 }
      else s.shares[j] := by
  unfold State.grantHandle
  rw [push_shares]
  exact makeHandle_shares s f.target k (f.handle p v) j

theorem grantHandle_target : (s.grantHandle p f v k).ports[f.target] = { s.ports[f.target] with
    handles := s.ports[f.target].handles.set k (some (f.handle p v))
    notices := (s.grantHandle p f v k).ports[f.target].notices } := by
  unfold State.grantHandle
  rw [(Pushed.push _ f.target _).ports f.target, makeHandle_ports, if_pos rfl]

theorem grantHandle_port_other {q : Port} (other : q ≠ f.target) : (s.grantHandle p f v k).ports[q] = s.ports[q] := by
  unfold State.grantHandle
  rw [push_port_other _ _ other, makeHandle_ports, if_neg other]

/-- The target is told of its new handle (R37). -/
theorem grantHandle_told : Told s (s.grantHandle p f v k) f.target
    [shareNotice .grantReceived (some p) k v.share v.generation] := by
  have told := push_told (s.makeHandle f.target k (f.handle p v)) f.target f.target
    (shareNotice .grantReceived (some p) k v.share v.generation)
  rw [if_pos rfl] at told
  refine told.of_notices ?_ ?_ rfl rfl
  all_goals rw [makeHandle_ports, if_pos rfl]

theorem keeps_grantHandle : Keeps s (s.grantHandle p f v k) := (keeps_makeHandle s _ k _).trans (keeps_push _ _ _)

theorem grantHandle_pool : (s.grantHandle p f v k).pool = s.pool := (sameTables_push _ _ _).pool

end Granted

/-- A GRANT that passes its checks, of a handle that resolves, makes one in the lowest EMPTY entry of the target's table. -/
theorem serveGrant_of_passing {s : State} {p : Port} {body : List Byte} {f : GrantFields} {h k : HandleNo} {v : Handle}
    (fields : grantFields body = some f) (passing : firstFailing (grantChecks s p f) = none)
    (resolved : s.resolve p f.source = .ok (h, v)) (empty : s.emptyHandle? f.target = some k) :
    serveGrant p body s = (s.grantHandle p f v k, Reply.ok (.granted k)) := by
  rw [serveGrant_eq fields, checked_of_passing passing, State.granting, entryAt_of_resolve resolved, empty]

/-- Settles O23: the target's table and queue, the requesting port's answer and the share's count are what a GRANT changes. -/
theorem grantMakesHandleForTheTarget : Obligations.GrantMakesHandleForTheTarget := by
  intro s p fr f h k v takes fields passing r lowest
  have target : f.target ≠ p := target_ne_of_passing passing
  rw [← dequeue_grantChecks s p fr] at passing
  have resolved : (s.dequeue p fr).resolve p f.source = .ok (h, v) := (dequeue_resolve ..).trans (resolve_of_resolves r)
  have empty : (s.dequeue p fr).emptyHandle? f.target = some k :=
    (dequeue_emptyHandle? ..).trans (emptyHandle?_of_lowest lowest)
  have taken := takeAndAnswer_takes (serve := serveGrant p) takes (serveGrant_of_passing fields passing resolved empty)
  obtain ⟨-, kind, completed⟩ := takes
  have post : fr.kind ≠ kindPost := by rw [kind]; decide
  have keeps := ((keeps_dequeue s p fr).trans (keeps_grantHandle _ p f v k)).trans
    (keeps_placeResponse _ p fr.kind (Reply.ok (.granted k)))
  have requester : ((s.dequeue p fr).grantHandle p f v k).ports[p] = (s.dequeue p fr).ports[p] :=
    grantHandle_port_other _ p f v k target.symm
  refine ⟨_, taken, ?_, ?_, ?_, ?_, fun q hq => ?_, fun j hj => ?_,
    onlyPortsShares_of_pool (onlyPortsSharesPool_settle keeps) ((answer_pool ..).trans (grantHandle_pool ..))⟩
  · rw [State.share_eq, answer_shares, grantHandle_shares]
    exact if_pos rfl
  · rw [State.port_eq, answer_port, answer_link_other _ _ _ _ target, grantHandle_target, dequeue_port,
      dequeue_link_other s p fr target]
    rfl
  · refine (grantHandle_told (s.dequeue p fr) p f v k).of_notices ?_ ?_ rfl ?_
    · rw [dequeue_port]
    · rw [dequeue_port]
    · rw [answer_port]
  · rw [State.port_eq, answer_port, answer_link _ completed post (congrArg PortState.link requester), requester, dequeue_port]
    rfl
  · obtain ⟨not_p, not_target⟩ := not_or.mp (by simpa using hq)
    unfold SamePort
    rw [State.port_eq, State.port_eq, answer_port, answer_link_other _ _ _ _ not_p,
      grantHandle_port_other _ p f v k not_target, dequeue_port, dequeue_link_other s p fr not_p]
  · rw [State.share_eq, answer_shares, grantHandle_shares]
    exact if_neg hj

/-! ## The claim of a dropped handle (R40, R138) -/

/-- What the Claim Unit's part of a DROP of handle `h` of port `p` makes of a claim record: one held through it is handed over,
and a waiter queued through it leaves. -/
def Claim.afterDrop (c : Claim) (p : Port) (h : HandleNo) (lease : Timer) : Option Claim :=
  if c.holder = p then (if c.handle = h then c.handedOver lease else some c)
  else some { c with waiters := c.waiters.filter fun w => !(w.port == p && w.handle == h) }

/-- The notices of a DROP of handle `h` of port `p` to port `q`: those of the handover, when the claim is held through it. -/
def Share.dropNotices (sh : Share) (p : Port) (h : HandleNo) (i : ShareIdx) (q : Port) : List Notice :=
  if sh.claim.any fun c => c.holder == p && c.handle == h then (sh.claim.map fun c => c.grantedTo i sh.generation q).getD []
  else []

theorem setClaim_shares (s : State) (i : ShareIdx) (c : Option Claim) (j : ShareIdx) :
    (s.setClaim i c).shares[j] = if j = i then { s.shares[i] with claim := c } else s.shares[j] :=
  State.modShare_get s i j fun sh => { sh with claim := c }

/-- A handover leaves every other entry, and of its own all but the claim (R132). -/
theorem handover_shares (s : State) (i : ShareIdx) (c : Claim) (j : ShareIdx) :
    (s.handover i c).shares[j]
      = if j = i then { s.shares[i] with claim := c.handedOver s.lease } else s.shares[j] := by
  unfold State.handover Claim.handedOver
  cases c.waiters with
  | nil => exact setClaim_shares ..
  | cons w ws => exact (congrArg (·[j]) (push_shares ..)).trans (setClaim_shares ..)

theorem Pushed.setClaim (s : State) (i : ShareIdx) (c : Option Claim) : Pushed s (s.setClaim i c) fun _ => [] :=
  .of_ports rfl rfl

/-- A handover tells the new holder, if there is one (R132, R133). -/
theorem Pushed.handover (s : State) (i : ShareIdx) (c : Claim) :
    Pushed s (s.handover i c) (c.grantedTo i s.shares[i].generation) := by
  unfold State.handover Claim.grantedTo
  cases c.waiters with
  | nil => exact .setClaim s i none
  | cons w ws =>
    refine ((Pushed.setClaim s i _).trans (.push _ w.port _)).congr fun q => ?_
    by_cases e : q = w.port
    · simp only [e, if_true]
      rfl
    · simp only [e, Ne.symm e, if_false]
      rfl

theorem claimDrop_shares (s : State) (p : Port) (h : HandleNo) (i j : ShareIdx) :
    (s.claimDrop p h i).shares[j] = if j = i then
        { s.shares[i] with claim := s.shares[i].claim.bind fun c => c.afterDrop p h s.lease }
      else s.shares[j] := by
  have unchanged {o : Option Claim} (same : o = s.shares[i].claim) :
      s.shares[j] = if j = i then { s.shares[i] with claim := o } else s.shares[j] := by
    split
    · next e => rw [e, same]
    · rfl
  unfold State.claimDrop
  cases record : (s.share i).claim with
  | none => exact unchanged (by rw [show s.shares[i].claim = none from record]; rfl)
  | some c =>
    rw [show s.shares[i].claim = some c from record, Option.bind_some, Claim.afterDrop]
    dsimp only
    split
    · split
      · exact handover_shares ..
      · exact unchanged record.symm
    · exact setClaim_shares ..

theorem Pushed.claimDrop (s : State) (p : Port) (h : HandleNo) (i : ShareIdx) :
    Pushed s (s.claimDrop p h i) (s.shares[i].dropNotices p h i) := by
  unfold State.claimDrop
  cases record : (s.share i).claim with
  | none =>
    refine (Pushed.of_ports rfl rfl).congr fun q => ?_
    rw [Share.dropNotices, show s.shares[i].claim = none from record]
    rfl
  | some c =>
    have notices (q : Port) : s.shares[i].dropNotices p h i q
        = if c.holder = p ∧ c.handle = h then c.grantedTo i s.shares[i].generation q else [] := by
      rw [Share.dropNotices, show s.shares[i].claim = some c from record]
      exact if_congr (by simp) rfl rfl
    dsimp only
    split
    · next holds =>
      split
      · next through => exact (Pushed.handover s i c).congr fun q => by rw [notices, if_pos ⟨holds, through⟩]
      · next other => exact (Pushed.of_ports rfl rfl).congr fun q => by rw [notices, if_neg fun both => other both.2]
    · next other => exact (Pushed.setClaim s i _).congr fun q => by rw [notices, if_neg fun both => other both.1]

/-! ## Entry into CLOSING (R10, R11) -/

section Closing

variable (s : State) (i : ShareIdx)

theorem enterClosing_of_used (used : s.shares[i].inUse ≠ 0) : s.enterClosing i = s.markClosing i :=
  retireIfDone_of_used (by rw [markClosing_shares, if_pos rfl]; exact used)

theorem enterClosing_of_unused (unused : s.shares[i].inUse = 0) : s.enterClosing i = (s.markClosing i).retire i :=
  retireIfDone_of_done (by rw [markClosing_shares, if_pos rfl]) (by rw [markClosing_shares, if_pos rfl]; exact unused)

theorem enterClosing_shares (j : ShareIdx) :
    (s.enterClosing i).shares[j] = if j = i then s.shares[i].closed else s.shares[j] := by
  unfold Share.closed
  by_cases unused : s.shares[i].inUse = 0
  · rw [enterClosing_of_unused s i unused, retire_shares, markClosing_shares, markClosing_shares, if_pos rfl, if_pos unused]
    split <;> rfl
  · rw [enterClosing_of_used s i unused, markClosing_shares, if_neg unused]

theorem enterClosing_pool :
    (s.enterClosing i).pool = if s.shares[i].inUse = 0 then s.pool.giveBack s.shares[i].bySlot else s.pool := by
  by_cases unused : s.shares[i].inUse = 0
  · rw [enterClosing_of_unused s i unused, retire_pool, markClosing_shares, if_pos rfl, if_pos unused]
    rfl
  · rw [enterClosing_of_used s i unused, if_neg unused]
    rfl

theorem enterClosing_ports (q : Port) :
    (s.enterClosing i).ports[q] = if s.shares[i].inUse = 0 then { s.ports[q] with
        handles := Vector.ofFn fun h : Fin 32 =>
          Handle.afterStep i (nextGeneration s.shares[i].generation) s.ports[q].handles[h]
        stage := { s.ports[q].stage with
          stage := s.ports[q].stage.stage.afterStep i (nextGeneration s.shares[i].generation) } }
      else s.ports[q] := by
  by_cases unused : s.shares[i].inUse = 0
  · rw [enterClosing_of_unused s i unused, retire_ports, markClosing_shares, if_pos rfl, if_pos unused]
    rfl
  · rw [enterClosing_of_used s i unused, if_neg unused]
    rfl

end Closing

/-! ## The emptying of a handle (R5, R8, R9, R39) -/

/-- The share entry of handle `v` once that is emptied, before the entry may close: a current handle is no longer counted, and an
OPEN entry that loses its ADMIN handle is ORPHANED. -/
def State.leftWithout (s : State) (v : Handle) : Share :=
  { s.share v.share with
    handleCount := if s.current v then (s.share v.share).handleCount - 1 else (s.share v.share).handleCount
    state := if s.current v && v.rights.admin && (s.share v.share).state == .opened then .orphaned
      else (s.share v.share).state }

/-- The emptying of handle `v` closes its share: it is current, and leaves the entry ORPHANED with no handle counted. -/
abbrev State.closesWithout (s : State) (v : Handle) : Prop :=
  s.current v = true ∧ (s.leftWithout v).state = .orphaned ∧ (s.leftWithout v).handleCount = 0

/-- With no operation in flight the share retires in the same event (R11). -/
abbrev State.retiresWithout (s : State) (v : Handle) : Prop := s.closesWithout v ∧ (s.share v.share).inUse = 0

/-- The state once handle `v`, in entry `h` of port `p`, is emptied, before its share may close. -/
def State.without (s : State) (p : Port) (h : HandleNo) (v : Handle) : State :=
  (s.setHandle p h none).modShare v.share fun _ => s.leftWithout v

theorem without_shares (s : State) (p : Port) (h : HandleNo) (v : Handle) (j : ShareIdx) :
    (s.without p h v).shares[j] = if j = v.share then s.leftWithout v else s.shares[j] :=
  State.modShare_get ..

theorem without_ports (s : State) (p : Port) (h : HandleNo) (v : Handle) (q : Port) :
    (s.without p h v).ports[q] = { s.ports[q] with handles := (s.without p h v).ports[q].handles } := by
  unfold State.without
  rw [State.modShare_ports, State.setHandle_eq, State.modPort_get]
  split
  · next e => rw [e]
  · rfl

/-- The entry after the loss of a current handle is `Share.loseHandle`'s. -/
theorem leftWithout_of_current {s : State} {v : Handle} (current : s.current v = true) :
    s.leftWithout v = (s.share v.share).loseHandle v.rights.admin := by
  unfold State.leftWithout Share.loseHandle
  rw [current]
  rfl

/-- A handle that is not current is no part of its entry. -/
theorem leftWithout_of_stale {s : State} {v : Handle} (stale : ¬ s.current v = true) : s.leftWithout v = s.shares[v.share] := by
  unfold State.leftWithout
  rw [Bool.eq_false_iff.mpr stale]
  rfl

theorem State.modShare_self (s : State) (i : ShareIdx) : (s.modShare i fun _ => s.shares[i]) = s := by
  unfold State.modShare
  rw [Fin.getElem_fin, Vector.set_getElem_self]

/-- A handle is emptied, and its share closes when that leaves it ORPHANED and unused (R39, R9). -/
theorem emptyHandle_eq {s : State} {p : Port} {h : HandleNo} {v : Handle} (valid : s.handle p h = some v) :
    s.emptyHandle p h = if s.closesWithout v then (s.without p h v).enterClosing v.share else s.without p h v := by
  unfold State.emptyHandle
  rw [valid]
  dsimp only
  split
  · next current =>
    have lost : ((s.setHandle p h none).modShare v.share fun sh => sh.loseHandle v.rights.admin) = s.without p h v := by
      unfold State.without
      rw [leftWithout_of_current current]
      rfl
    unfold State.closeIfUnused
    rw [lost, State.share_eq, without_shares, if_pos rfl]
    exact if_congr (by simp [State.closesWithout, current]) rfl rfl
  · next stale =>
    rw [if_neg fun closes => stale closes.1, State.without, leftWithout_of_stale stale]
    exact (State.modShare_self (s.setHandle p h none) v.share).symm

section Emptied

variable {s : State} {p : Port} {h : HandleNo} {v : Handle} (valid : s.handle p h = some v)

include valid

theorem emptyHandle_shares (j : ShareIdx) :
    (s.emptyHandle p h).shares[j] = if j = v.share then
        (if s.closesWithout v then (s.leftWithout v).closed else s.leftWithout v)
      else s.shares[j] := by
  rw [emptyHandle_eq valid]
  split
  · rw [enterClosing_shares, without_shares, without_shares, if_pos rfl]
    split <;> rfl
  · rw [without_shares]

theorem emptyHandle_pool :
    (s.emptyHandle p h).pool = if s.retiresWithout v then s.pool.giveBack (s.share v.share).bySlot else s.pool := by
  rw [emptyHandle_eq valid]
  by_cases closes : s.closesWithout v
  · rw [if_pos closes, enterClosing_pool, without_shares, if_pos rfl]
    exact if_congr (and_iff_right closes).symm rfl rfl
  · rw [if_neg closes, if_neg fun both => closes both.1]
    rfl

theorem emptyHandle_ports (q : Port) :
    (s.emptyHandle p h).ports[q] = if s.retiresWithout v then { (s.without p h v).ports[q] with
        handles := Vector.ofFn fun k : Fin 32 =>
          Handle.afterStep v.share (nextGeneration (s.share v.share).generation) (s.without p h v).ports[q].handles[k]
        stage := { (s.without p h v).ports[q].stage with
          stage := (s.without p h v).ports[q].stage.stage.afterStep v.share
            (nextGeneration (s.share v.share).generation) } }
      else (s.without p h v).ports[q] := by
  rw [emptyHandle_eq valid]
  by_cases closes : s.closesWithout v
  · rw [if_pos closes, enterClosing_ports, without_shares, if_pos rfl]
    exact if_congr (and_iff_right closes).symm rfl rfl
  · rw [if_neg closes, if_neg fun both => closes both.1]

/-- Nothing of a port but its handles and its data stage. -/
theorem emptyHandle_port (q : Port) :
    (s.emptyHandle p h).ports[q] = { s.ports[q] with
      handles := (s.emptyHandle p h).ports[q].handles, stage := (s.emptyHandle p h).ports[q].stage } := by
  rw [emptyHandle_ports valid, without_ports]
  split <;> rfl

theorem emptyHandle_handle (q : Port) (k : HandleNo) :
    (s.emptyHandle p h).handle q k = if q = p ∧ k = h then none
      else if s.retiresWithout v then
        Handle.afterStep v.share (nextGeneration (s.share v.share).generation) (s.handle q k)
      else s.handle q k := by
  have emptied : (s.without p h v).ports[q].handles[k] = if q = p ∧ k = h then none else s.handle q k :=
    setHandle_get s p q h k none
  rw [State.handle_eq, emptyHandle_ports valid]
  by_cases retires : s.retiresWithout v
  · simp only [if_pos retires, Fin.getElem_fin, Vector.getElem_ofFn]
    refine (congrArg (Handle.afterStep _ _) emptied).trans ?_
    split <;> rfl
  · simp only [if_neg retires]
    exact emptied

theorem emptyHandle_stage (q : Port) :
    (s.emptyHandle p h).ports[q].stage = if s.retiresWithout v then { s.ports[q].stage with
        stage := s.ports[q].stage.stage.afterStep v.share (nextGeneration (s.share v.share).generation) }
      else s.ports[q].stage := by
  rw [emptyHandle_ports valid, without_ports]
  split <;> rfl

end Emptied

/-! ## DROP -/

section Dropped

variable (s : State) (p : Port) (h : HandleNo) (v : Handle)

/-- The Claim Unit's part changes no more of what a DROP leaves of the entry than its claim. -/
theorem claimDrop_leftWithout : (s.claimDrop p h v.share).leftWithout v = { s.leftWithout v with
    claim := (s.share v.share).claim.bind fun c => c.afterDrop p h s.lease } := by
  unfold State.leftWithout State.current
  rw [State.share_eq, claimDrop_shares, if_pos rfl]
  rfl

theorem claimDrop_closesWithout : (s.claimDrop p h v.share).closesWithout v ↔ s.closesWithout v := by
  unfold State.closesWithout State.current
  rw [claimDrop_leftWithout, State.share_eq, claimDrop_shares, if_pos rfl]
  rfl

theorem claimDrop_retiresWithout : (s.claimDrop p h v.share).retiresWithout v ↔ s.retiresWithout v := by
  unfold State.retiresWithout
  rw [claimDrop_closesWithout, State.share_eq, (sameTables_claimDrop s p h v.share).inUse]
  rfl

theorem claimDrop_generation : ((s.claimDrop p h v.share).share v.share).generation = (s.share v.share).generation :=
  (sameTables_claimDrop s p h v.share).generation v.share

theorem claimDrop_handle (q : Port) (k : HandleNo) : (s.claimDrop p h v.share).handle q k = s.handle q k :=
  congrArg (·[k]) ((sameTables_claimDrop s p h v.share).handles q)

/-- A DROP of handle `v`, in entry `h` of port `p`: the Claim Unit's part, then the emptying. -/
def State.dropHandle : State := (s.claimDrop p h v.share).emptyHandle p h

theorem keeps_dropHandle : Keeps s (s.dropHandle p h v) := (keeps_claimDrop s p h v.share).trans (keeps_emptyHandle _ p h)

variable {s p h v} (valid : s.handle p h = some v)

include valid

theorem valid_claimDrop : (s.claimDrop p h v.share).handle p h = some v := (claimDrop_handle s p h v p h).trans valid

theorem dropHandle_share_other {j : ShareIdx} (other : j ≠ v.share) : (s.dropHandle p h v).shares[j] = s.shares[j] := by
  unfold State.dropHandle
  rw [emptyHandle_shares (valid_claimDrop valid), if_neg other, claimDrop_shares, if_neg other]

/-- The entry closes when it is left ORPHANED with no handle counted (R9). -/
theorem dropHandle_share :
    (s.dropHandle p h v).shares[v.share] = if s.closesWithout v then
        Share.closed { s.leftWithout v with claim := (s.share v.share).claim.bind fun c => c.afterDrop p h s.lease }
      else { s.leftWithout v with claim := (s.share v.share).claim.bind fun c => c.afterDrop p h s.lease } := by
  unfold State.dropHandle
  rw [emptyHandle_shares (valid_claimDrop valid), if_pos rfl]
  exact if_congr (claimDrop_closesWithout ..) (congrArg Share.closed (claimDrop_leftWithout ..)) (claimDrop_leftWithout ..)

theorem dropHandle_pool :
    (s.dropHandle p h v).pool = if s.retiresWithout v then s.pool.giveBack (s.share v.share).bySlot else s.pool := by
  have same := sameTables_claimDrop s p h v.share
  have frames : ((s.claimDrop p h v.share).share v.share).bySlot = (s.share v.share).bySlot := by
    unfold Share.bySlot
    rw [State.share_eq, same.frameMap, State.share_eq]
  unfold State.dropHandle
  rw [emptyHandle_pool (valid_claimDrop valid), frames, same.pool]
  exact if_congr (claimDrop_retiresWithout ..) rfl rfl

theorem dropHandle_handle (q : Port) (k : HandleNo) :
    (s.dropHandle p h v).handle q k = if q = p ∧ k = h then none
      else if s.retiresWithout v then
        Handle.afterStep v.share (nextGeneration (s.share v.share).generation) (s.handle q k)
      else s.handle q k := by
  unfold State.dropHandle
  rw [emptyHandle_handle (valid_claimDrop valid), claimDrop_handle]
  exact if_congr Iff.rfl rfl (if_congr (claimDrop_retiresWithout ..) (by rw [claimDrop_generation]) rfl)

theorem dropHandle_stage (q : Port) :
    (s.dropHandle p h v).ports[q].stage = if s.retiresWithout v then { s.ports[q].stage with
        stage := s.ports[q].stage.stage.afterStep v.share (nextGeneration (s.share v.share).generation) }
      else s.ports[q].stage := by
  have stage : (s.claimDrop p h v.share).ports[q].stage = s.ports[q].stage := by
    rw [(Pushed.claimDrop s p h v.share).ports q]
  unfold State.dropHandle
  rw [emptyHandle_stage (valid_claimDrop valid), stage]
  exact if_congr (claimDrop_retiresWithout ..) (by rw [claimDrop_generation]) rfl

/-- Of a port's record a DROP changes the notices of the handover, the handles and the data stage. -/
theorem dropHandle_port (q : Port) : (s.dropHandle p h v).ports[q] = { s.ports[q] with
    notices := (s.claimDrop p h v.share).ports[q].notices
    handles := (s.dropHandle p h v).ports[q].handles
    stage := (s.dropHandle p h v).ports[q].stage } := by
  unfold State.dropHandle
  rw [emptyHandle_port (valid_claimDrop valid), (Pushed.claimDrop s p h v.share).ports q]

theorem dropHandle_told (q : Port) :
    Told s (s.dropHandle p h v) q ((s.share v.share).dropNotices p h v.share q) :=
  ((Pushed.claimDrop s p h v.share).told q).of_notices rfl rfl rfl (by rw [dropHandle_port valid])

/-- The handle entries after a DROP, answered: the dropped one is EMPTY, and the others stay but for R2's search. -/
theorem dropHandle_answer_handle (f : Frame) (a : Reply) (q : Port) (k : HandleNo) :
    (((s.dequeue p f).dropHandle p h v).answer p f a).handle q k = if q = p ∧ k = h then none
      else if s.retiresWithout v then
        Handle.afterStep v.share (nextGeneration (s.share v.share).generation) (s.handle q k)
      else s.handle q k := by
  rw [State.handle_eq, answer_port, ← dequeue_handle s p f q k]
  exact dropHandle_handle ((dequeue_handle ..).trans valid) q k

theorem dropHandle_answer_stage (f : Frame) (a : Reply) (q : Port) :
    (((s.dequeue p f).dropHandle p h v).answer p f a).ports[q].stage = if s.retiresWithout v then { s.ports[q].stage with
        stage := s.ports[q].stage.stage.afterStep v.share (nextGeneration (s.share v.share).generation) }
      else s.ports[q].stage := by
  have before : (s.dequeue p f).ports[q].stage = s.ports[q].stage := by rw [dequeue_port]
  rw [answer_port, ← before]
  exact dropHandle_stage ((dequeue_handle ..).trans valid) q

theorem dropHandle_answer_told (f : Frame) (a : Reply) (q : Port) :
    Told s (((s.dequeue p f).dropHandle p h v).answer p f a) q ((s.share v.share).dropNotices p h v.share q) := by
  refine (dropHandle_told ((dequeue_handle s p f p h).trans valid) q).of_notices ?_ ?_ rfl ?_
  · rw [dequeue_port]
  · rw [dequeue_port]
  · rw [answer_port]

end Dropped

/-- A VALID handle of an ATTACHED port is dropped whatever the state of its share (R39). -/
theorem serveDrop_of_valid {s : State} {p : Port} {b : Byte} {h : HandleNo} {v : Handle} (attached : s.isAttached p = true)
    (number : h.val = b.toNat) (valid : s.handle p h = some v) :
    serveDrop p [b] s = (s.dropHandle p h v, Reply.ok .empty) := by
  have range : b.toNat < 32 := number ▸ h.isLt
  have entry : (⟨b.toNat, range⟩ : HandleNo) = h := Fin.ext number.symm
  unfold serveDrop
  simp only [attached, handleField, dif_pos range, entry, valid, Bool.true_eq_false, if_false]
  rfl

/-- Settles O24: the entry, the pool, the handles, the stages and the notices after a DROP, part by part. -/
theorem dropEmptiesTheHandle : Obligations.DropEmptiesTheHandle := by
  intro s p f b h v takes attached body number valid i sh holds claim' count' state' left closes
  have valid_next : (s.dequeue p f).handle p h = some v := (dequeue_handle ..).trans valid
  have served := serveDrop_of_valid ((dequeue_isAttached s p f p).trans attached) number valid_next
  rw [← body] at served
  have taken := takeAndAnswer_takes (serve := serveDrop p) takes served
  obtain ⟨-, kind, completed⟩ := takes
  have post : f.kind ≠ kindPost := by rw [kind]; decide
  have keeps := ((keeps_dequeue s p f).trans (keeps_dropHandle _ p h v)).trans
    (keeps_placeResponse _ p f.kind (Reply.ok .empty))
  have share : (((s.dequeue p f).dropHandle p h v).answer p f (Reply.ok .empty)).share i
      = if s.closesWithout v then left.closed else left := by
    rw [State.share_eq, answer_shares]
    exact dropHandle_share valid_next
  have pool : (((s.dequeue p f).dropHandle p h v).answer p f (Reply.ok .empty)).pool
      = if s.retiresWithout v then s.pool.giveBack sh.bySlot else s.pool :=
    (answer_pool ..).trans (dropHandle_pool valid_next)
  have handle := dropHandle_answer_handle valid f (Reply.ok .empty)
  have stage := dropHandle_answer_stage valid f (Reply.ok .empty)
  have told := dropHandle_answer_told valid f (Reply.ok .empty)
  refine ⟨_, taken, (handle p h).trans (if_pos ⟨rfl, rfl⟩), fun yes => share.trans (if_pos yes),
    fun no => share.trans (if_neg no), fun yes unused => pool.trans (if_pos ⟨yes, unused⟩),
    fun no => pool.trans (if_neg no), fun q k other => ⟨fun (yes : s.retiresWithout v) => ?_, fun no => ?_⟩,
    fun q => ⟨fun (yes : s.retiresWithout v) => ?_, fun no => ?_⟩,
    ?_, fun q hq => ?_, told, fun q => ?_, fun j hj => ?_, onlyPortsSharesPool_settle keeps⟩
  · rw [handle, if_neg other, if_pos yes]
    exact stepped_afterStep _ _ _
  · rw [handle, if_neg other]
    exact if_neg no
  · rw [State.port_eq, State.port_eq, stage, if_pos yes]
    exact stageStepped_afterStep _ _ _
  · exact (stage q).trans (if_neg no)
  · exact answer_link _ completed post (by rw [dropHandle_port valid_next])
  · rw [State.port_eq, answer_link_other _ _ _ _ hq, dropHandle_port valid_next]
    exact dequeue_link_other s p f hq
  · rw [State.port_eq, State.port_eq, answer_port, dropHandle_port valid_next, dequeue_port]
    exact ⟨rfl, rfl⟩
  · rw [State.share_eq, answer_shares]
    exact dropHandle_share_other valid_next hj

end Sys2Proof.Machine
end

