-- ==== Sys2Proof/Proofs/FramePool.lean ====
section
/-! PROOFS. The Frame Pool (R46 to R57): what its operations do to the number of places a frame is in, that every operation on
the tables keeps each frame in one place, and the scrub burst. -/

namespace Sys2Proof.Machine

/-! ## The places of a frame in the pool -/

/-- How many times the pool holds frame `f`: on its two lists and as the scrub frame (R46). -/
def Pool.places (q : Pool) (f : FrameNo) : Nat :=
  q.clean.count f + q.dirty.count f + (q.scrub.any fun sf => sf.frame == f).toNat

/-- A nonempty dirty list has a scrub frame ahead of it (R49), with progress 0..15. -/
def Pool.ready (q : Pool) : Prop := (q.scrub = none → q.dirty = []) ∧ ∀ sf, q.scrub = some sf → sf.progress ≤ 15

/-- With a scrub frame present, nothing moves (R49). -/
theorem Pool.nextScrub_of_some {q : Pool} (h : q.scrub.isSome = true) : q.nextScrub = q := by
  unfold Pool.nextScrub
  split
  · next none _ => rw [none] at h; cases h
  · rfl

theorem Pool.nextScrub_of_none {q : Pool} (h : q.scrub = none) {f : FrameNo} {rest : List FrameNo}
    (dirty : q.dirty = f :: rest) : q.nextScrub = { q with dirty := rest, scrub := some { frame := f, progress := 0 } } := by
  unfold Pool.nextScrub
  rw [h, dirty]

theorem Pool.nextScrub_of_nil {q : Pool} (dirty : q.dirty = []) : q.nextScrub = q := by
  unfold Pool.nextScrub
  split
  · next _ dirty' => rw [dirty] at dirty'; cases dirty'
  · rfl

theorem Pool.clean_nextScrub (q : Pool) : q.nextScrub.clean = q.clean := by
  unfold Pool.nextScrub
  split <;> rfl

theorem toNat_beq_eq_count (g f : FrameNo) : (g == f).toNat = [g].count f := by
  rw [List.count_singleton]
  cases g == f <;> rfl

theorem Pool.places_nextScrub (q : Pool) (f : FrameNo) : q.nextScrub.places f = q.places f := by
  unfold Pool.nextScrub
  split
  · next g rest scrub dirty =>
    simp only [Pool.places, scrub, dirty, Option.any_some, Option.any_none, toNat_beq_eq_count, Bool.toNat_false,
      List.count_cons, List.count_nil]
    omega
  · rfl

/-- After the head of the dirty list has moved on, the pool is ready (R49). -/
theorem Pool.ready_nextScrub {q : Pool} (progress : ∀ sf, q.scrub = some sf → sf.progress ≤ 15) : q.nextScrub.ready := by
  unfold Pool.nextScrub
  split
  · exact ⟨nofun, fun sf e => by cases e; exact Nat.zero_le 15⟩
  · next stuck =>
    refine ⟨fun none => ?_, progress⟩
    cases dirty : q.dirty with
    | nil => rfl
    | cons f rest => exact absurd dirty (stuck f rest none)

theorem Pool.places_giveBack (q : Pool) (fs : List FrameNo) (f : FrameNo) :
    (q.giveBack fs).places f = q.places f + fs.count f := by
  rw [Pool.giveBack, Pool.places_nextScrub]
  simp only [Pool.places, List.count_append]
  omega

theorem Pool.ready.giveBack {q : Pool} (h : q.ready) (fs : List FrameNo) : (q.giveBack fs).ready :=
  Pool.ready_nextScrub h.2

/-! ## What the pool decides and takes back (R53, R57) -/

theorem Pool.supply_eq (q : Pool) : q.supply = q.clean.length + q.dirty.length + if q.scrub.isSome then 1 else 0 := by
  unfold Pool.supply
  cases q.scrub <;> rfl

theorem Pool.verdict_busy (q : Pool) {n : Nat} (short : q.clean.length < n)
    (enough : n ≤ q.clean.length + q.dirty.length + if q.scrub.isSome then 1 else 0) : q.verdict n = some .poolBusy := by
  rw [← Pool.supply_eq] at enough
  rw [Pool.verdict, if_neg (Nat.not_le.mpr short), if_pos enough]

theorem Pool.verdict_empty (q : Pool) {n : Nat}
    (short : q.clean.length + q.dirty.length + (if q.scrub.isSome then 1 else 0) < n) : q.verdict n = some .poolEmpty := by
  have clean : q.clean.length < n := by omega
  rw [← Pool.supply_eq] at short
  rw [Pool.verdict, if_neg (Nat.not_le.mpr clean), if_neg (Nat.not_le.mpr short)]

theorem Pool.giveBack_of_some (q : Pool) {fs : List FrameNo} (scrub : q.scrub.isSome = true) :
    q.giveBack fs = { q with dirty := q.dirty ++ fs } :=
  Pool.nextScrub_of_some (q := { q with dirty := q.dirty ++ fs }) scrub

theorem Pool.giveBack_of_none (q : Pool) {fs rest : List FrameNo} {f : FrameNo} (scrub : q.scrub = none)
    (dirty : q.dirty ++ fs = f :: rest) :
    q.giveBack fs = { q with dirty := rest, scrub := some { frame := f, progress := 0 } } :=
  Pool.nextScrub_of_none (q := { q with dirty := q.dirty ++ fs }) scrub dirty

theorem Pool.giveBack_of_nil (q : Pool) {fs : List FrameNo} (dirty : q.dirty ++ fs = []) : q.giveBack fs = q := by
  obtain ⟨old, rfl⟩ := List.append_eq_nil_iff.mp dirty
  rw [Pool.giveBack, List.append_nil]
  exact Pool.nextScrub_of_nil old

/-- A need that is served leaves the pool with its frames (R53). -/
theorem Pool.places_take (q : Pool) (n : Nat) (f : FrameNo) :
    (q.take n).places f + (q.clean.take n).count f = q.places f := by
  have split : q.clean.count f = (q.clean.take n).count f + (q.clean.drop n).count f := by
    rw [← List.count_append, List.take_append_drop]
  simp only [Pool.take, Pool.places, split]
  omega

theorem Pool.places_scrubbed {q : Pool} {sf : ScrubFrame} (h : q.scrub = some sf) (f : FrameNo) :
    (q.scrubbed sf).places f = q.places f := by
  unfold Pool.scrubbed
  split
  · rw [Pool.places_nextScrub]
    simp only [Pool.places, h, Option.any_some, Option.any_none, toNat_beq_eq_count, Bool.toNat_false, List.count_append]
    omega
  · simp only [Pool.places, h, Option.any_some]

theorem Pool.ready.scrubbed {q : Pool} (h : q.ready) {sf : ScrubFrame} (present : q.scrub = some sf) :
    (q.scrubbed sf).ready := by
  have progress := h.2 sf present
  unfold Pool.scrubbed
  split
  · exact Pool.ready_nextScrub nofun
  · exact ⟨nofun, fun sf' e => by cases e; show sf.progress + 1 ≤ 15; omega⟩

/-! ## The places of a frame in the frame maps -/

/-- How many slots of the map hold frame `f`. -/
def slotsWith (m : Vector (Option FrameNo) 32) (f : FrameNo) : Nat := (List.finRange 32).countP fun k => m[k] == some f

theorem count_bySlot (sh : Share) (f : FrameNo) : sh.bySlot.count f = slotsWith sh.frameMap f := by
  unfold Share.bySlot slotsWith List.count
  rw [List.countP_filterMap]
  exact List.countP_congr fun k _ => by cases sh.frameMap[k] <;> simp

theorem slotsWith_unbacked {m : Vector (Option FrameNo) 32} (h : ∀ k : SlotNo, m[k] = none) (f : FrameNo) :
    slotsWith m f = 0 :=
  List.countP_eq_zero.mpr fun k _ => by rw [h k]; simp

/-- A frame bound to an UNBACKED slot is in one slot more. -/
theorem slotsWith_set {m : Vector (Option FrameNo) 32} {k : SlotNo} (unbacked : m[k] = none) (g f : FrameNo) :
    slotsWith (m.set k (some g)) f = slotsWith m f + [g].count f := by
  have change := countP_change (f := fun j => (m.set k (some g))[j] == some f) (g := fun j => m[j] == some f) (a := k)
    (List.nodup_finRange 32) (List.mem_finRange k) fun j hj => by rw [slots_set_get, if_neg hj]
  have bound : (m.set k (some g))[k] = some g := by rw [slots_set_get, if_pos rfl]
  have new : (some g == some f).toNat = [g].count f := toNat_beq_eq_count g f
  rw [bound, unbacked, new] at change
  exact change

/-- Frames bound to as many UNBACKED slots are each in one slot more (R55, R56). -/
theorem slotsWith_bindSlots {ks : List SlotNo} (nodup : ks.Nodup) {fs : List FrameNo} (each : ks.length = fs.length)
    {m : Vector (Option FrameNo) 32} (unbacked : ∀ k ∈ ks, m[k] = none) (f : FrameNo) :
    slotsWith (bindSlots m ks fs) f = slotsWith m f + fs.count f := by
  induction ks generalizing m fs with
  | nil =>
    cases fs with
    | nil => rfl
    | cons g fs => cases each
  | cons k ks ih =>
    cases fs with
    | nil => cases each
    | cons g fs =>
      obtain ⟨fresh, nodup⟩ := List.nodup_cons.mp nodup
      have rest : ∀ j ∈ ks, (m.set k (some g))[j] = none := fun j hj => by
        rw [slots_set_get, if_neg fun e : j = k => fresh (e ▸ hj)]
        exact unbacked j (List.mem_cons_of_mem k hj)
      rw [bindSlots, ih nodup (Nat.succ.inj each) rest, slotsWith_set (unbacked k List.mem_cons_self), Nat.add_assoc,
        ← List.count_append]
      rfl

/-! ## The slots of a need (R70) -/

theorem Admitted.need_nodup {s : State} {p : Port} {k : DataKind} {a : Admit} (adm : Admitted s p k a) : a.need.Nodup := by
  rw [adm.need]
  split
  · exact List.nodup_nil
  · exact (List.nodup_finRange 32).filter _

theorem Admitted.need_unbacked {s : State} {p : Port} {k : DataKind} {a : Admit} (adm : Admitted s p k a) :
    ∀ j ∈ a.need, s.shares[a.handle.share].frameMap[j] = none := by
  intro j hj
  rw [adm.need] at hj
  split at hj
  · cases hj
  · have unbacked := (Bool.and_eq_true_iff.mp (List.mem_filter.mp hj).2).2
    exact Option.isNone_iff_eq_none.mp unbacked

/-! ## Every frame in one place (R46) -/

theorem placesOf_eq (s : State) (f : FrameNo) :
    s.placesOf f = s.pool.places f + (allShares.map fun i => slotsWith s.shares[i].frameMap f).sum := by
  simp only [← count_bySlot]
  rfl

namespace FramesAccounted

variable {s t : State}

theorem ready (h : FramesAccounted s) : s.pool.ready := h.2.2

/-- One frame map and the pool exchange frames. -/
theorem exchange (h : FramesAccounted s) (i : ShareIdx) (others : ∀ j, j ≠ i → t.shares[j] = s.shares[j])
    (balance : ∀ f, t.pool.places f + slotsWith t.shares[i].frameMap f
      = s.pool.places f + slotsWith s.shares[i].frameMap f)
    (free : t.shares[i].state = .free → ∀ k : SlotNo, t.shares[i].frameMap[k] = none) (ready : t.pool.ready) :
    FramesAccounted t := by
  refine ⟨fun f => ?_, fun j k hj => ?_, ready⟩
  · have once := h.1 f
    have sums := sum_change (f := fun j : ShareIdx => slotsWith t.shares[j].frameMap f)
      (g := fun j : ShareIdx => slotsWith s.shares[j].frameMap f) (a := i) (List.nodup_finRange 64)
      (List.mem_finRange i) fun j hj => by rw [others j hj]
    have := balance f
    rw [placesOf_eq] at once ⊢
    unfold allShares at once ⊢
    omega
  · by_cases e : j = i
    · subst e
      exact free hj k
    · rw [State.share_eq, others j e] at hj ⊢
      exact h.2.1 j k hj

/-- No frame moves, and no entry becomes FREE. -/
theorem still (h : FramesAccounted s) (pool : t.pool = s.pool)
    (entries : ∀ i : ShareIdx, t.shares[i].frameMap = s.shares[i].frameMap
      ∧ (t.shares[i].state = .free → s.shares[i].state = .free)) : FramesAccounted t := by
  refine ⟨fun f => ?_, fun i k free => ?_, by rw [pool]; exact h.ready⟩
  · have once := h.1 f
    rw [placesOf_eq] at once ⊢
    simp only [pool, (entries _).1, once]
  · rw [State.share_eq, (entries i).1]
    exact h.2.1 i k ((entries i).2 free)

theorem same (h : FramesAccounted s) (e : SameTables s t) : FramesAccounted t :=
  h.still e.pool fun i => ⟨e.frameMap i, fun free => e.state i ▸ free⟩

theorem modShare (h : FramesAccounted s) (i : ShareIdx) {f : Share → Share}
    (frameMap : (f s.shares[i]).frameMap = s.shares[i].frameMap)
    (free : (f s.shares[i]).state = .free → s.shares[i].state = .free) : FramesAccounted (s.modShare i f) :=
  h.still rfl fun j => by
    rw [State.modShare_get]
    split
    · next e => rw [e]; exact ⟨frameMap, free⟩
    · exact ⟨rfl, id⟩

/-- A retired entry gives its frames back and holds none (R11, R57). -/
theorem retire (h : FramesAccounted s) (i : ShareIdx) : FramesAccounted (s.retire i) := by
  have unbacked (k : SlotNo) : (s.retire i).shares[i].frameMap[k] = none := by
    rw [retire_shares, if_pos rfl]
    simp [Share.retired]
  refine h.exchange i (fun j hj => by rw [retire_shares, if_neg hj]) (fun f => ?_) (fun _ => unbacked)
    (h.ready.giveBack _)
  rw [slotsWith_unbacked unbacked, retire_pool, Pool.places_giveBack, count_bySlot]
  rfl

theorem retireIfDone (h : FramesAccounted s) (i : ShareIdx) : FramesAccounted (s.retireIfDone i) := by
  unfold State.retireIfDone
  split
  · exact h.retire i
  · exact h

theorem enterClosing (h : FramesAccounted s) (i : ShareIdx) : FramesAccounted (s.enterClosing i) :=
  (h.modShare i (f := fun sh => { sh with state := .closing, name := none, handleCount := 0 }) rfl nofun).retireIfDone i

theorem makeHandle (h : FramesAccounted s) (p : Port) (k : HandleNo) (v : Handle) : FramesAccounted (s.makeHandle p k v) :=
  modShare (s := s.setHandle p k (some v)) (h.still rfl fun _ => ⟨rfl, id⟩) v.share rfl id

/-- The frames of a new share come from the head of the clean list (R55). -/
theorem openShare (h : FramesAccounted s) {p : Port} {f : CreateFields} {i : ShareIdx} (ok : f.ok = true)
    (free : s.shares[i].state = .free) (served : s.pool.verdict f.need = none) : FramesAccounted (s.openShare p f i) := by
  have enough := verdict_none served
  have slots : f.need ≤ 32 := by
    simp only [CreateFields.ok, Bool.and_eq_true, decide_eq_true_eq] at ok
    unfold CreateFields.need
    split <;> omega
  have fresh (k : SlotNo) : (Vector.replicate 32 (none : Option FrameNo))[k] = none := by simp
  refine h.exchange i (fun j hj => by rw [openShare_shares, if_neg hj]) (fun g => ?_) (fun opened => ?_) h.ready
  · have each : (allSlots.take f.need).length = (s.pool.clean.take f.need).length := by
      simp only [List.length_take, allSlots, List.length_finRange]
      omega
    have nodup : (allSlots.take f.need).Nodup := (List.nodup_finRange 32).take
    have bound := slotsWith_bindSlots nodup each (fun k _ => fresh k) g
    have taken := s.pool.places_take f.need g
    rw [slotsWith_unbacked fresh] at bound
    rw [openShare_shares, if_pos rfl, slotsWith_unbacked (m := s.shares[i].frameMap) fun k => h.2.1 i k free]
    show (s.pool.take f.need).places g + slotsWith (bindSlots _ (allSlots.take f.need) _) g = _
    omega
  · rw [openShare_shares, if_pos rfl] at opened
    cases opened

theorem emptyHandle (h : FramesAccounted s) (p : Port) (k : HandleNo) : FramesAccounted (s.emptyHandle p k) := by
  have emptied : FramesAccounted (s.setHandle p k none) := h.still rfl fun _ => ⟨rfl, id⟩
  unfold State.emptyHandle
  split
  · exact h
  next v _ =>
  dsimp only
  split
  · have lost := emptied.modShare v.share (f := fun sh => sh.loseHandle v.rights.admin) rfl
      (SameUse.loseHandle _ _).free
    unfold State.closeIfUnused
    split
    · exact lost.enterClosing v.share
    · exact lost
  · exact emptied

theorem revoked (h : FramesAccounted s) (p : Port) (k : HandleNo) (i : ShareIdx) : FramesAccounted (s.revoked p k i) :=
  h.still rfl fun j => by
    rw [revoked_shares]
    split
    · next e => rw [e]; exact ⟨rfl, id⟩
    · exact ⟨rfl, id⟩

theorem endOperation (h : FramesAccounted s) (p : Port) (op : Operation) (answer : Option Reply) :
    FramesAccounted (s.endOperation p op answer) := by
  have used : FramesAccounted (s.releaseUse op.share) :=
    (h.modShare op.share (f := fun sh => { sh with inUse := sh.inUse - 1 }) rfl id).retireIfDone op.share
  rw [endOperation_eq]
  exact (used.same (sameTables_released s p op answer)).still rfl fun _ => ⟨rfl, id⟩

theorem advance (h : FramesAccounted s) (p : Port) (op : Operation) : FramesAccounted (s.advance p op) := by
  unfold State.advance
  split
  · exact h.still rfl fun _ => ⟨rfl, id⟩
  · exact h.endOperation p _ _
  · exact h.endOperation p _ _

/-- Demand backing binds frames of the clean list to UNBACKED slots of a live entry (R56). -/
theorem admitting (h : FramesAccounted s) {p : Port} {k : DataKind} {a : Admit} (adm : Admitted s p k a) :
    FramesAccounted (s.admitting a) := by
  refine h.exchange a.handle.share (fun j hj => by rw [admitting_shares, if_neg hj]) (fun f => ?_) (fun free => ?_) h.ready
  · have bound := slotsWith_bindSlots adm.need_nodup (fs := s.pool.clean.take a.need.length)
      (by rw [List.length_take]; have := adm.served; omega) adm.need_unbacked f
    have taken := s.pool.places_take a.need.length f
    rw [admitting_shares, if_pos rfl]
    show (s.pool.take a.need.length).places f + slotsWith (bindSlots _ _ _) f = _
    omega
  · rw [admitting_shares, if_pos rfl] at free
    have live := (Bool.and_eq_true_iff.mp adm.current).1
    rw [State.share_eq, Share.live, show s.shares[a.handle.share].state = .free from free] at live
    cases live

theorem reset : FramesAccounted State.reset := by
  have unbacked (i : ShareIdx) (k : SlotNo) : State.reset.shares[i].frameMap[k] = none := by
    rw [reset_shares]
    simp [Share.reset]
  refine ⟨fun f => ?_, fun i k _ => unbacked i k, nofun, fun sf e => by cases e; decide⟩
  have once : allFrames.count f = 1 := List.count_eq_one_of_mem (List.nodup_finRange 256) (List.mem_finRange f)
  have head : allFrames.take 1 = [0] := by rw [allFrames, List.finRange_succ]; rfl
  rw [← List.take_append_drop 1 allFrames, List.count_append, head] at once
  rw [placesOf_eq]
  simp only [slotsWith_unbacked (unbacked _), List.map_const', List.sum_replicate, smul_zero, Nat.add_zero]
  show 0 + (allFrames.drop 1).count f + ((0 : FrameNo) == f).toNat = 1
  rw [toNat_beq_eq_count]
  omega

end FramesAccounted

/-- Every operation on the tables keeps every frame in one place. -/
theorem framesAccounted_invariant : StepInvariant FramesAccounted True where
  same e h := h.same e
  reset := FramesAccounted.reset
  scrubbed present h :=
    ⟨fun f => by rw [placesOf_eq, Pool.places_scrubbed present]; exact (placesOf_eq _ f).symm.trans (h.1 f), h.2.1,
      h.ready.scrubbed present⟩
  makeShare ok free _ served h := by
    rw [makeShare_eq]
    exact (h.openShare ok (state_of_freeShare? free) served).makeHandle _ _ _
  attach _ _ _ h := h.makeHandle _ _ _
  grant _ _ _ _ h := h.makeHandle _ _ _
  enterClosing _ h := h.enterClosing _
  revoked _ _ h := h.revoked _ _ _
  emptyHandle p k h := h.emptyHandle p k
  clearTables _ h := h.still rfl fun _ => ⟨rfl, id⟩
  startOperation _ ok h := (h.admitting (checkData_ok ok)).advance _ _
  endOperation answer _ h := h.endOperation _ _ answer
  advance _ _ h := h.advance _ _
  unbacked _ _ _ := trivial

/-- Settles O54: each operation on the tables keeps every frame in one place, so every step does. -/
theorem stepKeepsFramesAccounted : Obligations.StepKeepsFramesAccounted := by
  intro s t h e
  have led := framesAccounted_invariant.step h
  rw [e] at led
  exact led

/-! ## The scrub burst (R50, R51) -/

/-- A block of a frame lies in the store. -/
theorem frameAddress_block_le (f : FrameNo) {offset : Nat} (h : offset + 64 ≤ 1024) :
    frameAddress f offset + 64 ≤ Config.storeBytes := by
  have := f.isLt
  unfold frameAddress Config.frameBytes Config.storeBytes
  omega

/-- The bytes of the scrub frame's next block read as zeros, and every other byte as before. -/
theorem read_scrubBlock {m : Memory} (h : m.wf = true) {sf : ScrubFrame} (progress : sf.progress ≤ 15) (x : Nat) :
    (scrubBlock m sf).read x
      = if sf.frame.val * 1024 + sf.progress * 64 ≤ x ∧ x < sf.frame.val * 1024 + sf.progress * 64 + 64 then 0
        else m.read x := by
  have block : sf.progress % 16 = sf.progress := Nat.mod_eq_of_lt (by omega)
  have inStore := frameAddress_block_le sf.frame (offset := sf.progress * 64) (by omega)
  unfold scrubBlock
  rw [block, Memory.read_writeBytes h _ (by rw [List.length_replicate]; exact inStore), List.length_replicate]
  unfold frameAddress Config.frameBytes Config.blockBytes
  split
  · next within =>
    rw [List.getD_eq_getElem?_getD, List.getElem?_replicate, if_pos (by omega)]
    rfl
  · rfl

theorem scrubbed_of_lt (q : Pool) {sf : ScrubFrame} (h : sf.progress < 15) :
    q.scrubbed sf = { q with scrub := some { frame := sf.frame, progress := sf.progress + 1 } } :=
  if_neg (by omega)

/-- At the sixteenth block the frame is clean, and the head of the dirty list takes its place (R51, R49). -/
theorem scrubbed_of_last (q : Pool) {sf : ScrubFrame} (h : sf.progress = 15) :
    q.scrubbed sf = Pool.nextScrub { q with clean := q.clean ++ [sf.frame], scrub := none } :=
  if_pos (by omega)

/-- The state of a scrub burst's completion before the event closes, with the store `m` that it leaves. -/
def State.scrubDone (s : State) (sf : ScrubFrame) (m : Memory) : State :=
  { s.freePath with mem := m, pool := s.pool.scrubbed sf }

theorem execScrubBurstCompletion_of_present {s : State} {sf : ScrubFrame} (running : s.running = true)
    (path : s.arbiter.path = .busy .scrub) (present : s.pool.scrub = some sf) :
    execScrubBurstCompletion s = .next (s.scrubDone sf (scrubBlock s.mem sf)).settle := by
  simp only [execScrubBurstCompletion, running, path, present, beq_self_eq_true, Bool.and_self, if_true, took_eq,
    State.scrubDone]

/-- A scrub burst that completes changes nothing but the store, the pool and the path (R50, R51, R119). -/
theorem settle_scrubDone (s : State) (sf : ScrubFrame) (m : Memory) :
    (s.scrubDone sf m).settle = { s with
      mem := m, pool := s.pool.scrubbed sf, arbiter := { s.arbiter with path := .free }
      ports := (s.scrubDone sf m).settle.ports, restCountdown := (s.scrubDone sf m).settle.restCountdown } :=
  settle_eq _

theorem settle_scrubDone_port (s : State) (sf : ScrubFrame) (m : Memory) (q : Port) :
    SamePort s (s.scrubDone sf m).settle q := by
  unfold SamePort
  rw [State.port_eq, State.settle_get]
  rfl

/-- Settles O25: the pool's functions serve and take back as R53 and R57 say, and a scrub burst zeroes its block. -/
theorem poolServesScrubsAndTakesBackInOrder : Obligations.PoolServesScrubsAndTakesBackInOrder := by
  refine ⟨fun q n => ⟨fun served => ⟨if_pos served, rfl⟩, q.verdict_busy, q.verdict_empty, fun fs =>
      ⟨q.giveBack_of_some, fun scrub _ _ => q.giveBack_of_none scrub, fun _ => q.giveBack_of_nil⟩⟩,
    fun s sf running path present progress canonical => ?_⟩
  refine ⟨_, execScrubBurstCompletion_of_present running path present, ?_⟩
  have read := read_scrubBlock canonical progress
  generalize scrubBlock s.mem sf = m at read ⊢
  have port := settle_scrubDone_port s sf m
  have only := settle_scrubDone s sf m
  generalize (s.scrubDone sf m).settle = t at port only ⊢
  have mem : t.mem = m := by rw [only]
  have pool : t.pool = s.pool.scrubbed sf := by rw [only]
  have arbiter : t.arbiter = { s.arbiter with path := .free } := congrArg State.arbiter only
  refine ⟨fun x => ?_, fun more => ?_, fun last => ?_, arbiter, fun q _ => port q, ?_⟩
  · rw [mem]
    exact read x
  · rw [pool, scrubbed_of_lt s.pool more]
  · rw [pool, scrubbed_of_last s.pool last]
    refine ⟨Pool.clean_nextScrub _, fun dirty => ?_, fun f rest dirty => ?_⟩
    · rw [Pool.nextScrub_of_nil (q := { s.pool with clean := _, scrub := none }) dirty]
      exact ⟨dirty, rfl⟩
    · rw [Pool.nextScrub_of_none (q := { s.pool with clean := _, scrub := none }) rfl dirty]
      exact ⟨rfl, rfl⟩
  · rw [mem, pool, arbiter]
    exact only

end Sys2Proof.Machine
end

