-- ==== Sys2Proof/Proofs/Bursts.lean ====
section
/-! PROOFS. What the operations on the tables leave of the store, of the clean frames and of the bursts in flight. `Follows` says
it of two states; unlike the tables alone, it sees the store and the frame of each burst. A burst keeps its frame because its
entry is in use, and an entry in use neither retires nor is FREE (R6, R11, R84). -/

namespace Sys2Proof.Machine

/-! ## Bursts in flight -/

/-- The stage but for the copy of the generation in its operation. -/
def Stage.span : Stage → Stage
  | .empty => .empty
  | .waiting op => .waiting op.span
  | .bursting op f bs => .bursting op.span f bs

/-- The operation of a burst in flight, but for its copy of the generation, and the frame the burst is on. -/
def Stage.burst? : Stage → Option (Operation × FrameNo)
  | .bursting op f _ => some (op.span, f)
  | .empty | .waiting _ => none

theorem Stage.span_afterStep (i : ShareIdx) (g : Nat) (st : Stage) : (st.afterStep i g).span = st.span := by
  cases st with
  | empty => rfl
  | waiting op => exact congrArg Stage.waiting (op.span_afterStep i g)
  | bursting op f bs => exact congrArg (Stage.bursting · f bs) (op.span_afterStep i g)

theorem Stage.burst?_of_span {st st' : Stage} (h : st'.span = st.span) : st'.burst? = st.burst? := by
  have through (st : Stage) : st.span.burst? = st.burst? := by cases st <;> rfl
  rw [← through, h, through]

theorem Stage.share_of_span {st st' : Stage} (h : st'.span = st.span) :
    st'.op?.map Operation.share = st.op?.map Operation.share := by
  have through (st : Stage) : st.span.op?.map Operation.share = st.op?.map Operation.share := by cases st <;> rfl
  rw [← through, h, through]

/-- The burst in flight of port `p`. -/
def State.burst (s : State) (p : Port) : Option (Operation × FrameNo) := s.ports[p].stage.stage.burst?

theorem burst_of_span {s t : State} {p : Port} (h : t.ports[p].stage.stage.span = s.ports[p].stage.stage.span) :
    t.burst p = s.burst p := Stage.burst?_of_span h

/-- The frame of the burst is the one bound to the slot that its operation has reached (R84). -/
def State.binds (s : State) (b : Operation × FrameNo) : Prop := s.shares[b.1.share].frameAt b.1.slot = some b.2

theorem burstsOnBoundFrames_iff (s : State) :
    BurstsOnBoundFrames s ↔ ∀ p b, s.burst p = some b → s.binds b := by
  refine ⟨fun h p b hb => ?_, fun h p op f bs hs => ?_⟩
  · cases stage : s.ports[p].stage.stage with
    | bursting op f bs =>
      rw [State.burst, stage] at hb
      cases hb
      exact h p op f bs stage
    | empty => rw [State.burst, stage] at hb; cases hb
    | waiting op => rw [State.burst, stage] at hb; cases hb
  · exact h p (op.span, f) (congrArg Stage.burst? hs)

/-! ## Entries in use -/

theorem operationsIn_of_share {held held' : Port → Option Operation}
    (h : ∀ p, (held' p).map Operation.share = (held p).map Operation.share) (i : ShareIdx) :
    operationsIn held' i = operationsIn held i := by
  have on (o : Option Operation) : (o.any fun op => op.share == i) = (o.map Operation.share).any (· == i) := by
    cases o <;> rfl
  unfold operationsIn
  exact List.countP_congr fun p _ => by rw [on, on, h]

theorem operationsIn_of_spans {s t : State}
    (h : ∀ p : Port, t.ports[p].stage.stage.span = s.ports[p].stage.stage.span) (i : ShareIdx) :
    operationsIn t.held i = operationsIn s.held i :=
  operationsIn_of_share (fun p => Stage.share_of_span (h p)) i

/-- Each in-use count is the number of operations in flight on its entry, and a FREE entry has none (R6, R11). -/
def State.usesCounted (s : State) : Prop :=
  ∀ i : ShareIdx, s.shares[i].inUse = operationsIn s.held i ∧ (s.shares[i].state = .free → s.shares[i].inUse = 0)

theorem DataPathSound.usesCounted {s : State} (h : DataPathSound s) : s.usesCounted := fun i =>
  have ⟨count, _, free⟩ := ((dataPathSound_iff s).mp h).used i
  ⟨count, free⟩

/-- A burst in flight keeps its entry in use. -/
theorem operationsIn_of_burst {s : State} {p : Port} {b : Operation × FrameNo} (h : s.burst p = some b) :
    0 < operationsIn s.held b.1.share := by
  cases stage : s.ports[p].stage.stage with
  | bursting op f bs =>
    rw [State.burst, stage] at h
    cases h
    exact operationsIn_pos (op := op) (congrArg Stage.op? stage : s.held p = some op)
  | empty => rw [State.burst, stage] at h; cases h
  | waiting op => rw [State.burst, stage] at h; cases h

/-! ## What the operations on the tables keep -/

/-- From `s` to `t` no byte is written and no frame becomes clean, the scrub frame stays or is a new one, and, where the in-use
counts are true, they stay true, no burst begins, and each that goes on stays on a frame bound to its operation. -/
structure Follows (s t : State) : Prop where
  mem : t.mem = s.mem
  clean : t.pool.clean ⊆ s.pool.clean
  scrub : ∀ sf, t.pool.scrub = some sf → sf.progress = 0 ∨ s.pool.scrub = some sf
  counted : s.usesCounted → t.usesCounted
  bursts : s.usesCounted → ∀ p b, t.burst p = some b → s.burst p = some b ∧ (s.binds b → t.binds b)

namespace Follows

variable {s t u : State}

theorem refl (s : State) : Follows s s := ⟨rfl, List.Subset.refl _, fun _ => .inr, id, fun _ _ _ h => ⟨h, id⟩⟩

theorem trans (a : Follows s t) (b : Follows t u) : Follows s u where
  mem := b.mem.trans a.mem
  clean := List.Subset.trans b.clean a.clean
  scrub sf h := (b.scrub sf h).elim .inl (a.scrub sf)
  counted h := b.counted (a.counted h)
  bursts h p b' hu :=
    have ⟨ht, bound⟩ := b.bursts (a.counted h) p b' hu
    have ⟨hs, bound'⟩ := a.bursts h p b' ht
    ⟨hs, bound ∘ bound'⟩

theorem foldl {α : Type} {f : State → α → State} (h : ∀ s a, Follows s (f s a)) (l : List α) (s : State) :
    Follows s (l.foldl f s) := by
  induction l generalizing s with
  | nil => exact refl s
  | cons a l ih => exact (h s a).trans (ih (f s a))

/-- No frame moves, no operation starts or ends, and no entry becomes FREE. -/
theorem still (mem : t.mem = s.mem) (pool : t.pool = s.pool)
    (stages : ∀ p : Port, t.ports[p].stage.stage.span = s.ports[p].stage.stage.span)
    (entries : ∀ i : ShareIdx, t.shares[i].frameMap = s.shares[i].frameMap ∧ t.shares[i].inUse = s.shares[i].inUse
      ∧ (t.shares[i].state = .free → s.shares[i].state = .free)) : Follows s t where
  mem := mem
  clean := by rw [pool]; exact List.Subset.refl _
  scrub sf h := .inr (pool ▸ h)
  counted h i := by
    obtain ⟨_, inUse, free⟩ := entries i
    rw [inUse, operationsIn_of_spans stages]
    exact ⟨(h i).1, fun e => (h i).2 (free e)⟩
  bursts _ p b hb := by
    rw [burst_of_span (stages p)] at hb
    refine ⟨hb, fun bound => ?_⟩
    rw [State.binds, Share.frameAt, (entries b.1.share).1]
    exact bound

/-- The tables and the store are as before, and so is each stage. -/
theorem of_tables (tables : SameTables s t) (keeps : Keeps s t)
    (stages : ∀ p : Port, t.ports[p].stage.stage = s.ports[p].stage.stage) : Follows s t :=
  .still keeps.mem tables.pool (fun p => congrArg Stage.span (stages p)) fun i =>
    ⟨tables.frameMap i, tables.inUse i, fun free => tables.state i ▸ free⟩

/-- Entry `i` changes, with the operations on it; where it loses a frame, no operation on it is left. -/
theorem change (i : ShareIdx) (mem : t.mem = s.mem) (clean : t.pool.clean ⊆ s.pool.clean)
    (scrub : ∀ sf, t.pool.scrub = some sf → sf.progress = 0 ∨ s.pool.scrub = some sf)
    (others : ∀ j, j ≠ i → t.shares[j] = s.shares[j])
    (apart : ∀ j, j ≠ i → operationsIn t.held j = operationsIn s.held j)
    (bursts : ∀ p b, t.burst p = some b → s.burst p = some b)
    (entry : s.usesCounted → t.shares[i].inUse = operationsIn t.held i ∧ (t.shares[i].state = .free → t.shares[i].inUse = 0)
      ∧ ((∀ k f, s.shares[i].frameAt k = some f → t.shares[i].frameAt k = some f) ∨ t.shares[i].inUse = 0)) :
    Follows s t where
  mem := mem
  clean := clean
  scrub := scrub
  counted h j := by
    by_cases e : j = i
    · rw [e]
      exact ⟨(entry h).1, (entry h).2.1⟩
    · rw [others j e, apart j e]
      exact h j
  bursts h p b hb := by
    refine ⟨bursts p b hb, fun bound => ?_⟩
    unfold State.binds at bound ⊢
    by_cases e : b.1.share = i
    · subst e
      obtain ⟨count, _, kept | unused⟩ := entry h
      · exact kept _ _ bound
      · have inUse := operationsIn_of_burst hb
        rw [← count, unused] at inUse
        cases inUse
    · rw [others _ e]
      exact bound

end Follows

/-! ## Records, notices and claims -/

section Still

variable (s : State)

theorem follows_modPort (p : Port) (f : PortState → PortState)
    (stage : (f s.ports[p]).stage.stage.span = s.ports[p].stage.stage.span) : Follows s (s.modPort p f) :=
  .still rfl rfl (fun q => by
    rw [State.modPort_get]
    split
    · next e => rw [e, stage]
    · rfl) fun _ => ⟨rfl, rfl, id⟩

theorem follows_modLink (p : Port) (f : Link → Link) : Follows s (s.modLink p f) := follows_modPort s p _ rfl

theorem follows_modAttach (p : Port) (f : Attachment → Attachment) : Follows s (s.modAttach p f) :=
  follows_modPort s p _ rfl

theorem follows_modPosts (p : Port) (f : PostBuffer → PostBuffer) : Follows s (s.modPosts p f) := follows_modPort s p _ rfl

theorem follows_modNotices (p : Port) (f : NoticeQueue → NoticeQueue) : Follows s (s.modNotices p f) :=
  follows_modPort s p _ rfl

theorem follows_placeResponse (p : Port) (k : Byte) (r : Reply) : Follows s (s.placeResponse p k r) :=
  follows_modLink s p _

theorem follows_setHandle (p : Port) (h : HandleNo) (v : Option Handle) : Follows s (s.setHandle p h v) :=
  follows_modPort s p _ rfl

theorem follows_modShare (i : ShareIdx) (f : Share → Share) (frameMap : (f s.shares[i]).frameMap = s.shares[i].frameMap)
    (inUse : (f s.shares[i]).inUse = s.shares[i].inUse)
    (free : (f s.shares[i]).state = .free → s.shares[i].state = .free) : Follows s (s.modShare i f) :=
  .still rfl rfl (fun _ => rfl) fun j => by
    rw [State.modShare_get]
    split
    · next e => rw [e]; exact ⟨frameMap, inUse, free⟩
    · exact ⟨rfl, rfl, id⟩

theorem follows_setClaim (i : ShareIdx) (c : Option Claim) : Follows s (s.setClaim i c) :=
  follows_modShare s i _ rfl rfl id

theorem follows_settle : Follows s s.settle :=
  .still (State.settle_mem s) (State.settle_pool s) (fun p => by rw [State.settle_get]) fun i => by
    rw [State.settle_shares]
    exact ⟨rfl, rfl, id⟩

theorem follows_push (q : Port) (n : Notice) : Follows s (s.push q n) :=
  .of_tables (sameTables_push s q n) (keeps_push s q n) fun p => by rw [(Pushed.push s q n).ports p]

theorem follows_pushTold (k : NoticeKind) (p : Port) (i : ShareIdx) (value : Nat) (l : List (Port × HandleNo)) :
    Follows s (s.pushTold k p i value l) :=
  .of_tables (sameTables_pushTold s k p i value l) (keeps_pushTold s k p i value l) fun q => by
    rw [(Pushed.pushTold s k p i value l).ports q]

theorem follows_endClaim (p : Port) (i : ShareIdx) (cause : Nat) : Follows s (s.endClaim p i cause) :=
  .of_tables (sameTables_endClaim s p i cause) (keeps_endClaim s p i cause) fun q => by
    rw [(Pushed.endClaim s p i cause).ports q]

theorem follows_handover (i : ShareIdx) (c : Claim) : Follows s (s.handover i c) :=
  .of_tables (sameTables_handover s i c) (keeps_handover s i c) fun q => by rw [(Pushed.handover s i c).ports q]

theorem follows_claimDrop (p : Port) (h : HandleNo) (i : ShareIdx) : Follows s (s.claimDrop p h i) :=
  .of_tables (sameTables_claimDrop s p h i) (keeps_claimDrop s p h i) fun q => by
    rw [(Pushed.claimDrop s p h i).ports q]

theorem follows_pushDecided (pr : Proposal) (o : ProposalOutcome) (l : List Port) : Follows s (s.pushDecided pr o l) := by
  induction l generalizing s with
  | nil => exact .refl s
  | cons q l ih =>
    unfold State.pushDecided
    split
    · exact (follows_push s _ _).trans (ih _)
    · exact ih s

theorem follows_pushOpened (pr : Proposal) (l : List Port) : Follows s (s.pushOpened pr l) := by
  induction l generalizing s with
  | nil => exact .refl s
  | cons q l ih =>
    unfold State.pushOpened
    split
    · exact (follows_push s _ _).trans (ih _)
    · exact ih s

theorem follows_pushPeers (p : Port) (n : Notice) (l : List Port) : Follows s (s.pushPeers p n l) := by
  induction l generalizing s with
  | nil => exact .refl s
  | cons q l ih =>
    unfold State.pushPeers
    split
    · exact ih s
    · exact (follows_push s _ _).trans (ih _)

theorem follows_leaveWaiters (p : Port) (i : ShareIdx) : Follows s (State.leaveWaiters p s i) := by
  unfold State.leaveWaiters
  split
  · exact .refl s
  · exact follows_setClaim s i _

theorem follows_yieldClaim (p : Port) (i : ShareIdx) : Follows s (State.yieldClaim p s i) := by
  unfold State.yieldClaim
  split
  · exact .refl s
  · split
    · exact follows_handover s i _
    · exact .refl s

theorem follows_claimCleanup (p : Port) : Follows s (s.claimCleanup p) :=
  (Follows.foldl (fun s i => follows_leaveWaiters s p i) _ _).trans
    (Follows.foldl (fun s i => follows_yieldClaim s p i) _ _)

theorem follows_claimShare (p : Port) (h : HandleNo) (i : ShareIdx) (wait : Bool) :
    Follows s (s.claimShare p h i wait).1 := by
  unfold State.claimShare
  split
  · exact follows_setClaim s i _
  · split
    · exact .refl s
    · split
      · exact .refl s
      · split
        · exact follows_setClaim s i _
        · exact .refl s

theorem follows_releaseClaim (p : Port) (i : ShareIdx) : Follows s (s.releaseClaim p i).1 := by
  unfold State.releaseClaim
  split
  · exact .refl s
  · split
    · exact follows_handover s i _
    · split
      · exact follows_setClaim s i _
      · exact .refl s

theorem follows_renewClaim (p : Port) (i : ShareIdx) : Follows s (s.renewClaim p i).1 := by
  unfold State.renewClaim
  split
  · exact .refl s
  · split
    · exact follows_setClaim s i _
    · exact .refl s

theorem follows_becomeAttached (p : Port) : Follows s (s.becomeAttached p) := by
  have placed : Follows s (((s.modAttach p fun a => { a with state := .attached }).modPosts p fun b =>
      { b with ordinal := 0 }).placeResponse p kindHello (Reply.ok (.hello s.pool.clean.length))) :=
    ((follows_modAttach s p _).trans (follows_modPosts _ p _)).trans (follows_placeResponse _ p _ _)
  unfold State.becomeAttached
  dsimp only
  refine Follows.trans ?_ (follows_modAttach _ p _)
  split
  · exact placed.trans (follows_pushPeers _ p _ _)
  · exact placed

theorem follows_finishCleanup (p : Port) : Follows s (s.finishCleanup p) := by
  unfold State.finishCleanup
  split
  · exact follows_becomeAttached s p
  · exact .refl s

theorem follows_drainForHead (p : Port) : Follows s (s.drainForHead p) := by
  unfold State.drainForHead
  split
  · exact .refl s
  · split
    · exact .refl s
    · exact follows_modPosts s p _

end Still

/-! ## The entry into CLOSING and the end of an operation (R10, R11, R86) -/

theorem Pool.scrub_nextScrub {q : Pool} {sf : ScrubFrame} (h : q.nextScrub.scrub = some sf) :
    sf.progress = 0 ∨ q.scrub = some sf := by
  unfold Pool.nextScrub at h
  split at h
  · cases h
    exact .inl rfl
  · exact .inr h

theorem retireIfDone_clean (s : State) (i : ShareIdx) : (s.retireIfDone i).pool.clean = s.pool.clean := by
  unfold State.retireIfDone
  split
  · rw [retire_pool]
    exact Pool.clean_nextScrub _
  · rfl

theorem retireIfDone_scrub {s : State} {i : ShareIdx} {sf : ScrubFrame} (h : (s.retireIfDone i).pool.scrub = some sf) :
    sf.progress = 0 ∨ s.pool.scrub = some sf := by
  unfold State.retireIfDone at h
  split at h
  · exact Pool.scrub_nextScrub (q := { s.pool with dirty := s.pool.dirty ++ s.shares[i].bySlot }) h
  · exact .inr h

theorem retireIfDone_span (s : State) (i : ShareIdx) (p : Port) :
    (s.retireIfDone i).ports[p].stage.stage.span = s.ports[p].stage.stage.span := by
  unfold State.retireIfDone
  split
  · rw [retire_ports]
    exact Stage.span_afterStep i _ _
  · rfl

/-- An entry stays as it is, or retires with none in flight. -/
theorem retireIfDone_entry (s : State) (i : ShareIdx) :
    (s.retireIfDone i).shares[i] = s.shares[i]
      ∨ (s.retireIfDone i).shares[i] = s.shares[i].retired ∧ s.shares[i].inUse = 0 := by
  unfold State.retireIfDone
  split
  · next done =>
    refine .inr ⟨by rw [retire_shares, if_pos rfl], ?_⟩
    exact beq_iff_eq.mp (Bool.and_eq_true_iff.mp done).2
  · exact .inl rfl

/-- Entry `i` changes, with the operations on it, and retires when it is CLOSING with none left. -/
theorem Follows.retireIfDone {s t : State} (i : ShareIdx) (f : Share → Share) (mem : t.mem = s.mem)
    (pool : t.pool = ((s.modShare i f).retireIfDone i).pool)
    (shares : t.shares = ((s.modShare i f).retireIfDone i).shares)
    (apart : ∀ j, j ≠ i → operationsIn t.held j = operationsIn s.held j)
    (bursts : ∀ p b, t.burst p = some b → s.burst p = some b)
    (count : s.usesCounted → (f s.shares[i]).inUse = operationsIn t.held i)
    (free : (f s.shares[i]).state = .free → s.usesCounted → (f s.shares[i]).inUse = 0)
    (frameMap : (f s.shares[i]).frameMap = s.shares[i].frameMap) : Follows s t := by
  have entry := retireIfDone_entry (s.modShare i f) i
  rw [← shares, State.modShare_same] at entry
  refine .change i mem ?_ (fun sf h => ?_) (fun j hj => ?_) apart bursts fun h => ?_
  · rw [pool, retireIfDone_clean]
    exact List.Subset.refl _
  · rw [pool] at h
    exact retireIfDone_scrub (s := s.modShare i f) h
  · rw [shares, retireIfDone_shares_other _ hj, State.modShare_other _ _ hj]
  · rw [← count h]
    obtain same | ⟨retired, unused⟩ := entry
    · rw [same]
      refine ⟨rfl, fun e => free e h, .inl fun k g bound => ?_⟩
      rw [Share.frameAt, frameMap]
      exact bound
    · rw [retired]
      exact ⟨rfl, fun _ => unused, .inr unused⟩

theorem follows_enterClosing (s : State) (i : ShareIdx) : Follows s (s.enterClosing i) := by
  have spans (p : Port) : (s.enterClosing i).ports[p].stage.stage.span = s.ports[p].stage.stage.span :=
    retireIfDone_span _ i p
  refine .retireIfDone i (fun sh => { sh with state := .closing, name := none, handleCount := 0 })
    (keeps_enterClosing s i).mem rfl rfl (fun j _ => operationsIn_of_spans spans j)
    (fun p b hb => by rw [← burst_of_span (spans p)]; exact hb) (fun h => ?_) nofun rfl
  rw [operationsIn_of_spans spans]
  exact (h i).1

theorem follows_retireIfDone (s : State) (i : ShareIdx) : Follows s (s.retireIfDone i) := by
  have spans := retireIfDone_span s i
  have unchanged : s.modShare i id = s := State.modShare_self s i
  refine .retireIfDone i id (keeps_retireIfDone s i).mem (by rw [unchanged]) (by rw [unchanged])
    (fun j _ => operationsIn_of_spans spans j) (fun p b hb => by rw [← burst_of_span (spans p)]; exact hb) (fun h => ?_)
    (fun free h => (h i).2 free) rfl
  rw [operationsIn_of_spans spans]
  exact (h i).1

theorem released_span (s : State) (p : Port) (op : Operation) (answer : Option Reply) (q : Port) :
    (s.released p op answer).ports[q].stage.stage.span = s.ports[q].stage.stage.span := by
  have used : (s.releaseUse op.share).ports[q].stage.stage.span = s.ports[q].stage.stage.span :=
    retireIfDone_span _ op.share q
  cases answer with
  | none => exact used
  | some r =>
    rw [← used, State.released, State.placeResponse_eq, State.modPort_get]
    split
    · next e => rw [e]
    · rfl

theorem endOperation_span (s : State) (p : Port) (op : Operation) (answer : Option Reply) (q : Port) :
    (s.endOperation p op answer).ports[q].stage.stage.span = if q = p then .empty else s.ports[q].stage.stage.span := by
  rw [endOperation_eq, State.setStage_eq, State.modPort_get]
  split
  · rfl
  · exact released_span s p op answer q

theorem endOperation_pool (s : State) (p : Port) (op : Operation) (answer : Option Reply) :
    (s.endOperation p op answer).pool = (s.releaseUse op.share).pool := by
  cases answer <;> rfl

theorem endOperation_shares (s : State) (p : Port) (op : Operation) (answer : Option Reply) :
    (s.endOperation p op answer).shares = (s.releaseUse op.share).shares := by
  cases answer <;> rfl

/-- Port `p`'s operation, which is on this entry, ends (R86). -/
theorem follows_endOperation {s : State} {p : Port} {op op' : Operation} (held : s.held p = some op)
    (share : op'.share = op.share) (answer : Option Reply) : Follows s (s.endOperation p op' answer) := by
  have span := endOperation_span s p op' answer
  have ended (q : Port) : ((s.endOperation p op' answer).held q).map Operation.share
      = (Function.update s.held p none q).map Operation.share := by
    have at_q := span q
    by_cases e : q = p
    · subst e
      rw [if_pos rfl] at at_q
      rw [Function.update_self]
      exact Stage.share_of_span (st := .empty) at_q
    · rw [if_neg e] at at_q
      rw [Function.update_of_ne e]
      exact Stage.share_of_span at_q
  have before : ∀ op₀, s.held p = some op₀ → op₀.share = op'.share := fun op₀ h => by
    rw [held] at h
    cases h
    exact share.symm
  refine .retireIfDone op'.share (fun sh => { sh with inUse := sh.inUse - 1 }) (keeps_endOperation s p op' answer).mem
    (endOperation_pool s p op' answer) (endOperation_shares s p op' answer) (fun j hj => ?_) (fun q b hb => ?_)
    (fun h => ?_) (fun free h => ?_) rfl
  · rw [operationsIn_of_share ended]
    exact operationsIn_update_other s.held before nofun hj
  · have at_q := span q
    by_cases e : q = p
    · rw [if_pos e] at at_q
      have none : (s.endOperation p op' answer).burst q = Option.none := Stage.burst?_of_span (st := .empty) at_q
      rw [none] at hb
      cases hb
    · rw [if_neg e] at at_q
      rw [← burst_of_span at_q]
      exact hb
  · have one_less := operationsIn_update s.held p none op'.share
    rw [held, Option.any_some, ← share, beq_self_eq_true, Option.any_none] at one_less
    rw [operationsIn_of_share ended]
    show s.shares[op'.share].inUse - 1 = _
    rw [(h op'.share).1]
    exact Nat.sub_eq_of_eq_add one_less.symm
  · exact congrArg (· - 1) ((h op'.share).2 free)

/-! ## The next piece and admission (R72, R84, R85) -/

theorem setStage_get (s : State) (p q : Port) (d : DataStage) :
    (s.setStage p d).ports[q].stage = if q = p then d else s.ports[q].stage := by
  rw [State.setStage_eq, State.modPort_get]
  split <;> rfl

/-- A data stage goes on with an operation on the same entry, and without a burst. -/
theorem follows_setStage {s : State} {p : Port} {op : Operation} {d : DataStage} (held : s.held p = some op)
    {op' : Operation} (stage : d.stage = .waiting op') (share : op'.share = op.share) : Follows s (s.setStage p d) := by
  have same (i : ShareIdx) : operationsIn (s.setStage p d).held i = operationsIn s.held i := by
    refine operationsIn_of_share (fun q => ?_) i
    rw [held_setStage]
    split
    · next e =>
      rw [e, held, stage]
      exact congrArg some share
    · rfl
  refine .change op.share rfl (List.Subset.refl _) (fun _ => .inr) (fun _ _ => rfl) (fun j _ => same j) (fun q b hb => ?_)
    fun h => ?_
  · rw [State.burst, setStage_get] at hb
    split at hb
    · rw [stage] at hb
      cases hb
    · exact hb
  · rw [same]
    exact ⟨(h op.share).1, (h op.share).2, .inl fun _ _ => id⟩

/-- Port `p`'s data stage goes on with its operation at an offset reached. -/
theorem follows_advance {s : State} {p : Port} {op op' : Operation} (held : s.held p = some op)
    (share : op'.share = op.share) : Follows s (s.advance p op') := by
  have reached := reachPiece_share (s.share op'.share) (op'.stop - op'.pos + 1) op'
  unfold State.advance
  split
  · next e =>
    rw [e] at reached
    exact follows_setStage held rfl (reached.trans share)
  · next e =>
    rw [e] at reached
    exact follows_endOperation held (reached.trans share) _
  · next e =>
    rw [e] at reached
    exact follows_endOperation held (reached.trans share) _

theorem releaseUse_setStage_pool (s : State) (p : Port) (d : DataStage) (i : ShareIdx) :
    ((s.setStage p d).releaseUse i).pool = (s.releaseUse i).pool := by
  unfold State.releaseUse State.retireIfDone
  rw [show ((s.setStage p d).modShare i fun sh => { sh with inUse := sh.inUse - 1 }).share i
    = (s.modShare i fun sh => { sh with inUse := sh.inUse - 1 }).share i from rfl]
  split <;> rfl

theorem releaseUse_setStage_shares (s : State) (p : Port) (d : DataStage) (i : ShareIdx) :
    ((s.setStage p d).releaseUse i).shares = (s.releaseUse i).shares := by
  unfold State.releaseUse State.retireIfDone
  rw [show ((s.setStage p d).modShare i fun sh => { sh with inUse := sh.inUse - 1 }).share i
    = (s.modShare i fun sh => { sh with inUse := sh.inUse - 1 }).share i from rfl]
  split <;> rfl

/-- A backed slot is not in the need, so it keeps its frame (R70, R56). -/
theorem frameAt_admitting_of_some {s : State} {p : Port} {k : DataKind} {a : Admit} (adm : Admitted s p k a) {slot : Nat}
    {f : FrameNo} (bound : s.shares[a.handle.share].frameAt slot = some f) (fs : List FrameNo) :
    (s.shares[a.handle.share].admitting a.need fs).frameAt slot = some f := by
  have lt := frameAt_isSome_lt (Option.isSome_iff_exists.mpr ⟨f, bound⟩)
  rw [frameAt_of_lt _ lt] at bound ⊢
  have backed : (⟨slot, lt⟩ : SlotNo) ∉ a.need := fun mem => by
    rw [adm.need_unbacked _ mem] at bound
    cases bound
  exact (bindSlots_get adm.need_nodup fs _ _).trans ((if_neg backed).trans bound)

/-- How port `p`'s data stage goes on does not depend on what it held. -/
theorem follows_advance_restaged (s : State) (p : Port) (d : DataStage) (op : Operation) :
    Follows ((s.setStage p d).advance p op) (s.advance p op) := by
  have ends (op' : Operation) (answer : Option Reply) :
      Follows ((s.setStage p d).endOperation p op' answer) (s.endOperation p op' answer) := by
    refine .still ?_ ?_ (fun q => ?_) fun i => ?_
    · rw [(keeps_endOperation s p op' answer).mem, (keeps_endOperation _ p op' answer).mem]
      rfl
    · rw [endOperation_pool, endOperation_pool, releaseUse_setStage_pool]
    · rw [endOperation_span, endOperation_span]
      split
      · rfl
      · next e => rw [setStage_get, if_neg e]
    · rw [endOperation_shares, endOperation_shares, releaseUse_setStage_shares]
      exact ⟨rfl, rfl, id⟩
  unfold State.advance
  rw [show (s.setStage p d).share op.share = s.share op.share from rfl]
  split
  · refine .still rfl rfl (fun q => ?_) fun _ => ⟨rfl, rfl, id⟩
    rw [setStage_get, setStage_get]
    split
    · rfl
    · next e => rw [setStage_get, if_neg e]
  · exact ends _ _
  · exact ends _ _

/-- An admission's operation comes into use, with the slots of its need backed (R72, R56). -/
theorem follows_admitting {s : State} {p : Port} {k : DataKind} {a : Admit} (empty : s.ports[p].stage.stage = .empty)
    (adm : Admitted s p k a) {d : DataStage} (stage : d.stage = .waiting (a.operation k)) :
    Follows s ((s.admitting a).setStage p d) := by
  have none : s.held p = none := congrArg Stage.op? empty
  have held : ((s.admitting a).setStage p d).held = Function.update s.held p (some (a.operation k)) := by
    funext q
    rw [held_setStage, stage, Function.update_apply]
    rfl
  have after : ∀ op, some (a.operation k) = some op → op.share = a.handle.share := fun op e => by cases e; rfl
  have before : ∀ op, s.held p = some op → op.share = a.handle.share := fun op e => by rw [none] at e; cases e
  have entry : ((s.admitting a).setStage p d).shares[a.handle.share]
      = s.shares[a.handle.share].admitting a.need (s.pool.clean.take a.need.length) :=
    (admitting_shares s a _).trans (if_pos rfl)
  refine .change a.handle.share rfl (List.drop_subset _ _) (fun _ => .inr)
    (fun j hj => (admitting_shares s a j).trans (if_neg hj)) (fun j hj => ?_) (fun q b hb => ?_) fun h => ?_
  · rw [held]
    exact operationsIn_update_other s.held before after hj
  · rw [State.burst, setStage_get] at hb
    split at hb
    · rw [stage] at hb
      cases hb
    · exact hb
  · have one_more := operationsIn_update s.held p (some (a.operation k)) a.handle.share
    rw [none, Option.any_none, Option.any_some, after _ rfl, beq_self_eq_true] at one_more
    rw [entry, held]
    refine ⟨?_, fun free => ?_, .inl fun slot f bound => ?_⟩
    · exact (congrArg (· + 1) (h a.handle.share).1).trans one_more.symm
    · have live := (Bool.and_eq_true_iff.mp adm.current).1
      rw [State.share_eq, Share.live, show s.shares[a.handle.share].state = .free from free] at live
      cases live
    · exact frameAt_admitting_of_some adm bound _

theorem follows_startOperation {s : State} {p : Port} {k : DataKind} {a : Admit} (empty : s.ports[p].stage.stage = .empty)
    (adm : Admitted s p k a) : Follows s (s.startOperation p k a) := by
  let d : DataStage := { stage := .waiting (a.operation k), abandon := false }
  have held : ((s.admitting a).setStage p d).held p = some (a.operation k) := (held_setStage _ p p d).trans (if_pos rfl)
  rw [startOperation_eq]
  exact ((follows_admitting empty adm rfl).trans (follows_advance held rfl)).trans (follows_advance_restaged _ p d _)

end Sys2Proof.Machine
end

