-- ==== Sys2Proof/Proofs/QuietEvents.lean ====
section
/-! PROOFS. The events that touch no byte of the store and begin no burst: `Follows` through the operations on shares, handles,
proposals and ports, the services of requests, and the commands. -/

namespace Sys2Proof.Machine

/-! ## Shares and handles -/

section Follows

variable (s : State)

theorem follows_makeHandle (p : Port) (h : HandleNo) (v : Handle) : Follows s (s.makeHandle p h v) :=
  (follows_setHandle s p h _).trans (follows_modShare _ v.share _ rfl rfl id)

/-- A FREE entry has no operation, so nothing is asked of the frames a CREATE binds to it. -/
theorem follows_makeShare {p : Port} {f : CreateFields} {i : ShareIdx} {h : HandleNo} (free : s.shares[i].state = .free) :
    Follows s (s.makeShare p f i h) := by
  have entry : (s.openShare p f i).shares[i] = f.entry p (s.pool.clean.take f.need) s.shares[i] :=
    (openShare_shares s p f i i).trans (if_pos rfl)
  have opened : Follows s (s.openShare p f i) := by
    refine .change i rfl (List.drop_subset _ _) (fun _ => .inr)
      (fun j hj => (openShare_shares s p f i j).trans (if_neg hj)) (fun _ _ => rfl) (fun _ _ => id) fun counted => ?_
    obtain ⟨count, unused⟩ := counted i
    rw [entry]
    exact ⟨(unused free).symm.trans count, fun _ => rfl, .inr rfl⟩
  rw [makeShare_eq]
  exact opened.trans (follows_makeHandle _ p h _)

theorem follows_closeIfUnused (i : ShareIdx) : Follows s (s.closeIfUnused i) := by
  unfold State.closeIfUnused
  split
  · exact follows_enterClosing s i
  · exact .refl s

theorem follows_emptyHandle (p : Port) (h : HandleNo) : Follows s (s.emptyHandle p h) := by
  unfold State.emptyHandle
  split
  · exact .refl s
  next v _ =>
  dsimp only
  split
  · exact ((follows_setHandle s p h none).trans
      (follows_modShare _ v.share _ rfl rfl (SameUse.loseHandle _ _).free)).trans (follows_closeIfUnused _ _)
  · exact follows_setHandle s p h none

theorem follows_emptyTable (p : Port) : Follows s (s.emptyTable p) := by
  refine Follows.foldl (fun s h => ?_) allHandles s
  split
  · exact (follows_emptyHandle s p h).trans (follows_modAttach _ p _)
  · exact .refl s

theorem follows_closeShare (p : Port) (i : ShareIdx) : Follows s (s.closeShare p i) := by
  unfold State.closeShare
  exact (((follows_modShare s i (fun sh => { sh with state := .closing, name := none, handleCount := 0 }) rfl rfl nofun).trans
    (follows_pushTold _ _ _ _ _ _)).trans (follows_endClaim _ p i 2)).trans (follows_retireIfDone _ i)

theorem follows_revokeShare (p : Port) (h : HandleNo) (i : ShareIdx) : Follows s (s.revokeShare p h i) := by
  have revoked : Follows s (s.revoked p h i) :=
    .still rfl rfl (fun q => by rw [revoked_ports, stepGeneration_ports]; exact Stage.span_afterStep i _ _) fun j => by
      rw [revoked_shares]
      split
      · next e => rw [e]; exact ⟨rfl, rfl, id⟩
      · exact ⟨rfl, rfl, id⟩
  exact (revoked.trans (follows_pushTold _ _ _ _ _ _)).trans (follows_endClaim _ p i 1)

/-! ## Agreement, cleanup and attachment -/

theorem follows_closeLive (i : ShareIdx) : Follows s (s.closeLive i) := by
  unfold State.closeLive
  split
  · exact follows_enterClosing s i
  · exact .refl s

theorem follows_adoptClearAll : Follows s s.adoptClearAll := by
  refine (Follows.foldl follows_closeLive allShares s).trans ?_
  unfold State.adoptClearAll
  generalize allShares.foldl State.closeLive s = t
  exact .still rfl rfl (fun p => by simp) fun i => by simp

theorem follows_adopt (a : ProposalAction) : Follows s (s.adopt a) := by
  cases a with
  | settings r => exact .still rfl rfl (fun _ => rfl) fun _ => ⟨rfl, rfl, id⟩
  | clearAll => exact follows_adoptClearAll s

theorem follows_setProposal (pr : Option Proposal) : Follows s { s with proposal := pr } :=
  .still rfl rfl (fun _ => rfl) fun _ => ⟨rfl, rfl, id⟩

theorem follows_endProposal (pr : Proposal) (o : ProposalOutcome) : Follows s (s.endProposal pr o) := by
  unfold State.endProposal
  dsimp only
  split
  · exact ((follows_adopt s _).trans (follows_setProposal _ _)).trans (follows_pushDecided _ pr o allPorts)
  · exact (follows_setProposal s _).trans (follows_pushDecided _ pr o allPorts)

theorem follows_agreementCleanup (p : Port) (c : CleanupCause) : Follows s (s.agreementCleanup p c) := by
  unfold State.agreementCleanup
  split
  · exact .refl s
  split
  · exact follows_endProposal s _ _
  split
  · split
    · exact follows_endProposal s _ _
    · dsimp only
      split
      · exact follows_endProposal s _ _
      · exact follows_setProposal s _
  · exact .refl s

theorem follows_dataCleanup (p : Port) : Follows s (s.dataCleanup p) := by
  have cleared := follows_modPosts s p fun b => { b.cleared with faults := 0 }
  unfold State.dataCleanup
  dsimp only
  split
  · exact cleared
  · next op stage =>
    split
    · exact cleared.trans (follows_endOperation (congrArg Stage.op? stage) rfl none)
    · exact cleared
  · next op f bs stage =>
    split
    · exact cleared.trans (follows_modPort _ p _ (congrArg Stage.span stage).symm)
    · exact cleared

theorem follows_cleanup (p : Port) (c : CleanupCause) : Follows s (s.cleanup p c) :=
  (((follows_claimCleanup s p).trans (follows_emptyTable _ p)).trans (follows_dataCleanup _ p)).trans
    (follows_agreementCleanup _ p c)

theorem follows_takeHello (p : Port) (tag : Byte) (stay : List Frame) : Follows s (s.takeHello p tag stay) := by
  have flushed (a : Attachment → Attachment) : Follows s ((s.flushQueues p tag stay).modAttach p a) :=
    (follows_modPort s p _ rfl).trans (follows_modAttach _ p a)
  unfold State.takeHello
  dsimp only
  refine Follows.trans ?_ (follows_finishCleanup _ p)
  split
  · exact flushed _
  · exact (flushed _).trans (follows_cleanup _ p _)

theorem follows_arriveHello (p : Port) (tag : Byte) : Follows s (s.arriveHello p tag) := by
  unfold State.arriveHello
  split
  · exact follows_takeHello s p tag []
  · exact follows_modAttach s p _

theorem follows_takePending (p : Port) : Follows s (s.takePending p) := by
  unfold State.takePending
  split
  · exact .refl s
  · exact follows_takeHello s p _ _

theorem follows_detachPort (p : Port) : Follows s (s.detachPort p) := by
  have cleaned := (follows_modAttach s p fun a => { a with state := .cleaning }).trans (follows_cleanup _ p .detach)
  unfold State.detachPort
  dsimp only
  refine .trans (.trans (cleaned.trans ?_) (follows_pushPeers _ p _ allPorts)) (follows_modAttach _ p _)
  exact (follows_modAttach _ p _).trans (follows_modNotices _ p _)

theorem follows_openProposal (p : Port) (a : ProposalAction) : Follows s (s.openProposal p a).1 := by
  have stepped (n : Nat) (pr : Option Proposal) : Follows s { s with proposalCounter := n, proposal := pr } :=
    .still rfl rfl (fun _ => rfl) fun _ => ⟨rfl, rfl, id⟩
  unfold State.openProposal
  dsimp only
  split
  · exact (stepped _ s.proposal).trans (follows_endProposal _ _ _)
  · exact (stepped _ _).trans (follows_pushOpened _ _ _)

theorem follows_castVote (p : Port) (pr : Proposal) (accept : Bool) : Follows s (s.castVote p pr accept).1 := by
  unfold State.castVote
  split
  · dsimp only
    split
    · exact follows_endProposal s _ _
    · exact follows_setProposal s _
  · exact follows_endProposal s _ _

/-! ## The services of requests: a check that fails leaves the state as it is -/

theorem follows_serveCreate (p : Port) (body : List Byte) : Follows s (serveCreate p body s).1 := by
  unfold serveCreate
  iterate 5 (split; exact .refl s)
  next free =>
  iterate 3 (split; exact .refl s)
  exact follows_makeShare s (state_of_freeShare? free)

theorem follows_serveAttach (p : Port) (body : List Byte) : Follows s (serveAttach p body s).1 := by
  unfold serveAttach
  iterate 7 (split; exact .refl s)
  exact follows_makeHandle s p _ _

theorem follows_serveGrant (p : Port) (body : List Byte) : Follows s (serveGrant p body s).1 := by
  unfold serveGrant
  iterate 10 (split; exact .refl s)
  exact (follows_makeHandle s _ _ _).trans (follows_push _ _ _)

theorem follows_serveClose (p : Port) (body : List Byte) : Follows s (serveClose p body s).1 := by
  unfold serveClose
  split
  · exact .refl s
  · exact follows_closeShare s p _

theorem follows_serveRevoke (p : Port) (body : List Byte) : Follows s (serveRevoke p body s).1 := by
  unfold serveRevoke
  split
  · exact .refl s
  · exact follows_revokeShare s p _ _

theorem follows_serveDrop (p : Port) (body : List Byte) : Follows s (serveDrop p body s).1 := by
  unfold serveDrop
  split
  · exact .refl s
  split
  · exact .refl s
  split
  · split
    · exact .refl s
    · exact (follows_claimDrop s p _ _).trans (follows_emptyHandle _ p _)
  · exact .refl s

theorem follows_serveClaim (p : Port) (body : List Byte) : Follows s (serveClaim p body s).1 := by
  unfold serveClaim
  split
  · exact .refl s
  · exact follows_claimShare s p _ _ _

theorem follows_serveRelease (p : Port) (body : List Byte) : Follows s (serveRelease p body s).1 := by
  unfold serveRelease
  split
  · exact .refl s
  · exact follows_releaseClaim s p _

theorem follows_serveRenew (p : Port) (body : List Byte) : Follows s (serveRenew p body s).1 := by
  unfold serveRenew
  split
  · exact .refl s
  · exact follows_renewClaim s p _

theorem follows_serveDetach (p : Port) (body : List Byte) : Follows s (serveDetach p body s).1 :=
  StepInvariant.emptyBody (follows_detachPort s p) (.refl s)

theorem follows_serveFlush (p : Port) (body : List Byte) : Follows s (serveFlush p body s).1 :=
  StepInvariant.emptyBody (follows_modPosts s p fun b => { b with faults := 0 }) (.refl s)

theorem follows_serveNotices (p : Port) (body : List Byte) : Follows s (serveNotices p body s).1 :=
  StepInvariant.emptyBody (follows_modNotices s p fun nq => nq.collect s.settings.noticeDelay) (.refl s)

theorem follows_servePropose (p : Port) (body : List Byte) : Follows s (servePropose p body s).1 := by
  unfold servePropose
  iterate 3 (split; exact .refl s)
  split
  · exact follows_openProposal s p _
  split
  · exact .refl s
  · exact follows_openProposal s p _

theorem follows_serveVote (p : Port) (body : List Byte) : Follows s (serveVote p body s).1 := by
  unfold serveVote
  iterate 6 (split; exact .refl s)
  exact follows_castVote s p _ _

end Follows

/-! ## Commands -/

section Commands

variable {s : State}

theorem follows_took {t : State} (h : Follows s t) : Leads (Follows s) True (took t) := h.trans (follows_settle t)

theorem follows_stay : Leads (Follows s) True (.next s) := Follows.refl s

theorem follows_takeBy {p : Port} {isKind : Byte → Bool} {act : Frame → State → State}
    (hact : ∀ f t, t.ports[p].stage.stage = .empty → Follows t (act f t)) :
    Leads (Follows s) True (s.takeBy p isKind act) := by
  unfold State.takeBy
  split
  · next f hf =>
    split
    · refine follows_took ((follows_modLink s p _).trans (hact f (s.dequeue p f) ?_))
      rw [dequeue_eq, State.modPort_same]
      exact StepInvariant.stage_empty_of_next hf
    · exact follows_stay
  · exact follows_stay

theorem follows_takeAndAnswer {p : Port} {kind : Byte} {serve : Service}
    (hserve : ∀ t body, Follows t (serve body t).1) : Leads (Follows s) True (s.takeAndAnswer p kind serve) :=
  follows_takeBy fun f t _ => (hserve t f.body).trans (follows_placeResponse _ p kind _)

theorem follows_takeData (p : Port) (kind : Byte) (k : DataKind) : Leads (Follows s) True (s.takeData p kind k) := by
  refine follows_takeBy fun f t empty => ?_
  split
  · exact follows_placeResponse t p kind _
  · next ok => exact follows_startOperation empty (checkData_ok ok)

theorem follows_execPost (p : Port) : Leads (Follows s) True (execPost p s) := by
  refine follows_takeBy fun f t _ => .trans ?_ (follows_drainForHead _ p)
  unfold State.takePost
  split
  · exact follows_modPosts t p _
  · exact .refl t

/-- R97 asks that the data stage is EMPTY. -/
theorem stage_empty_of_nextPost {p : Port} {r : PostRecord} (h : s.nextPost p = some r) :
    s.ports[p].stage.stage = .empty := by
  unfold State.nextPost at h
  dsimp only at h
  split at h
  · next may => exact beq_iff_eq.mp (Bool.and_eq_true_iff.mp may).2
  · cases h

theorem follows_execPostRelease (p : Port) : Leads (Follows s) True (execPostRelease p s) := by
  unfold execPostRelease
  split
  · exact follows_stay
  next r hr =>
  have released := follows_modPosts s p PostBuffer.release
  dsimp only
  split
  · exact follows_took (released.trans ((follows_push _ _ _).trans (follows_modPosts _ p _)))
  · next ok =>
    refine follows_took (released.trans (follows_startOperation ?_ (checkData_ok ok)))
    rw [State.modPosts_eq, State.modPort_same]
    exact stage_empty_of_nextPost hr

theorem follows_execUnknownRequest (p : Port) : Leads (Follows s) True (execUnknownRequest p s) :=
  follows_takeBy fun _ t _ => follows_placeResponse t p _ _

theorem follows_execLeaseExpiry (i : ShareIdx) : Leads (Follows s) True (execLeaseExpiry i s) := by
  unfold execLeaseExpiry
  split
  · split
    · exact follows_took ((follows_push s _ _).trans (follows_handover _ i _))
    · exact follows_stay
  · exact follows_stay

theorem follows_execVoteWindowExpiry : Leads (Follows s) True (execVoteWindowExpiry s) := by
  unfold execVoteWindowExpiry
  split
  · split
    · exact follows_took (follows_endProposal s _ _)
    · exact follows_stay
  · exact follows_stay

theorem follows_judge (s : State) (p : Port) (kind : Byte) (bytes : List Byte) (bits : Nat) :
    Follows s (s.judge p kind bytes bits) := by
  unfold State.judge
  split
  · exact follows_modLink s p _
  split
  · exact follows_arriveHello s p _
  split
  · exact follows_modLink s p _
  unfold State.admitFrame
  dsimp only
  split
  · exact (follows_modLink s p _).trans (follows_drainForHead _ p)
  · exact follows_modLink s p _

theorem follows_execRequestFrame (p : Port) (bytes : List Byte) (bits : Nat) :
    Leads (Follows s) True (execRequestFrame p bytes bits s) := by
  unfold execRequestFrame
  split
  · exact follows_took (follows_modLink s p _)
  · exact follows_took ((follows_modLink s p _).trans (follows_judge _ p _ bytes bits))
  · exact follows_stay

theorem follows_execHello (p : Port) (tag : Byte) : Leads (Follows s) True (execHello p tag s) := by
  unfold execHello
  split
  · exact follows_took (follows_modLink s p _)
  · split
    · exact follows_took ((follows_modLink s p _).trans (follows_arriveHello _ p tag))
    · exact follows_stay
  · exact follows_stay

/-- A change of what holds no frame, burst or byte. -/
theorem follows_elsewhere {t : State} (mem : t.mem = s.mem := by rfl) (pool : t.pool = s.pool := by rfl)
    (ports : t.ports = s.ports := by rfl) (shares : t.shares = s.shares := by rfl) : Follows s t :=
  .still mem pool (fun _ => by rw [ports]) fun _ => by rw [shares]; exact ⟨rfl, rfl, id⟩

theorem follows_wake (s : State) : Follows s s.wake := by
  unfold State.wake
  split
  · exact follows_elsewhere
  · exact .refl s

theorem follows_execSelectFallingEdge (p : Port) : Leads (Follows s) True (execSelectFallingEdge p s) := by
  unfold execSelectFallingEdge
  split
  · exact follows_stay
  · exact follows_took (.trans (follows_modLink s p _) (follows_wake _))

theorem follows_execFirstByteEnd (p : Port) (first : Byte) : Leads (Follows s) True (execFirstByteEnd p first s) := by
  unfold execFirstByteEnd
  split
  · exact follows_took (follows_modLink s p _)
  · exact follows_stay

theorem follows_execPoll (p : Port) (clocks : Nat) : Leads (Follows s) True (execPoll p clocks s) := by
  unfold execPoll
  split
  · exact follows_took (follows_modLink s p _)
  · exact follows_took (follows_modLink s p _)
  · exact follows_stay

theorem follows_execFetch (p : Port) (clocks : Nat) : Leads (Follows s) True (execFetch p clocks s) := by
  unfold execFetch
  split
  · exact follows_took (follows_modLink s p _)
  · exact follows_took ((follows_modLink s p _).trans (follows_modLink _ p _))
  · exact follows_stay

theorem follows_execPostDelayExpiry (p : Port) : Leads (Follows s) True (execPostDelayExpiry p s) := by
  unfold execPostDelayExpiry
  split
  · exact follows_took (follows_modPosts s p _)
  · exact follows_stay

theorem follows_execNoticeDelayExpiry (p : Port) : Leads (Follows s) True (execNoticeDelayExpiry p s) := by
  unfold execNoticeDelayExpiry
  split
  · exact follows_took (follows_modNotices s p _)
  · exact follows_stay

theorem follows_execRestCountdownExpiry : Leads (Follows s) True (execRestCountdownExpiry s) := by
  unfold execRestCountdownExpiry
  split
  · exact follows_took follows_elsewhere
  · exact follows_stay

theorem follows_execWarmUpExpiry : Leads (Follows s) True (execWarmUpExpiry s) := by
  unfold execWarmUpExpiry
  split
  · exact follows_took (.trans follows_elsewhere (Follows.foldl follows_takePending allPorts _))
  · exact follows_stay

/-- The command starts a burst, completes one or loses one. -/
def onPath : Instr → Bool
  | .grantDecision | .burstCompletion _ | .scrubBurstCompletion | .resetAssert | .powerOn => true
  | _ => false

/-- Every other command touches neither the store nor the bursts. -/
theorem follows_exec (c : Instr) (quiet : onPath c = false) : Leads (Follows s) True (exec c s) := by
  cases c with
  | selectFallingEdge p => exact follows_execSelectFallingEdge p
  | poll p clocks => exact follows_execPoll p clocks
  | fetch p clocks => exact follows_execFetch p clocks
  | requestFrame p bytes bits => exact follows_execRequestFrame p bytes bits
  | hello p tag => exact follows_execHello p tag
  | detach p => exact follows_takeAndAnswer (serve := serveDetach p) fun t => follows_serveDetach t p
  | create p => exact follows_takeAndAnswer (serve := serveCreate p) fun t => follows_serveCreate t p
  | attach p => exact follows_takeAndAnswer (serve := serveAttach p) fun t => follows_serveAttach t p
  | close p => exact follows_takeAndAnswer (serve := serveClose p) fun t => follows_serveClose t p
  | revoke p => exact follows_takeAndAnswer (serve := serveRevoke p) fun t => follows_serveRevoke t p
  | info p => exact follows_takeAndAnswer (serve := serveInfo p) fun t body => StepInvariant.serveInfo p body (.refl t)
  | grant p => exact follows_takeAndAnswer (serve := serveGrant p) fun t => follows_serveGrant t p
  | drop p => exact follows_takeAndAnswer (serve := serveDrop p) fun t => follows_serveDrop t p
  | list p => exact follows_takeAndAnswer (serve := serveList p) fun t body => StepInvariant.serveList p body (.refl t)
  | read p => exact follows_takeData p _ _
  | write p => exact follows_takeData p _ _
  | cas p => exact follows_takeData p _ _
  | post p => exact follows_execPost p
  | postRelease p => exact follows_execPostRelease p
  | flush p => exact follows_takeAndAnswer (serve := serveFlush p) fun t => follows_serveFlush t p
  | claim p => exact follows_takeAndAnswer (serve := serveClaim p) fun t => follows_serveClaim t p
  | release p => exact follows_takeAndAnswer (serve := serveRelease p) fun t => follows_serveRelease t p
  | renew p => exact follows_takeAndAnswer (serve := serveRenew p) fun t => follows_serveRenew t p
  | notices p => exact follows_takeAndAnswer (serve := serveNotices p) fun t => follows_serveNotices t p
  | propose p => exact follows_takeAndAnswer (serve := servePropose p) fun t => follows_servePropose t p
  | vote p => exact follows_takeAndAnswer (serve := serveVote p) fun t => follows_serveVote t p
  | settings p => exact follows_takeAndAnswer (serve := serveSettings p) fun t body =>
      StepInvariant.serveSettings p body (.refl t)
  | unknownRequest p => exact follows_execUnknownRequest p
  | leaseExpiry i => exact follows_execLeaseExpiry i
  | postDelayExpiry p => exact follows_execPostDelayExpiry p
  | noticeDelayExpiry p => exact follows_execNoticeDelayExpiry p
  | voteWindowExpiry => exact follows_execVoteWindowExpiry
  | restCountdownExpiry => exact follows_execRestCountdownExpiry
  | warmUpExpiry => exact follows_execWarmUpExpiry
  | firstByteEnd p first => exact follows_execFirstByteEnd p first
  | grantDecision => cases quiet
  | burstCompletion p => cases quiet
  | scrubBurstCompletion => cases quiet
  | resetAssert => cases quiet
  | powerOn => cases quiet

end Commands

end Sys2Proof.Machine
end

