-- ==== Sys2Proof/Proofs/CleanFrames.lean ====
section
/-! PROOFS. The clean frames (R47, R50, R53): a burst writes in a frame that is bound to a share, which R46 has on no list, and
the scrubber writes zeros; every other event writes nothing. -/

namespace Sys2Proof.Machine

/-! ## The zeros of the pool -/

/-- Address `x` is in a clean frame, or in a block of the scrub frame below its progress count (R47, R50). -/
def Pool.zeroAt (q : Pool) (x : Nat) : Prop :=
  (∃ f ∈ q.clean, ∃ k, k < 1024 ∧ x = f.val * 1024 + k)
    ∨ ∃ sf, q.scrub = some sf ∧ ∃ k, k < sf.progress * 64 ∧ x = sf.frame.val * 1024 + k

theorem cleanFramesZero_iff (s : State) : CleanFramesZero s ↔ ∀ x, s.pool.zeroAt x → s.mem.read x = 0 := by
  refine ⟨fun h x hx => ?_, fun h => ⟨fun f hf k hk => ?_, fun sf hsf k hk => ?_⟩⟩
  · obtain ⟨f, hf, k, hk, rfl⟩ | ⟨sf, hsf, k, hk, rfl⟩ := hx
    · exact h.1 f hf k hk
    · exact h.2 sf hsf k hk
  · exact h _ (.inl ⟨f, hf, k, hk, rfl⟩)
  · exact h _ (.inr ⟨sf, hsf, k, hk, rfl⟩)

/-- What the pool promises does not grow when its clean list shrinks and its scrub frame stays or is new. -/
theorem Follows.zeroAt {s t : State} (h : Follows s t) {x : Nat} (hx : t.pool.zeroAt x) : s.pool.zeroAt x := by
  obtain ⟨f, hf, within⟩ | ⟨sf, hsf, k, hk, rfl⟩ := hx
  · exact .inl ⟨f, h.clean hf, within⟩
  · obtain new | old := h.scrub sf hsf
    · rw [new] at hk
      omega
    · exact .inr ⟨sf, old, k, hk, rfl⟩

/-- Every frame a need can be served with is zero, and every burst in flight is on a frame bound to its operation. -/
structure CleanAndBound (s : State) : Prop where
  zeros : CleanFramesZero s
  bound : BurstsOnBoundFrames s

theorem Follows.cleanAndBound {s t : State} (f : Follows s t) (counted : s.usesCounted) (h : CleanAndBound s) :
    CleanAndBound t where
  zeros := (cleanFramesZero_iff t).mpr fun x hx => by
    rw [f.mem]
    exact (cleanFramesZero_iff s).mp h.zeros x (f.zeroAt hx)
  bound := (burstsOnBoundFrames_iff t).mpr fun p b hb =>
    have ⟨before, stays⟩ := f.bursts counted p b hb
    stays ((burstsOnBoundFrames_iff s).mp h.bound p b before)

/-- Bytes written where the pool promises no zeros leave its promises. -/
theorem CleanFramesZero.write {s : State} (h : CleanFramesZero s) (canonical : MemoryCanonical s) {x : Nat} {vs : List Byte}
    (inStore : x + vs.length ≤ Config.storeBytes) (apart : ∀ y, s.pool.zeroAt y → y < x ∨ x + vs.length ≤ y) :
    CleanFramesZero { s with mem := s.mem.writeBytes x vs } :=
  (cleanFramesZero_iff _).mpr fun y hy => by
    show (s.mem.writeBytes x vs).read y = 0
    rw [Memory.read_writeBytes_outside canonical vs inStore (apart y hy)]
    exact (cleanFramesZero_iff s).mp h y hy

/-! ## Frames in use are in no list (R46) -/

theorem slotsWith_pos {sh : Share} {slot : Nat} {f : FrameNo} (h : sh.frameAt slot = some f) : 0 < slotsWith sh.frameMap f := by
  have lt := frameAt_isSome_lt (Option.isSome_iff_exists.mpr ⟨f, h⟩)
  rw [frameAt_of_lt _ lt] at h
  exact List.countP_pos_iff.mpr ⟨⟨slot, lt⟩, List.mem_finRange _, by rw [h]; exact beq_self_eq_true _⟩

/-- A frame bound to a slot is nowhere in the pool. -/
theorem FramesAccounted.places_of_bound {s : State} (h : FramesAccounted s) {i : ShareIdx} {slot : Nat} {f : FrameNo}
    (bound : s.shares[i].frameAt slot = some f) : s.pool.places f = 0 := by
  have once := h.1 f
  have here := slotsWith_pos bound
  have some_slot := List.single_le_sum (l := allShares.map fun i => slotsWith s.shares[i].frameMap f)
    (fun _ _ => Nat.zero_le _) _ (List.mem_map_of_mem (List.mem_finRange i))
  rw [placesOf_eq] at once
  omega

/-- The scrub frame is not clean. -/
theorem FramesAccounted.scrub_not_clean {s : State} (h : FramesAccounted s) {sf : ScrubFrame}
    (present : s.pool.scrub = some sf) :
    sf.frame ∉ s.pool.clean := fun mem => by
  have once := h.1 sf.frame
  have listed := List.count_pos_iff.mpr mem
  rw [placesOf_eq, Pool.places, present, Option.any_some, beq_self_eq_true, Bool.toNat_true] at once
  omega

/-- An address where the pool promises a zero is in one of its frames. -/
theorem FramesAccounted.frame_of_zeroAt {s : State} (h : FramesAccounted s) {x : Nat} (hx : s.pool.zeroAt x) :
    ∃ f : FrameNo, s.pool.places f ≠ 0 ∧ f.val * 1024 ≤ x ∧ x < f.val * 1024 + 1024 := by
  obtain ⟨f, mem, k, hk, rfl⟩ | ⟨sf, present, k, hk, rfl⟩ := hx
  · have listed := List.count_pos_iff.mpr mem
    refine ⟨f, ?_, by omega, by omega⟩
    unfold Pool.places
    omega
  · have progress := h.ready.2 sf present
    refine ⟨sf.frame, ?_, by omega, by omega⟩
    rw [Pool.places, present, Option.any_some, beq_self_eq_true, Bool.toNat_true]
    omega

/-- Bytes written in a frame that is bound to a slot leave the pool's zeros (R46, R47). -/
theorem CleanFramesZero.write_bound {s : State} (h : CleanFramesZero s) (canonical : MemoryCanonical s)
    (accounted : FramesAccounted s) {i : ShareIdx} {slot : Nat} {f : FrameNo} (bound : s.shares[i].frameAt slot = some f)
    {offset : Nat} {vs : List Byte} (inFrame : offset + vs.length ≤ 1024) :
    CleanFramesZero { s with mem := s.mem.writeBytes (frameAddress f offset) vs } := by
  have lt := f.isLt
  unfold frameAddress Config.frameBytes
  refine h.write canonical (by unfold Config.storeBytes; omega) fun y hy => ?_
  obtain ⟨g, listed, low, high⟩ := accounted.frame_of_zeroAt hy
  have other : g.val ≠ f.val := fun e => listed (by rw [Fin.ext e]; exact accounted.places_of_bound bound)
  omega

/-! ## The grant of a burst (R118) -/

theorem Leads.mono {P Q : State → Prop} {stops : Prop} {o : Out} (h : Leads P stops o) (imp : ∀ t, P t → Q t) :
    Leads Q stops o := by
  cases o with
  | next t => exact imp t h
  | fault r => exact h
  | refused r => exact h

section OnPath

variable {s : State}

theorem CleanAndBound.leads (h : CleanAndBound s) (counted : s.usesCounted) {o : Out} (f : Leads (Follows s) True o) :
    Leads CleanAndBound True o := f.mono fun _ follows => follows.cleanAndBound counted h

/-- A burst begins on the frame bound to the slot that its operation has reached. -/
theorem CleanAndBound.grant (h : CleanAndBound s) {p : Port} {op : Operation} {f : FrameNo} {bs : List Byte} {abandon : Bool}
    (bound : s.shares[op.share].frameAt op.slot = some f) :
    CleanAndBound (s.setStage p { stage := .bursting op f bs, abandon := abandon }) where
  zeros := h.zeros
  bound := (burstsOnBoundFrames_iff _).mpr fun q b hb => by
    rw [State.burst, setStage_get] at hb
    split at hb
    · cases hb
      exact bound
    · exact (burstsOnBoundFrames_iff s).mp h.bound q b hb

theorem CleanAndBound.took (h : CleanAndBound s) : Leads CleanAndBound True (took s) where
  zeros := (cleanFramesZero_iff _).mpr fun x hx => by
    rw [State.settle_pool] at hx
    rw [State.settle_mem]
    exact (cleanFramesZero_iff s).mp h.zeros x hx
  bound := (burstsOnBoundFrames_iff _).mpr fun p b hb => by
    rw [State.burst, State.settle_get] at hb
    rw [State.binds, State.settle_shares]
    exact (burstsOnBoundFrames_iff s).mp h.bound p b hb

theorem CleanAndBound.grantPort (h : CleanAndBound s) (counted : s.usesCounted) {p : Port} {op : Operation}
    (stage : s.ports[p].stage.stage = .waiting op) : Leads CleanAndBound True (s.grantPort p op) := by
  unfold State.grantPort
  split
  · exact h.leads counted (follows_took ((follows_endOperation (congrArg Stage.op? stage) rfl _).trans
      (follows_finishCleanup _ p)))
  split
  · trivial
  · next f bound =>
    refine CleanAndBound.took (CleanAndBound.grant (op := op) (f := f) ?_ bound)
    exact Follows.cleanAndBound follows_elsewhere counted h

theorem CleanAndBound.execGrantDecision (h : CleanAndBound s) (counted : s.usesCounted) :
    Leads CleanAndBound True (execGrantDecision s) := by
  unfold Machine.execGrantDecision
  split
  · split
    · next r pointer _ =>
      have pointed : Follows s { s with arbiter := { s.arbiter with pointer := pointer } } := follows_elsewhere
      unfold State.grantTo
      split
      · exact h.leads counted (follows_took follows_elsewhere)
      · split
        · next stage => exact (pointed.cleanAndBound counted h).grantPort (pointed.counted counted) stage
        · exact pointed.cleanAndBound counted h
        · exact pointed.cleanAndBound counted h
    · exact h
  · exact h

/-! ## The completion of a burst (R85, R119) -/

/-- What a burst writes lies in its piece, and so in its frame (R84). -/
theorem written_inFrame (op : Operation) (captured : List Byte) :
    op.pos % Config.frameBytes + (op.written captured).length ≤ 1024 := by
  have piece : (op.written captured).length ≤ op.pieceLength := by
    unfold Operation.written
    split
    · exact Nat.zero_le _
    · exact List.length_take_le ..
    · exact List.length_take_le ..
    · split
      · exact List.length_take_le ..
      · exact Nat.zero_le _
  unfold Operation.pieceLength Config.blockBytes at piece
  unfold Config.frameBytes
  omega

/-- The state of a burst's completion with the store `m` that it leaves, before the data stage goes on. -/
def State.stored (s : State) (m : Memory) : State := { s.freePath with mem := m }

/-- Past its bytes, a burst's completion writes nothing. -/
theorem follows_completeBurst {p : Port} {op : Operation} {f : FrameNo} {captured : List Byte}
    (stage : s.ports[p].stage.stage = .bursting op f captured) :
    Follows (s.stored s.mem) (s.freePath.completeBurst p op f captured)
      ∨ Follows (s.stored (s.mem.writeBytes (op.address f) (op.written captured)))
          (s.freePath.completeBurst p op f captured) := by
  have held (m : Memory) : (s.stored m).held p = some op := congrArg Stage.op? stage
  unfold State.completeBurst
  dsimp only
  split
  · exact .inl (follows_endOperation (held _) rfl none)
  · refine .inr ?_
    split
    · exact follows_endOperation (held _) rfl _
    all_goals exact follows_advance (held _) (op.share_deliver _ _)

theorem CleanAndBound.execBurstCompletion (h : CleanAndBound s) (counted : s.usesCounted) (canonical : MemoryCanonical s)
    (accounted : FramesAccounted s) (p : Port) : Leads CleanAndBound True (execBurstCompletion p s) := by
  unfold Machine.execBurstCompletion
  split
  · next op f captured stage =>
    split
    · have written : CleanAndBound (s.stored (s.mem.writeBytes (op.address f) (op.written captured))) :=
        ⟨h.zeros.write_bound canonical accounted (h.bound p op f captured stage) (written_inFrame op captured), h.bound⟩
      obtain nothing | stored := follows_completeBurst stage
      · exact CleanAndBound.leads (s := s.stored s.mem) ⟨h.zeros, h.bound⟩ counted
          (follows_took (nothing.trans (follows_finishCleanup _ p)))
      · exact written.leads counted (follows_took (stored.trans (follows_finishCleanup _ p)))
    · exact h
  · exact h

/-- A scrubbed block adds its own addresses to the pool's zeros, and no others (R50, R51). -/
theorem Pool.zeroAt_scrubbed {q : Pool} {sf : ScrubFrame} (present : q.scrub = some sf) {x : Nat}
    (h : (q.scrubbed sf).zeroAt x) :
    q.zeroAt x ∨ sf.frame.val * 1024 + sf.progress * 64 ≤ x ∧ x < sf.frame.val * 1024 + sf.progress * 64 + 64 := by
  have scrubbed {k : Nat} (hk : k < (sf.progress + 1) * 64) (e : x = sf.frame.val * 1024 + k) : q.zeroAt x
      ∨ sf.frame.val * 1024 + sf.progress * 64 ≤ x ∧ x < sf.frame.val * 1024 + sf.progress * 64 + 64 := by
    by_cases below : k < sf.progress * 64
    · exact .inl (.inr ⟨sf, present, k, below, e⟩)
    · exact .inr (by omega)
  unfold Pool.scrubbed at h
  split at h
  · next last =>
    obtain ⟨f, mem, k, hk, e⟩ | ⟨sf', new, k, hk, _⟩ := h
    · rw [Pool.clean_nextScrub] at mem
      obtain old | rfl := List.mem_append.mp mem |>.imp_right List.mem_singleton.mp
      · exact .inl (.inl ⟨f, old, k, hk, e⟩)
      · exact scrubbed (by omega) e
    · obtain zero | absent := Pool.scrub_nextScrub new
      · rw [zero] at hk
        omega
      · cases absent
  · obtain clean | ⟨sf', new, k, hk, e⟩ := h
    · exact .inl (.inl clean)
    · cases new
      exact scrubbed hk e

/-- The scrubber writes zeros alone, so what was zero stays zero (R50, R51). -/
theorem CleanAndBound.execScrubBurstCompletion (h : CleanAndBound s) (counted : s.usesCounted)
    (canonical : MemoryCanonical s) (accounted : FramesAccounted s) :
    Leads CleanAndBound True (execScrubBurstCompletion s) := by
  unfold Machine.execScrubBurstCompletion
  split
  · split
    · next sf present =>
      have zeros (x : Nat) (hx : (s.pool.scrubbed sf).zeroAt x) : (scrubBlock s.mem sf).read x = 0 := by
        rw [read_scrubBlock canonical (accounted.ready.2 sf present)]
        split
        · rfl
        · next outside =>
          exact (cleanFramesZero_iff s).mp h.zeros x ((Pool.zeroAt_scrubbed present hx).resolve_right outside)
      generalize scrubBlock s.mem sf = m at zeros ⊢
      exact CleanAndBound.took ⟨(cleanFramesZero_iff _).mpr zeros, h.bound⟩
    · exact h.leads counted (follows_took follows_elsewhere)
  · exact h

/-! ## The loss of a burst (R123, R192) -/

theorem freeBlock_eq (s : State) (f : FrameNo) (offset : Nat) :
    ∃ vs : List Byte, vs.length = 64 ∧ s.freeBlock f offset = { s with
      mem := s.mem.writeBytes (frameAddress f (offset % 1024 / 64 * 64)) vs, freeCount := s.freeCount + 64 } :=
  ⟨_, by rw [List.length_map, List.length_range]; rfl, rfl⟩

/-- The bytes of a lost burst's block lie in its frame. -/
theorem CleanAndBound.freeBlock (h : CleanAndBound s) (canonical : MemoryCanonical s) (accounted : FramesAccounted s)
    {i : ShareIdx} {slot : Nat} {f : FrameNo} (bound : s.shares[i].frameAt slot = some f) (offset : Nat) :
    CleanAndBound (s.freeBlock f offset) := by
  obtain ⟨vs, length, freed⟩ := freeBlock_eq s f offset
  rw [freed]
  exact ⟨h.zeros.write_bound canonical accounted bound (by rw [length]; omega), h.bound⟩

/-- The block of a lost scrub burst is at the progress count, not below it (R50). -/
theorem CleanAndBound.freeBlock_scrub (h : CleanAndBound s) (canonical : MemoryCanonical s) (accounted : FramesAccounted s)
    {sf : ScrubFrame} (present : s.pool.scrub = some sf) :
    CleanAndBound (s.freeBlock sf.frame (sf.progress % 16 * Config.blockBytes)) := by
  have progress := accounted.ready.2 sf present
  have block : sf.progress % 16 * Config.blockBytes % 1024 / 64 * 64 = sf.progress * 64 := by
    unfold Config.blockBytes
    omega
  obtain ⟨vs, length, freed⟩ := freeBlock_eq s sf.frame (sf.progress % 16 * Config.blockBytes)
  rw [freed, block]
  refine ⟨h.zeros.write canonical ?_ fun y hy => ?_, h.bound⟩
  · rw [length]
    exact frameAddress_block_le sf.frame (by omega)
  · rw [length]
    unfold frameAddress Config.frameBytes
    obtain ⟨f, mem, k, hk, rfl⟩ | ⟨sf', same, k, hk, rfl⟩ := hy
    · have other : f.val ≠ sf.frame.val := fun e => accounted.scrub_not_clean present (Fin.ext e ▸ mem)
      omega
    · rw [present] at same
      cases same
      omega

theorem CleanAndBound.loseBurst (h : CleanAndBound s) (canonical : MemoryCanonical s) (accounted : FramesAccounted s) :
    CleanAndBound s.loseBurst := by
  unfold State.loseBurst
  split
  · exact h
  · split
    · next sf present => exact h.freeBlock_scrub canonical accounted present
    · exact h
  · next p _ =>
    split
    · next op f bs stage =>
      split
      · exact h
      · exact h.freeBlock canonical accounted (h.bound p op f bs stage) op.pos
    · exact h
    · exact h

/-- Reset has no clean frame, no scrubbed block and no burst, whatever the store holds (R60). -/
theorem CleanAndBound.atReset {t : State} (pool : t.pool = State.reset.pool) (ports : t.ports = State.reset.ports) :
    CleanAndBound t where
  zeros := (cleanFramesZero_iff t).mpr fun x hx => by
    rw [pool] at hx
    obtain ⟨f, mem, _⟩ | ⟨sf, present, k, hk, _⟩ := hx
    · cases mem
    · cases present
      cases hk
  bound := (burstsOnBoundFrames_iff t).mpr fun p b hb => by
    rw [State.burst, ports, reset_ports] at hb
    cases hb

theorem Stage.burst?_held (st : Stage) : st.held.burst? = none := by cases st <;> rfl

theorem CleanAndBound.execResetAssert (h : CleanAndBound s) (canonical : MemoryCanonical s) (accounted : FramesAccounted s) :
    Leads CleanAndBound True (execResetAssert s) := by
  have lost := h.loseBurst canonical accounted
  unfold Machine.execResetAssert
  split
  · exact h
  · refine ⟨lost.zeros, (burstsOnBoundFrames_iff _).mpr fun p b hb => ?_⟩
    dsimp only [State.burst] at hb
    rw [State.mapPorts_get] at hb
    exact nomatch (Stage.burst?_held _).symm.trans hb

/-! ## Every step -/

/-- Every command keeps the clean frames zero and the bursts on bound frames. -/
theorem CleanAndBound.exec (h : CleanAndBound s) (counted : s.usesCounted) (canonical : MemoryCanonical s)
    (accounted : FramesAccounted s) (c : Instr) : Leads CleanAndBound True (exec c s) := by
  cases on_path : onPath c with
  | false => exact h.leads counted (follows_exec c on_path)
  | true =>
    cases c with
    | grantDecision => exact h.execGrantDecision counted
    | burstCompletion p => exact h.execBurstCompletion counted canonical accounted p
    | scrubBurstCompletion => exact h.execScrubBurstCompletion counted canonical accounted
    | resetAssert => exact h.execResetAssert canonical accounted
    | powerOn => exact CleanAndBound.atReset rfl rfl
    | _ => cases on_path

end OnPath

/-- Settles O55: only bursts and the scrubber write, a burst writes in a frame that is on no list, and the scrubber zeros. -/
theorem stepKeepsCleanFramesZero : Obligations.StepKeepsCleanFramesZero := by
  intro s t canonical accounted _ sound bound zeros e
  have led : Leads CleanAndBound True (step s) := by
    unfold step
    split
    · exact ⟨zeros, bound⟩
    · next c rest _ =>
      exact CleanAndBound.exec (s := { s with pending := rest }) ⟨zeros, bound⟩ sound.usesCounted canonical accounted c
  rw [e] at led
  exact ⟨led.zeros, led.bound⟩

end Sys2Proof.Machine
end

