-- ==== Sys2Proof/Proofs/AccessChecks.lean ====
section
/-! PROOFS. The Access Checker (R64 to R71): its checks of a data request are the twelve that R64 lists, in that order, and a
request that fails one is answered with its code and changes nothing else. -/

namespace Sys2Proof.Machine

/-! ## The single checks, as R65 to R70 say them -/

theorem badData_iff (k : DataKind) (f : DataFields) :
    badData k f = true ↔ ¬(f.payload.length = k.payloadLength f.length ∧ 1 ≤ f.length ∧ f.length ≤ k.maxLength
      ∧ (k = .cas → f.length = 4)) := by
  cases k
  all_goals
    simp only [badData, DataKind.payloadLength, DataKind.maxLength, Bool.or_eq_true, bne_iff_ne, beq_iff_eq,
      decide_eq_true_eq, ne_eq, reduceCtorEq, IsEmpty.forall_iff, forall_const, and_true]
    omega

/-- BAD_FRAME of a body that holds the fixed fields (R65). -/
theorem DataKind.fields_eq (k : DataKind) {body : List Byte} {f : DataFields} (hf : dataFields body = some f) :
    k.fields body = if badData k f = true then none else some f := by
  unfold DataKind.fields
  rw [hf]
  exact (ite_not ..).symm.trans (if_congr (badData_iff k f).symm rfl rfl)

theorem DataKind.fields_none (k : DataKind) {body : List Byte} (hf : dataFields body = none) : k.fields body = none := by
  unfold DataKind.fields
  rw [hf]

/-- A body below five bytes does not hold the fixed fields (section 11.6). -/
theorem dataFields_of_short {body : List Byte} (short : body.length < 5) : dataFields body = none := by
  match body, short with
  | [], _ => rfl
  | [_], _ => rfl
  | [_, _], _ => rfl
  | [_, _, _], _ => rfl
  | [_, _, _, _], _ => rfl
  | _ :: _ :: _ :: _ :: _ :: _, short => exact absurd short (by simp)

/-- RIGHTS (R67). -/
theorem lacksRight_eq (k : DataKind) (r : Rights) : lacksRight k r = !k.permitted r := by
  cases k with
  | cas => exact (Bool.not_and ..).symm
  | read | write | post => rfl

/-- CLAIMED (R69). -/
theorem Share.claimedAgainst_eq (sh : Share) (p : Port) : sh.claimedAgainst p = sh.claim.any fun c => c.holder != p := by
  unfold Share.claimedAgainst
  cases sh.claim <;> rfl

/-- The need of a request (R70): none for a READ. -/
def State.need (s : State) (k : DataKind) (f : DataFields) (v : Handle) : List SlotNo :=
  if k = .read then [] else (s.share v.share).unbackedSlots (v.base + f.offset) f.length

/-- The pool's verdict on the need is R64's last two checks: POOL_EMPTY before POOL_BUSY (R53, R70). -/
theorem firstFailing_pool (s : State) (k : DataKind) (f : DataFields) (v : Handle) :
    firstFailing [(k != .read && decide (s.pool.supply < (s.share v.share).needOf (v.base + f.offset) f.length), .poolEmpty),
      (k != .read && decide (s.pool.clean.length < (s.share v.share).needOf (v.base + f.offset) f.length), .poolBusy)]
      = s.pool.verdict (s.need k f v).length := by
  have clean_le : s.pool.clean.length ≤ s.pool.supply := by unfold Pool.supply; omega
  have needed : ((s.share v.share).unbackedSlots (v.base + f.offset) f.length).length
      = (s.share v.share).needOf (v.base + f.offset) f.length := List.countP_eq_length_filter.symm
  unfold State.need Pool.verdict
  by_cases read : k = .read
  · rw [if_pos read, read]
    rfl
  · rw [if_neg read, needed, bne_iff_ne.mpr read]
    simp only [firstFailing, Bool.true_and, decide_eq_true_eq]
    generalize (s.share v.share).needOf (v.base + f.offset) f.length = n
    by_cases clean : n ≤ s.pool.clean.length
    · rw [if_pos clean, if_neg (by omega), if_neg (by omega)]
    · rw [if_neg clean]
      by_cases supply : n ≤ s.pool.supply
      · rw [if_pos supply, if_neg (by omega), if_pos (by omega)]
      · rw [if_neg supply, if_pos (by omega)]

/-! ## The ordered checks (R64) -/

/-- What the checker finds for a request that passes. -/
def State.admission (s : State) (k : DataKind) (f : DataFields) (v : Handle) : Admit :=
  { handle := v, fields := f, need := s.need k f v }

/-- Priorities 7 to 12 for a request whose handle resolved to `v`. -/
def accessChecks (s : State) (p : Port) (k : DataKind) (f : DataFields) (v : Handle) : List (Bool × Result) :=
  [(lacksRight k v.rights, .rights),
   (k == .cas && f.offset % 4 != 0, .align),
   (decide (v.length < f.offset + f.length), .window),
   (k != .read && (s.share v.share).claim.any fun c => c.holder != p, .claimed),
   (k != .read && decide (s.pool.supply < (s.share v.share).needOf (v.base + f.offset) f.length), .poolEmpty),
   (k != .read && decide (s.pool.clean.length < (s.share v.share).needOf (v.base + f.offset) f.length), .poolBusy)]

/-- The checker refuses with the first check that fails, and else admits. -/
def admitUnless (checks : List (Bool × Result)) (act : Except Result Admit) : Except Result Admit :=
  match firstFailing checks with
  | some code => .error code
  | none => act

theorem admitUnless_cons (bad : Bool) (code : Result) (checks : List (Bool × Result)) (act : Except Result Admit) :
    admitUnless ((bad, code) :: checks) act = if bad = true then .error code else admitUnless checks act := by
  cases bad <;> rfl

theorem admitUnless_append (a b : List (Bool × Result)) (act : Except Result Admit) :
    admitUnless (a ++ b) act = admitUnless a (admitUnless b act) := by
  induction a with
  | nil => rfl
  | cons c a ih =>
    obtain ⟨bad, code⟩ := c
    rw [List.cons_append, admitUnless_cons, admitUnless_cons, ih]

theorem checkAccess_eq (s : State) (p : Port) (k : DataKind) (f : DataFields) (v : Handle) :
    s.checkAccess p k f v = admitUnless (accessChecks s p k f v) (.ok (s.admission k f v)) := by
  unfold State.checkAccess accessChecks
  rw [admitUnless_cons, admitUnless_cons, admitUnless_cons, admitUnless_cons]
  refine if_congr (by rw [lacksRight_eq, Bool.not_eq_true']) rfl ?_
  refine if_congr (by rw [Bool.and_eq_true, beq_iff_eq, bne_iff_ne]) rfl ?_
  refine if_congr decide_eq_true_iff.symm rfl ?_
  refine if_congr (by rw [Bool.and_eq_true, bne_iff_ne, Share.claimedAgainst_eq]) rfl ?_
  unfold admitUnless
  rw [firstFailing_pool]
  rfl

/-- What the checker finds for a request that passes, through the handle at the number it names. -/
def State.admissionAt (s : State) (p : Port) (k : DataKind) (f : DataFields) : Except Result Admit :=
  match s.entryAt p f.handle with
  | some v => .ok (s.admission k f v)
  | none => .error .handleEmpty

theorem checkData_eq (s : State) (p : Port) (k : DataKind) {body : List Byte} {f : DataFields}
    (hf : dataFields body = some f) :
    s.checkData p k body = admitUnless (dataChecks s p k f) (s.admissionAt p k f) := by
  unfold State.checkData dataChecks
  rw [admitUnless_append, admitUnless_append, admitUnless_cons, admitUnless_cons, k.fields_eq hf]
  refine if_congr (by rw [Bool.not_eq_true']) rfl ?_
  cases badData k f with
  | true => rfl
  | false =>
    simp only [Bool.false_eq_true, if_false]
    unfold admitUnless State.admissionAt
    rw [firstFailing_resolution]
    cases resolved : s.resolve p f.handle with
    | error code => rfl
    | ok found =>
      obtain ⟨h, v⟩ := found
      rw [entryAt_of_resolve resolved]
      exact checkAccess_eq s p k f v

theorem checkData_of_failing {s : State} {p : Port} {k : DataKind} {body : List Byte} {f : DataFields}
    (hf : dataFields body = some f) {code : Result} (failing : firstFailing (dataChecks s p k f) = some code) :
    s.checkData p k body = .error code := by
  rw [checkData_eq s p k hf, admitUnless, failing]

theorem checkData_of_passing {s : State} {p : Port} {k : DataKind} {body : List Byte} {f : DataFields}
    (hf : dataFields body = some f) (passing : firstFailing (dataChecks s p k f) = none) {h : HandleNo} {v : Handle}
    (r : Resolves s p f.handle h v) : s.checkData p k body = .ok (s.admission k f v) := by
  rw [checkData_eq s p k hf, admitUnless, passing, State.admissionAt, entryAt_of_resolve (resolve_of_resolves r)]

/-- A body without the fixed fields is refused behind NOT_ATTACHED alone (R65). -/
theorem checkData_badBody {s : State} {p : Port} {k : DataKind} {body : List Byte} (hf : dataFields body = none) :
    s.checkData p k body = .error (badBody s p) := by
  unfold State.checkData badBody
  rw [k.fields_none hf]
  cases s.isAttached p <;> rfl

/-! ## The take of a data request -/

theorem dequeue_dataChecks (s : State) (p : Port) (f : Frame) (q : Port) (k : DataKind) (d : DataFields) :
    dataChecks (s.dequeue p f) q k d = dataChecks s q k d := by
  simp only [dataChecks, dequeue_isAttached, dequeue_entryAt, dequeue_resolution]
  rfl

theorem dequeue_resolves {s : State} {p q : Port} {b : Byte} {h : HandleNo} {v : Handle} (f : Frame)
    (r : Resolves s q b h v) : Resolves (s.dequeue p f) q b h v := by
  obtain ⟨number, valid, current⟩ := r
  exact ⟨number, (dequeue_handle s p f q h).trans valid, current⟩

section Taken

variable {s : State} {p : Port} {kind : Byte} {k : DataKind} {fr : Frame} (h : Takes s p kind fr)

include h

/-- A request that the checker refuses is answered with the code (R71). -/
theorem takeData_of_refused {code : Result} (refused : (s.dequeue p fr).checkData p k fr.body = .error code) :
    s.takeData p kind k = .next ((s.dequeue p fr).answer p fr (Reply.refusal code)) := by
  obtain ⟨next, rfl, -⟩ := h
  unfold State.takeData
  rw [takeBy_of_next next (by simp), refused]
  rfl

/-- A request that the checker admits starts its operation (R72). -/
theorem takeData_of_admitted {a : Admit} (admitted : (s.dequeue p fr).checkData p k fr.body = .ok a) :
    s.takeData p kind k = .next ((s.dequeue p fr).startOperation p k a).settle := by
  obtain ⟨next, rfl, -⟩ := h
  unfold State.takeData
  rw [takeBy_of_next next (by simp), admitted]

/-- A refusal changes nothing but the response (R71). -/
theorem onlyAnswers_of_refused (post : kind ≠ kindPost) {code : Result}
    (refused : (s.dequeue p fr).checkData p k fr.body = .error code) :
    ∃ t, s.takeData p kind k = .next t ∧ OnlyAnswers s t p fr (Reply.refusal code) := by
  refine ⟨_, takeData_of_refused h refused, ?_⟩
  obtain ⟨-, rfl, completed⟩ := h
  exact onlyAnswers_answer _ completed post

end Taken

/-- READ, WRITE and CAS are taken as data requests of their kinds. -/
theorem exec_dataRequest {p : Port} {c : Instr} {kind : Byte} {k : DataKind}
    (which : (c, kind, k) ∈ [(Instr.read p, (0x30 : Byte), DataKind.read), (.write p, 0x31, .write), (.cas p, 0x34, .cas)])
    (s : State) : exec c s = s.takeData p kind k ∧ kind ≠ kindPost := by
  simp only [List.mem_cons, List.not_mem_nil, or_false] at which
  rcases which with e | e | e
  all_goals
    cases e
    exact ⟨rfl, by decide⟩

/-- Settles O26: the checker makes its checks as R64 lists them (`checkData_eq`), and refuses with the first that fails. -/
theorem dataRequestsRefuse : Obligations.DataRequestsRefuse := by
  intro s p fr c kind k which takes
  obtain ⟨taken, post⟩ := exec_dataRequest which s
  rw [taken]
  refine ⟨fun short => ?_, fun f code fields failing => ?_⟩
  · have bad := checkData_badBody (s := s.dequeue p fr) (p := p) (k := k) (dataFields_of_short short)
    rw [badBody_dequeue] at bad
    exact onlyAnswers_of_refused takes post bad
  · rw [← dequeue_dataChecks s p fr] at failing
    exact onlyAnswers_of_refused takes post (checkData_of_failing fields failing)

end Sys2Proof.Machine
end

