-- ==== Sys2Proof/Proofs/Pieces.lean ====
section
/-! PROOFS. The pieces of an operation and its end (R74 to R76, R84 to R86): which piece the data stage reaches, the zeros that a
READ is given for an UNBACKED part of its span, and that an operation's end is the one `OperationEnded` speaks of. -/

namespace Sys2Proof.Machine

/-! ## Bytes delivered -/

theorem Operation.deliver_nil (op : Operation) : op.deliver [] 0 = op := by
  obtain ⟨kind, share, generation, start, length, pos⟩ := op
  cases kind with
  | read delivered => simp [Operation.deliver]
  | write _ | cas _ _ | post _ => rfl

theorem Operation.deliver_deliver (op : Operation) (a b : List Byte) (m n : Nat) :
    (op.deliver a m).deliver b n = op.deliver (a ++ b) (m + n) := by
  obtain ⟨kind, share, generation, start, length, pos⟩ := op
  cases kind with
  | read delivered => simp [Operation.deliver, Nat.add_assoc]
  | write _ | cas _ _ | post _ => simp [Operation.deliver, Nat.add_assoc]

theorem Operation.deliver_of_read {op : Operation} {delivered : List Byte} (kind : op.kind = .read delivered)
    (bs : List Byte) (n : Nat) : op.deliver bs n = { op with kind := .read (delivered ++ bs), pos := op.pos + n } := by
  unfold Operation.deliver
  rw [kind]

theorem Operation.generation_deliver (op : Operation) (bs : List Byte) (n : Nat) :
    (op.deliver bs n).generation = op.generation := by
  unfold Operation.deliver
  split <;> rfl

theorem Share.recheck_deliver (sh : Share) (op : Operation) (bs : List Byte) (n : Nat) :
    sh.recheck (op.deliver bs n) = sh.recheck op := by
  unfold Share.recheck
  rw [op.generation_deliver]

/-- The operation once it is given zeros up to share offset `x` (R74). -/
def Operation.zerosTo (op : Operation) (x : Nat) : Operation := op.deliver (List.replicate (x - op.pos) 0) (x - op.pos)

theorem Operation.zerosTo_of_read {op : Operation} {delivered : List Byte} (kind : op.kind = .read delivered) {x : Nat}
    (h : op.pos ≤ x) :
    op.zerosTo x = { op with kind := .read (delivered ++ List.replicate (x - op.pos) 0), pos := x } := by
  rw [Operation.zerosTo, Operation.deliver_of_read kind, Nat.add_sub_of_le h]

theorem Operation.zerosTo_pos (op : Operation) : op.zerosTo op.pos = op := by
  rw [Operation.zerosTo, Nat.sub_self]
  exact op.deliver_nil

theorem Operation.pos_zerosTo {op : Operation} {x : Nat} (h : op.pos ≤ x) : (op.zerosTo x).pos = x := by
  rw [Operation.zerosTo, op.pos_deliver, Nat.add_sub_of_le h]

theorem Operation.zerosTo_zerosTo {op : Operation} {x y : Nat} (hx : op.pos ≤ x) (hy : x ≤ y) :
    (op.zerosTo x).zerosTo y = op.zerosTo y := by
  have sum : x - op.pos + (y - x) = y - op.pos := by omega
  rw [Operation.zerosTo, Operation.pos_zerosTo hx, Operation.zerosTo, op.deliver_deliver, List.replicate_append_replicate, sum]
  rfl

/-! ## The piece reached -/

section Reached

variable {sh : Share} {op : Operation} {fuel : Nat}

theorem reachPiece_of_stop (stop : op.stop ≤ op.pos) : reachPiece sh (fuel + 1) op = .finished op := if_pos stop

/-- A piece in a backed slot is requested as a burst, and so is every piece of a write-type operation (R84). -/
theorem reachPiece_of_backed (left : op.pos < op.stop)
    (backed : op.kind.isRead = true → (sh.frameAt op.slot).isSome = true) : reachPiece sh (fuel + 1) op = .burst op := by
  unfold reachPiece
  rw [if_neg (Nat.not_le.mpr left), if_neg]
  intro both
  obtain ⟨read, unbacked⟩ := Bool.and_eq_true_iff.mp both
  rw [Option.isNone_iff_eq_none.mp unbacked] at backed
  exact Bool.noConfusion (backed read)

/-- A READ in an UNBACKED slot that fails its recheck is cut (R75, R76). -/
theorem reachPiece_of_cut (left : op.pos < op.stop) (read : op.kind.isRead = true) (unbacked : sh.frameAt op.slot = none)
    {code : Result} (fails : sh.recheck op = some code) : reachPiece sh (fuel + 1) op = .cut op code := by
  unfold reachPiece
  rw [if_neg (Nat.not_le.mpr left), read, unbacked, fails]
  rfl

/-- A READ in an UNBACKED slot that passes its recheck is given zeros to the end of the slot or of its span (R74). -/
theorem reachPiece_of_unbacked (left : op.pos < op.stop) (read : op.kind.isRead = true)
    (unbacked : sh.frameAt op.slot = none) (passes : sh.recheck op = none) :
    reachPiece sh (fuel + 1) op = reachPiece sh fuel (op.zerosTo (min op.stop ((op.slot + 1) * 1024))) := by
  conv_lhs => unfold reachPiece
  rw [if_neg (Nat.not_le.mpr left), read, unbacked, passes]
  rfl

/-- A READ that passes its recheck is given zeros for a whole UNBACKED part of its span, slot by slot, and reaches the first
backed byte behind it, or the end of the span. -/
theorem reachPiece_zeros (enough : op.stop - op.pos < fuel) (read : op.kind.isRead = true) (passes : sh.recheck op = none)
    {x : Nat} (lo : op.pos ≤ x) (hi : x ≤ op.stop) (unbacked : ∀ y, op.pos ≤ y → y < x → sh.frameAt (y / 1024) = none)
    (stops : x = op.stop ∨ (sh.frameAt (x / 1024)).isSome = true) :
    ∃ fuel', reachPiece sh fuel op = reachPiece sh (fuel' + 1) (op.zerosTo x) := by
  induction fuel generalizing op with
  | zero => exact absurd enough (Nat.not_lt_zero _)
  | succ fuel ih =>
    by_cases here : op.pos = x
    · rw [← here, op.zerosTo_pos]
      exact ⟨fuel, rfl⟩
    · have before : op.pos < x := Nat.lt_of_le_of_ne lo here
      have none_here : sh.frameAt op.slot = none := unbacked op.pos (Nat.le_refl _) before
      have slot_ends : op.pos < (op.slot + 1) * 1024 := by
        unfold Operation.slot Config.frameBytes
        omega
      have slot_before : min op.stop ((op.slot + 1) * 1024) ≤ x := by
        obtain stop | backed := stops
        · omega
        · have other : x / 1024 ≠ op.slot := fun e => by
            rw [e, none_here] at backed
            cases backed
          have : op.slot = op.pos / 1024 := rfl
          omega
      rw [reachPiece_of_unbacked (Nat.lt_of_lt_of_le before hi) read none_here passes]
      generalize next : min op.stop ((op.slot + 1) * 1024) = e at slot_before
      have forward : op.pos < e := by omega
      have pos : (op.zerosTo e).pos = e := Operation.pos_zerosTo (Nat.le_of_lt forward)
      have stop : (op.zerosTo e).stop = op.stop := op.stop_deliver ..
      rw [← Operation.zerosTo_zerosTo (Nat.le_of_lt forward) slot_before]
      refine ih ?_ ((op.isRead_deliver ..).trans read) ((sh.recheck_deliver op ..).trans passes) ?_ ?_ ?_ ?_
      · rw [pos, stop]
        omega
      · rw [pos]
        exact slot_before
      · rw [stop]
        exact hi
      · rw [pos]
        exact fun y hy => unbacked y (by omega)
      · rw [stop]
        exact stops

end Reached

section Advanced

variable {s : State} {p : Port} {op op' : Operation}

theorem advance_of_burst (h : reachPiece (s.share op.share) (op.stop - op.pos + 1) op = .burst op') :
    s.advance p op = s.setStage p { (s.port p).stage with stage := .waiting op' } := by
  unfold State.advance
  rw [h]

theorem advance_of_finished (h : reachPiece (s.share op.share) (op.stop - op.pos + 1) op = .finished op') :
    s.advance p op = s.endOperation p op' op'.doneReply := by
  unfold State.advance
  rw [h]

theorem advance_of_cut {code : Result} (h : reachPiece (s.share op.share) (op.stop - op.pos + 1) op = .cut op' code) :
    s.advance p op = s.endOperation p op' (some (op'.cutReply code)) := by
  unfold State.advance
  rw [h]

/-- A READ with a backed byte ahead waits at the first one, with zeros for what stands before it (R74, R76). -/
theorem advance_to_backed (read : op.kind.isRead = true) (passes : (s.share op.share).recheck op = none) {x : Nat}
    (lo : op.pos ≤ x) (hi : x < op.stop) (unbacked : ∀ y, op.pos ≤ y → y < x → (s.share op.share).frameAt (y / 1024) = none)
    (backed : ((s.share op.share).frameAt (x / 1024)).isSome = true) :
    s.advance p op = s.setStage p { (s.port p).stage with stage := .waiting (op.zerosTo x) } := by
  obtain ⟨fuel, reached⟩ := reachPiece_zeros (Nat.lt_succ_self _) read passes lo (Nat.le_of_lt hi) unbacked (.inr backed)
  have pos := Operation.pos_zerosTo lo
  refine advance_of_burst (reached.trans (reachPiece_of_backed ?_ fun _ => ?_))
  · rw [pos]
    exact (op.stop_deliver ..).symm ▸ hi
  · rw [Operation.slot, pos]
    exact backed

/-- A READ with no backed byte ahead ends with zeros for the rest (R74, R78). -/
theorem advance_to_stop (read : op.kind.isRead = true) (passes : (s.share op.share).recheck op = none)
    (lo : op.pos ≤ op.stop)
    (unbacked : ∀ y, op.pos ≤ y → y < op.stop → (s.share op.share).frameAt (y / 1024) = none) :
    s.advance p op = s.endOperation p (op.zerosTo op.stop) (op.zerosTo op.stop).doneReply := by
  obtain ⟨fuel, reached⟩ := reachPiece_zeros (Nat.lt_succ_self _) read passes lo (Nat.le_refl _) unbacked (.inl rfl)
  refine advance_of_finished (reached.trans (reachPiece_of_stop ?_))
  rw [Operation.pos_zerosTo lo]
  exact Nat.le_of_eq (op.stop_deliver ..)

end Advanced

/-! ## The end of an operation (R86, R11) -/

section Ended

variable (s : State) (p : Port) (op : Operation) (answer : Option Reply)

/-- The use of entry `i` ends. -/
def State.lowerUse (i : ShareIdx) : State := s.modShare i fun sh => { sh with inUse := sh.inUse - 1 }

theorem lowerUse_share (i : ShareIdx) : (s.lowerUse i).shares[i] = { s.share i with inUse := (s.share i).inUse - 1 } :=
  State.modShare_same ..

variable {s} in
theorem releaseUse_of_retiring {i : ShareIdx} (retires : (s.share i).state = .closing ∧ (s.share i).inUse - 1 = 0) :
    s.releaseUse i = (s.lowerUse i).retire i :=
  retireIfDone_of_done (by rw [State.modShare_same]; exact retires.1) (by rw [State.modShare_same]; exact retires.2)

variable {s} in
theorem releaseUse_of_staying {i : ShareIdx} (stays : ¬((s.share i).state = .closing ∧ (s.share i).inUse - 1 = 0)) :
    s.releaseUse i = s.lowerUse i := by
  unfold State.releaseUse State.retireIfDone
  rw [State.share_eq, State.modShare_same]
  exact if_neg fun both => stays (by simpa using both)

/-- Nothing of a port but its handles and its data stage is touched by the end of a use. -/
theorem releaseUse_port (i : ShareIdx) (q : Port) : (s.releaseUse i).ports[q] = { s.ports[q] with
    handles := (s.releaseUse i).ports[q].handles, stage := (s.releaseUse i).ports[q].stage } := by
  unfold State.releaseUse State.retireIfDone
  split
  · rw [retire_ports]
    rfl
  · rfl

theorem endOperation_port (q : Port) : (s.endOperation p op answer).ports[q] = { s.ports[q] with
    handles := (s.releaseUse op.share).ports[q].handles
    link := (s.endOperation p op answer).ports[q].link
    stage := if q = p then { stage := .empty, abandon := false } else (s.releaseUse op.share).ports[q].stage } := by
  have placed : (s.released p op answer).ports[q] = { (s.releaseUse op.share).ports[q] with
      link := (s.released p op answer).ports[q].link } := by
    cases answer with
    | none => rfl
    | some r =>
      rw [State.released, State.placeResponse_eq, State.modPort_get]
      split
      · next e => rw [e]
      · rfl
  rw [endOperation_eq, State.setStage_eq, State.modPort_get]
  split
  · next e =>
    subst e
    rw [placed, releaseUse_port]
  · rw [placed, releaseUse_port]

theorem endOperation_link : (s.endOperation p op answer).ports[p].link = { s.ports[p].link with
    responses := match answer.map fun r => (op.kind.requestKind, r) with
      | some (kind, r) => completeReserved kind r s.ports[p].link.responses
      | none => s.ports[p].link.responses } := by
  have kept : (s.releaseUse op.share).ports[p].link = s.ports[p].link := by rw [releaseUse_port]
  rw [endOperation_eq, State.setStage_eq, State.modPort_same]
  cases answer with
  | none => exact kept
  | some r =>
    rw [State.released, State.placeResponse_eq, State.modPort_same, kept]
    rfl

theorem endOperation_link_other {q : Port} (h : q ≠ p) : (s.endOperation p op answer).ports[q].link = s.ports[q].link := by
  have kept : (s.releaseUse op.share).ports[q].link = s.ports[q].link := by rw [releaseUse_port]
  rw [endOperation_eq, State.setStage_eq, State.modPort_other _ _ h]
  cases answer with
  | none => exact kept
  | some r => rw [State.released, State.placeResponse_eq, State.modPort_other _ _ h, kept]

/-- The retirement of an entry without operations leaves it as R11 says, under its name and count. -/
theorem Share.retired_eq_closed {sh : Share} (unused : sh.inUse = 0) :
    sh.retired = { sh.closed with name := sh.name, handleCount := sh.handleCount } := by
  unfold Share.closed
  rw [if_pos unused]
  rfl

/-- The end of an operation, at the close of its event. -/
theorem operationEnded : OperationEnded s (s.endOperation p op answer).settle p op.share
    (answer.map fun r => (op.kind.requestKind, r)) := by
  have shares : (s.endOperation p op answer).settle.shares = (s.releaseUse op.share).shares :=
    (State.settle_shares _).trans (endOperation_shares ..)
  have pool : (s.endOperation p op answer).settle.pool = (s.releaseUse op.share).pool :=
    (State.settle_pool _).trans (endOperation_pool ..)
  have port (q : Port) := (s.endOperation p op answer).settle_get q
  have handles (q : Port) :
      (s.endOperation p op answer).settle.ports[q].handles = (s.releaseUse op.share).ports[q].handles := by
    rw [port, endOperation_port]
  have stage (q : Port) (h : q ≠ p) :
      (s.endOperation p op answer).settle.ports[q].stage = (s.releaseUse op.share).ports[q].stage := by
    rw [port, endOperation_port, if_neg h]
  refine ⟨fun retires => ?_, fun stays => ?_, ?_, ?_, fun q => ?_, fun j hj => ?_⟩
  · rw [releaseUse_of_retiring retires] at shares pool handles stage
    have generation := congrArg Share.generation (lowerUse_share s op.share)
    refine ⟨?_, ?_, fun q k => ?_, fun q hq => ?_⟩
    · rw [State.share_eq, shares, retire_shares, if_pos rfl, lowerUse_share]
      exact Share.retired_eq_closed retires.2
    · rw [pool, retire_pool, lowerUse_share]
      rfl
    · rw [State.handle_eq _ q k, State.handle_eq, handles, retire_handle, generation]
      exact stepped_afterStep _ _ _
    · rw [State.port_eq _ q, State.port_eq, stage q hq, retire_ports, generation]
      exact stageStepped_afterStep _ _ _
  · rw [releaseUse_of_staying stays] at shares pool handles stage
    exact ⟨(congrArg (·[op.share]) shares).trans (lowerUse_share ..), pool, handles, stage⟩
  · rw [State.port_eq, port, endOperation_port, if_pos rfl]
  · rw [State.port_eq, port, endOperation_link]
    rfl
  · rw [State.port_eq, State.port_eq, port, endOperation_port]
    exact ⟨rfl, rfl, rfl, fun h => endOperation_link_other s p op answer h⟩
  · rw [State.share_eq, shares]
    exact (retireIfDone_shares_other _ hj).trans (State.modShare_other _ _ hj)

end Ended

/-- A port that is not CLEANING has no cleanup to complete (R148). -/
theorem finishCleanup_of_not_cleaning {s : State} {p : Port} (h : (s.port p).attach.state ≠ .cleaning) :
    s.finishCleanup p = s :=
  if_neg fun both => h (beq_iff_eq.mp (Bool.and_eq_true_iff.mp both).1)

end Sys2Proof.Machine
end

