-- ==== Sys2Proof/Proofs/Admissions.lean ====
section
/-! PROOFS. The admission of READ, WRITE and CAS (R72): the frames bound, the use counted, and the data stage of the port, which
waits for the path or, for a READ of UNBACKED slots alone, has ended in the same event. -/

namespace Sys2Proof.Machine

/-! ## The checks passed -/

section Passing

variable {s : State} {p : Port} {kind : Byte} {k : DataKind} {fr : Frame} {f : DataFields} {h : HandleNo} {v : Handle}

theorem dequeue_stage (s : State) (p : Port) (fr : Frame) : ((s.dequeue p fr).port p).stage = (s.port p).stage := by
  rw [State.port_eq, dequeue_port]
  rfl

/-- A request that passes its checks starts its operation on the share of its handle (R72). -/
theorem takeData_of_passing (takes : Takes s p kind fr) (hf : dataFields fr.body = some f)
    (passing : firstFailing (dataChecks s p k f) = none) (r : Resolves s p f.handle h v) :
    (s.dequeue p fr).checkData p k fr.body = .ok (s.admission k f v)
      ∧ s.takeData p kind k = .next ((s.dequeue p fr).startOperation p k (s.admission k f v)).settle := by
  rw [← dequeue_dataChecks s p fr] at passing
  have admitted : (s.dequeue p fr).checkData p k fr.body = .ok (s.admission k f v) :=
    checkData_of_passing hf passing (dequeue_resolves fr r)
  exact ⟨admitted, takeData_of_admitted takes admitted⟩

end Passing

/-! ## The state of an admission whose operation waits -/

/-- The request `fr` of port `p` is taken and admitted, and its operation waits in the data stage. -/
def State.admitted (s : State) (p : Port) (fr : Frame) (a : Admit) (op : Operation) : State :=
  (((s.dequeue p fr).admitting a).setStage p { (s.port p).stage with stage := .waiting op }).settle

section Admitted

variable (s : State) (p : Port) (fr : Frame) (a : Admit) (op : Operation)

theorem admitting_ports (d : State) : (d.admitting a).ports = d.ports := rfl

theorem keeps_admitting (d : State) : Keeps d (d.admitting a) := (keeps_bindNeed _ _ _).trans (keeps_modShare _ _ _)

theorem admitted_shares (j : ShareIdx) : (s.admitted p fr a op).share j = if j = a.handle.share then
      (s.share a.handle.share).admitting a.need (s.pool.clean.take a.need.length)
    else s.share j := by
  rw [State.admitted, State.share_eq, State.settle_shares]
  exact admitting_shares (s.dequeue p fr) a j

theorem admitted_pool : (s.admitted p fr a op).pool = s.pool.take a.need.length := State.settle_pool _

theorem admitted_port (post : fr.kind ≠ kindPost) : (s.admitted p fr a op).port p = { s.port p with
    link := (s.port p).link.reserving fr
    stage := { (s.port p).stage with stage := .waiting op }
    attention := ((s.admitted p fr a op).port p).attention } := by
  have taken : ((s.dequeue p fr).admitting a).ports[p] = { s.ports[p] with link := s.ports[p].link.reserving fr } := by
    rw [admitting_ports, dequeue_eq, State.modPort_same, if_neg post]
    rfl
  unfold State.admitted
  rw [State.port_eq, State.settle_get, State.setStage_eq, State.modPort_same, taken]
  rfl

theorem admitted_others : OtherPortsSame s (s.admitted p fr a op) [p] := by
  intro q hq
  have other : q ≠ p := fun e => hq (List.mem_singleton.mpr e)
  have kept : ((s.dequeue p fr).admitting a).ports[q] = s.ports[q] := by
    rw [admitting_ports, dequeue_eq, State.modPort_other s _ other]
  unfold SamePort State.admitted
  rw [State.port_eq, State.settle_get, State.setStage_eq, State.modPort_other _ _ other, kept]
  rfl

theorem admitted_frame : OnlyPortsSharesPool s (s.admitted p fr a op) :=
  onlyPortsSharesPool_settle (((keeps_dequeue s p fr).trans (keeps_admitting a _)).trans (keeps_setStage _ p _))

end Admitted

/-! ## WRITE and CAS -/

/-- A write-type operation waits at its first byte (R84, R89, R91). -/
theorem startOperation_write {d : State} {p : Port} {k : DataKind} {a : Admit} (write : (a.operation k).kind.isRead = false)
    (length : 1 ≤ a.fields.length) : d.startOperation p k a
      = (d.admitting a).setStage p { (d.port p).stage with stage := .waiting (a.operation k) } := by
  rw [startOperation_eq]
  refine advance_of_burst (reachPiece_of_backed (Nat.lt_add_of_pos_right length) fun read => ?_)
  rw [write] at read
  cases read

/-- The slots of a need take the frames at the head of the clean list in slot order, and the others stay (R56). -/
theorem Admitted.frameMap {s : State} {p : Port} {k : DataKind} {a : Admit} (adm : Admitted s p k a) (j : SlotNo) :
    ((s.share a.handle.share).admitting a.need (s.pool.clean.take a.need.length)).frameMap[j]
      = if j ∈ a.need then s.pool.clean[a.need.idxOf j]? else (s.share a.handle.share).frameMap[j] := by
  refine (bindSlots_get adm.need_nodup _ _ j).trans (if_ctx_congr Iff.rfl (fun mem => ?_) fun _ => rfl)
  rw [List.getElem?_take_of_lt (List.idxOf_lt_length_of_mem mem), State.share_eq, adm.need_unbacked j mem, Option.or_none]

/-- Settles O27: the admission's state is `State.admitted`, with the operation at its first byte. -/
theorem writeAndCasAreAdmitted : Obligations.WriteAndCasAreAdmitted := by
  intro s p fr c kind k f h v which takes hf passing r i need
  obtain ⟨exec_eq, post⟩ := exec_dataRequest (List.mem_cons_of_mem _ which) s
  obtain ⟨ok, taken⟩ := takeData_of_passing takes hf passing r
  have adm := checkData_ok ok
  obtain ⟨not_read, write, kind_eq⟩ : k ≠ .read ∧ (k.opKind f).isRead = false
      ∧ k.opKind f = if k = .write then .write f.payload else .cas (f.payload.take 4) (f.payload.drop 4) := by
    simp only [List.mem_cons, List.not_mem_nil, or_false, Prod.mk.injEq] at which
    obtain ⟨-, -, rfl⟩ | ⟨-, -, rfl⟩ := which
    all_goals exact ⟨nofun, rfl, rfl⟩
  have needed : (s.admission k f v).need = need := if_neg not_read
  rw [startOperation_write (k := k) (a := s.admission k f v) write adm.length] at taken
  have stage := dequeue_stage s p fr
  rw [stage] at taken
  have post' : fr.kind ≠ kindPost := takes.2.1 ▸ post
  have share := admitted_shares s p fr (s.admission k f v) ((s.admission k f v).operation k)
  refine ⟨s.admitted p fr (s.admission k f v) ((s.admission k f v).operation k), exec_eq.trans taken, ?_, fun j => ?_, ?_, ?_,
    admitted_others s p fr _ _, fun j hj => (share j).trans (if_neg hj), admitted_frame ..⟩
  · rw [share, if_pos (show i = (s.admission k f v).handle.share from rfl)]
    rfl
  · rw [share, if_pos (show i = (s.admission k f v).handle.share from rfl), ← needed]
    exact adm.frameMap j
  · rw [admitted_pool, needed]
    rfl
  · rw [admitted_port s p fr _ _ post', ← kind_eq]
    rfl

/-! ## READ -/

/-- A READ needs no frame, so its admission raises the in-use count alone (R72, R73). -/
theorem admitting_read (d : State) {a : Admit} (need : a.need = []) :
    d.admitting a = d.modShare a.handle.share fun sh => { sh with inUse := sh.inUse + 1 } := by
  have bound : d.bindNeed a.handle.share a.need = d := by
    rw [need]
    exact State.modShare_self d a.handle.share
  rw [State.admitting, bound]

theorem State.modShare_undo (s : State) (i : ShareIdx) {f g : Share → Share} (undo : g (f s.shares[i]) = s.shares[i]) :
    (s.modShare i f).modShare i g = s := by
  have set_back : (s.modShare i f).modShare i g = s.modShare i fun _ => g (f s.shares[i]) := by
    simp [State.modShare]
  rw [set_back, undo, s.modShare_self]

theorem State.modPort_self (s : State) {p : Port} {f : PortState → PortState} (same : f s.ports[p] = s.ports[p]) :
    s.modPort p f = s := by
  unfold State.modPort
  rw [same, Fin.getElem_fin, Vector.set_getElem_self]

/-- An operation that ends in the event of its admission, on a live share, leaves its answer alone (R76, R86). -/
theorem endOperation_of_admitting {d : State} {p : Port} {a : Admit} {op : Operation} (need : a.need = [])
    (share : op.share = a.handle.share) (live : (d.share a.handle.share).live = true)
    (empty : (d.port p).stage = { stage := .empty, abandon := false }) (r : Reply) :
    (d.admitting a).endOperation p op (some r) = d.placeResponse p op.kind.requestKind r := by
  have not_closing : (d.share a.handle.share).state ≠ .closing := fun e => by
    rw [Share.live, e] at live
    cases live
  have raised : ((d.admitting a).share a.handle.share).state = (d.share a.handle.share).state := by
    rw [admitting_read d need, State.share_eq, State.modShare_same]
    rfl
  have used : (d.admitting a).releaseUse op.share = d := by
    rw [share, releaseUse_of_staying fun both => not_closing (raised.symm.trans both.1), admitting_read d need]
    exact d.modShare_undo _ rfl
  have placed : ((d.placeResponse p op.kind.requestKind r).port p).stage = { stage := .empty, abandon := false } := by
    rw [State.port_eq, State.placeResponse_eq, State.modPort_same]
    exact empty
  rw [endOperation_eq, State.released, used]
  exact State.modPort_self _ (by rw [← placed]; rfl)

section Read

variable {d : State} {p : Port} {a : Admit} (need : a.need = []) (current : d.current a.handle = true)

include need

theorem admitting_read_share :
    (d.admitting a).share a.handle.share = { d.share a.handle.share with inUse := (d.share a.handle.share).inUse + 1 } := by
  rw [admitting_read d need]
  exact State.modShare_same ..

theorem admitting_read_frameAt (k : Nat) :
    ((d.admitting a).share a.handle.share).frameAt k = (d.share a.handle.share).frameAt k := by
  rw [admitting_read_share need]
  rfl

include current

/-- A current handle passes the recheck of the READ admitted through it (R75). -/
theorem admitting_read_recheck : ((d.admitting a).share a.handle.share).recheck (a.operation .read) = none := by
  obtain ⟨alive, same⟩ := Bool.and_eq_true_iff.mp current
  rw [admitting_read_share need]
  refine (if_neg fun dead => ?_).trans (if_neg fun ne => ne (beq_iff_eq.mp same).symm)
  rw [show (d.share a.handle.share).live = false from dead] at alive
  cases alive

/-- A READ waits at the first backed byte of its span (R72, R74). -/
theorem startOperation_read_waits {x : Nat} (lo : a.handle.base + a.fields.offset ≤ x)
    (hi : x < a.handle.base + a.fields.offset + a.fields.length)
    (unbacked : ∀ y, a.handle.base + a.fields.offset ≤ y → y < x → (d.share a.handle.share).frameAt (y / 1024) = none)
    (backed : ((d.share a.handle.share).frameAt (x / 1024)).isSome = true) :
    d.startOperation p .read a
      = (d.admitting a).setStage p { (d.port p).stage with stage := .waiting ((a.operation .read).zerosTo x) } := by
  rw [startOperation_eq]
  refine advance_to_backed (op := a.operation .read) rfl (admitting_read_recheck need current) lo hi (fun y hy hx => ?_) ?_
  · exact (admitting_read_frameAt need _).trans (unbacked y hy hx)
  · exact (congrArg Option.isSome (admitting_read_frameAt need _)).trans backed

/-- A READ of UNBACKED slots alone has ended with zeros, and left no other trace (R76, R78). -/
theorem startOperation_read_ends (empty : (d.port p).stage = { stage := .empty, abandon := false })
    (unbacked : ∀ y, a.handle.base + a.fields.offset ≤ y → y < a.handle.base + a.fields.offset + a.fields.length →
      (d.share a.handle.share).frameAt (y / 1024) = none) :
    d.startOperation p .read a = d.placeResponse p kindRead (Reply.ok (.data (List.replicate a.fields.length 0))) := by
  have zeros : ((a.operation .read).zerosTo (a.operation .read).stop).doneReply
      = some (Reply.ok (.data (List.replicate a.fields.length 0))) := by
    have length : (a.operation .read).stop - (a.operation .read).pos = a.fields.length := Nat.add_sub_cancel_left ..
    rw [Operation.zerosTo, length]
    rfl
  rw [startOperation_eq, advance_to_stop (op := a.operation .read) rfl (admitting_read_recheck need current)
    (Nat.le_add_right ..) fun y hy hx => (admitting_read_frameAt need _).trans (unbacked y hy hx), zeros]
  exact endOperation_of_admitting need rfl (Bool.and_eq_true_iff.mp current).1 empty _

end Read

/-- Settles O28: the data stage goes on as `startOperation_read_waits` and `startOperation_read_ends` say. -/
theorem readIsAdmittedOrDeliveredAsZeros : Obligations.ReadIsAdmittedOrDeliveredAsZeros := by
  intro s p fr f h v takes hf passing r i start
  obtain ⟨ok, taken⟩ := takeData_of_passing takes hf passing r
  generalize adm : s.admission .read f v = a at ok taken
  have handle : a.handle = v := by rw [← adm]; rfl
  have fields : a.fields = f := by rw [← adm]; rfl
  have need : a.need = [] := by rw [← adm]; rfl
  subst handle fields
  have current : (s.dequeue p fr).current a.handle = true := r.2.2
  have stage := dequeue_stage s p fr
  have post : fr.kind ≠ kindPost := by rw [takes.2.1]; decide
  refine ⟨fun x lo hi backed unbacked => ?_, fun unbacked clear => ?_⟩
  · rw [startOperation_read_waits need current lo hi unbacked backed, stage] at taken
    have share := admitted_shares s p fr a ((a.operation .read).zerosTo x)
    have pool : (s.admitted p fr a ((a.operation .read).zerosTo x)).pool = s.pool := by
      rw [admitted_pool, need]
      rfl
    refine ⟨_, taken, ?_, ?_, admitted_others s p fr _ _, fun j hj => (share j).trans (if_neg hj),
      onlyPortsShares_of_pool (admitted_frame ..) pool⟩
    · refine (share i).trans ((if_pos rfl).trans ?_)
      rw [need]
      rfl
    · have op := Operation.zerosTo_of_read (op := a.operation .read) rfl lo
      refine (admitted_port s p fr _ _ post).trans ?_
      rw [op]
      rfl
  · have empty : ((s.dequeue p fr).port p).stage = { stage := .empty, abandon := false } := by
      rw [stage, ← clear, ← StepInvariant.stage_empty_of_next takes.1]
      rfl
    rw [startOperation_read_ends need current empty unbacked] at taken
    obtain ⟨-, kind, completed⟩ := takes
    rw [show kindRead = fr.kind from kind.symm] at taken
    exact ⟨_, taken, onlyAnswers_answer _ completed post⟩

end Sys2Proof.Machine
end

