-- ==== Sys2Proof/Proofs/ReadRechecks.lean ====
section
/-! PROOFS. The rechecks of a READ (R75, R76): at an UNBACKED rest of its span behind a burst, and at the grant of a burst (R88,
R118). Either lets the READ go on, or ends it CUT with the bytes delivered. -/

namespace Sys2Proof.Machine

/-! ## The recheck (R75) -/

theorem recheck_of_dead {sh : Share} {op : Operation} (dead : sh.live = false) : sh.recheck op = some .shareGone :=
  if_pos dead

theorem recheck_of_stale {sh : Share} {op : Operation} (live : sh.live = true) (stale : sh.generation ≠ op.generation) :
    sh.recheck op = some .stale := by
  unfold Share.recheck
  rw [live]
  exact if_pos stale

theorem recheck_of_same {sh : Share} {op : Operation} (live : sh.live = true) (same : sh.generation = op.generation) :
    sh.recheck op = none := by
  unfold Share.recheck
  rw [live]
  exact if_neg (not_not.mpr same)

theorem Operation.cutReply_of_read {op : Operation} {delivered : List Byte} (kind : op.kind = .read delivered)
    (code : Result) : op.cutReply code = { result := code, ending := .cut, body := .data delivered } := by
  rw [Operation.cutReply, Operation.delivered, kind]

theorem Operation.doneReply_of_read {op : Operation} {delivered : List Byte} (kind : op.kind = .read delivered) :
    op.doneReply = some (Reply.ok (.data delivered)) := by
  rw [Operation.doneReply, kind]

/-! ## The end of an operation in an event of the store path -/

/-- The state with this arbiter. -/
def State.withArbiter (s : State) (arbiter : Arbiter) : State := { s with arbiter := arbiter }

/-- An event that sets the arbiter changes the ports, the shares and the pool besides. -/
theorem frame_withArbiter {s t : State} {arbiter : Arbiter} (h : OnlyPortsSharesPool (s.withArbiter arbiter) t) :
    t.arbiter = arbiter ∧ t = { s with arbiter := t.arbiter, ports := t.ports, shares := t.shares, pool := t.pool
                                       restCountdown := t.restCountdown } := by
  have set : t.arbiter = arbiter := (congrArg State.arbiter h :)
  rw [set]
  exact ⟨rfl, h⟩

/-- An event that sets the arbiter and changes the ports alone besides. -/
theorem onlyPorts_withArbiter {s t : State} {arbiter : Arbiter} (h : OnlyPorts (s.withArbiter arbiter) t) :
    t.arbiter = arbiter ∧ t = { s with arbiter := t.arbiter, ports := t.ports, restCountdown := t.restCountdown } := by
  have set : t.arbiter = arbiter := (congrArg State.arbiter h :)
  rw [set]
  exact ⟨rfl, h⟩

/-- An operation of a port that is not CLEANING ends in an event that sets the arbiter. -/
theorem operationEnded_withArbiter {s t : State} {arbiter : Arbiter} {p : Port} {op : Operation} {r : Reply}
    (attached : (s.port p).attach.state ≠ .cleaning)
    (ended : t = (((s.withArbiter arbiter).endOperation p op (some r)).finishCleanup p).settle) :
    OperationEnded s t p op.share (some (op.kind.requestKind, r)) ∧ t.arbiter = arbiter
      ∧ t = { s with arbiter := t.arbiter, ports := t.ports, shares := t.shares, pool := t.pool
                     restCountdown := t.restCountdown } := by
  have not_cleaning : (((s.withArbiter arbiter).endOperation p op (some r)).port p).attach.state ≠ .cleaning := by
    rw [State.port_eq, endOperation_port]
    exact attached
  rw [finishCleanup_of_not_cleaning not_cleaning] at ended
  subst ended
  exact ⟨operationEnded (s.withArbiter arbiter) p op (some r),
    frame_withArbiter (onlyPortsSharesPool_settle (keeps_endOperation _ p op _))⟩

/-! ## The UNBACKED rest of a span (R76) -/

section Burst

variable {s : State} {p : Port} {op : Operation} {f : FrameNo} {bs : List Byte}

/-- The burst in flight of port `p` completes (R85, R119). -/
theorem exec_burstCompletion (running : s.running = true) (path : s.arbiter.path = .busy (.port p))
    (stage : (s.port p).stage.stage = .bursting op f bs) :
    exec (.burstCompletion p) s = .next ((s.freePath.completeBurst p op f bs).finishCleanup p).settle := by
  show execBurstCompletion p s = _
  unfold execBurstCompletion
  rw [stage]
  simp only [running, path, beq_self_eq_true, Bool.and_self, if_true, took_eq]

/-- A READ that is not abandoned stores nothing and takes the bytes of its grant (R87, R88). -/
theorem completeBurst_read {delivered : List Byte} (kept : (s.port p).stage.abandon = false)
    (kind : op.kind = .read delivered) :
    s.completeBurst p op f bs = s.advance p (op.deliver bs op.pieceLength) := by
  have nothing : op.written bs = [] := by rw [Operation.written, kind]
  unfold State.completeBurst
  rw [kept, nothing, kind]
  rfl

end Burst

/-- The answer of a READ before an UNBACKED rest of `n` bytes, once it has these delivered (R76, R78). -/
def Share.restAnswer (sh : Share) (generation : Nat) (delivered : List Byte) (n : Nat) : Reply :=
  if sh.live = false then { result := .shareGone, ending := .cut, body := .data delivered }
  else if sh.generation ≠ generation then { result := .stale, ending := .cut, body := .data delivered }
  else { result := .ok, ending := .done, body := .data (delivered ++ List.replicate n 0) }

/-- A READ ends at the UNBACKED rest of its span (R76). -/
theorem advance_at_rest {s : State} (p : Port) {op : Operation} {delivered : List Byte} (kind : op.kind = .read delivered)
    (left : op.pos < op.stop)
    (unbacked : ∀ y, op.pos ≤ y → y < op.stop → (s.share op.share).frameAt (y / 1024) = none) :
    ∃ op' : Operation, op'.share = op.share ∧ op'.kind.requestKind = kindRead
      ∧ s.advance p op = s.endOperation p op'
          (some ((s.share op.share).restAnswer op.generation delivered (op.stop - op.pos))) := by
  have read : op.kind.isRead = true := by rw [kind]; rfl
  have here : (s.share op.share).frameAt op.slot = none := unbacked op.pos (Nat.le_refl _) left
  have kept : op.kind.requestKind = kindRead := by rw [kind]; rfl
  have cut {code : Result} (fails : (s.share op.share).recheck op = some code) :=
    (advance_of_cut (p := p) (reachPiece_of_cut left read here fails)).trans (by rw [Operation.cutReply_of_read kind])
  unfold Share.restAnswer
  by_cases dead : (s.share op.share).live = false
  · rw [if_pos dead]
    exact ⟨op, rfl, kept, cut (recheck_of_dead dead)⟩
  have live : (s.share op.share).live = true := by simpa using dead
  rw [if_neg dead]
  by_cases stale : (s.share op.share).generation ≠ op.generation
  · rw [if_pos stale]
    exact ⟨op, rfl, kept, cut (recheck_of_stale live stale)⟩
  have same : (s.share op.share).generation = op.generation := not_not.mp stale
  have zeros := Operation.zerosTo_of_read kind (Nat.le_of_lt left)
  rw [if_neg stale]
  refine ⟨op.zerosTo op.stop, ?_, ?_, ?_⟩
  · rw [zeros]
  · rw [zeros]
    rfl
  · rw [advance_to_stop read (recheck_of_same live same) (Nat.le_of_lt left) unbacked,
      Operation.doneReply_of_read (congrArg Operation.kind zeros)]
    rfl

/-- Settles O31: the burst delivers its bytes, and the READ ends as `advance_at_rest` says. -/
theorem readMeetsAnUnbackedRest : Obligations.ReadMeetsAnUnbackedRest := by
  intro s p op f bs delivered running path stage kept attached kind left unbacked
  have goes_on : op.deliver bs op.pieceLength
      = { op with kind := .read (delivered ++ bs), pos := op.pos + op.pieceLength } := Operation.deliver_of_read kind _ _
  obtain ⟨op', share, request, ended⟩ := advance_at_rest (s := s.freePath) p
    (op := { op with kind := .read (delivered ++ bs), pos := op.pos + op.pieceLength }) rfl left unbacked
  have completed : s.freePath.completeBurst p op f bs = s.freePath.endOperation p op' _ :=
    (completeBurst_read (s := s.freePath) kept kind).trans ((congrArg (s.freePath.advance p) goes_on).trans ended)
  have closes := operationEnded_withArbiter (arbiter := { s.arbiter with path := .free }) attached
    (congrArg (fun u => (u.finishCleanup p).settle) completed)
  rw [share, request] at closes
  exact ⟨_, exec_burstCompletion running path stage, closes⟩

/-! ## The grant of a READ's burst (R75, R88, R116, R118) -/

/-- The scan stops at the first phase from the pointer whose requester waits (R116). -/
theorem decision_of_phase {s : State} {k : Fin 16}
    (before : ∀ j : Fin 16, j < k → s.waits s.arbiter.table[s.arbiter.pointer + j] = false)
    (waits : s.waits s.arbiter.table[s.arbiter.pointer + k] = true) :
    s.decision = some (s.arbiter.table[s.arbiter.pointer + k], s.arbiter.pointer + k + 1) := by
  have found : (scanOrder s.arbiter.pointer).find? (fun k => s.waits s.arbiter.table[k])
      = some (s.arbiter.pointer + k) := by
    rw [scanOrder, List.find?_map]
    exact congrArg (Option.map _) (find?_finRange_eq waits before)
  rw [State.decision, found]

section Grant

variable {s : State} {p : Port} {op : Operation}

theorem grantTo_waiting (stage : (s.port p).stage.stage = .waiting op) : s.grantTo (.port p) = s.grantPort p op := by
  unfold State.grantTo
  dsimp only
  rw [stage]

/-- The path is granted to the port of the phase that the scan stops at, whose operation waits. -/
theorem exec_grantDecision {k : Fin 16} (running : s.running = true) (path : s.arbiter.path = .free)
    (before : ∀ j : Fin 16, j < k → s.waits s.arbiter.table[s.arbiter.pointer + j] = false)
    (phase : s.arbiter.table[s.arbiter.pointer + k] = .port p) (stage : (s.port p).stage.stage = .waiting op) :
    exec .grantDecision s
      = (s.withArbiter { s.arbiter with pointer := s.arbiter.pointer + k + 1 }).grantPort p op := by
  have waits : s.waits s.arbiter.table[s.arbiter.pointer + k] = true := by
    rw [phase, State.waits, stage]
  show execGrantDecision s = _
  unfold execGrantDecision
  rw [running, path, decision_of_phase before waits, phase]
  exact grantTo_waiting (s := s.withArbiter { s.arbiter with pointer := s.arbiter.pointer + k + 1 }) stage

/-- A READ that fails its recheck ends CUT, and the path stays as it was (R75, R118). -/
theorem grantPort_of_cut (read : op.kind.isRead = true) {code : Result} (fails : (s.share op.share).recheck op = some code) :
    s.grantPort p op = .next ((s.endOperation p op (some (op.cutReply code))).finishCleanup p).settle := by
  unfold State.grantPort
  rw [read, if_pos rfl, fails]
  rfl

/-- The state of a grant: the path is BUSY, and the burst holds the bytes it read (R88, R118). -/
def State.granted (s : State) (p : Port) (op : Operation) (f : FrameNo) : State :=
  ((s.withArbiter { s.arbiter with path := .busy (.port p) }).setStage p
    { (s.port p).stage with stage := .bursting op f (op.capture s.mem f) }).settle

/-- A READ that passes its recheck bursts on the frame bound to its slot (R118). -/
theorem grantPort_of_bound {f : FrameNo} (read : op.kind.isRead = true) (passes : (s.share op.share).recheck op = none)
    (bound : (s.share op.share).frameAt op.slot = some f) : s.grantPort p op = .next (s.granted p op f) := by
  unfold State.grantPort
  rw [read, if_pos rfl, passes, bound]
  rfl

variable (s p op) (f : FrameNo)

theorem granted_port : (s.granted p op f).port p = { s.port p with
    stage := { (s.port p).stage with stage := .bursting op f (op.capture s.mem f) }
    attention := ((s.granted p op f).port p).attention } := by
  unfold State.granted
  rw [State.port_eq, State.settle_get, State.setStage_eq, State.modPort_same]
  rfl

theorem granted_others : OtherPortsSame s (s.granted p op f) [p] := by
  intro q hq
  unfold SamePort State.granted
  rw [State.port_eq, State.settle_get, State.setStage_eq, State.modPort_other _ _ fun e => hq (List.mem_singleton.mpr e)]
  rfl

theorem granted_frame :
    OnlyPorts (s.withArbiter { s.arbiter with path := .busy (.port p) }) (s.granted p op f) :=
  onlyPorts_of_shares
    (onlyPortsShares_of_pool (onlyPortsSharesPool_settle (keeps_setStage _ p _)) (State.settle_pool _)) (State.settle_shares _)

end Grant

/-- A READ's grant reads the bytes of its piece as they stand in the store (R88). -/
theorem capture_of_read {op : Operation} {delivered : List Byte} (kind : op.kind = .read delivered) (m : Memory)
    (f : FrameNo) : op.capture m f = m.readBytes (f.val * 1024 + op.pos % 1024) op.piece := by
  rw [Operation.capture, kind]
  rfl

/-- Settles O38: the scan grants the READ, and its recheck lets it burst or ends it. -/
theorem readIsRecheckedAtItsGrant : Obligations.ReadIsRecheckedAtItsGrant := by
  intro s k p op delivered running path before phase stage kind attached sh
  have read : op.kind.isRead = true := by rw [kind]; rfl
  have granted := exec_grantDecision running path before phase stage
  refine ⟨fun f live same bound => ?_, fun code fails => ?_⟩
  · have passes := recheck_of_same live same
    obtain ⟨busy, frame⟩ := onlyPorts_withArbiter (s := s)
      (granted_frame (s.withArbiter { s.arbiter with pointer := s.arbiter.pointer + k + 1 }) p op f)
    refine ⟨_, op.capture s.mem f, granted.trans (grantPort_of_bound read passes bound), ?_, fun n hn => ?_, busy,
      granted_port .., granted_others _ p op f, frame⟩
    · rw [capture_of_read kind, Memory.length_readBytes]
    · rw [capture_of_read kind, Memory.getD_readBytes _ _ _ _ hn]
  · have fails : sh.recheck op = some code := by
      obtain ⟨dead, rfl⟩ | ⟨live, stale, rfl⟩ := fails
      · exact recheck_of_dead dead
      · exact recheck_of_stale live stale
    have closes := operationEnded_withArbiter (arbiter := { s.arbiter with pointer := s.arbiter.pointer + k + 1 })
      (op := op) (r := op.cutReply code) attached rfl
    have cut := granted.trans (grantPort_of_cut read fails)
    have request : op.kind.requestKind = kindRead := by rw [kind]; rfl
    rw [request] at closes
    rw [Operation.cutReply_of_read kind] at closes cut
    exact ⟨_, cut, closes⟩

end Sys2Proof.Machine
end

