-- ==== Sys2Proof/Proofs/Takes.lean ====
section
/-! PROOFS. When the Request Taker takes the request at the head of a queue (R102, R189). -/

namespace Sys2Proof.Machine

theorem running_iff (s : State) : s.running = true ↔ s.resetLow = false ∧ s.power = .run := by
  unfold State.running
  rw [Bool.and_eq_true, Bool.not_eq_true', beq_iff_eq]

/-- A POST needs room in the Post Buffer; any other request an empty buffer and a FREE response entry (R102). -/
theorem mayTake_iff (s : State) (p : Port) (f : Frame) :
    s.mayTake p f = true ↔ s.running = true ∧ (s.port p).attach.state ≠ .cleaning ∧ (s.port p).stage.stage = .empty
      ∧ (f.kind ≠ kindPost → (s.port p).posts.posts = [] ∧ (s.port p).link.responses.length < 4)
      ∧ (f.kind = kindPost → (s.port p).posts.posts.length < 8) := by
  unfold State.mayTake
  rw [Bool.and_eq_true, Bool.and_eq_true, Bool.and_eq_true, bne_iff_ne, beq_iff_eq, and_assoc, and_assoc]
  by_cases post : f.kind = kindPost
  · rw [if_pos post, decide_eq_true_eq]
    simp [post, Config.postPlaces]
  · rw [if_neg post, Bool.and_eq_true, List.isEmpty_iff, decide_eq_true_eq]
    simp [post, Config.responseEntries]

/-- Settles O15: R102's conditions as `mayTake_iff` lists them, on the request at the head. -/
theorem requestIsTakenUnderItsConditions : Obligations.RequestIsTakenUnderItsConditions := by
  intro s p f
  rw [nextRequest_some_iff, List.head?_eq_some_iff, mayTake_iff, running_iff, and_assoc]
  rfl

theorem running_of_next {s : State} {p : Port} {f : Frame} (next : s.nextRequest p = some f) : s.running = true :=
  ((mayTake_iff s p f).mp ((nextRequest_some_iff s p f).mp next).2).1

end Sys2Proof.Machine
end

