-- ==== Sys2Proof/Proofs/Exchanges.lean ====
section
/-! PROOFS. The exchange of requests and responses on a port (R102, R104, R183): the little of a port's record that decides
whether its Response Queue is in order, and the few operations that change it. Every other operation leaves the exchanges of
all ports as they are, which is said once for each. -/

namespace Sys2Proof.Machine

/-! ## The exchange of a port -/

/-- What a port still has to answer, and what it has answered. -/
structure Exchange where
  cleaning : Bool
  /-- the request kind of the operation in the data stage -/
  asked : Option Byte
  responses : List Entry
  abandon : Bool

def Stage.asked (st : Stage) : Option Byte := st.op?.map fun op => op.kind.requestKind

def PortState.exchange (q : PortState) : Exchange :=
  { cleaning := q.attach.state == .cleaning, asked := q.stage.stage.asked, responses := q.link.responses
    abandon := q.stage.abandon }

def State.exchanges (s : State) : Port → Exchange := fun p => s.ports[p].exchange

def Entry.isCompleted : Entry → Bool
  | .completed _ => true
  | .reserved _ _ => false

/-- The three states an exchange can be in. -/
inductive Exchange.InOrder (e : Exchange) : Prop
  /-- the port is in cleanup, and the one entry is reserved for its HELLO -/
  | cleaning (tag : Byte) (clean : e.cleaning = true) (responses : e.responses = [.reserved kindHello tag])
      (abandon : e.abandon = true → e.asked ≠ none)
  /-- every request taken is answered; a post in the data stage has no answer -/
  | answered (clean : e.cleaning = false) (abandon : e.abandon = false) (asked : ∀ k, e.asked = some k → k = kindPost)
      (completed : e.responses.all Entry.isCompleted = true)
  /-- the request in the data stage has its entry reserved behind the completed ones -/
  | reserved (k tag : Byte) (done : List Entry) (clean : e.cleaning = false) (abandon : e.abandon = false)
      (asked : e.asked = some k) (kind : k ≠ kindPost) (completed : done.all Entry.isCompleted = true)
      (responses : e.responses = done ++ [.reserved k tag])

theorem isCompleted_iff (e : Entry) : e.isCompleted = true ↔ ∃ x, e = .completed x := by
  cases e <;> simp [Entry.isCompleted]

theorem all_isCompleted_iff (es : List Entry) :
    es.all Entry.isCompleted = true ↔ ∀ e ∈ es, ∃ x, e = .completed x := by
  simp only [List.all_eq_true, isCompleted_iff]

theorem Stage.asked_eq_none {st : Stage} : st.asked = none ↔ st = .empty := by
  cases st <;> simp [Stage.asked, Stage.op?]

theorem Stage.asked_of_op {st : Stage} {op : Operation} (h : st.op? = some op) : st.asked = some op.kind.requestKind := by
  rw [Stage.asked, h]
  rfl

theorem inOrder_of_responsesInOrder {q : PortState} (h : q.responsesInOrder) : q.exchange.InOrder := by
  obtain ⟨inCleaning, withAnswer, without, marked⟩ := h
  by_cases state : q.attach.state = .cleaning
  · obtain ⟨tag, responses⟩ := inCleaning state
    exact .cleaning tag (beq_iff_eq.mpr state) responses fun abandon none =>
      (marked abandon).2 (Stage.asked_eq_none.mp none)
  · have clean : q.exchange.cleaning = false := beq_eq_false_iff_ne.mpr state
    have abandon : q.exchange.abandon = false := Bool.eq_false_iff.mpr fun h => state (marked h).1
    cases held : q.stage.stage.op? with
    | none =>
      refine .answered clean abandon (fun k asked => ?_) (without state fun op h => ?_)
      · rw [PortState.exchange, Stage.asked, held] at asked
        cases asked
      · rw [held] at h
        cases h
    | some op =>
      have asked : q.exchange.asked = some op.kind.requestKind := Stage.asked_of_op held
      by_cases post : op.kind.requestKind = kindPost
      · refine .answered clean abandon (fun k h => ?_) (without state fun op' h => ?_)
        · rw [asked] at h
          cases h
          exact post
        · rw [held] at h
          cases h
          exact post
      · obtain ⟨done, tag, responses, completed⟩ := withAnswer state op held post
        exact .reserved _ tag done clean abandon asked post ((all_isCompleted_iff done).mpr completed) responses

theorem responsesInOrder_of_inOrder {q : PortState} (h : q.exchange.InOrder) : q.responsesInOrder := by
  have notCleaning (clean : q.exchange.cleaning = false) : q.attach.state ≠ .cleaning := beq_eq_false_iff_ne.mp clean
  obtain ⟨tag, clean, responses, abandon⟩ | ⟨clean, abandon, asked, completed⟩
    | ⟨k, tag, done, clean, abandon, asked, kind, completed, responses⟩ := h
  · have state : q.attach.state = .cleaning := beq_iff_eq.mp clean
    exact ⟨fun _ => ⟨tag, responses⟩, fun h => absurd state h, fun h => absurd state h,
      fun marked => ⟨state, fun empty => abandon marked (Stage.asked_eq_none.mpr empty)⟩⟩
  · refine ⟨fun h => absurd h (notCleaning clean), fun _ op held post => ?_, fun _ _ => completed, fun marked => ?_⟩
    · exact absurd (asked _ (Stage.asked_of_op held)) post
    · exact Bool.noConfusion (abandon.symm.trans marked)
  · refine ⟨fun h => absurd h (notCleaning clean), fun _ op held _ => ?_, fun _ posts => ?_, fun marked => ?_⟩
    · have same : k = op.kind.requestKind := Option.some.inj (asked.symm.trans (Stage.asked_of_op held))
      rw [← same]
      exact ⟨done, tag, responses, (all_isCompleted_iff done).mp completed⟩
    · cases held : q.stage.stage.op? with
      | none =>
        rw [PortState.exchange, Stage.asked, held] at asked
        cases asked
      | some op =>
        have same : k = op.kind.requestKind := Option.some.inj (asked.symm.trans (Stage.asked_of_op held))
        exact absurd (same.trans (posts op held)) kind
    · exact Bool.noConfusion (abandon.symm.trans marked)

/-- The Response Queue of a port is in order exactly when its exchange is in one of the three states. -/
theorem responsesInOrder_iff (q : PortState) : q.responsesInOrder ↔ q.exchange.InOrder :=
  ⟨inOrder_of_responsesInOrder, responsesInOrder_of_inOrder⟩

/-! ## Records, notices and claims -/

section Kept

variable (s : State)

variable {s} in
theorem exchanges_of_ports {t : State} (h : t.ports = s.ports) : t.exchanges = s.exchanges :=
  funext fun p => by rw [State.exchanges, h]; rfl

/-- A change of one port's record. -/
theorem exchanges_modPort (p : Port) (f : PortState → PortState) :
    (s.modPort p f).exchanges = Function.update s.exchanges p (f s.ports[p]).exchange := by
  funext q
  rw [State.exchanges, State.modPort_get, Function.update_apply]
  split <;> rfl

/-- A change of one port's record that its exchange does not see. -/
theorem exchanges_modPort_of_same (p : Port) (f : PortState → PortState)
    (same : (f s.ports[p]).exchange = s.ports[p].exchange) :
    (s.modPort p f).exchanges = s.exchanges := by
  rw [exchanges_modPort, same]
  exact Function.update_eq_self p s.exchanges

theorem exchanges_modPosts (p : Port) (f : PostBuffer → PostBuffer) : (s.modPosts p f).exchanges = s.exchanges :=
  exchanges_modPort_of_same s p _ rfl

theorem exchanges_modNotices (p : Port) (f : NoticeQueue → NoticeQueue) : (s.modNotices p f).exchanges = s.exchanges :=
  exchanges_modPort_of_same s p _ rfl

theorem exchanges_setHandle (p : Port) (h : HandleNo) (v : Option Handle) : (s.setHandle p h v).exchanges = s.exchanges :=
  exchanges_modPort_of_same s p _ rfl

theorem exchanges_modAttach (p : Port) (f : Attachment → Attachment)
    (state : (f s.ports[p].attach).state = s.ports[p].attach.state) : (s.modAttach p f).exchanges = s.exchanges :=
  exchanges_modPort_of_same s p _ (by unfold PortState.exchange; rw [state])

theorem exchanges_modLink (p : Port) (f : Link → Link)
    (responses : (f s.ports[p].link).responses = s.ports[p].link.responses) : (s.modLink p f).exchanges = s.exchanges :=
  exchanges_modPort_of_same s p _ (by unfold PortState.exchange; rw [responses])

/-- A change of every port's record that no exchange sees. -/
theorem exchanges_mapPorts (f : Port → PortState → PortState) (same : ∀ p q, (f p q).exchange = q.exchange) :
    (s.mapPorts f).exchanges = s.exchanges :=
  funext fun p => by rw [State.exchanges, State.mapPorts_get, same]; rfl

theorem exchanges_settle : s.settle.exchanges = s.exchanges :=
  funext fun p => by rw [State.exchanges, State.settle_get]; rfl

variable {s} in
/-- Pushes change nothing of a port but its notices. -/
theorem Pushed.exchanges {t : State} {ns : Port → List Notice} (h : Pushed s t ns) : t.exchanges = s.exchanges :=
  funext fun p => by rw [State.exchanges, h.ports p]; rfl

theorem exchanges_push (q : Port) (n : Notice) : (s.push q n).exchanges = s.exchanges := (Pushed.push s q n).exchanges

theorem exchanges_foldl {α : Type} {f : State → α → State} (h : ∀ s a, (f s a).exchanges = s.exchanges) (l : List α) :
    (l.foldl f s).exchanges = s.exchanges := by
  induction l generalizing s with
  | nil => rfl
  | cons a l ih => exact (ih (f s a)).trans (h s a)

theorem exchanges_drainForHead (p : Port) : (s.drainForHead p).exchanges = s.exchanges := by
  unfold State.drainForHead
  split
  · rfl
  · split
    · rfl
    · exact exchanges_modPosts s p _

theorem exchanges_pushDecided (pr : Proposal) (o : ProposalOutcome) (l : List Port) :
    (s.pushDecided pr o l).exchanges = s.exchanges := by
  induction l generalizing s with
  | nil => rfl
  | cons q l ih =>
    unfold State.pushDecided
    rw [ih]
    split
    · exact exchanges_push s q _
    · rfl

theorem exchanges_pushOpened (pr : Proposal) (l : List Port) : (s.pushOpened pr l).exchanges = s.exchanges := by
  induction l generalizing s with
  | nil => rfl
  | cons q l ih =>
    unfold State.pushOpened
    rw [ih]
    split
    · exact exchanges_push s q _
    · rfl

theorem exchanges_pushPeers (p : Port) (n : Notice) (l : List Port) : (s.pushPeers p n l).exchanges = s.exchanges := by
  induction l generalizing s with
  | nil => rfl
  | cons q l ih =>
    unfold State.pushPeers
    rw [ih]
    split
    · rfl
    · exact exchanges_push s q n

theorem exchanges_leaveWaiters (p : Port) (i : ShareIdx) : (State.leaveWaiters p s i).exchanges = s.exchanges := by
  unfold State.leaveWaiters
  split <;> rfl

theorem exchanges_yieldClaim (p : Port) (i : ShareIdx) : (State.yieldClaim p s i).exchanges = s.exchanges := by
  unfold State.yieldClaim
  split
  · rfl
  · split
    · exact (Pushed.handover s i _).exchanges
    · rfl

theorem exchanges_claimCleanup (p : Port) : (s.claimCleanup p).exchanges = s.exchanges :=
  (exchanges_foldl _ (fun s i => exchanges_yieldClaim s p i) allShares).trans
    (exchanges_foldl s (fun s i => exchanges_leaveWaiters s p i) allShares)

theorem exchanges_claimShare (p : Port) (h : HandleNo) (i : ShareIdx) (wait : Bool) :
    (s.claimShare p h i wait).1.exchanges = s.exchanges := by
  unfold State.claimShare
  split
  · rfl
  · split
    · rfl
    · split
      · rfl
      · split <;> rfl

theorem exchanges_releaseClaim (p : Port) (i : ShareIdx) : (s.releaseClaim p i).1.exchanges = s.exchanges := by
  unfold State.releaseClaim
  split
  · rfl
  · split
    · exact (Pushed.handover s i _).exchanges
    · split <;> rfl

theorem exchanges_renewClaim (p : Port) (i : ShareIdx) : (s.renewClaim p i).1.exchanges = s.exchanges := by
  unfold State.renewClaim
  split
  · rfl
  · split <;> rfl

/-! ## Shares and handles -/

theorem Operation.kind_afterStep (op : Operation) (i : ShareIdx) (g : Nat) : (op.afterStep i g).kind = op.kind :=
  (congrArg Operation.kind (op.span_afterStep i g) :)

theorem Stage.asked_afterStep (i : ShareIdx) (g : Nat) (st : Stage) : (st.afterStep i g).asked = st.asked := by
  rw [Stage.asked, Stage.op?_afterStep, Option.map_map, Stage.asked]
  simp only [Function.comp_def, Operation.kind_afterStep]

theorem exchanges_stepGeneration (i : ShareIdx) : (s.stepGeneration i).exchanges = s.exchanges :=
  funext fun p => by
    rw [State.exchanges, stepGeneration_ports, PortState.exchange, Stage.asked_afterStep]
    rfl

theorem exchanges_retireIfDone (i : ShareIdx) : (s.retireIfDone i).exchanges = s.exchanges := by
  unfold State.retireIfDone
  split
  · exact exchanges_stepGeneration (s.unbind i) i
  · rfl

theorem exchanges_enterClosing (i : ShareIdx) : (s.enterClosing i).exchanges = s.exchanges :=
  exchanges_retireIfDone (s.markClosing i) i

theorem exchanges_makeHandle (p : Port) (h : HandleNo) (v : Handle) : (s.makeHandle p h v).exchanges = s.exchanges :=
  exchanges_setHandle s p h _

theorem exchanges_makeShare (p : Port) (f : CreateFields) (i : ShareIdx) (h : HandleNo) :
    (s.makeShare p f i h).exchanges = s.exchanges := by
  rw [makeShare_eq]
  exact exchanges_makeHandle (s.openShare p f i) p h _

theorem exchanges_closeIfUnused (i : ShareIdx) : (s.closeIfUnused i).exchanges = s.exchanges := by
  unfold State.closeIfUnused
  split
  · exact exchanges_enterClosing s i
  · rfl

theorem exchanges_emptyHandle (p : Port) (h : HandleNo) : (s.emptyHandle p h).exchanges = s.exchanges := by
  unfold State.emptyHandle
  split
  · rfl
  · dsimp only
    split
    · exact (exchanges_closeIfUnused _ _).trans (exchanges_setHandle s p h none)
    · exact exchanges_setHandle s p h none

theorem exchanges_emptyTable (p : Port) : (s.emptyTable p).exchanges = s.exchanges := by
  refine exchanges_foldl s (fun s h => ?_) allHandles
  split
  · exact (exchanges_modAttach _ p _ rfl).trans (exchanges_emptyHandle s p h)
  · rfl

theorem exchanges_closeShare (p : Port) (i : ShareIdx) : (s.closeShare p i).exchanges = s.exchanges :=
  (exchanges_retireIfDone _ i).trans ((Pushed.endClaim _ p i 2).exchanges.trans (Pushed.pushTold _ _ p i _ _).exchanges)

theorem exchanges_revokeShare (p : Port) (h : HandleNo) (i : ShareIdx) : (s.revokeShare p h i).exchanges = s.exchanges := by
  have restamped : (s.revoked p h i).exchanges = s.exchanges :=
    (exchanges_setHandle _ p h _).trans (exchanges_stepGeneration s i)
  exact ((Pushed.endClaim _ p i 1).exchanges.trans (Pushed.pushTold _ _ p i _ _).exchanges).trans restamped

/-! ## Agreement -/

theorem exchanges_closeLive (i : ShareIdx) : (s.closeLive i).exchanges = s.exchanges := by
  unfold State.closeLive
  split
  · exact exchanges_enterClosing s i
  · rfl

theorem exchanges_adoptClearAll : s.adoptClearAll.exchanges = s.exchanges := by
  refine Eq.trans ?_ (exchanges_foldl s exchanges_closeLive allShares)
  unfold State.adoptClearAll
  generalize allShares.foldl State.closeLive s = t
  dsimp only
  rw [← exchanges_mapPorts t (fun _ q => { q with handles := Vector.replicate 32 none, posts := q.posts.cleared })
    fun _ _ => rfl]
  exact exchanges_of_ports rfl

theorem exchanges_adopt (a : ProposalAction) : (s.adopt a).exchanges = s.exchanges := by
  cases a with
  | settings r => rfl
  | clearAll => exact exchanges_adoptClearAll s

theorem exchanges_endProposal (pr : Proposal) (o : ProposalOutcome) : (s.endProposal pr o).exchanges = s.exchanges := by
  unfold State.endProposal
  rw [exchanges_pushDecided]
  split
  · exact exchanges_adopt s pr.action
  · rfl

theorem exchanges_agreementCleanup (p : Port) (c : CleanupCause) : (s.agreementCleanup p c).exchanges = s.exchanges := by
  unfold State.agreementCleanup
  split
  · rfl
  split
  · exact exchanges_endProposal s _ _
  split
  · split
    · exact exchanges_endProposal s _ _
    · dsimp only
      split
      · exact exchanges_endProposal s _ _
      · rfl
  · rfl

theorem exchanges_openProposal (p : Port) (a : ProposalAction) : (s.openProposal p a).1.exchanges = s.exchanges := by
  unfold State.openProposal
  dsimp only
  split
  · exact exchanges_endProposal _ _ _
  · exact exchanges_pushOpened _ _ _

theorem exchanges_castVote (p : Port) (pr : Proposal) (accept : Bool) :
    (s.castVote p pr accept).1.exchanges = s.exchanges := by
  unfold State.castVote
  split
  · dsimp only
    split
    · exact exchanges_endProposal s _ _
    · rfl
  · exact exchanges_endProposal s _ _

/-! ## The services of requests, but for DETACH -/

theorem exchanges_serveCreate (p : Port) (body : List Byte) : (serveCreate p body s).1.exchanges = s.exchanges := by
  unfold serveCreate
  iterate 8 (split; rfl)
  exact exchanges_makeShare s p _ _ _

theorem exchanges_serveAttach (p : Port) (body : List Byte) : (serveAttach p body s).1.exchanges = s.exchanges := by
  unfold serveAttach
  iterate 7 (split; rfl)
  exact exchanges_makeHandle s p _ _

theorem exchanges_serveGrant (p : Port) (body : List Byte) : (serveGrant p body s).1.exchanges = s.exchanges := by
  unfold serveGrant
  iterate 10 (split; rfl)
  exact (exchanges_push _ _ _).trans (exchanges_makeHandle s _ _ _)

theorem exchanges_serveClose (p : Port) (body : List Byte) : (serveClose p body s).1.exchanges = s.exchanges := by
  unfold serveClose
  split
  · rfl
  · exact exchanges_closeShare s p _

theorem exchanges_serveRevoke (p : Port) (body : List Byte) : (serveRevoke p body s).1.exchanges = s.exchanges := by
  unfold serveRevoke
  split
  · rfl
  · exact exchanges_revokeShare s p _ _

theorem exchanges_serveInfo (p : Port) (body : List Byte) : (serveInfo p body s).1.exchanges = s.exchanges :=
  StepInvariant.serveInfo (P := fun t => t.exchanges = s.exchanges) p body rfl

theorem exchanges_serveDrop (p : Port) (body : List Byte) : (serveDrop p body s).1.exchanges = s.exchanges := by
  unfold serveDrop
  split
  · rfl
  split
  · rfl
  split
  · split
    · rfl
    · exact (exchanges_emptyHandle _ p _).trans (Pushed.claimDrop s p _ _).exchanges
  · rfl

theorem exchanges_serveClaim (p : Port) (body : List Byte) : (serveClaim p body s).1.exchanges = s.exchanges := by
  unfold serveClaim
  split
  · rfl
  · exact exchanges_claimShare s p _ _ _

theorem exchanges_serveRelease (p : Port) (body : List Byte) : (serveRelease p body s).1.exchanges = s.exchanges := by
  unfold serveRelease
  split
  · rfl
  · exact exchanges_releaseClaim s p _

theorem exchanges_serveRenew (p : Port) (body : List Byte) : (serveRenew p body s).1.exchanges = s.exchanges := by
  unfold serveRenew
  split
  · rfl
  · exact exchanges_renewClaim s p _

/-- A service of an empty body whose act leaves the exchanges. -/
theorem exchanges_emptyBody (p : Port) (body : List Byte) {act : State × Reply} (kept : act.1.exchanges = s.exchanges) :
    (if s.isAttached p = false then refuse .notAttached s
      else if body ≠ [] then refuse .badFrame s else act).1.exchanges = s.exchanges :=
  StepInvariant.emptyBody (P := fun t => t.exchanges = s.exchanges) kept rfl

theorem exchanges_serveList (p : Port) (body : List Byte) : (serveList p body s).1.exchanges = s.exchanges :=
  exchanges_emptyBody s p body rfl

theorem exchanges_serveSettings (p : Port) (body : List Byte) : (serveSettings p body s).1.exchanges = s.exchanges :=
  exchanges_emptyBody s p body rfl

theorem exchanges_serveFlush (p : Port) (body : List Byte) : (serveFlush p body s).1.exchanges = s.exchanges :=
  exchanges_emptyBody s p body (exchanges_modPosts s p _)

theorem exchanges_serveNotices (p : Port) (body : List Byte) : (serveNotices p body s).1.exchanges = s.exchanges :=
  exchanges_emptyBody s p body (exchanges_modNotices s p _)

theorem exchanges_servePropose (p : Port) (body : List Byte) : (servePropose p body s).1.exchanges = s.exchanges := by
  unfold servePropose
  iterate 3 (split; rfl)
  split
  · exact exchanges_openProposal s p _
  split
  · rfl
  · exact exchanges_openProposal s p _

theorem exchanges_serveVote (p : Port) (body : List Byte) : (serveVote p body s).1.exchanges = s.exchanges := by
  unfold serveVote
  iterate 6 (split; rfl)
  exact exchanges_castVote s p _ _

end Kept

end Sys2Proof.Machine
end

