-- ==== Sys2Proof/Proofs/ResponseOrder.lean ====
section
/-! PROOFS. The Response Queues stay in order (R104, R183): what a take, an admission, the end of an operation, a cleanup and a
FETCH do to an exchange, and the induction over commands. -/

namespace Sys2Proof.Machine

/-! ## What an event makes of an exchange -/

theorem requestKind_ne_hello (k : OpKind) : k.requestKind ≠ kindHello := by
  cases k with
  | read _ => exact (by decide : kindRead ≠ kindHello)
  | write _ => exact (by decide : kindWrite ≠ kindHello)
  | cas _ _ => exact (by decide : kindCas ≠ kindHello)
  | post _ => exact (by decide : kindPost ≠ kindHello)

/-- The exchange with this request kind in the data stage. -/
def Exchange.asking (e : Exchange) (kind : Byte) : Exchange := { e with asked := some kind }

/-- The exchange after the end of an operation that answers a request of this kind (R86). -/
def Exchange.ended (e : Exchange) (kind : Byte) (answer : Option Reply) : Exchange :=
  { e with
    asked := none, abandon := false
    responses := match answer with
      | some r => completeReserved kind r e.responses
      | none => e.responses }

/-- An operation other than a post ends with an answer, unless the port is in cleanup (R86, R108). -/
theorem Exchange.InOrder.ended {e : Exchange} {kind : Byte} (h : (e.asking kind).InOrder) (hello : kind ≠ kindHello)
    {answer : Option Reply} (none : answer = none → e.cleaning = true ∨ kind = kindPost) :
    (e.ended kind answer).InOrder := by
  obtain ⟨tag, clean, responses, -⟩ | ⟨clean, -, post, completed⟩
    | ⟨k, tag, done, clean, -, asked, post, completed, responses⟩ := h
  · refine .cleaning tag clean ?_ nofun
    cases answer with
    | none => exact responses
    | some r =>
      show completeReserved kind r e.responses = _
      rw [show e.responses = _ from responses, completeReserved, if_neg hello.symm]
      rfl
  · refine .answered clean rfl nofun ?_
    cases answer with
    | none => exact completed
    | some r =>
      have nothing := completeReserved_none kind r e.responses completed
      exact (congrArg (List.all · Entry.isCompleted) nothing).trans completed
  · cases asked
    cases answer with
    | none =>
      obtain cleaning | isPost := none rfl
      · exact Bool.noConfusion (cleaning.symm.trans clean)
      · exact absurd isPost post
    | some r =>
      have last := completeReserved_last kind tag r done completed
      refine .answered clean rfl nofun ?_
      show (completeReserved kind r e.responses).all Entry.isCompleted = true
      rw [show e.responses = _ from responses, last, List.all_append, completed]
      rfl

/-- The abandon mark is set only in cleanup, on an operation still held (R108). -/
theorem Exchange.InOrder.of_marked {e : Exchange} (h : e.InOrder) (marked : e.abandon = true) :
    e.cleaning = true ∧ e.asked ≠ none := by
  obtain ⟨_, clean, _, abandon⟩ | ⟨_, unmarked, _, _⟩ | ⟨_, _, _, _, unmarked, _, _, _, _⟩ := h
  · exact ⟨clean, abandon marked⟩
  · cases unmarked.symm.trans marked
  · cases unmarked.symm.trans marked

/-- Every response but the HELLO's waits behind completed ones, so removing the oldest completed one keeps the order (R184). -/
theorem Exchange.InOrder.fetched {e : Exchange} (h : e.InOrder) {x : Response} {rest : List Entry}
    (oldest : e.responses = .completed x :: rest) : Exchange.InOrder { e with responses := rest } := by
  obtain ⟨tag, clean, responses, abandon⟩ | ⟨clean, abandon, asked, completed⟩ |
    ⟨k, tag, done, clean, abandon, asked, post, completed, responses⟩ := h
  · cases oldest.symm.trans responses
  · rw [oldest] at completed
    exact .answered clean abandon asked completed
  · rw [oldest] at responses
    cases done with
    | nil => cases responses
    | cons d done =>
      cases responses
      exact .reserved k tag done clean abandon asked post completed rfl

/-! ## Invariance -/

def ExchangesInOrder (s : State) : Prop := ∀ p, (s.exchanges p).InOrder

theorem responsesInOrder_iff_exchanges (s : State) : ResponsesInOrder s ↔ ExchangesInOrder s :=
  forall_congr' fun p => responsesInOrder_iff s.ports[p]

section Invariance

variable {s t : State}

theorem ExchangesInOrder.same (h : ExchangesInOrder s) (same : t.exchanges = s.exchanges) : ExchangesInOrder t :=
  fun p => same ▸ h p

/-- Nothing but the ports matters. -/
theorem ExchangesInOrder.elsewhere (h : ExchangesInOrder s) (ports : t.ports = s.ports := by rfl) : ExchangesInOrder t :=
  h.same (exchanges_of_ports ports)

theorem ExchangesInOrder.update (h : ExchangesInOrder s) {p : Port} {e : Exchange}
    (change : t.exchanges = Function.update s.exchanges p e) (inOrder : e.InOrder) : ExchangesInOrder t := fun q => by
  rw [change, Function.update_apply]
  split
  · exact inOrder
  · exact h q

end Invariance

/-! ## Operations -/

section Operations

variable (s : State)

theorem exchanges_setStage (p : Port) (d : DataStage) : (s.setStage p d).exchanges
    = Function.update s.exchanges p { s.exchanges p with asked := d.stage.asked, abandon := d.abandon } :=
  exchanges_modPort s p _

theorem exchanges_placeResponse (p : Port) (kind : Byte) (r : Reply) : (s.placeResponse p kind r).exchanges
    = Function.update s.exchanges p
        { s.exchanges p with responses := completeReserved kind r (s.exchanges p).responses } :=
  exchanges_modPort s p _

theorem exchanges_endOperation (p : Port) (op : Operation) (answer : Option Reply) :
    (s.endOperation p op answer).exchanges
      = Function.update s.exchanges p ((s.exchanges p).ended op.kind.requestKind answer) := by
  have released : (s.releaseUse op.share).exchanges = s.exchanges := exchanges_retireIfDone _ op.share
  rw [endOperation_eq, exchanges_setStage]
  cases answer with
  | none => rw [State.released, released]; rfl
  | some r =>
    rw [State.released, exchanges_placeResponse, released, Function.update_idem, Function.update_self]
    rfl

theorem requestKind_deliver (op : Operation) (bs : List Byte) (n : Nat) :
    (op.deliver bs n).kind.requestKind = op.kind.requestKind := by
  unfold Operation.deliver
  split
  · next kind => rw [kind]; rfl
  all_goals rfl

theorem reachPiece_requestKind (sh : Share) (fuel : Nat) (op : Operation) :
    (reachPiece sh fuel op).op.kind.requestKind = op.kind.requestKind := by
  induction fuel generalizing op with
  | zero => rfl
  | succ fuel ih =>
    unfold reachPiece
    split
    · rfl
    split
    · split
      · rfl
      · rw [ih, requestKind_deliver]
    · rfl

/-- A post alone ends without an answer (R78, R86). -/
theorem post_of_doneReply_none {op : Operation} (h : op.doneReply = none) : op.kind.requestKind = kindPost := by
  unfold Operation.doneReply at h
  split at h
  · cases h
  · cases h
  · cases h
  · next kind => rw [kind]; rfl

/-- A data stage that goes on keeps the exchange of an operation in order. -/
theorem exchanges_advance (p : Port) (op : Operation) : ∃ e, (s.advance p op).exchanges = Function.update s.exchanges p e
    ∧ (((s.exchanges p).asking op.kind.requestKind).InOrder → e.InOrder) := by
  have kind := reachPiece_requestKind (s.share op.share) (op.stop - op.pos + 1) op
  have ends {op' : Operation} (same : op'.kind.requestKind = op.kind.requestKind) (answer : Option Reply)
      (post : answer = none → op'.kind.requestKind = kindPost) :
      ∃ e, (s.endOperation p op' answer).exchanges = Function.update s.exchanges p e
        ∧ (((s.exchanges p).asking op.kind.requestKind).InOrder → e.InOrder) := by
    refine ⟨_, exchanges_endOperation s p op' answer, fun h => ?_⟩
    rw [← same] at h
    exact h.ended (requestKind_ne_hello _) fun none => .inr (post none)
  unfold State.advance
  split
  · next op' reached =>
    rw [reached] at kind
    refine ⟨_, exchanges_setStage s p _, fun h => ?_⟩
    rw [← show op'.kind.requestKind = _ from kind] at h
    exact h
  · next op' reached =>
    rw [reached] at kind
    exact ends kind _ post_of_doneReply_none
  · next op' code reached =>
    rw [reached] at kind
    exact ends kind _ nofun

theorem exchanges_becomeAttached (p : Port) : (s.becomeAttached p).exchanges = Function.update s.exchanges p
    { s.exchanges p with
      cleaning := false
      responses := completeReserved kindHello (Reply.ok (.hello s.pool.clean.length)) (s.exchanges p).responses } := by
  have attached : (s.modAttach p fun a => { a with state := .attached }).exchanges
      = Function.update s.exchanges p { s.exchanges p with cleaning := false } := exchanges_modPort s p _
  unfold State.becomeAttached
  dsimp only
  rw [exchanges_modAttach _ p _ rfl]
  split
  · rw [exchanges_pushPeers, exchanges_placeResponse, exchanges_modPosts, attached, Function.update_idem,
      Function.update_self]
    rfl
  · rw [exchanges_placeResponse, exchanges_modPosts, attached, Function.update_idem, Function.update_self]
    rfl

/-- The end of a cleanup completes the HELLO's entry, the only one there is (R148). -/
theorem ExchangesInOrder.finishCleanup {s : State} (h : ExchangesInOrder s) (p : Port) :
    ExchangesInOrder (s.finishCleanup p) := by
  unfold State.finishCleanup
  split
  · next done =>
    obtain ⟨state, empty⟩ := Bool.and_eq_true_iff.mp done
    have asked : (s.exchanges p).asked = none := Stage.asked_eq_none.mpr (beq_iff_eq.mp empty)
    refine h.update (exchanges_becomeAttached s p) ?_
    obtain ⟨tag, clean, responses, abandon⟩ | ⟨clean, -, -, -⟩ | ⟨k, tag, done, clean, -, -, -, -, -⟩ := h p
    · refine .answered rfl (Bool.eq_false_iff.mpr fun marked => abandon marked asked) (fun k some => ?_) ?_
      · cases asked.symm.trans some
      · rw [responses]
        rfl
    · cases clean.symm.trans state
    · cases clean.symm.trans state
  · exact h

/-- The Data Engine's part of a cleanup abandons the READ of its port, or marks it (R108). -/
theorem ExchangesInOrder.dataCleanup {s : State} (h : ExchangesInOrder s) {p : Port}
    (clean : (s.exchanges p).cleaning = true) : ExchangesInOrder (s.dataCleanup p) := by
  have cleared := exchanges_modPosts s p fun b => { b.cleared with faults := 0 }
  unfold State.dataCleanup
  dsimp only
  generalize (s.modPosts p fun b => { b.cleared with faults := 0 }) = u at cleared
  have inOrder : ExchangesInOrder u := h.same cleared
  rw [← cleared] at clean
  split
  · exact inOrder
  · next op stage =>
    have asked : (u.exchanges p).asked = some op.kind.requestKind := Stage.asked_of_op (congrArg Stage.op? stage)
    have here : ((u.exchanges p).asking op.kind.requestKind).InOrder := by
      rw [Exchange.asking, ← asked]
      exact inOrder p
    split
    · exact inOrder.update (exchanges_endOperation u p op none)
        (here.ended (requestKind_ne_hello _) fun _ => .inl clean)
    · exact inOrder
  · next op f bs stage =>
    split
    · refine inOrder.update (exchanges_setStage u p _) ?_
      obtain ⟨tag, clean, responses, -⟩ | ⟨unclean, -, -, -⟩ | ⟨k, tag, done, unclean, -, -, -, -, -⟩ := inOrder p
      · exact .cleaning tag clean responses fun _ => nofun
      · cases clean.symm.trans unclean
      · cases clean.symm.trans unclean
    · exact inOrder

/-- On a port without an operation it leaves the exchange. -/
theorem exchanges_dataCleanup_of_idle {s : State} {p : Port} (idle : (s.exchanges p).asked = none) :
    (s.dataCleanup p).exchanges = s.exchanges := by
  have cleared := exchanges_modPosts s p fun b => { b.cleared with faults := 0 }
  rw [← cleared] at idle ⊢
  unfold State.dataCleanup
  dsimp only
  rw [State.port_eq, Stage.asked_eq_none.mp idle]

theorem exchanges_tablesCleanup (s : State) (p : Port) : ((s.claimCleanup p).emptyTable p).exchanges = s.exchanges :=
  (exchanges_emptyTable _ p).trans (exchanges_claimCleanup s p)

theorem ExchangesInOrder.cleanup {s : State} (h : ExchangesInOrder s) {p : Port} (clean : (s.exchanges p).cleaning = true)
    (c : CleanupCause) : ExchangesInOrder (s.cleanup p c) := by
  have before := exchanges_tablesCleanup s p
  have cleaned := (h.same before).dataCleanup (p := p) (by rw [before]; exact clean)
  exact cleaned.same (exchanges_agreementCleanup _ p c)

theorem exchanges_cleanup_of_idle {s : State} {p : Port} (idle : (s.exchanges p).asked = none) (c : CleanupCause) :
    (s.cleanup p c).exchanges = s.exchanges := by
  have before := exchanges_tablesCleanup s p
  have cleaned := exchanges_dataCleanup_of_idle (s := (s.claimCleanup p).emptyTable p) (p := p) (by rw [before]; exact idle)
  exact (exchanges_agreementCleanup _ p c).trans (cleaned.trans before)

/-- The exchange of a port that takes a HELLO (R145). -/
def Exchange.flushed (e : Exchange) (tag : Byte) : Exchange :=
  { e with cleaning := true, responses := [.reserved kindHello tag] }

theorem Exchange.InOrder.flushed {e : Exchange} (h : e.InOrder) (tag : Byte) : (e.flushed tag).InOrder :=
  .cleaning tag rfl rfl fun marked => (h.of_marked marked).2

/-- The flush of the queues and the entry into CLEANING (R145). -/
theorem exchanges_flushed (s : State) (p : Port) (tag : Byte) (stay : List Frame) (announcement : Announcement) :
    ((s.flushQueues p tag stay).modAttach p fun a => { a with announcement := announcement, state := .cleaning }).exchanges
      = Function.update s.exchanges p ((s.exchanges p).flushed tag) := by
  have queues : (s.flushQueues p tag stay).exchanges
      = Function.update s.exchanges p { s.exchanges p with responses := [.reserved kindHello tag] } :=
    exchanges_modPort s p _
  have entered (u : State) : (u.modAttach p fun a => { a with announcement := announcement, state := .cleaning }).exchanges
      = Function.update u.exchanges p { u.exchanges p with cleaning := true } := exchanges_modPort u p _
  rw [entered, queues, Function.update_idem, Function.update_self]
  rfl

theorem ExchangesInOrder.takeHello {s : State} (h : ExchangesInOrder s) (p : Port) (tag : Byte) (stay : List Frame) :
    ExchangesInOrder (s.takeHello p tag stay) := by
  unfold State.takeHello
  dsimp only
  have change := exchanges_flushed s p tag stay (s.port p).attach.state.announcement
  have flushed := h.update change ((h p).flushed tag)
  refine ExchangesInOrder.finishCleanup ?_ p
  split
  · exact flushed
  · refine flushed.cleanup ?_ .hello
    rw [change, Function.update_self]
    rfl

theorem ExchangesInOrder.arriveHello {s : State} (h : ExchangesInOrder s) (p : Port) (tag : Byte) :
    ExchangesInOrder (s.arriveHello p tag) := by
  unfold State.arriveHello
  split
  · exact h.takeHello p tag []
  · exact h.same (exchanges_modAttach s p _ rfl)

theorem ExchangesInOrder.takePending_foldl {s : State} (h : ExchangesInOrder s) (l : List Port) :
    ExchangesInOrder (l.foldl State.takePending s) := by
  induction l generalizing s with
  | nil => exact h
  | cons p l ih =>
    refine ih ?_
    unfold State.takePending
    split
    · exact h
    · exact h.takeHello p _ _

/-- DETACH is taken with no operation in the data stage, so its cleanup has none to wait for (R151). -/
theorem exchanges_detachPort {s : State} {p : Port} (clean : (s.exchanges p).cleaning = false)
    (idle : (s.exchanges p).asked = none) : (s.detachPort p).exchanges = s.exchanges := by
  have entered : (s.modAttach p fun a => { a with state := .cleaning }).exchanges
      = Function.update s.exchanges p { s.exchanges p with cleaning := true } := exchanges_modPort s p _
  have cleaned := exchanges_cleanup_of_idle (s := s.modAttach p fun a => { a with state := .cleaning }) (p := p)
    (by rw [entered, Function.update_self]; exact idle) .detach
  unfold State.detachPort
  dsimp only
  generalize (s.modAttach p fun a => { a with state := .cleaning }).cleanup p .detach = t at cleaned ⊢
  have left : (t.modAttach p fun a => { a with state := .detached }).exchanges
      = Function.update t.exchanges p { t.exchanges p with cleaning := false } := exchanges_modPort t p _
  rw [exchanges_modAttach _ p _ rfl, exchanges_pushPeers, exchanges_modNotices, left, cleaned, entered, Function.update_idem,
    Function.update_self, ← clean]
  exact Function.update_eq_self p s.exchanges

theorem exchanges_serveDetach {s : State} {p : Port} (body : List Byte) (clean : (s.exchanges p).cleaning = false)
    (idle : (s.exchanges p).asked = none) : (serveDetach p body s).1.exchanges = s.exchanges :=
  exchanges_emptyBody s p body (exchanges_detachPort clean idle)

end Operations

/-! ## Commands -/

section Commands

variable {s : State} (h : ExchangesInOrder s)

include h

omit h in
theorem ExchangesInOrder.took {t : State} (inOrder : ExchangesInOrder t) : Leads ExchangesInOrder True (took t) :=
  inOrder.same (exchanges_settle t)

/-- An event that leaves the exchanges. -/
theorem ExchangesInOrder.quiet {t : State} (same : t.exchanges = s.exchanges) : Leads ExchangesInOrder True (Machine.took t) :=
  (h.same same).took

/-- A port that takes a request has answered every earlier one (R102). -/
theorem ExchangesInOrder.at_take {p : Port} {f : Frame} (next : s.nextRequest p = some f) :
    ∃ done, s.exchanges p = { cleaning := false, asked := none, responses := done, abandon := false }
      ∧ done.all Entry.isCompleted = true := by
  obtain ⟨-, state, stage, -⟩ := (mayTake_iff s p f).mp ((nextRequest_some_iff s p f).mp next).2
  have clean : (s.exchanges p).cleaning = false := beq_eq_false_iff_ne.mpr state
  have asked : (s.exchanges p).asked = none := Stage.asked_eq_none.mpr stage
  obtain ⟨_, unclean, _, _⟩ | ⟨_, abandon, _, completed⟩ | ⟨_, _, _, _, _, some, _, _, _⟩ := h p
  · cases clean.symm.trans unclean
  · refine ⟨(s.exchanges p).responses, ?_, completed⟩
    show Exchange.mk (s.exchanges p).cleaning (s.exchanges p).asked (s.exchanges p).responses (s.exchanges p).abandon = _
    rw [clean, asked, abandon]
  · cases asked.symm.trans some

omit h in
theorem exchanges_dequeue (p : Port) (f : Frame) (post : f.kind ≠ kindPost) : (s.dequeue p f).exchanges
    = Function.update s.exchanges p
        { s.exchanges p with responses := (s.exchanges p).responses ++ [.reserved f.kind f.tag] } := by
  have change : (s.dequeue p f).exchanges = Function.update s.exchanges p { s.exchanges p with
      responses := if f.kind = kindPost then (s.exchanges p).responses
        else (s.exchanges p).responses ++ [.reserved f.kind f.tag] } := exchanges_modPort s p _
  rw [change, if_neg post]

/-- A taken request that is answered in its event stands answered behind the others (R12, R102). -/
theorem ExchangesInOrder.answered {p : Port} {f : Frame} (next : s.nextRequest p = some f) (post : f.kind ≠ kindPost)
    {t : State} (same : t.exchanges = (s.dequeue p f).exchanges) (r : Reply) :
    ExchangesInOrder (t.placeResponse p f.kind r) := by
  obtain ⟨done, here, completed⟩ := h.at_take next
  have change : (t.placeResponse p f.kind r).exchanges = Function.update s.exchanges p
      ⟨false, none, done ++ [.completed { kind := f.kind, tag := f.tag, reply := r }], false⟩ := by
    rw [exchanges_placeResponse, same, exchanges_dequeue p f post, Function.update_idem, Function.update_self, here,
      ← completeReserved_last f.kind f.tag r done completed]
  refine h.update change (.answered rfl rfl nofun ?_)
  rw [List.all_append, completed]
  rfl

theorem ExchangesInOrder.takeBy {p : Port} {isKind : Byte → Bool} {act : Frame → State → State}
    (hact : ∀ f, s.nextRequest p = some f → isKind f.kind = true → ExchangesInOrder (act f (s.dequeue p f))) :
    Leads ExchangesInOrder True (s.takeBy p isKind act) := by
  unfold State.takeBy
  split
  · next f next =>
    split
    · next kind => exact (hact f next kind).took
    · exact h
  · exact h

theorem ExchangesInOrder.takeAndAnswer {p : Port} {kind : Byte} (post : kind ≠ kindPost) {serve : Service}
    (hserve : ∀ t body, (t.exchanges p).cleaning = false → (t.exchanges p).asked = none →
      (serve body t).1.exchanges = t.exchanges) : Leads ExchangesInOrder True (s.takeAndAnswer p kind serve) := by
  refine h.takeBy fun f next isKind => ?_
  obtain rfl := beq_iff_eq.mp isKind
  obtain ⟨done, here, -⟩ := h.at_take next
  have taken : (s.dequeue p f).exchanges p = ⟨false, none, done ++ [.reserved f.kind f.tag], false⟩ := by
    rw [exchanges_dequeue p f post, Function.update_self, here]
  exact h.answered next post (hserve _ f.body (congrArg Exchange.cleaning taken) (congrArg Exchange.asked taken)) _

theorem ExchangesInOrder.serve {p : Port} {kind : Byte} (post : kind ≠ kindPost) {serve : Service}
    (hserve : ∀ t body, (serve body t).1.exchanges = t.exchanges) :
    Leads ExchangesInOrder True (s.takeAndAnswer p kind serve) :=
  h.takeAndAnswer post fun t body _ _ => hserve t body

theorem ExchangesInOrder.takeData {p : Port} {kind : Byte} {k : DataKind} (post : kind ≠ kindPost)
    (request : ∀ f, (k.opKind f).requestKind = kind) : Leads ExchangesInOrder True (s.takeData p kind k) := by
  refine h.takeBy fun f next isKind => ?_
  obtain rfl := beq_iff_eq.mp isKind
  split
  · exact h.answered next post rfl _
  · next a _ =>
    obtain ⟨done, here, completed⟩ := h.at_take next
    obtain ⟨e, change, keeps⟩ := exchanges_advance ((s.dequeue p f).admitting a) p (a.operation k)
    have taken : ((s.dequeue p f).admitting a).exchanges = _ := exchanges_dequeue p f post
    rw [taken, Function.update_idem] at change
    rw [taken, Function.update_self, here] at keeps
    refine h.update change (keeps (.reserved f.kind f.tag done rfl rfl ?_ post completed rfl))
    exact congrArg some (request a.fields)

/-- A POST is taken with no response, and reserves no entry (R94, R102). -/
theorem ExchangesInOrder.execPost (p : Port) : Leads ExchangesInOrder True (execPost p s) := by
  refine h.takeBy fun f _ isKind => ?_
  have dequeued : (s.dequeue p f).exchanges = s.exchanges :=
    exchanges_modLink s p _ (if_pos (beq_iff_eq.mp isKind))
  refine h.same ((exchanges_drainForHead _ p).trans (Eq.trans ?_ dequeued))
  unfold State.takePost
  split
  · exact exchanges_modPosts _ p _
  · rfl

theorem ExchangesInOrder.execPostRelease (p : Port) : Leads ExchangesInOrder True (execPostRelease p s) := by
  unfold Machine.execPostRelease
  split
  · exact h
  next r next =>
  have released : (s.modPosts p PostBuffer.release).exchanges = s.exchanges := exchanges_modPosts s p _
  dsimp only
  split
  · exact h.quiet ((exchanges_modPosts _ p _).trans ((exchanges_push _ _ _).trans released))
  · next a _ =>
    obtain ⟨e, change, keeps⟩ := exchanges_advance ((s.modPosts p PostBuffer.release).admitting a) p (a.operation .post)
    have admitted : ((s.modPosts p PostBuffer.release).admitting a).exchanges = s.exchanges := released
    rw [admitted] at change keeps
    refine (h.update change (keeps ?_)).took
    have asked : (s.exchanges p).asked = none := Stage.asked_eq_none.mpr (stage_empty_of_nextPost next)
    obtain ⟨tag, clean, responses, _⟩ | ⟨clean, abandon, _, completed⟩ | ⟨_, _, _, _, _, some, _, _, _⟩ := h p
    · exact .cleaning tag clean responses fun _ => nofun
    · exact .answered clean abandon (fun k some => (Option.some.inj some).symm) completed
    · cases asked.symm.trans some

theorem ExchangesInOrder.execUnknownRequest (p : Port) : Leads ExchangesInOrder True (execUnknownRequest p s) := by
  refine h.takeBy fun f next unknown => h.answered next (fun post => ?_) rfl _
  rw [post] at unknown
  exact absurd unknown (by decide)

/-- The operation in the data stage ends, or goes on to its next piece (R85, R86). -/
theorem ExchangesInOrder.completeBurst {p : Port} {op : Operation} {f : FrameNo} {captured : List Byte}
    (stage : s.ports[p].stage.stage = .bursting op f captured) : ExchangesInOrder (s.completeBurst p op f captured) := by
  have asked : (s.exchanges p).asked = some op.kind.requestKind := Stage.asked_of_op (congrArg Stage.op? stage)
  have here : (s.exchanges p).asking op.kind.requestKind = s.exchanges p := by rw [Exchange.asking, ← asked]
  unfold State.completeBurst
  dsimp only
  split
  · next marked =>
    have inOrder : ((s.exchanges p).asking op.kind.requestKind).InOrder := here.symm ▸ h p
    exact h.update (exchanges_endOperation s p op none) (inOrder.ended (requestKind_ne_hello _) fun _ =>
      .inl ((h p).of_marked (Bool.and_eq_true_iff.mp marked).1).1)
  have unchanged : { s with mem := s.mem.writeBytes (op.address f) (op.written captured) }.exchanges = s.exchanges :=
    exchanges_of_ports rfl
  generalize { s with mem := s.mem.writeBytes (op.address f) (op.written captured) } = t at unchanged
  have inOrder : ((t.exchanges p).asking op.kind.requestKind).InOrder := by
    rw [unchanged, here]
    exact h p
  split
  · next expected new kind =>
    exact (h.same unchanged).update (exchanges_endOperation t p op _) (inOrder.ended (requestKind_ne_hello _) nofun)
  all_goals
    obtain ⟨e, change, keeps⟩ := exchanges_advance t p (op.deliver captured op.pieceLength)
    rw [requestKind_deliver] at keeps
    exact (h.same unchanged).update change (keeps inOrder)

theorem ExchangesInOrder.execBurstCompletion (p : Port) : Leads ExchangesInOrder True (execBurstCompletion p s) := by
  unfold Machine.execBurstCompletion
  split
  · next op f captured stage =>
    split
    · have freed : ExchangesInOrder s.freePath := h.elsewhere
      exact ((freed.completeBurst stage).finishCleanup p).took
    · exact h
  · exact h

theorem ExchangesInOrder.grantPort {p : Port} {op : Operation} (stage : s.ports[p].stage.stage = .waiting op) :
    Leads ExchangesInOrder True (s.grantPort p op) := by
  have asked : (s.exchanges p).asked = some op.kind.requestKind := Stage.asked_of_op (congrArg Stage.op? stage)
  have inOrder : ((s.exchanges p).asking op.kind.requestKind).InOrder := by
    rw [Exchange.asking, ← asked]
    exact h p
  unfold State.grantPort
  split
  · next code _ =>
    have ended := exchanges_endOperation s p op (some (op.cutReply code))
    exact ((h.update ended (inOrder.ended (requestKind_ne_hello _) nofun)).finishCleanup p).took
  split
  · trivial
  · have busy : ExchangesInOrder { s with arbiter := { s.arbiter with path := .busy (.port p) } } := h.elsewhere
    refine (busy.update (exchanges_setStage _ p _) ?_).took
    exact inOrder

theorem ExchangesInOrder.execGrantDecision : Leads ExchangesInOrder True (execGrantDecision s) := by
  unfold Machine.execGrantDecision
  split
  · split
    · next r pointer _ =>
      have pointed : ExchangesInOrder { s with arbiter := { s.arbiter with pointer := pointer } } := h.elsewhere
      unfold State.grantTo
      split
      · exact h.elsewhere.took
      · split
        · next stage => exact pointed.grantPort stage
        · exact pointed
        · exact pointed
    · exact h
  · exact h

theorem ExchangesInOrder.execScrubBurstCompletion : Leads ExchangesInOrder True (execScrubBurstCompletion s) := by
  unfold Machine.execScrubBurstCompletion
  split
  · split
    · exact h.elsewhere.took
    · exact h.elsewhere.took
  · exact h

theorem ExchangesInOrder.execLeaseExpiry (i : ShareIdx) : Leads ExchangesInOrder True (execLeaseExpiry i s) := by
  unfold Machine.execLeaseExpiry
  split
  · split
    · exact h.quiet ((Pushed.handover _ i _).exchanges.trans (exchanges_push s _ _))
    · exact h
  · exact h

theorem ExchangesInOrder.execVoteWindowExpiry : Leads ExchangesInOrder True (execVoteWindowExpiry s) := by
  unfold Machine.execVoteWindowExpiry
  split
  · split
    · exact h.quiet (exchanges_endProposal s _ _)
    · exact h
  · exact h

theorem ExchangesInOrder.judge (p : Port) (kind : Byte) (bytes : List Byte) (bits : Nat) :
    ExchangesInOrder (s.judge p kind bytes bits) := by
  unfold State.judge
  split
  · exact h.same (exchanges_modLink s p _ rfl)
  split
  · exact h.arriveHello p _
  split
  · exact h.same (exchanges_modLink s p _ rfl)
  unfold State.admitFrame
  dsimp only
  split
  · exact h.same ((exchanges_drainForHead _ p).trans (exchanges_modLink s p _ rfl))
  · exact h.same (exchanges_modLink s p _ rfl)

omit h in
theorem exchanges_closeTransaction (s : State) (p : Port) (out : List Byte) :
    (s.closeTransaction p out).exchanges = s.exchanges := exchanges_modLink s p _ rfl

theorem ExchangesInOrder.execRequestFrame (p : Port) (bytes : List Byte) (bits : Nat) :
    Leads ExchangesInOrder True (execRequestFrame p bytes bits s) := by
  unfold Machine.execRequestFrame
  split
  · exact h.quiet (exchanges_closeTransaction s p _)
  · exact ((h.same (exchanges_closeTransaction s p _)).judge p _ bytes bits).took
  · exact h

theorem ExchangesInOrder.execHello (p : Port) (tag : Byte) : Leads ExchangesInOrder True (execHello p tag s) := by
  unfold Machine.execHello
  split
  · exact h.quiet (exchanges_closeTransaction s p _)
  · split
    · exact ((h.same (exchanges_closeTransaction s p _)).arriveHello p tag).took
    · exact h
  · exact h

theorem ExchangesInOrder.execSelectFallingEdge (p : Port) : Leads ExchangesInOrder True (execSelectFallingEdge p s) := by
  unfold Machine.execSelectFallingEdge
  split
  · exact h
  · refine h.quiet (Eq.trans ?_ (exchanges_modLink s p (fun l => { l with
      transaction := some { status := s.statusByte p, phase := .firstByte }, dataOut := [] }) rfl))
    unfold State.wake
    split
    · exact exchanges_of_ports rfl
    · rfl

theorem ExchangesInOrder.execFirstByteEnd (p : Port) (first : Byte) :
    Leads ExchangesInOrder True (execFirstByteEnd p first s) := by
  unfold Machine.execFirstByteEnd
  split
  · exact h.quiet (exchanges_modLink s p _ rfl)
  · exact h

theorem ExchangesInOrder.execPoll (p : Port) (clocks : Nat) : Leads ExchangesInOrder True (execPoll p clocks s) := by
  unfold Machine.execPoll
  split
  · exact h.quiet (exchanges_closeTransaction s p _)
  · exact h.quiet (exchanges_closeTransaction s p _)
  · exact h

omit h in
/-- A FETCH removes nothing, or the oldest response, which is completed (R184). -/
theorem removeFetched_responses (l : Link) (chosen : Option Response) (clocks : Nat) :
    (l.removeFetched chosen clocks).responses = l.responses
      ∨ ∃ x, l.responses = .completed x :: (l.removeFetched chosen clocks).responses := by
  unfold Link.removeFetched
  split
  · exact .inl rfl
  · split
    · next r both =>
      have oldest := both.2
      unfold Link.oldestCompleted at oldest
      split at oldest
      · next responses => exact .inr ⟨_, by rw [responses]; rfl⟩
      · cases oldest
    · exact .inl rfl

theorem ExchangesInOrder.execFetch (p : Port) (clocks : Nat) : Leads ExchangesInOrder True (execFetch p clocks s) := by
  unfold Machine.execFetch
  split
  · exact h.quiet (exchanges_closeTransaction s p _)
  · next chosen _ =>
    refine ExchangesInOrder.took (ExchangesInOrder.same ?_ (exchanges_closeTransaction _ p _))
    obtain kept | ⟨x, removed⟩ := removeFetched_responses s.ports[p].link chosen clocks
    · exact h.same (exchanges_modLink s p _ kept)
    · exact h.update (exchanges_modPort s p _) ((h p).fetched removed)
  · exact h

theorem ExchangesInOrder.execPostDelayExpiry (p : Port) : Leads ExchangesInOrder True (execPostDelayExpiry p s) := by
  unfold Machine.execPostDelayExpiry
  split
  · exact h.quiet (exchanges_modPosts s p _)
  · exact h

theorem ExchangesInOrder.execNoticeDelayExpiry (p : Port) : Leads ExchangesInOrder True (execNoticeDelayExpiry p s) := by
  unfold Machine.execNoticeDelayExpiry
  split
  · exact h.quiet (exchanges_modNotices s p _)
  · exact h

theorem ExchangesInOrder.execRestCountdownExpiry : Leads ExchangesInOrder True (execRestCountdownExpiry s) := by
  unfold Machine.execRestCountdownExpiry
  split
  · exact h.elsewhere.took
  · exact h

theorem ExchangesInOrder.execWarmUpExpiry : Leads ExchangesInOrder True (execWarmUpExpiry s) := by
  unfold Machine.execWarmUpExpiry
  split
  · exact (h.elsewhere.takePending_foldl allPorts).took
  · exact h

omit h in
theorem freeBlock_ports (s : State) (f : FrameNo) (offset : Nat) : (s.freeBlock f offset).ports = s.ports := by
  unfold State.freeBlock
  rfl

omit h in
theorem loseBurst_ports (s : State) : s.loseBurst.ports = s.ports := by
  unfold State.loseBurst
  split
  · rfl
  · split
    · exact freeBlock_ports s _ _
    · rfl
  · split
    · split
      · rfl
      · exact freeBlock_ports s _ _
    · rfl
    · rfl

omit h in
theorem Stage.asked_held (st : Stage) : st.held.asked = st.asked := by
  rw [Stage.asked, StepInvariant.op?_held, Stage.asked]

theorem ExchangesInOrder.execResetAssert : Leads ExchangesInOrder True (execResetAssert s) := by
  unfold Machine.execResetAssert
  split
  · exact h
  · have held := exchanges_mapPorts { s.loseBurst with arbiter := { s.arbiter with path := .free } } (fun _ q => q.held)
      fun _ q => congrArg (Exchange.mk _ · _ _) q.stage.stage.asked_held
    have lost : { s.loseBurst with arbiter := { s.arbiter with path := .free } }.exchanges = s.exchanges :=
      exchanges_of_ports (loseBurst_ports s)
    exact (h.same (held.trans lost)).elsewhere

omit h in
theorem ExchangesInOrder.execPowerOn : Leads ExchangesInOrder True (execPowerOn s) := fun p => by
  rw [State.exchanges, show _ = PortState.reset from reset_ports p]
  exact .answered rfl rfl nofun rfl

theorem ExchangesInOrder.exec (c : Instr) : Leads ExchangesInOrder True (exec c s) := by
  cases c with
  | selectFallingEdge p => exact h.execSelectFallingEdge p
  | poll p clocks => exact h.execPoll p clocks
  | fetch p clocks => exact h.execFetch p clocks
  | requestFrame p bytes bits => exact h.execRequestFrame p bytes bits
  | hello p tag => exact h.execHello p tag
  | detach p => exact h.takeAndAnswer (serve := serveDetach p) (by decide) fun _ => exchanges_serveDetach
  | create p => exact h.serve (serve := serveCreate p) (by decide) fun t => exchanges_serveCreate t p
  | attach p => exact h.serve (serve := serveAttach p) (by decide) fun t => exchanges_serveAttach t p
  | close p => exact h.serve (serve := serveClose p) (by decide) fun t => exchanges_serveClose t p
  | revoke p => exact h.serve (serve := serveRevoke p) (by decide) fun t => exchanges_serveRevoke t p
  | info p => exact h.serve (serve := serveInfo p) (by decide) fun t => exchanges_serveInfo t p
  | grant p => exact h.serve (serve := serveGrant p) (by decide) fun t => exchanges_serveGrant t p
  | drop p => exact h.serve (serve := serveDrop p) (by decide) fun t => exchanges_serveDrop t p
  | list p => exact h.serve (serve := serveList p) (by decide) fun t => exchanges_serveList t p
  | read p => exact h.takeData (by decide) fun _ => rfl
  | write p => exact h.takeData (by decide) fun _ => rfl
  | cas p => exact h.takeData (by decide) fun _ => rfl
  | post p => exact h.execPost p
  | postRelease p => exact h.execPostRelease p
  | flush p => exact h.serve (serve := serveFlush p) (by decide) fun t => exchanges_serveFlush t p
  | claim p => exact h.serve (serve := serveClaim p) (by decide) fun t => exchanges_serveClaim t p
  | release p => exact h.serve (serve := serveRelease p) (by decide) fun t => exchanges_serveRelease t p
  | renew p => exact h.serve (serve := serveRenew p) (by decide) fun t => exchanges_serveRenew t p
  | notices p => exact h.serve (serve := serveNotices p) (by decide) fun t => exchanges_serveNotices t p
  | propose p => exact h.serve (serve := servePropose p) (by decide) fun t => exchanges_servePropose t p
  | vote p => exact h.serve (serve := serveVote p) (by decide) fun t => exchanges_serveVote t p
  | settings p => exact h.serve (serve := serveSettings p) (by decide) fun t => exchanges_serveSettings t p
  | unknownRequest p => exact h.execUnknownRequest p
  | grantDecision => exact h.execGrantDecision
  | burstCompletion p => exact h.execBurstCompletion p
  | scrubBurstCompletion => exact h.execScrubBurstCompletion
  | leaseExpiry i => exact h.execLeaseExpiry i
  | postDelayExpiry p => exact h.execPostDelayExpiry p
  | noticeDelayExpiry p => exact h.execNoticeDelayExpiry p
  | voteWindowExpiry => exact h.execVoteWindowExpiry
  | restCountdownExpiry => exact h.execRestCountdownExpiry
  | warmUpExpiry => exact h.execWarmUpExpiry
  | resetAssert => exact h.execResetAssert
  | powerOn => exact .execPowerOn
  | firstByteEnd p first => exact h.execFirstByteEnd p first

theorem ExchangesInOrder.step : Leads ExchangesInOrder True (step s) := by
  unfold Machine.step
  split
  · exact h
  · exact h.elsewhere.exec _

end Commands

/-- Settles O58: by `ExchangesInOrder.step`, the induction over commands. -/
theorem stepKeepsResponsesInOrder : Obligations.StepKeepsResponsesInOrder := by
  intro s t inOrder stepped
  have kept := ((responsesInOrder_iff_exchanges s).mp inOrder).step
  rw [stepped] at kept
  exact (responsesInOrder_iff_exchanges t).mpr kept

end Sys2Proof.Machine
end

