-- ==== Sys2Proof/Proofs/PostsAndNotices.lean ====
section
/-! PROOFS. The events of one port's Post Buffer and Notice Queue that only report or time (R95, R96, R101, R173, R174): each
changes the record of that port alone. -/

namespace Sys2Proof.Machine

/-! ## A change of one port's record -/

section OnePort

variable (s : State) (p : Port)

theorem State.modPort_modPort (f g : PortState → PortState) :
    (s.modPort p f).modPort p g = s.modPort p fun q => g (f q) := by
  simp [State.modPort]

theorem onlyPorts_settle {u : State} (keeps : Keeps s u) (shares : u.shares = s.shares) (pool : u.pool = s.pool) :
    OnlyPorts s u.settle :=
  onlyPorts_of_shares
    (onlyPortsShares_of_pool (onlyPortsSharesPool_settle keeps) ((State.settle_pool u).trans pool))
    ((State.settle_shares u).trans shares)

theorem otherPortsSame_settle {u : State} (others : ∀ q : Port, q ≠ p → u.ports[q] = s.ports[q]) :
    OtherPortsSame s u.settle [p] := by
  intro q hq
  unfold SamePort
  rw [State.port_eq, State.settle_get, others q fun e => hq (List.mem_singleton.mpr e)]
  rfl

/-- An event changed the record of port `p` alone, to `q` but for the attention line. -/
def OnlyPortChanged (s t : State) (p : Port) (q : PortState) : Prop :=
  t.port p = { q with attention := (t.port p).attention } ∧ OtherPortsSame s t [p] ∧ OnlyPorts s t

variable {s p} in
theorem OnlyPortChanged.calling {t : State} {q : PortState} (h : OnlyPortChanged s t p q)
    (calls : (t.port p).attention = true) :
    t.port p = { q with attention := true } ∧ OtherPortsSame s t [p] ∧ OnlyPorts s t := by
  rw [← calls]
  exact h

theorem settle_modPort (f : PortState → PortState) : OnlyPortChanged s (s.modPort p f).settle p (f (s.port p)) := by
  refine ⟨?_, otherPortsSame_settle s p fun q other => State.modPort_other s f other,
    onlyPorts_settle s (keeps_modPort s p f) rfl rfl⟩
  rw [State.port_eq, State.settle_get, State.modPort_same]
  rfl

/-- In RUN the close of an event asserts the line of a port whose conditions hold (R176). -/
theorem settle_attention (running : s.running = true) (calls : (s.port p).calls = true) :
    (s.settle.port p).attention = true := by
  rw [State.port_eq, State.settle_get, running]
  exact calls

end OnePort

/-! ## The expiry of the delays (R95, R96, R174) -/

theorem drainHeld_mode (b : PostBuffer) :
    b.drainHeld.mode = if b.posts ≠ [] then .draining else b.mode := by
  unfold PostBuffer.drainHeld
  cases mode : b.mode <;> by_cases held : b.posts ≠ [] <;> simp [mode, held, PostBuffer.drain]

theorem drainHeld_stopped (b : PostBuffer) : { b.drainHeld with timer := none }
    = { b with timer := none, mode := if b.posts ≠ [] then .draining else b.mode } := by
  rw [← drainHeld_mode]
  unfold PostBuffer.drainHeld
  split <;> rfl

/-- Settles O36: either expiry changes the record of its port alone. -/
theorem delayTimersExpire : Obligations.DelayTimersExpire := by
  intro s p d running
  refine ⟨fun timer => ?_, fun timer => ?_⟩
  · have expires : exec (.postDelayExpiry p) s = .next (s.modPosts p fun b => { b.drainHeld with timer := none }).settle := by
      show execPostDelayExpiry p s = _
      unfold execPostDelayExpiry
      rw [running, timer]
      rfl
    have changed := settle_modPort s p fun q => { q with posts := { q.posts.drainHeld with timer := none } }
    rw [drainHeld_stopped] at changed
    exact ⟨_, expires, changed⟩
  · have expires : exec (.noticeDelayExpiry p) s
        = .next (s.modNotices p fun nq => { nq with aged := true, timer := none }).settle := by
      show execNoticeDelayExpiry p s = _
      unfold execNoticeDelayExpiry
      rw [running, timer]
      rfl
    refine ⟨_, expires, (settle_modPort s p _).calling (settle_attention _ p running ?_)⟩
    rw [PortState.calls, State.port_eq, State.modPort_same]
    exact Bool.or_true _

/-! ## FLUSH and NOTICES (R101, R173) -/

section Served

variable {s : State} {p : Port} {f : Frame} (g : PortState → PortState) (r : Reply)

/-- A request whose service changes the record of its own port, but for the link, is answered behind the responses that
wait. -/
theorem answer_modPort (completed : (s.port p).link.allCompleted = true) (post : f.kind ≠ kindPost)
    (apart : ∀ q l, g { q with link := l } = { g q with link := l }) :
    OnlyPortChanged s (((s.dequeue p f).modPort p g).answer p f r) p
      { g (s.port p) with link := (s.port p).link.answered f r } := by
  have taken : ((s.dequeue p f).modPort p g).ports[p]
      = { g (s.port p) with link := (s.dequeue p f).ports[p].link } := by
    rw [State.modPort_same, dequeue_port, apart]
    rfl
  have link := answer_link (u := (s.dequeue p f).modPort p g) r completed post (by rw [taken])
  have keeps := ((keeps_dequeue s p f).trans (keeps_modPort _ p g)).trans (keeps_placeResponse _ p f.kind r)
  refine ⟨?_, otherPortsSame_settle s p fun q other => ?_, onlyPorts_settle s keeps rfl rfl⟩
  · rw [State.port_eq, answer_port, link, taken]
  · rw [State.placeResponse_eq, State.modPort_other _ _ other, State.modPort_other _ _ other, dequeue_eq,
      State.modPort_other _ _ other]

/-- The response that a taken request leaves asserts the line of its port (R176). -/
theorem answer_attention {u : State} {l : Link} (running : u.running = true)
    (link : ((u.answer p f r).port p).link = l.answered f r) : ((u.answer p f r).port p).attention = true := by
  refine settle_attention (u.placeResponse p f.kind r) p running ?_
  have link : ((u.placeResponse p f.kind r).port p).link = l.answered f r := by
    rw [← link, State.answer, State.port_eq _ p, State.port_eq, State.settle_get]
  rw [PortState.calls, link, Link.answered]
  simp

end Served

/-- What NOTICES leaves of the queue, by the number of records (R173). -/
theorem collect_eq (nq : NoticeQueue) (delay : Nat) : nq.collect delay = { nq with
    records := nq.records.drop 8, aged := false
    overflow := if nq.records.length ≤ 8 then false else nq.overflow
    timer := if nq.records.length ≤ 8 then none else some delay } := by
  unfold NoticeQueue.collect noticesPerRequest
  simp only [List.drop_eq_nil_iff]

theorem dequeue_postsAndNotices (s : State) (p : Port) (f : Frame) :
    ((s.dequeue p f).port p).posts = (s.port p).posts ∧ ((s.dequeue p f).port p).notices = (s.port p).notices := by
  rw [State.port_eq, dequeue_port]
  exact ⟨rfl, rfl⟩

/-- Settles O35: each service changes one field of its port beside the link. -/
theorem flushAndNoticesReportAndClear : Obligations.FlushAndNoticesReportAndClear := by
  refine ⟨fun s p f h attached empty => ?_, fun s p f h attached empty => ?_⟩
  all_goals
    rw [← dequeue_isAttached s p f p] at attached
    obtain ⟨posts, notices⟩ := dequeue_postsAndNotices s p f
  · have served : serveFlush p f.body (s.dequeue p f) = _ := emptyBody_served attached empty _
    have post : f.kind ≠ kindPost := by rw [h.2.1]; decide
    rw [posts] at served
    exact ⟨_, takeAndAnswer_takes (serve := serveFlush p) h served, answer_modPort _ _ h.2.2 post fun _ _ => rfl⟩
  · have served : serveNotices p f.body (s.dequeue p f) = _ := emptyBody_served attached empty _
    have post : f.kind ≠ kindPost := by rw [h.2.1]; decide
    dsimp only at served
    rw [notices, List.length_drop] at served
    have changed := answer_modPort (fun q => { q with notices := q.notices.collect s.settings.noticeDelay })
      (Reply.ok (.notices ((s.port p).notices.records.take 8) ((s.port p).notices.records.length - 8)
        (s.port p).notices.overflow)) h.2.2 post fun _ _ => rfl
    have running : s.running = true := running_of_next h.1
    have line := answer_attention _ (u := (s.dequeue p f).modNotices p fun nq => nq.collect s.settings.noticeDelay)
      running (congrArg PortState.link changed.1)
    rw [collect_eq] at changed
    exact ⟨_, takeAndAnswer_takes (serve := serveNotices p) h served, changed.calling line⟩

end Sys2Proof.Machine
end

