-- ==== Sys2Proof/Proofs/Posting.lean ====
section
/-! PROOFS. POST and POST_RELEASE (R94 to R98): what a taken POST makes of the Post Buffer, and the release of the post at its
head, which is admitted as a WRITE is, or reported to its own port. -/

namespace Sys2Proof.Machine

/-! ## The Post Buffer (R93, R95, R96) -/

section Buffer

variable (b : PostBuffer) (body : List Byte) (threshold delay : Nat)

theorem drainHeld_kept :
    b.drainHeld.posts = b.posts ∧ b.drainHeld.ordinal = b.ordinal ∧ b.drainHeld.faults = b.faults := by
  unfold PostBuffer.drainHeld
  split <;> exact ⟨rfl, rfl, rfl⟩

/-- The post joins with the next ordinal (R94). -/
def PostBuffer.joined : PostBuffer :=
  { b with posts := b.posts ++ [{ body := body, ordinal := b.ordinal }], ordinal := b.ordinal + 1 }

theorem joined_length : (b.joined body).posts.length = b.posts.length + 1 := List.length_append

theorem append_eq : b.append body threshold delay =
    if b.mode = .holding then
      if threshold ≤ b.posts.length + 1 then (b.joined body).drain else { b.joined body with timer := some delay }
    else b.joined body := by
  rw [← joined_length b body]
  rfl

variable {b}

/-- A buffer that drains already goes on draining. -/
theorem drainHeld_of_draining (mode : b.mode = .draining) : b.drainHeld = b :=
  if_neg fun both => by rw [mode] at both; cases both.1

theorem drainHeld_of_holding (mode : b.mode = .holding) (held : b.posts ≠ []) : b.drainHeld = b.drain :=
  if_pos ⟨mode, held⟩

theorem drainHeld_of_empty (empty : b.posts = []) : b.drainHeld = b := if_neg fun both => both.2 empty

theorem append_of_draining (mode : b.mode = .draining) : b.append body threshold delay = b.joined body := by
  rw [append_eq, mode]
  exact if_neg nofun

/-- The threshold reached drains a holding buffer (R95, first row). -/
theorem append_of_full (mode : b.mode = .holding) (full : threshold ≤ b.posts.length + 1) :
    b.append body threshold delay = (b.joined body).drain := by
  rw [append_eq, if_pos mode, if_pos full]

/-- Below the threshold a holding buffer restarts its timer (R96). -/
theorem append_of_room (mode : b.mode = .holding) (room : ¬threshold ≤ b.posts.length + 1) :
    b.append body threshold delay = { b.joined body with timer := some delay } := by
  rw [append_eq, if_pos mode, if_neg room]

end Buffer

/-! ## POST (R94) -/

/-- A non-POST request stands at the head of these. -/
def otherAtHead (requests : List Frame) : Bool := requests.head?.any fun g => g.kind != kindPost

theorem drainForHead_eq (s : State) (p : Port) : s.drainForHead p = s.modPosts p fun b =>
    if otherAtHead (s.port p).link.requests then b.drainHeld else b := by
  have unchanged : s = s.modPosts p fun b => b := (State.modPort_self s rfl).symm
  unfold State.drainForHead otherAtHead
  cases (s.port p).link.requests with
  | nil => exact unchanged
  | cons g rest =>
    by_cases post : g.kind = kindPost
    · simpa [post] using unchanged
    · simp [post]

/-- The buffer that a taken POST leaves on an ATTACHED port, with or without a non-POST request behind it. -/
def PostBuffer.hold (b : PostBuffer) (body : List Byte) (r : Settings) (other : Bool) : PostBuffer :=
  if other then (b.append body r.postThreshold r.postDelay).drainHeld else b.append body r.postThreshold r.postDelay

section Hold

variable (b : PostBuffer) (body : List Byte) (r : Settings) (other : Bool)

theorem append_kept : (b.append body r.postThreshold r.postDelay).posts = (b.joined body).posts
    ∧ (b.append body r.postThreshold r.postDelay).ordinal = b.ordinal + 1
    ∧ (b.append body r.postThreshold r.postDelay).faults = b.faults := by
  rw [append_eq]
  split
  · split <;> exact ⟨rfl, rfl, rfl⟩
  · exact ⟨rfl, rfl, rfl⟩

theorem hold_kept : (b.hold body r other).posts = (b.joined body).posts ∧ (b.hold body r other).ordinal = b.ordinal + 1
    ∧ (b.hold body r other).faults = b.faults := by
  obtain ⟨posts, ordinal, faults⟩ := append_kept b body r
  unfold PostBuffer.hold
  split
  · obtain ⟨posts', ordinal', faults'⟩ := drainHeld_kept (b.append body r.postThreshold r.postDelay)
    exact ⟨posts'.trans posts, ordinal'.trans ordinal, faults'.trans faults⟩
  · exact ⟨posts, ordinal, faults⟩

variable {b r other}

theorem hold_of_draining (mode : b.mode = .draining) : b.hold body r other = b.joined body := by
  unfold PostBuffer.hold
  rw [append_of_draining body _ _ mode, drainHeld_of_draining (b := b.joined body) mode, ite_self]

/-- The threshold reached, or a non-POST request behind, drains what a buffer holds (R95). -/
theorem hold_drains (mode : b.mode = .holding) (drains : r.postThreshold ≤ b.posts.length + 1 ∨ other = true) :
    (b.hold body r other).mode = .draining ∧ (b.hold body r other).timer = none := by
  have nonempty : (b.joined body).posts ≠ [] := List.append_ne_nil_of_right_ne_nil _ (List.cons_ne_nil _ _)
  unfold PostBuffer.hold
  by_cases full : r.postThreshold ≤ b.posts.length + 1
  · rw [append_of_full body _ _ mode full, drainHeld_of_draining (b := (b.joined body).drain) rfl, ite_self]
    exact ⟨rfl, rfl⟩
  · rw [append_of_room body _ _ mode full, if_pos (drains.resolve_left full),
      drainHeld_of_holding (b := { b.joined body with timer := some r.postDelay }) mode nonempty]
    exact ⟨rfl, rfl⟩

theorem hold_waits (mode : b.mode = .holding) (room : ¬r.postThreshold ≤ b.posts.length + 1) (none : other = false) :
    b.hold body r other = { b.joined body with timer := some r.postDelay } := by
  rw [PostBuffer.hold, none, append_of_room body _ _ mode room]
  rfl

end Hold

theorem State.modPort_congr (s : State) {p : Port} {f g : PortState → PortState} (same : f (s.port p) = g (s.port p)) :
    s.modPort p f = s.modPort p g := by
  unfold State.modPort
  rw [← State.port_eq, same]

theorem takePost_eq (s : State) (p : Port) (body : List Byte) : s.takePost p body = s.modPosts p fun b =>
    if s.isAttached p then b.append body s.settings.postThreshold s.settings.postDelay else b := by
  unfold State.takePost
  split
  · rfl
  · exact (State.modPort_self s rfl).symm

/-- A POST is taken, and reserves no entry (R94, R102). -/
theorem dequeue_post (s : State) (p : Port) {f : Frame} (post : f.kind = kindPost) : s.dequeue p f
    = s.modPort p fun q => { q with link := { q.link with requests := q.link.requests.drop 1 } } := by
  rw [dequeue_eq]
  simp only [if_pos post]

/-- The buffer of port `p` after a POST `f`: on a port that is not ATTACHED the post is discarded (R94). -/
def State.postsAfter (s : State) (p : Port) (f : Frame) (other : Bool) : PostBuffer :=
  if s.isAttached p then (s.port p).posts.hold f.body s.settings other
  else if other then (s.port p).posts.drainHeld else (s.port p).posts

theorem exec_post {s : State} {p : Port} {f : Frame} (next : s.nextRequest p = some f) (post : f.kind = kindPost) :
    exec (.post p) s = .next (s.modPort p fun q => { q with
      link := { q.link with requests := q.link.requests.drop 1 }
      posts := s.postsAfter p f (otherAtHead ((s.port p).link.requests.drop 1)) }).settle := by
  have taken : exec (.post p) s = .next (((s.dequeue p f).takePost p f.body).drainForHead p).settle :=
    takeBy_of_next (isKind := fun b => b == kindPost) next (by simp [post]) fun f t => (t.takePost p f.body).drainForHead p
  have requests : (((s.dequeue p f).takePost p f.body).port p).link.requests = (s.port p).link.requests.drop 1 := by
    rw [takePost_eq, dequeue_post s p post, State.modPosts_eq, State.port_eq, State.modPort_same, State.modPort_same]
    rfl
  rw [taken, drainForHead_eq, requests, takePost_eq, dequeue_isAttached, dequeue_post s p post, State.modPosts_eq,
    State.modPosts_eq, State.modPort_modPort, State.modPort_modPort]
  refine congrArg (fun u => Host.Outcome.next u.settle) (s.modPort_congr ?_)
  unfold State.postsAfter PostBuffer.hold
  cases s.isAttached p <;> rfl

/-- A non-POST request is left at the head behind the POST. -/
theorem otherAtHead_iff {requests : List Frame} {f : Frame} (head : requests.head? = some f) :
    otherAtHead (requests.drop 1) = true ↔ ∃ g rest, requests = f :: g :: rest ∧ g.kind ≠ kindPost := by
  obtain ⟨rest, rfl⟩ := List.head?_eq_some_iff.mp head
  cases rest with
  | nil => simp [otherAtHead]
  | cons g rest => simp [otherAtHead]

/-- Settles O33: the Post Buffer after a POST is `PostBuffer.hold`, with a non-POST request behind as `otherAtHead_iff` says. -/
theorem postIsHeld : Obligations.PostIsHeld := by
  intro s p f next post b posts' drains
  have length : posts'.length = b.posts.length + 1 := List.length_append
  have head := otherAtHead_iff ((nextRequest_some_iff s p f).mp next).1
  have taken := exec_post next post
  generalize otherAtHead ((s.port p).link.requests.drop 1) = other at head taken
  obtain ⟨port, others, frame⟩ := settle_modPort s p fun q => { q with
    link := { q.link with requests := q.link.requests.drop 1 }, posts := s.postsAfter p f other }
  have posts := congrArg PortState.posts port
  refine ⟨_, taken, ?_, fun attached => ?_, fun detached empty => ?_, others, frame⟩
  · rw [posts]
    exact port
  · have held : s.postsAfter p f other = b.hold f.body s.settings other := if_pos attached
    obtain ⟨records, ordinal, faults⟩ := hold_kept b f.body s.settings other
    rw [posts, show PortState.posts _ = _ from held]
    refine ⟨records, ordinal, faults, fun mode drains => ?_, fun mode waits => ?_, fun mode => ?_⟩
    · exact hold_drains f.body mode (drains.imp (length ▸ ·) head.mpr)
    · rw [hold_waits f.body mode (fun full => waits (.inl (length ▸ full)))
        (Bool.eq_false_iff.mpr fun behind => waits (.inr (head.mp behind)))]
      exact ⟨mode, rfl⟩
    · rw [hold_of_draining f.body mode]
      exact ⟨mode, rfl⟩
  · have discarded : s.postsAfter p f other = if other then b.drainHeld else b :=
      if_neg (by rw [detached]; exact Bool.false_ne_true)
    rw [drainHeld_of_empty empty, ite_self] at discarded
    exact posts.trans discarded

/-! ## The checks of a released post (R97) -/

section Released

variable (s : State) (p : Port) (g : PostBuffer → PostBuffer)

theorem modPosts_port (q : Port) : (s.modPosts p g).port q = { s.port q with posts := ((s.modPosts p g).port q).posts } := by
  rw [State.port_eq, State.modPosts_eq, State.modPort_get]
  split
  · next e => rw [e]; rfl
  · rfl

theorem modPosts_handle (q : Port) (k : HandleNo) : (s.modPosts p g).handle q k = s.handle q k := by
  unfold State.handle
  rw [modPosts_port]

theorem modPosts_isAttached (q : Port) : (s.modPosts p g).isAttached q = s.isAttached q := by
  unfold State.isAttached
  rw [modPosts_port]

theorem modPosts_entryAt (q : Port) (b : Byte) : (s.modPosts p g).entryAt q b = s.entryAt q b := by
  simp only [State.entryAt, modPosts_handle]

/-- The checker reads nothing of the Post Buffers. -/
theorem modPosts_dataChecks (q : Port) (k : DataKind) (f : DataFields) :
    dataChecks (s.modPosts p g) q k f = dataChecks s q k f := by
  simp only [dataChecks, resolution, modPosts_isAttached, modPosts_entryAt]
  rfl

variable {s p}

theorem modPosts_resolves {q : Port} {b : Byte} {h : HandleNo} {v : Handle} (r : Resolves s q b h v) :
    Resolves (s.modPosts p g) q b h v := by
  obtain ⟨number, valid, current⟩ := r
  exact ⟨number, (modPosts_handle s p g q h).trans valid, current⟩

/-- The post at the head of a draining buffer leaves it (R97). -/
theorem release_eq {b : PostBuffer} {r : PostRecord} {rest : List PostRecord} (posts : b.posts = r :: rest)
    (mode : b.mode = .draining) :
    b.release = { b with posts := rest, mode := if rest = [] then .holding else .draining } := by
  unfold PostBuffer.release
  rw [posts, mode]
  rfl

variable {r : PostRecord} {rest : List PostRecord}

theorem nextPost_eq (running : s.running = true) (posts : (s.port p).posts.posts = r :: rest)
    (mode : (s.port p).posts.mode = .draining) (stage : (s.port p).stage.stage = .empty) : s.nextPost p = some r := by
  unfold State.nextPost
  dsimp only
  rw [running, mode, stage, posts]
  rfl

theorem exec_postRelease_of_refused (next : s.nextPost p = some r) {code : Result}
    (refused : (s.modPosts p PostBuffer.release).checkData p .post r.body = .error code) :
    exec (.postRelease p) s = .next ((s.modPosts p PostBuffer.release).faultPost p r code).settle := by
  show execPostRelease p s = _
  unfold execPostRelease
  rw [next]
  dsimp only
  rw [refused]
  rfl

theorem exec_postRelease_of_admitted (next : s.nextPost p = some r) {a : Admit}
    (admitted : (s.modPosts p PostBuffer.release).checkData p .post r.body = .ok a) :
    exec (.postRelease p) s = .next ((s.modPosts p PostBuffer.release).startOperation p .post a).settle := by
  show execPostRelease p s = _
  unfold execPostRelease
  rw [next]
  dsimp only
  rw [admitted]
  rfl

end Released

/-! ## A released post refused (R98) -/

theorem push_eq (s : State) (p : Port) (n : Notice) : s.push p n = s.modNotices p fun nq =>
    if s.isAttached p then nq.pushAll s.settings [n] else nq := by
  cases attached : s.isAttached p with
  | true => exact push_attached attached n
  | false => exact (push_not_attached attached n).trans (State.modPort_self s rfl).symm

/-- The report changes the notices and the count of the post's own port alone. -/
theorem faultPost_eq (s : State) (p : Port) (r : PostRecord) (code : Result) :
    (s.modPosts p PostBuffer.release).faultPost p r code = s.modPort p fun q => { q with
      posts := q.posts.release.countFault
      notices := if s.isAttached p then q.notices.pushAll s.settings [postFaultNotice r code.code] else q.notices } := by
  unfold State.faultPost
  rw [push_eq, modPosts_isAttached, State.modNotices_eq, State.modPosts_eq, State.modPosts_eq, State.modPort_modPort,
    State.modPort_modPort]
  rfl

/-- A post that the checker refuses is reported to its port and counted (R98). -/
theorem postRelease_reports {s : State} {p : Port} {r : PostRecord} {rest : List PostRecord} {code : Result}
    (running : s.running = true) (posts : (s.port p).posts.posts = r :: rest)
    (mode : (s.port p).posts.mode = .draining) (stage : (s.port p).stage.stage = .empty)
    (refused : (s.modPosts p PostBuffer.release).checkData p .post r.body = .error code) :
    ∃ t, exec (.postRelease p) s = .next t
      ∧ t.port p = { s.port p with
          posts := { (s.port p).posts with
            posts := rest, mode := if rest = [] then .holding else .draining
            faults := min 65535 ((s.port p).posts.faults + 1) }
          notices := (t.port p).notices, attention := (t.port p).attention }
      ∧ Told s t p [postFaultNotice r code.code] ∧ OtherPortsSame s t [p] ∧ OnlyPorts s t := by
  have released := exec_postRelease_of_refused (nextPost_eq running posts mode stage) refused
  rw [faultPost_eq] at released
  obtain ⟨port, others, frame⟩ := settle_modPort s p fun q => { q with
    posts := q.posts.release.countFault
    notices := if s.isAttached p then q.notices.pushAll s.settings [postFaultNotice r code.code] else q.notices }
  have told := congrArg PortState.notices port
  refine ⟨_, released, ?_, told, others, frame⟩
  rw [told]
  refine port.trans ?_
  dsimp only
  rw [release_eq posts mode]
  rfl

/-! ## A released post admitted (R97, R72) -/

section AdmittedPost

variable (s : State) (p : Port) (a : Admit)

/-- Port `p` has released a post that waits in the data stage. -/
def State.posting (s : State) (p : Port) (a : Admit) : State :=
  (((s.modPosts p PostBuffer.release).admitting a).setStage p
    { (s.port p).stage with stage := .waiting (a.operation .post) }).settle

theorem posting_shares (j : ShareIdx) : (s.posting p a).share j = if j = a.handle.share then
      (s.share a.handle.share).admitting a.need (s.pool.clean.take a.need.length)
    else s.share j := by
  rw [State.posting, State.share_eq, State.settle_shares]
  exact admitting_shares (s.modPosts p PostBuffer.release) a j

theorem posting_pool : (s.posting p a).pool = s.pool.take a.need.length := State.settle_pool _

theorem posting_port : (s.posting p a).port p = { s.port p with
    posts := (s.port p).posts.release
    stage := { (s.port p).stage with stage := .waiting (a.operation .post) }
    attention := ((s.posting p a).port p).attention } := by
  unfold State.posting
  rw [State.port_eq, State.settle_get, State.setStage_eq, State.modPort_same, admitting_ports, State.modPosts_eq,
    State.modPort_same]
  rfl

theorem posting_others : OtherPortsSame s (s.posting p a) [p] := by
  refine otherPortsSame_settle s p fun q other => ?_
  rw [State.setStage_eq, State.modPort_other _ _ other, admitting_ports, State.modPosts_eq, State.modPort_other _ _ other]

theorem posting_frame : OnlyPortsSharesPool s (s.posting p a) :=
  onlyPortsSharesPool_settle (((keeps_modPosts s p _).trans (keeps_admitting a _)).trans (keeps_setStage _ p _))

end AdmittedPost

theorem need_of_post (s : State) (f : DataFields) (v : Handle) :
    s.need .post f v = (s.share v.share).unbackedSlots (v.base + f.offset) f.length := if_neg (by decide)

/-- Settles O34: the checks of the released state are those of the state before, and their answer decides between
`postRelease_reports` and `State.posting`. -/
theorem postReleaseReportsOrAdmits : Obligations.PostReleaseReportsOrAdmits := by
  refine ⟨fun s p r rest code running posts mode stage failing => ?_, ?_⟩
  · refine postRelease_reports running posts mode stage ?_
    cases hf : dataFields r.body with
    | none =>
      rw [hf] at failing
      rw [checkData_badBody hf, badBody, modPosts_isAttached]
      exact congrArg Except.error (Option.some.inj failing)
    | some f =>
      rw [hf] at failing
      dsimp only at failing
      rw [← modPosts_dataChecks s p PostBuffer.release] at failing
      exact checkData_of_failing hf failing
  · intro s p r rest f h v running posts mode stage hf passing resolves i need
    rw [← modPosts_dataChecks s p PostBuffer.release] at passing
    have ok := checkData_of_passing hf passing (modPosts_resolves PostBuffer.release resolves)
    have adm := checkData_ok ok
    have released := exec_postRelease_of_admitted (nextPost_eq running posts mode stage) ok
    rw [startOperation_write rfl adm.length, modPosts_port] at released
    have needed : ((s.modPosts p PostBuffer.release).admission .post f v).need = need := need_of_post ..
    generalize made : (s.modPosts p PostBuffer.release).admission .post f v = a at adm released needed
    have handle : a.handle = v := by rw [← made]; rfl
    have fields : a.fields = f := by rw [← made]; rfl
    subst handle fields
    have share := posting_shares s p a
    have port := posting_port s p a
    rw [needed] at share
    rw [release_eq posts mode] at port
    refine ⟨s.posting p a, released, ?_, fun j => ?_, ?_, port, posting_others s p a,
      fun j hj => (share j).trans (if_neg hj), posting_frame s p a⟩
    · rw [share, if_pos (show i = a.handle.share from rfl)]
      rfl
    · have bound := adm.frameMap j
      rw [needed] at bound
      rw [share, if_pos rfl]
      exact bound
    · rw [posting_pool, needed]
      rfl

end Sys2Proof.Machine
end

