-- ==== Sys2Proof/Proofs/Bursts.lean ====
section
/-! PROOFS. The completion of a burst (R85 to R91, R119): the bytes it stores, the next piece that waits behind it, and the end of
its operation behind the last one. -/

namespace Sys2Proof.Machine

/-! ## The bytes stored -/

theorem stores_eq (op : Operation) (bs : List Byte) : op.stores bs = op.written bs := by
  obtain ⟨kind, share, generation, start, length, pos⟩ := op
  cases kind <;> rfl

/-- A burst stores the bytes of its piece at the store address of the piece, and no others (R84, R89). -/
theorem burstStored {s t : State} {op : Operation} {f : FrameNo} {bs : List Byte} (canonical : MemoryCanonical s)
    (mem : t.mem = s.mem.writeBytes (op.address f) (op.written bs)) : BurstStored s t op f bs := by
  have inFrame := written_inFrame op bs
  have frame := f.isLt
  have address : op.address f = f.val * 1024 + op.pos % 1024 := rfl
  have inStore : op.address f + (op.written bs).length ≤ Config.storeBytes := by
    unfold Config.frameBytes at inFrame
    unfold Config.storeBytes
    omega
  intro x
  rw [mem, stores_eq, ← address]
  exact Memory.read_writeBytes canonical _ inStore x

/-! ## What the completion makes of the data stage -/

section Completed

variable {s : State} {p : Port} {op : Operation} {f : FrameNo} {bs : List Byte}

/-- The store that the burst leaves. -/
def State.burstMemory (s : State) (op : Operation) (f : FrameNo) (bs : List Byte) : Memory :=
  s.mem.writeBytes (op.address f) (op.written bs)

/-- A burst of a READ, WRITE or post that is not abandoned lets the data stage go on (R85). -/
theorem completeBurst_goes_on (kept : op.kind.isRead = true → (s.port p).stage.abandon = false)
    (kind : ∀ e n, op.kind ≠ .cas e n) : s.freePath.completeBurst p op f bs
      = (s.stored (s.burstMemory op f bs)).advance p (op.deliver bs op.pieceLength) := by
  unfold State.completeBurst
  rw [if_neg]
  · split
    · next e n cas => exact absurd cas (kind e n)
    all_goals rfl
  · intro both
    obtain ⟨abandoned, read⟩ := Bool.and_eq_true_iff.mp both
    exact Bool.noConfusion (abandoned.symm.trans (kept read))

/-- A CAS ends with its one burst, and gives the old word (R91). -/
theorem completeBurst_cas {e n : List Byte} (kind : op.kind = .cas e n) : s.freePath.completeBurst p op f bs
    = (s.stored (s.burstMemory op f bs)).endOperation p op (some (casReply e bs)) := by
  unfold State.completeBurst
  rw [kind, if_neg (by simp [OpKind.isRead])]
  rfl

/-- The next piece waits when its slot is backed (R85). -/
theorem advance_to_next (left : op.pos + op.piece < op.start + op.length)
    (backed : ((s.share op.share).frameAt ((op.pos + op.piece) / 1024)).isSome = true) :
    s.advance p (op.deliver bs op.pieceLength)
      = s.setStage p { (s.port p).stage with stage := .waiting (op.deliver bs op.pieceLength) } := by
  have pos : (op.deliver bs op.pieceLength).pos = op.pos + op.piece := op.pos_deliver ..
  refine advance_of_burst (reachPiece_of_backed ?_ fun _ => ?_)
  · rw [pos, op.stop_deliver]
    exact left
  · rw [op.share_deliver, Operation.slot, pos]
    exact backed

/-- The answer of an operation that carried out every piece is the one R86 and R91 give. -/
theorem doneReply_deliver (kind : ∀ e n, op.kind ≠ .cas e n) :
    ((op.deliver bs op.pieceLength).doneReply.map fun r => ((op.deliver bs op.pieceLength).kind.requestKind, r))
      = op.finalAnswer bs := by
  obtain ⟨opKind, share, generation, start, length, pos⟩ := op
  cases opKind with
  | cas e n => exact absurd rfl (kind e n)
  | read delivered => rfl
  | write data => rfl
  | post data => rfl

/-- The last burst of an operation that is not abandoned ends it with its answer (R85, R86, R91). -/
theorem completeBurst_last (kept : (s.port p).stage.abandon = false) (last : op.start + op.length ≤ op.pos + op.piece) :
    ∃ (op' : Operation) (answer : Option Reply), op'.share = op.share
      ∧ (answer.map fun r => (op'.kind.requestKind, r)) = op.finalAnswer bs
      ∧ s.freePath.completeBurst p op f bs = (s.stored (s.burstMemory op f bs)).endOperation p op' answer := by
  by_cases cas : ∃ e n, op.kind = .cas e n
  · obtain ⟨e, n, kind⟩ := cas
    refine ⟨op, _, rfl, ?_, completeBurst_cas kind⟩
    rw [Operation.finalAnswer, kind]
    rfl
  · have kind (e n : List Byte) : op.kind ≠ .cas e n := fun is => cas ⟨e, n, is⟩
    have stop : (op.deliver bs op.pieceLength).stop ≤ (op.deliver bs op.pieceLength).pos := by
      rw [op.stop_deliver, op.pos_deliver]
      exact last
    exact ⟨op.deliver bs op.pieceLength, _, op.share_deliver .., doneReply_deliver kind,
      (completeBurst_goes_on (fun _ => kept) kind).trans (advance_of_finished (reachPiece_of_stop stop))⟩

end Completed

/-! ## The close of the event -/

section Closed

variable {s t : State} {m : Memory}

theorem stored_frame (h : OnlyPortsSharesPool (s.stored m) t) : t.mem = m ∧ t.arbiter = { s.arbiter with path := .free }
    ∧ t = { s with mem := t.mem, arbiter := t.arbiter, ports := t.ports, shares := t.shares, pool := t.pool
                   restCountdown := t.restCountdown } := by
  have mem : t.mem = m := (congrArg State.mem h :)
  have arbiter : t.arbiter = { s.arbiter with path := .free } := (congrArg State.arbiter h :)
  rw [mem, arbiter]
  exact ⟨rfl, rfl, h⟩

/-- The same of an event that changed ports alone beside the burst's store and path. -/
theorem stored_onlyPorts (h : OnlyPorts (s.stored m) t) : t.mem = m ∧ t.arbiter = { s.arbiter with path := .free }
    ∧ t = { s with mem := t.mem, arbiter := t.arbiter, ports := t.ports, restCountdown := t.restCountdown } := by
  have mem : t.mem = m := (congrArg State.mem h :)
  have arbiter : t.arbiter = { s.arbiter with path := .free } := (congrArg State.arbiter h :)
  rw [mem, arbiter]
  exact ⟨rfl, rfl, h⟩

theorem finishCleanup_of_waiting {p : Port} {op : Operation} (stage : (s.port p).stage.stage = .waiting op) :
    s.finishCleanup p = s := by
  unfold State.finishCleanup
  rw [stage]
  exact if_neg fun both => absurd (Bool.and_eq_true_iff.mp both).2 (by simp)

end Closed

/-- Settles O29: the next piece waits as `advance_to_next` says, on the store of `burstStored`. -/
theorem burstCompletionCarriesThePieceOut : Obligations.BurstCompletionCarriesThePieceOut := by
  intro s p op f bs running path stage kept canonical kind left backed
  have goes_on := (completeBurst_goes_on (s := s) (f := f) (bs := bs) kept kind).trans (advance_to_next left backed)
  have completed := exec_burstCompletion running path stage
  rw [goes_on, finishCleanup_of_waiting (op := op.deliver bs op.pieceLength)
    (by rw [State.port_eq, State.setStage_eq, State.modPort_same])] at completed
  obtain ⟨port, others, onlyPorts⟩ := settle_modPort (s.stored (s.burstMemory op f bs)) p fun q => { q with
    stage := { (s.port p).stage with stage := .waiting (op.deliver bs op.pieceLength) } }
  obtain ⟨mem, arbiter, frame⟩ := stored_onlyPorts onlyPorts
  refine ⟨_, completed, burstStored canonical mem, port.trans ?_, arbiter, others, frame⟩
  obtain ⟨opKind, share, generation, start, length, pos⟩ := op
  cases opKind <;> rfl

/-- Settles O30: the operation ends as `completeBurst_last` and `operationEnded` say, on the store of `burstStored`. -/
theorem lastBurstEndsTheOperation : Obligations.LastBurstEndsTheOperation := by
  intro s p op f bs running path stage kept attached canonical last
  obtain ⟨op', answer, share, final, ended⟩ := completeBurst_last (f := f) (bs := bs) kept last
  have completed := exec_burstCompletion running path stage
  have not_cleaning :
      (((s.stored (s.burstMemory op f bs)).endOperation p op' answer).port p).attach.state ≠ .cleaning := by
    rw [State.port_eq, endOperation_port]
    exact attached
  rw [ended, finishCleanup_of_not_cleaning not_cleaning] at completed
  obtain ⟨mem, arbiter, frame⟩ := stored_frame (onlyPortsSharesPool_settle
    (keeps_endOperation (s.stored (s.burstMemory op f bs)) p op' answer))
  have ends := operationEnded (s.stored (s.burstMemory op f bs)) p op' answer
  rw [share, final] at ends
  exact ⟨_, completed, burstStored canonical mem, ends, arbiter, frame⟩

end Sys2Proof.Machine
end

