-- ==== Sys2Proof/Proofs/Grants.lean ====
section
/-! PROOFS. The grant of the store data path (R116 to R118): to the requester of the phase that the scan stops at, or to a SCRUB
that waits while no phase names a waiting requester. -/

namespace Sys2Proof.Machine

section Decided

variable {s : State}

/-! ## Who waits (R112) -/

theorem waits_port {p : Port} {op : Operation} (stage : (s.port p).stage.stage = .waiting op) :
    s.waits (.port p) = true := by
  rw [State.waits, stage]

theorem waits_scrub (path : s.arbiter.path = .free) (present : s.pool.scrub.isSome = true) : s.waits .scrub = true := by
  rw [State.waits, present, path]
  rfl

/-- A legal table has a phase for every port (R114, R155). -/
theorem Settings.names_of_legal {r : Settings} (legal : r.legal = true) (p : Port) :
    ∃ k : Fin 16, r.phaseTable[k] = .port p := by
  have named : tableNames r.phaseTable p = true := by
    simp only [Settings.legal, Bool.and_eq_true, and_assoc] at legal
    obtain ⟨named, -⟩ := legal
    exact List.all_eq_true.mp named p (List.mem_finRange p)
  obtain ⟨k, hk, at_k⟩ := List.mem_iff_getElem.mp (List.contains_iff_mem.mp named)
  rw [Vector.length_toList] at hk
  exact ⟨⟨k, hk⟩, at_k⟩

/-- Under a legal table a port that waits has a phase that waits. -/
theorem not_waiting_of_idle (legal : SettingsLegal s) (idle : ∀ k : Fin 16, s.waits s.arbiter.table[k] = false)
    (p : Port) (op : Operation) : (s.port p).stage.stage ≠ .waiting op := by
  intro stage
  obtain ⟨record, table, -⟩ := legal
  obtain ⟨k, names⟩ := Settings.names_of_legal record p
  rw [← table] at names
  have waits := idle k
  rw [names, waits_port stage] at waits
  cases waits

/-! ## The idle grant (R117) -/

/-- When no phase names a waiting requester, a SCRUB that waits is decided for and the pointer stays. -/
theorem decision_of_idle (idle : ∀ k : Fin 16, s.waits s.arbiter.table[k] = false) (scrub : s.waits .scrub = true) :
    s.decision = some (.scrub, s.arbiter.pointer) := by
  have none_found : (scanOrder s.arbiter.pointer).find? (fun k => s.waits s.arbiter.table[k]) = none :=
    List.find?_eq_none.mpr fun k _ => Bool.eq_false_iff.mp (idle k)
  rw [State.decision, none_found]
  exact if_pos scrub

/-! ## What the grant changes (R118) -/

/-- An event that sets the arbiter and nothing else. -/
theorem settle_withArbiter (arbiter : Arbiter) :
    (s.withArbiter arbiter).settle.arbiter = arbiter ∧ OtherPortsSame s (s.withArbiter arbiter).settle []
      ∧ (s.withArbiter arbiter).settle = { s with
          arbiter := (s.withArbiter arbiter).settle.arbiter, ports := (s.withArbiter arbiter).settle.ports
          restCountdown := (s.withArbiter arbiter).settle.restCountdown } := by
  obtain ⟨set, frame⟩ := onlyPorts_withArbiter (s := s) (settle_eq (s.withArbiter arbiter))
  refine ⟨set, fun q _ => ?_, frame⟩
  unfold SamePort
  rw [State.port_eq, State.settle_get]
  rfl

/-- A SCRUB decided for makes the path BUSY. -/
theorem exec_grantDecision_scrub {pointer : Fin 16} (running : s.running = true) (path : s.arbiter.path = .free)
    (decided : s.decision = some (.scrub, pointer)) :
    exec .grantDecision s
      = .next (s.withArbiter { s.arbiter with pointer := pointer, path := .busy .scrub }).settle := by
  show execGrantDecision s = _
  unfold execGrantDecision
  rw [running, path, decided]
  rfl

variable {p : Port} {op : Operation} {f : FrameNo}

/-- A write-type operation is not rechecked: it bursts on the frame bound to its slot. -/
theorem grantPort_of_write (write : op.kind.isRead = false) (bound : (s.share op.share).frameAt op.slot = some f) :
    s.grantPort p op = .next (s.granted p op f) := by
  unfold State.grantPort
  rw [write, if_neg Bool.false_ne_true, bound]
  rfl

end Decided

/-- Settles O37: the scan's decision is `decision_of_phase` or `decision_of_idle`, and its grant is the one of
`exec_grantDecision_scrub` or `grantPort_of_write`. -/
theorem grantFollowsThePhaseTable : Obligations.GrantFollowsThePhaseTable := by
  refine ⟨fun s k running path before => ⟨fun phase present => ?_, fun p op f phase stage write bound => ?_⟩,
    fun s running path idle present => ⟨?_, fun legal => not_waiting_of_idle legal idle⟩⟩
  · have decided := decision_of_phase before (by rw [phase, waits_scrub path present])
    rw [phase] at decided
    exact ⟨_, exec_grantDecision_scrub running path decided, settle_withArbiter _⟩
  · obtain ⟨busy, frame⟩ := onlyPorts_withArbiter (s := s)
      (granted_frame (s.withArbiter { s.arbiter with pointer := s.arbiter.pointer + k + 1 }) p op f)
    refine ⟨_, (exec_grantDecision running path before phase stage).trans (grantPort_of_write write bound), busy,
      (granted_port ..).trans ?_, granted_others _ p op f, frame⟩
    obtain ⟨kind, share, generation, start, length, pos⟩ := op
    cases kind with
    | read delivered => cases write
    | write data | cas expected new | post data => rfl
  · exact ⟨_, exec_grantDecision_scrub running path (decision_of_idle idle (waits_scrub path present)),
      settle_withArbiter _⟩

end Sys2Proof.Machine
end

