-- ==== Sys2Proof/Proofs/ClaimRecords.lean ====
section
/-! PROOFS. The claim records (R124): what an operation leaves of them. `ClaimsKept` says that no record gains a place and that
what served a place that is left serves it still; all but CLAIM, the emptying of a handle and the entry into a cleanup keep the
records in this way, which is said once for each. -/

namespace Sys2Proof.Machine

/-! ## What serves a claim -/

theorem SameCounts.live {s t : State} (h : SameCounts s t) (i : ShareIdx) : t.shares[i].live = s.shares[i].live := by
  rw [Share.live, h.state i, Share.live]

/-- A place stays served where its entry, its port and its handle stay. -/
theorem servesClaim_mono {s t : State} {i : ShareIdx} {p : Port} {k : HandleNo} (h : s.servesClaim i p k)
    (live : t.shares[i].live = s.shares[i].live) (generation : t.shares[i].generation = s.shares[i].generation)
    (attached : s.isAttached p = true → t.isAttached p = true)
    (handle : ∀ v, s.handle p k = some v → v.share = i → t.handle p k = some v) : t.servesClaim i p k := by
  obtain ⟨present, v, valid, rfl, current, write⟩ := h
  refine ⟨attached present, v, handle v valid rfl, rfl, ?_, write⟩
  unfold State.current
  rw [State.share_eq, live, generation]
  exact current

/-! ## The places of a record -/

theorem places_eq (c : Claim) : c.places = (c.holder, c.handle) :: c.waiters.map fun w => (w.port, w.handle) := rfl

theorem ports_of_places (c : Claim) : c.places.map Prod.fst = c.holder :: c.waiters.map Waiter.port := by
  rw [places_eq, List.map_cons, List.map_map]
  rfl

/-- At a handover the holder's place alone is lost (R132). -/
theorem places_handedOver {c c' : Claim} {lease : Timer} (h : c.handedOver lease = some c') :
    c.places = (c.holder, c.handle) :: c'.places := by
  unfold Claim.handedOver at h
  split at h
  · cases h
  · next waiters =>
    cases h
    rw [places_eq, waiters]
    rfl

/-- Waiters that leave take their places with them, and the holder keeps its own. -/
theorem places_filter_sublist (c : Claim) (stays : Waiter → Bool) :
    { c with waiters := c.waiters.filter stays }.places.Sublist c.places :=
  ((List.filter_sublist (p := stays)).map _).cons_cons _

/-- The claim of a dropped handle loses the place held through it (R40, R138). -/
theorem places_afterDrop {c c' : Claim} {p : Port} {h : HandleNo} {lease : Timer} (e : c.afterDrop p h lease = some c') :
    c'.places.Sublist c.places ∧ ((c.places.map Prod.fst).Nodup → (p, h) ∉ c'.places) := by
  unfold Claim.afterDrop at e
  split at e
  · next holds =>
    have fresh (nodup : (c.places.map Prod.fst).Nodup) : p ∉ c.waiters.map Waiter.port := by
      rw [ports_of_places, holds] at nodup
      exact (List.nodup_cons.mp nodup).1
    have waits : (p, h) ∈ c.waiters.map (fun w => (w.port, w.handle)) → p ∈ c.waiters.map Waiter.port := fun mem =>
      have ⟨w, hw, place⟩ := List.mem_map.mp mem
      List.mem_map.mpr ⟨w, hw, congrArg Prod.fst place⟩
    split at e
    · have places := places_handedOver e
      refine ⟨places ▸ List.sublist_cons_self _ _, fun nodup mem => fresh nodup (waits ?_)⟩
      rw [places_eq] at places
      rwa [List.tail_eq_of_cons_eq places]
    · next other =>
      cases e
      refine ⟨.refl _, fun nodup mem => ?_⟩
      rcases List.mem_cons.mp mem with place | mem
      · exact other (congrArg Prod.snd place).symm
      · exact fresh nodup (waits mem)
  · next others =>
    cases e
    refine ⟨places_filter_sublist c _, fun _ mem => ?_⟩
    rcases List.mem_cons.mp mem with place | mem
    · exact others (congrArg Prod.fst place).symm
    · obtain ⟨w, hw, place⟩ := List.mem_map.mp mem
      cases place
      have stays := (List.mem_filter.mp hw).2
      simp at stays

/-- A port that is cleaned up has no place left (R139). -/
theorem places_leftBy {c c' : Claim} {p : Port} {lease : Timer} (e : c.leftBy p lease = some c') :
    c'.places.Sublist c.places ∧ ∀ x ∈ c'.places, x.1 ≠ p := by
  have left : (c.without p).places.Sublist c.places := places_filter_sublist c _
  have others : ∀ x ∈ (c.without p).waiters.map (fun w => (w.port, w.handle)), x.1 ≠ p := fun x hx => by
    obtain ⟨w, hw, rfl⟩ := List.mem_map.mp hx
    exact bne_iff_ne.mp (List.mem_filter.mp hw).2
  unfold Claim.leftBy at e
  split at e
  · have places := places_handedOver e
    refine ⟨.trans (places ▸ List.sublist_cons_self _ _) left, ?_⟩
    rw [places_eq] at places
    rwa [List.tail_eq_of_cons_eq places] at others
  · next other =>
    cases e
    refine ⟨left, fun x hx => ?_⟩
    rcases List.mem_cons.mp hx with rfl | hx
    · exact other
    · exact others x hx

/-! ## Records kept -/

/-- From `s` to `t` no claim record gains a place, and each place left is served if it was (R124). -/
def ClaimsKept (s t : State) : Prop :=
  ∀ (i : ShareIdx) (c : Claim), t.shares[i].claim = some c → ∃ c', s.shares[i].claim = some c'
    ∧ c.places.Sublist c'.places ∧ ∀ x ∈ c.places, s.servesClaim i x.1 x.2 → t.servesClaim i x.1 x.2

theorem ClaimsSound.kept {s t : State} (h : ClaimsSound s) (kept : ClaimsKept s t) : ClaimsSound t := fun i c record =>
  have ⟨c', before, sub, served⟩ := kept i c record
  have ⟨nodup, all⟩ := h i c' before
  ⟨nodup.sublist (sub.map _), fun x hx => served x hx (all x (sub.subset hx))⟩

namespace ClaimsKept

variable {s t u : State}

theorem refl (s : State) : ClaimsKept s s := fun _ c record => ⟨c, record, .refl _, fun _ _ => id⟩

theorem trans (a : ClaimsKept s t) (b : ClaimsKept t u) : ClaimsKept s u := fun i c record =>
  have ⟨c', middle, sub, served⟩ := b i c record
  have ⟨c'', before, sub', served'⟩ := a i c' middle
  ⟨c'', before, sub.trans sub', fun x hx h => served x hx (served' x (sub.subset hx) h)⟩

theorem foldl {α : Type} {f : State → α → State} (h : ∀ s a, ClaimsKept s (f s a)) (l : List α) (s : State) :
    ClaimsKept s (l.foldl f s) := by
  induction l generalizing s with
  | nil => exact refl s
  | cons a l ih => exact (h s a).trans (ih (f s a))

/-- The records lose places, and nothing that serves one changes. -/
theorem lessen (counts : SameCounts s t)
    (attached : ∀ p : Port, s.isAttached p = true → t.isAttached p = true)
    (less : ∀ (i : ShareIdx) (c : Claim), t.shares[i].claim = some c →
      ∃ c', s.shares[i].claim = some c' ∧ c.places.Sublist c'.places) : ClaimsKept s t := fun i c record => by
  obtain ⟨c', before, sub⟩ := less i c record
  refine ⟨c', before, sub, fun x _ served =>
    servesClaim_mono served (counts.live i) (counts.generation i) (attached x.1) fun v valid _ => ?_⟩
  rw [State.handle_eq, counts.handles x.1]
  exact valid

/-- The records stay, and so does what serves a place in one. -/
theorem same (counts : SameCounts s t) (attached : ∀ p : Port, s.isAttached p = true → t.isAttached p = true)
    (claim : ∀ i : ShareIdx, t.shares[i].claim = s.shares[i].claim) : ClaimsKept s t :=
  lessen counts attached fun i c record => ⟨c, claim i ▸ record, .refl _⟩

/-- The port records alone change, and not in what serves a claim. -/
theorem of_ports (shares : t.shares = s.shares) (handles : ∀ p : Port, t.ports[p].handles = s.ports[p].handles)
    (attached : ∀ p : Port, s.isAttached p = true → t.isAttached p = true) : ClaimsKept s t :=
  same ⟨handles, fun _ => by rw [shares], fun _ => by rw [shares], fun _ => by rw [shares]⟩ attached
    fun _ => by rw [shares]

/-- Nothing but the ports and the shares matters. -/
theorem elsewhere (ports : t.ports = s.ports := by rfl) (shares : t.shares = s.shares := by rfl) : ClaimsKept s t :=
  of_ports shares (fun _ => by rw [ports]) fun _ h => by rwa [State.isAttached, State.port_eq, ports]

/-- Entry `i` has no claim after the change, and of the other entries, their handles and the attachments nothing is lost. -/
theorem apart (i : ShareIdx) (ended : t.shares[i].claim = none) (others : ∀ j, j ≠ i → t.shares[j] = s.shares[j])
    (attached : ∀ p : Port, s.isAttached p = true → t.isAttached p = true)
    (handles : ∀ p k v, s.handle p k = some v → v.share ≠ i → t.handle p k = some v) :
    ClaimsKept s t := fun j c record => by
  have other : j ≠ i := fun e => by
    rw [e, ended] at record
    cases record
  rw [others j other] at record
  refine ⟨c, record, .refl _, fun x _ served => servesClaim_mono served (by rw [others j other]) (by rw [others j other])
    (attached x.1) fun v valid on => handles _ _ v valid (on ▸ other)⟩

end ClaimsKept

/-! ## Records, responses and notices -/

section Kept

variable (s : State)

theorem claimsKept_modPort (p : Port) (f : PortState → PortState) (handles : (f s.ports[p]).handles = s.ports[p].handles)
    (attached : s.isAttached p = true → (f s.ports[p]).attach.state = .attached) : ClaimsKept s (s.modPort p f) := by
  refine .of_ports rfl (fun q => ?_) fun q present => ?_
  · rw [State.modPort_get]
    split
    · next e => rw [e, handles]
    · rfl
  · rw [State.isAttached, State.port_eq, State.modPort_get]
    split
    · next e => exact beq_iff_eq.mpr (attached (e ▸ present))
    · exact present

/-- An ATTACHED port stays so; a change of another's attachment concerns no claim. -/
theorem claimsKept_modAttach (p : Port) (f : Attachment → Attachment)
    (attached : s.isAttached p = true → (f s.ports[p].attach).state = .attached) : ClaimsKept s (s.modAttach p f) :=
  claimsKept_modPort s p _ rfl attached

theorem claimsKept_modLink (p : Port) (f : Link → Link) : ClaimsKept s (s.modLink p f) :=
  claimsKept_modPort s p _ rfl beq_iff_eq.mp

theorem claimsKept_modPosts (p : Port) (f : PostBuffer → PostBuffer) : ClaimsKept s (s.modPosts p f) :=
  claimsKept_modPort s p _ rfl beq_iff_eq.mp

theorem claimsKept_modNotices (p : Port) (f : NoticeQueue → NoticeQueue) : ClaimsKept s (s.modNotices p f) :=
  claimsKept_modPort s p _ rfl beq_iff_eq.mp

theorem claimsKept_setStage (p : Port) (d : DataStage) : ClaimsKept s (s.setStage p d) :=
  claimsKept_modPort s p _ rfl beq_iff_eq.mp

theorem claimsKept_placeResponse (p : Port) (k : Byte) (r : Reply) : ClaimsKept s (s.placeResponse p k r) :=
  claimsKept_modLink s p _

theorem claimsKept_dequeue (p : Port) (f : Frame) : ClaimsKept s (s.dequeue p f) := claimsKept_modLink s p _

theorem claimsKept_settle : ClaimsKept s s.settle :=
  .of_ports (State.settle_shares s) (fun p => by rw [State.settle_get]) fun p present => by
    rw [State.isAttached, State.port_eq, State.settle_get]
    exact present

variable {s} in
theorem Pushed.claimsKept {t : State} {ns : Port → List Notice} (h : Pushed s t ns) (shares : t.shares = s.shares) :
    ClaimsKept s t :=
  .of_ports shares (fun p => by rw [h.ports p]) fun p present => (h.isAttached p).trans present

theorem claimsKept_push (q : Port) (n : Notice) : ClaimsKept s (s.push q n) :=
  (Pushed.push s q n).claimsKept (push_shares s q n)

theorem claimsKept_pushDecided (pr : Proposal) (o : ProposalOutcome) (l : List Port) :
    ClaimsKept s (s.pushDecided pr o l) := by
  induction l generalizing s with
  | nil => exact .refl s
  | cons q l ih =>
    unfold State.pushDecided
    split
    · exact (claimsKept_push s q _).trans (ih _)
    · exact ih s

theorem claimsKept_pushOpened (pr : Proposal) (l : List Port) : ClaimsKept s (s.pushOpened pr l) := by
  induction l generalizing s with
  | nil => exact .refl s
  | cons q l ih =>
    unfold State.pushOpened
    split
    · exact (claimsKept_push s q _).trans (ih _)
    · exact ih s

theorem claimsKept_pushPeers (p : Port) (n : Notice) (l : List Port) : ClaimsKept s (s.pushPeers p n l) := by
  induction l generalizing s with
  | nil => exact .refl s
  | cons q l ih =>
    unfold State.pushPeers
    split
    · exact ih s
    · exact (claimsKept_push s q n).trans (ih _)

theorem claimsKept_drainForHead (p : Port) : ClaimsKept s (s.drainForHead p) := by
  unfold State.drainForHead
  split
  · exact .refl s
  · split
    · exact .refl s
    · exact claimsKept_modPosts s p _

/-! ## Claims -/

/-- The claim of entry `i` alone changes, to one with no further place. -/
theorem claimsKept_setClaim {t : State} {i : ShareIdx} {o : Option Claim} (tables : SameTables s t)
    (attached : ∀ p : Port, t.isAttached p = s.isAttached p)
    (shares : ∀ j : ShareIdx, t.shares[j] = if j = i then { s.shares[i] with claim := o } else s.shares[j])
    (less : ∀ c, o = some c → ∃ c', s.shares[i].claim = some c' ∧ c.places.Sublist c'.places) : ClaimsKept s t := by
  refine .lessen tables.sameCounts (fun p => (attached p).trans) fun j c record => ?_
  rw [shares j] at record
  split at record
  · next e => exact e ▸ less c record
  · exact ⟨c, record, .refl _⟩

variable {s} {i : ShareIdx} {c : Claim}

theorem claimsKept_handover (record : s.shares[i].claim = some c) : ClaimsKept s (s.handover i c) :=
  claimsKept_setClaim s (sameTables_handover s i c) (Pushed.handover s i c).isAttached (handover_shares s i c) fun _ left =>
    ⟨c, record, places_handedOver left ▸ List.sublist_cons_self _ _⟩

/-- Waiters leave, or the lease starts anew. -/
theorem claimsKept_setClaim_some {c' : Claim} (record : s.shares[i].claim = some c) (sub : c'.places.Sublist c.places) :
    ClaimsKept s (s.setClaim i (some c')) :=
  claimsKept_setClaim s (sameTables_setClaim s i _) (Pushed.setClaim s i _).isAttached (setClaim_shares s i _)
    fun _ left => ⟨c, record, by cases left; exact sub⟩

theorem claimsKept_claimDrop (p : Port) (h : HandleNo) : ClaimsKept s (s.claimDrop p h i) :=
  claimsKept_setClaim s (sameTables_claimDrop s p h i) (Pushed.claimDrop s p h i).isAttached (claimDrop_shares s p h i)
    fun _ left =>
      have ⟨c, record, e⟩ := Option.bind_eq_some_iff.mp left
      ⟨c, record, (places_afterDrop e).1⟩

variable (s i)

theorem claimsKept_releaseClaim (p : Port) : ClaimsKept s (s.releaseClaim p i).1 := by
  unfold State.releaseClaim
  split
  · exact .refl s
  next c record =>
  split
  · exact claimsKept_handover record
  split
  · exact claimsKept_setClaim_some record (places_filter_sublist c _)
  · exact .refl s

theorem claimsKept_renewClaim (p : Port) : ClaimsKept s (s.renewClaim p i).1 := by
  unfold State.renewClaim
  split
  · exact .refl s
  next c record =>
  split
  · exact claimsKept_setClaim_some record (.refl _)
  · exact .refl s

/-! ## Shares and handles -/

theorem afterStep_of_other {v : Handle} (other : v.share ≠ i) (g : Nat) : Handle.afterStep i g (some v) = some v := by
  refine if_neg fun records => other ?_
  exact beq_iff_eq.mp (Bool.and_eq_true_iff.mp records).1

theorem claimsKept_retireIfDone : ClaimsKept s (s.retireIfDone i) := by
  unfold State.retireIfDone
  split
  · refine .apart i (by rw [retire_shares, if_pos rfl]; rfl) (fun j other => by rw [retire_shares, if_neg other])
      (fun p present => ?_) fun p k v valid other => ?_
    · rw [State.isAttached, State.port_eq, retire_ports]
      exact present
    · rw [State.handle_eq, retire_handle, ← State.handle_eq, valid, afterStep_of_other i other]
  · exact .refl s

/-- The entry into CLOSING of an entry without a claim. -/
theorem claimsKept_enterClosing (unclaimed : s.shares[i].claim = none) : ClaimsKept s (s.enterClosing i) := by
  refine .trans ?_ (claimsKept_retireIfDone (s.markClosing i) i)
  refine .apart i ?_ (fun j other => by rw [markClosing_shares, if_neg other]) (fun _ => id) fun _ _ _ valid _ => valid
  rw [markClosing_shares, if_pos rfl]
  exact unclaimed

theorem claimsKept_closeShare (p : Port) : ClaimsKept s (s.closeShare p i) := by
  rw [closeShare_eq]
  refine .trans ?_ (claimsKept_retireIfDone _ i)
  have pushed := closing_pushed s p i
  refine .apart i (by rw [closing_shares, if_pos rfl]) (fun j other => by rw [closing_shares, if_neg other])
    (fun q present => (pushed.isAttached q).trans present) fun q k v valid _ => ?_
  rw [State.handle_eq, pushed.ports q]
  exact valid

theorem claimsKept_revokeShare {p : Port} {k : HandleNo} {v : Handle} (valid : s.handle p k = some v)
    (current : s.current v = true) : ClaimsKept s (s.revokeShare p k v.share) := by
  refine .apart v.share (by rw [revokeShare_shares, if_pos rfl]) (fun j other => by rw [revokeShare_shares, if_neg other])
    (fun q present => ?_) fun q h w valid' other => ?_
  · rw [State.isAttached, State.port_eq, revokeShare_port]
    exact present
  · have apart : ¬ (q = p ∧ h = k) := fun both => by
      rw [both.1, both.2, valid] at valid'
      cases valid'
      exact other rfl
    rw [State.handle_eq, revokeShare_port]
    refine (revoked_handle valid current q h).trans ?_
    rw [if_neg apart, ← State.handle_eq, valid', afterStep_of_other _ other]

theorem claimsKept_makeHandle {p : Port} {k : HandleNo} (v : Handle) (empty : s.handle p k = none) :
    ClaimsKept s (s.makeHandle p k v) := by
  have entry (j : ShareIdx) : (s.makeHandle p k v).shares[j]
      = { s.shares[j] with handleCount := (s.makeHandle p k v).shares[j].handleCount } := by
    rw [makeHandle_shares]
    split
    · next e => rw [e]
    · rfl
  intro j c record
  rw [entry] at record
  refine ⟨c, record, .refl _, fun x _ served => servesClaim_mono served (by rw [entry]; rfl) (by rw [entry])
    (fun present => ?_) fun w valid _ => ?_⟩
  · rw [State.isAttached, State.port_eq, makeHandle_ports]
    split
    · next e => exact e ▸ present
    · exact present
  · refine (setHandle_get s p x.1 k x.2 (some v)).trans ?_
    refine (if_neg fun both => ?_).trans valid
    rw [both.1, both.2, empty] at valid
    cases valid

theorem claimsKept_makeShare {p : Port} {f : CreateFields} {h : HandleNo} (empty : s.handle p h = none) :
    ClaimsKept s (s.makeShare p f i h) := by
  rw [makeShare_eq]
  refine .trans ?_ (claimsKept_makeHandle _ _ empty)
  refine .apart i ?_ (fun j other => by rw [openShare_shares, if_neg other]) (fun _ => id) fun _ _ _ valid _ => valid
  rw [openShare_shares, if_pos rfl]
  rfl

/-! ## The Data Engine -/

theorem claimsKept_modShare (f : Share → Share) (claim : (f s.shares[i]).claim = s.shares[i].claim)
    (counts : SameCounts s (s.modShare i f)) : ClaimsKept s (s.modShare i f) :=
  .same counts (fun _ => id) fun j => by
    rw [State.modShare_get]
    split
    · next e => rw [e, claim]
    · rfl

theorem claimsKept_endOperation (p : Port) (op : Operation) (answer : Option Reply) :
    ClaimsKept s (s.endOperation p op answer) := by
  have released : ClaimsKept s (s.releaseUse op.share) :=
    (claimsKept_modShare s op.share _ rfl (sameCounts_modShare s op.share _ rfl rfl rfl)).trans (claimsKept_retireIfDone _ _)
  unfold State.endOperation
  refine .trans ?_ (claimsKept_setStage _ p _)
  cases answer with
  | none => exact released
  | some r => exact released.trans (claimsKept_placeResponse _ p _ r)

theorem claimsKept_advance (p : Port) (op : Operation) : ClaimsKept s (s.advance p op) := by
  unfold State.advance
  split
  · exact claimsKept_setStage s p _
  · exact claimsKept_endOperation s p _ _
  · exact claimsKept_endOperation s p _ _

theorem claimsKept_startOperation (p : Port) (k : DataKind) (a : Admit) : ClaimsKept s (s.startOperation p k a) := by
  have bound : ClaimsKept s (s.bindNeed a.handle.share a.need) :=
    .same (sameCounts_bindNeed s _ _) (fun _ => id) fun j => by
      rw [bindNeed_shares]
      split
      · next e => rw [e]
      · rfl
  exact (bound.trans (claimsKept_modShare _ a.handle.share _ rfl (sameCounts_modShare _ _ _ rfl rfl rfl))).trans
    (claimsKept_advance _ p _)

theorem claimsKept_dataCleanup (p : Port) : ClaimsKept s (s.dataCleanup p) := by
  have cleared := claimsKept_modPosts s p fun b => { b.cleared with faults := 0 }
  unfold State.dataCleanup
  dsimp only
  split
  · exact cleared
  · split
    · exact cleared.trans (claimsKept_endOperation _ p _ none)
    · exact cleared
  · split
    · exact cleared.trans (claimsKept_setStage _ p _)
    · exact cleared

/-! ## Agreement and attachment -/

/-- CLEAR_ALL leaves no claim (R137, R164). -/
theorem adoptClearAll_claim : s.adoptClearAll.shares[i].claim = none := by
  unfold State.adoptClearAll
  simp

theorem claimsKept_adopt (a : ProposalAction) : ClaimsKept s (s.adopt a) := by
  cases a with
  | settings r => exact .elsewhere
  | clearAll =>
    intro i c record
    cases (adoptClearAll_claim s i).symm.trans record

theorem claimsKept_endProposal (pr : Proposal) (o : ProposalOutcome) : ClaimsKept s (s.endProposal pr o) := by
  have removed (t : State) : ClaimsKept t ({ t with proposal := none }.pushDecided pr o allPorts) :=
    .trans .elsewhere (claimsKept_pushDecided _ pr o allPorts)
  unfold State.endProposal
  dsimp only
  split
  · exact (claimsKept_adopt s _).trans (removed _)
  · exact removed s

theorem claimsKept_agreementCleanup (p : Port) (c : CleanupCause) : ClaimsKept s (s.agreementCleanup p c) := by
  unfold State.agreementCleanup
  split
  · exact .refl s
  split
  · exact claimsKept_endProposal s _ _
  split
  · split
    · exact claimsKept_endProposal s _ _
    · dsimp only
      split
      · exact claimsKept_endProposal s _ _
      · exact .elsewhere
  · exact .refl s

theorem claimsKept_openProposal (p : Port) (a : ProposalAction) : ClaimsKept s (s.openProposal p a).1 := by
  unfold State.openProposal
  dsimp only
  split
  · exact .trans .elsewhere (claimsKept_endProposal _ _ _)
  · exact .trans .elsewhere (claimsKept_pushOpened _ _ _)

theorem claimsKept_castVote (p : Port) (pr : Proposal) (accept : Bool) : ClaimsKept s (s.castVote p pr accept).1 := by
  unfold State.castVote
  split
  · dsimp only
    split
    · exact claimsKept_endProposal s _ _
    · exact .elsewhere
  · exact claimsKept_endProposal s _ _

theorem claimsKept_becomeAttached (p : Port) : ClaimsKept s (s.becomeAttached p) := by
  have placed (r : Reply) : ClaimsKept s (((s.modAttach p fun a => { a with state := .attached }).modPosts p fun b =>
      { b with ordinal := 0 }).placeResponse p kindHello r) :=
    ((claimsKept_modAttach s p _ fun _ => rfl).trans (claimsKept_modPosts _ p _)).trans (claimsKept_placeResponse _ p _ _)
  unfold State.becomeAttached
  dsimp only
  refine .trans ?_ (claimsKept_modAttach _ p _ beq_iff_eq.mp)
  split
  · exact (placed _).trans (claimsKept_pushPeers _ p _ _)
  · exact placed _

theorem claimsKept_finishCleanup (p : Port) : ClaimsKept s (s.finishCleanup p) := by
  unfold State.finishCleanup
  split
  · exact claimsKept_becomeAttached s p
  · exact .refl s

end Kept

end Sys2Proof.Machine
end

