-- ==== Sys2Proof/Proofs/ClaimSoundness.lean ====
section
/-! PROOFS. The claim records stay sound (R124): the three operations that do more than keep them, which are CLAIM, the emptying
of a handle and a cleanup, and the induction over commands. -/

namespace Sys2Proof.Machine

/-! ## A place made (R128) -/

/-- CLAIM, RELEASE and RENEW act through a handle that serves a claim (R127). -/
theorem servesClaim_of_checkClaimant {s : State} {p : Port} {field : Option Byte} {k : HandleNo} {v : Handle}
    (e : s.checkClaimant p field = .ok (k, v)) : s.servesClaim v.share p k := by
  unfold State.checkClaimant at e
  split at e
  · cases e
  next attached =>
  split at e
  · cases e
  split at e
  · cases e
  next resolved =>
  split at e
  · next write =>
    cases e
    obtain ⟨-, valid, current⟩ := resolve_ok resolved
    exact ⟨by simpa using attached, v, valid, rfl, current, write⟩
  · cases e

/-- The waiters' search finds a place exactly for a port that waits. -/
theorem waiterPlace_isSome (p : Port) (ws : List Waiter) : (waiterPlace p ws).isSome = true ↔ p ∈ ws.map Waiter.port := by
  induction ws with
  | nil => simp [waiterPlace]
  | cons w ws ih =>
    rw [waiterPlace, List.map_cons, List.mem_cons, ← ih]
    split
    · next e => simp [e]
    · next e => simp [Ne.symm e]

/-- A record of ports that are all served, none twice, may stand on the entry. -/
theorem ClaimsSound.setClaim {s : State} (h : ClaimsSound s) {i : ShareIdx} {c : Claim}
    (nodup : (c.holder :: c.waiters.map Waiter.port).Nodup) (served : ∀ x ∈ c.places, s.servesClaim i x.1 x.2) :
    ClaimsSound (s.setClaim i (some c)) := by
  have stays {j : ShareIdx} {p : Port} {k : HandleNo} (place : s.servesClaim j p k) :
      (s.setClaim i (some c)).servesClaim j p k := by
    have counts := (sameTables_setClaim s i (some c)).sameCounts
    exact servesClaim_mono place (counts.live j) (counts.generation j) id fun _ valid _ => valid
  intro j c' record
  rw [State.share_eq, setClaim_shares] at record
  split at record
  · next e =>
    cases record
    rw [ports_of_places]
    exact ⟨nodup, fun x hx => stays (e ▸ served x hx)⟩
  · obtain ⟨nodup', served'⟩ := h j c' record
    exact ⟨nodup', fun x hx => stays (served' x hx)⟩

/-- A port that has no place in the record of the entry is given one (R128). -/
theorem ClaimsSound.claimShare {s : State} (h : ClaimsSound s) {p : Port} {k : HandleNo} {i : ShareIdx}
    (served : s.servesClaim i p k) (wait : Bool) : ClaimsSound (s.claimShare p k i wait).1 := by
  unfold State.claimShare
  split
  · refine h.setClaim (List.nodup_singleton p) fun x hx => ?_
    obtain rfl := List.mem_singleton.mp hx
    exact served
  next c record =>
  split
  · exact h
  next other =>
  split
  · exact h
  next waits =>
  split
  · obtain ⟨nodup, all⟩ := h i c record
    have apart : p ∉ c.holder :: c.waiters.map Waiter.port := fun mem =>
      (List.mem_cons.mp mem).elim (fun e => other e.symm) fun mem => waits ((waiterPlace_isSome p _).mpr mem)
    rw [ports_of_places] at nodup
    refine h.setClaim ?_ fun x hx => ?_
    · rw [List.map_append, ← List.cons_append]
      exact List.Nodup.append nodup (List.nodup_singleton p) (List.disjoint_singleton.mpr apart)
    · rw [places_eq, List.map_append, ← List.cons_append] at hx
      rcases List.mem_append.mp hx with before | last
      · exact all x before
      · obtain rfl := List.mem_singleton.mp last
        exact served
  · exact h

/-! ## A handle emptied (R31, R39) -/

theorem leftWithout_claim (s : State) (v : Handle) : (s.leftWithout v).claim = s.shares[v.share].claim := rfl

theorem leftWithout_generation (s : State) (v : Handle) : (s.leftWithout v).generation = s.shares[v.share].generation := rfl

/-- The loss of its ADMIN handle leaves an entry live (R8). -/
theorem leftWithout_live (s : State) (v : Handle) : (s.leftWithout v).live = s.shares[v.share].live := by
  by_cases current : s.current v = true
  · rw [leftWithout_of_current current, Share.loseHandle_live]
    rfl
  · rw [leftWithout_of_stale current]

/-- A handle through which no port holds or waits is emptied without loss to any claim. -/
theorem claimsKept_without {s : State} {p : Port} {k : HandleNo} (v : Handle)
    (unused : ∀ (i : ShareIdx) (c : Claim), s.shares[i].claim = some c → (p, k) ∉ c.places) :
    ClaimsKept s (s.without p k v) := by
  intro i c record
  have claim : s.shares[i].claim = some c := by
    rw [without_shares] at record
    split at record
    · next e => rw [e, ← record, leftWithout_claim]
    · exact record
  have live : (s.without p k v).shares[i].live = s.shares[i].live := by
    rw [without_shares]
    split
    · next e => rw [e, leftWithout_live]
    · rfl
  have generation : (s.without p k v).shares[i].generation = s.shares[i].generation := by
    rw [without_shares]
    split
    · next e => rw [e, leftWithout_generation]
    · rfl
  refine ⟨c, claim, .refl _, fun x hx served =>
    servesClaim_mono served live generation (fun present => ?_) fun w valid _ => ?_⟩
  · rw [State.isAttached, State.port_eq, without_ports]
    exact present
  · refine (setHandle_get s p x.1 k x.2 none).trans ((if_neg fun both => unused i c claim ?_).trans valid)
    rw [← both.1, ← both.2]
    exact hx

theorem handlesOn_pos {s : State} {p : Port} {k : HandleNo} {i : ShareIdx} {g : Nat}
    (h : recorded i g s.ports[p].handles[k] = true) : 0 < s.handlesOn i g := by
  have one : 0 < allHandles.countP fun k => recorded i g s.ports[p].handles[k] :=
    List.countP_pos_iff.mpr ⟨k, List.mem_finRange k, h⟩
  rw [handlesOn_eq]
  exact Nat.lt_of_lt_of_le one (List.le_sum_of_mem (List.mem_map.mpr ⟨p, mem_allPorts p, rfl⟩))

/-- With no handle counted there is none current, and no claim. -/
theorem ClaimsSound.unclaimed_of_uncounted {s : State} (h : ClaimsSound s) {i : ShareIdx}
    (none_on : s.handlesOn i s.shares[i].generation = 0) : s.shares[i].claim = none := by
  cases record : s.shares[i].claim with
  | none => rfl
  | some c =>
    obtain ⟨-, v, valid, rfl, current, -⟩ := (h i c record).2 _ List.mem_cons_self
    have counted : recorded v.share s.shares[v.share].generation s.ports[c.holder].handles[c.handle] = true := by
      rw [show s.ports[c.holder].handles[c.handle] = some v from valid]
      exact Bool.and_eq_true_iff.mpr ⟨beq_self_eq_true _, (Bool.and_eq_true_iff.mp current).2⟩
    exact absurd none_on (Nat.ne_of_gt (handlesOn_pos counted))

/-- The last current handle leaves with the count at 0 (R5). -/
theorem handlesOn_without {s : State} (counts : HandleCountsTrue s) {p : Port} {k : HandleNo} {v : Handle}
    (valid : s.handle p k = some v) (closes : s.closesWithout v) :
    (s.without p k v).handlesOn v.share s.shares[v.share].generation = 0 := by
  obtain ⟨current, -, uncounted⟩ := closes
  obtain ⟨live, generation⟩ := Bool.and_eq_true_iff.mp current
  have generation : (v.generation == s.shares[v.share].generation) = true := generation
  have counted : (s.share v.share).handleCount = s.handlesOn v.share s.shares[v.share].generation :=
    (counts v.share).1 live
  have left : s.handlesOn v.share s.shares[v.share].generation - 1 = 0 := by
    rw [leftWithout_of_current current] at uncounted
    rw [← counted]
    exact uncounted
  have change := handlesOn_setHandle s p k none v.share s.shares[v.share].generation
  rw [show s.ports[p].handles[k] = some v from valid, recorded, Option.any_some, Handle.records, beq_self_eq_true, generation,
    recorded, Option.any_none] at change
  have same : (s.without p k v).handlesOn v.share s.shares[v.share].generation
      = (s.setHandle p k none).handlesOn v.share s.shares[v.share].generation := rfl
  simp only [Bool.and_self, Bool.toNat_true, Bool.toNat_false] at change
  omega

/-- An entry closes by the loss of its last current handle, and then has no claim (R9). -/
theorem ClaimsSound.emptyHandle {s : State} (h : ClaimsSound s) (counts : HandleCountsTrue s) {p : Port} {k : HandleNo}
    (unused : ∀ (i : ShareIdx) (c : Claim), s.shares[i].claim = some c → (p, k) ∉ c.places) :
    ClaimsSound (s.emptyHandle p k) := by
  cases valid : s.handle p k with
  | none =>
    unfold State.emptyHandle
    rw [valid]
    exact h
  | some v =>
    have left : ClaimsSound (s.without p k v) := h.kept (claimsKept_without v unused)
    rw [emptyHandle_eq valid]
    split
    · next closes =>
      refine left.kept (claimsKept_enterClosing _ _ (left.unclaimed_of_uncounted ?_))
      rw [without_shares, if_pos rfl, leftWithout_generation]
      exact handlesOn_without counts valid closes
    · exact left

/-- A DROP takes the handle out of the claim before it empties it (R40, R138). -/
theorem ClaimsSound.dropHandle {s : State} (h : ClaimsSound s) (counts : HandleCountsTrue s) {p : Port} {k : HandleNo}
    {v : Handle} (valid : s.handle p k = some v) : ClaimsSound (s.dropHandle p k v) := by
  have dropped : ClaimsSound (s.claimDrop p k v.share) := h.kept (claimsKept_claimDrop p k)
  refine dropped.emptyHandle (counts.same (sameTables_claimDrop s p k v.share).sameCounts) fun i c record place => ?_
  obtain ⟨-, w, valid', on, -⟩ := (dropped i c record).2 _ place
  rw [claimDrop_handle, valid] at valid'
  cases valid'
  subst on
  rw [claimDrop_shares, if_pos rfl] at record
  obtain ⟨c', before, left⟩ := Option.bind_eq_some_iff.mp record
  exact (places_afterDrop left).2 (h v.share c' before).1 place

/-! ## Cleanup (R139, R147) -/

/-- Each entry of a list without repetitions is changed by `g`, once. -/
theorem foldl_shares_get {f : State → ShareIdx → State} {g : Share → Share} {r : Settings}
    (step : ∀ s i j, s.settings = r → (f s i).shares[j] = if j = i then g s.shares[i] else s.shares[j])
    (settings : ∀ s i, (f s i).settings = s.settings) {l : List ShareIdx} (nodup : l.Nodup) {s : State} (hs : s.settings = r)
    (j : ShareIdx) : (l.foldl f s).shares[j] = if j ∈ l then g s.shares[j] else s.shares[j] := by
  induction l generalizing s with
  | nil => rfl
  | cons i l ih =>
    obtain ⟨fresh, nodup⟩ := List.nodup_cons.mp nodup
    rw [List.foldl_cons, ih nodup ((settings s i).trans hs), step s i j hs]
    by_cases e : j = i
    · subst e
      simp [fresh]
    · simp [e]

/-- The same over all entries. -/
theorem foldl_allShares_get {f : State → ShareIdx → State} {g : Share → Share} {s : State}
    (step : ∀ t i j, t.settings = s.settings → (f t i).shares[j] = if j = i then g t.shares[i] else t.shares[j])
    (settings : ∀ t i, (f t i).settings = t.settings) (j : ShareIdx) :
    (allShares.foldl f s).shares[j] = g s.shares[j] :=
  (foldl_shares_get step settings (List.nodup_finRange 64) rfl j).trans (if_pos (List.mem_finRange j))

theorem share_with_claim (sh : Share) {o : Option Claim} (h : sh.claim = o) : sh = { sh with claim := o } := by rw [← h]

theorem leaveWaiters_shares (p : Port) (s : State) (i j : ShareIdx) : (State.leaveWaiters p s i).shares[j]
    = if j = i then { s.shares[i] with claim := s.shares[i].claim.map fun c => c.without p } else s.shares[j] := by
  unfold State.leaveWaiters
  cases record : (s.share i).claim with
  | none =>
    have record : s.shares[i].claim = none := record
    rw [record]
    dsimp only
    split
    · next e => rw [e]; exact share_with_claim _ record
    · rfl
  | some c =>
    rw [show s.shares[i].claim = some c from record]
    exact setClaim_shares ..

theorem yieldClaim_shares (p : Port) (s : State) (i j : ShareIdx) : (State.yieldClaim p s i).shares[j]
    = if j = i then { s.shares[i] with
        claim := s.shares[i].claim.bind fun c => if c.holder = p then c.handedOver s.lease else some c }
      else s.shares[j] := by
  have stays {o : Option Claim} (same : s.shares[i].claim = o) :
      s.shares[j] = if j = i then { s.shares[i] with claim := o } else s.shares[j] := by
    split
    · next e => rw [e]; exact share_with_claim _ same
    · rfl
  unfold State.yieldClaim
  cases record : (s.share i).claim with
  | none =>
    have record : s.shares[i].claim = none := record
    rw [record]
    exact stays record
  | some c =>
    have record : s.shares[i].claim = some c := record
    rw [record, Option.bind_some]
    dsimp only
    split
    · exact handover_shares ..
    · exact stays record

/-- The Claim Unit's part of a cleanup leaves of each entry all but the claim, which is as `p` leaves it (R139). -/
theorem claimCleanup_shares (s : State) (p : Port) (i : ShareIdx) : (s.claimCleanup p).shares[i]
    = { s.shares[i] with claim := s.shares[i].claim.bind fun c => c.leftBy p s.lease } := by
  have left := Keeps.foldl (keeps_leaveWaiters p) allShares s
  have yields := foldl_allShares_get (f := State.yieldClaim p) (s := allShares.foldl (State.leaveWaiters p) s)
    (g := fun sh => { sh with claim := sh.claim.bind fun c => if c.holder = p then c.handedOver s.lease else some c })
    (fun t i j same => by
      have lease : t.lease = s.lease := by rw [State.lease, same.trans left.settings, State.lease]
      rw [yieldClaim_shares, lease])
    (fun t i => (keeps_yieldClaim p t i).settings) i
  have leaves := foldl_allShares_get (s := s)
    (g := fun sh => { sh with claim := sh.claim.map fun c => c.without p }) (fun t i j _ => leaveWaiters_shares p t i j)
    (fun t i => (keeps_leaveWaiters p t i).settings) i
  unfold State.claimCleanup
  rw [yields, leaves]
  cases s.shares[i].claim <;> rfl

theorem claimCleanup_isAttached (s : State) (p q : Port) : (s.claimCleanup p).isAttached q = s.isAttached q := by
  have fold {f : State → ShareIdx → State} (h : ∀ t i, (f t i).isAttached q = t.isAttached q) (l : List ShareIdx)
      (t : State) : (l.foldl f t).isAttached q = t.isAttached q := by
    induction l generalizing t with
    | nil => rfl
    | cons i l ih => exact (ih _).trans (h t i)
  refine (fold (fun t i => ?_) allShares _).trans (fold (fun t i => ?_) allShares s)
  · unfold State.yieldClaim
    split
    · rfl
    · split
      · exact (Pushed.handover t i _).isAttached q
      · rfl
  · unfold State.leaveWaiters
    split
    · rfl
    · exact (Pushed.setClaim t i _).isAttached q

/-- A port whose attachment ends leaves every claim, before anything else of its cleanup. -/
theorem claimsKept_leave (s : State) (p : Port) (g : PortState → PortState) :
    ClaimsKept s ((s.modPort p g).claimCleanup p) := by
  have tables : SameCounts (s.modPort p g) ((s.modPort p g).claimCleanup p) := (sameTables_claimCleanup _ p).sameCounts
  intro i c record
  rw [claimCleanup_shares] at record
  obtain ⟨c', before, left⟩ := Option.bind_eq_some_iff.mp record
  obtain ⟨sub, others⟩ := places_leftBy left
  refine ⟨c', before, sub, fun x hx served =>
    servesClaim_mono served (tables.live i) (tables.generation i) (fun present => ?_) fun v valid _ => ?_⟩
  · rw [claimCleanup_isAttached, State.isAttached, State.port_eq, State.modPort_other s g (others x hx)]
    exact present
  · rw [State.handle_eq, tables.handles, State.modPort_other s g (others x hx)]
    exact valid

theorem emptyHandle_isAttached (s : State) (p : Port) (k : HandleNo) (q : Port) :
    (s.emptyHandle p k).isAttached q = s.isAttached q := by
  cases valid : s.handle p k with
  | none =>
    unfold State.emptyHandle
    rw [valid]
  | some v =>
    rw [State.isAttached, State.port_eq, emptyHandle_port valid]
    rfl

/-- The handles of a port that is not ATTACHED serve no claim. -/
theorem ClaimsSound.emptyTable {s : State} (h : ClaimsSound s) (counts : HandleCountsTrue s) {p : Port}
    (gone : s.isAttached p = false) : ClaimsSound (s.emptyTable p) := by
  unfold State.emptyTable
  induction allHandles generalizing s with
  | nil => exact h
  | cons k l ih =>
    rw [List.foldl_cons]
    split
    · have emptied : ClaimsSound (s.emptyHandle p k) := h.emptyHandle counts fun i c record place =>
        absurd (gone.symm.trans ((h i c record).2 _ place).1) (by decide)
      refine ih (emptied.kept (claimsKept_modAttach _ p _ beq_iff_eq.mp))
        ((counts.emptyHandle p k).same (sameTables_modAttach _ p _).sameCounts) ?_
      rw [State.isAttached, State.modAttach_eq, State.port_eq, State.modPort_same]
      exact (emptyHandle_isAttached s p k p).trans gone
    · exact ih h counts gone

theorem isAttached_of_cleaning {s : State} {p : Port} (clean : (s.exchanges p).cleaning = true) : s.isAttached p = false := by
  have state : s.ports[p].attach.state = .cleaning := beq_iff_eq.mp clean
  rw [State.isAttached, State.port_eq, state]
  rfl

/-- The Data Engine's part of a cleanup leaves the port in CLEANING. -/
theorem cleaning_dataCleanup (s : State) (p : Port) :
    ((s.dataCleanup p).exchanges p).cleaning = (s.exchanges p).cleaning := by
  have cleared := exchanges_modPosts s p fun b => { b.cleared with faults := 0 }
  rw [← cleared]
  unfold State.dataCleanup
  dsimp only
  split
  · rfl
  · split
    · rw [exchanges_endOperation, Function.update_self]
      rfl
    · rfl
  · split
    · rw [exchanges_setStage, Function.update_self]
    · rfl

/-- A port stays in CLEANING until what caused its cleanup ends it. -/
theorem cleaning_cleanup (s : State) (p : Port) (c : CleanupCause) :
    ((s.cleanup p c).exchanges p).cleaning = (s.exchanges p).cleaning := by
  unfold State.cleanup
  rw [exchanges_agreementCleanup, cleaning_dataCleanup, exchanges_tablesCleanup]

/-- Cleanup of a port that has just become CLEANING: it leaves the claims first, and then its handles are emptied. -/
theorem ClaimsSound.cleanup {s : State} (h : ClaimsSound s) (counts : HandleCountsTrue s) {p : Port}
    {g : PortState → PortState} (handles : (g s.ports[p]).handles = s.ports[p].handles)
    (operation : (g s.ports[p]).stage.stage.op? = s.ports[p].stage.stage.op?)
    (cleaning : (g s.ports[p]).attach.state = .cleaning) (c : CleanupCause) :
    ClaimsSound ((s.modPort p g).cleanup p c) ∧ ((s.modPort p g).cleanup p c).isAttached p = false := by
  have clean : ((s.modPort p g).exchanges p).cleaning = true := by
    rw [exchanges_modPort, Function.update_self]
    exact beq_iff_eq.mpr cleaning
  have gone : ((s.modPort p g).claimCleanup p).isAttached p = false := by
    rw [claimCleanup_isAttached]
    exact isAttached_of_cleaning clean
  have counts' : HandleCountsTrue ((s.modPort p g).claimCleanup p) :=
    counts.same ((sameTables_modPort s p g handles operation).trans (sameTables_claimCleanup _ p)).sameCounts
  have emptied := (h.kept (claimsKept_leave s p g)).emptyTable counts' gone
  exact ⟨(emptied.kept (claimsKept_dataCleanup _ p)).kept (claimsKept_agreementCleanup _ p c),
    isAttached_of_cleaning ((cleaning_cleanup _ p c).trans clean)⟩

/-! ## HELLO and DETACH -/

theorem ClaimsSound.takeHello {s : State} (h : ClaimsSound s) (counts : HandleCountsTrue s) (p : Port) (tag : Byte)
    (stay : List Frame) : ClaimsSound (s.takeHello p tag stay) := by
  unfold State.takeHello State.flushQueues
  dsimp only
  rw [State.modAttach_eq, State.modPort_modPort]
  refine ClaimsSound.kept ?_ (claimsKept_finishCleanup _ p)
  split
  · next before =>
    refine h.kept (claimsKept_modPort s p _ rfl fun present => ?_)
    cases (beq_iff_eq.mp present : (s.port p).attach.state = .attached).symm.trans before
  · exact (h.cleanup counts rfl rfl rfl .hello).1

theorem ClaimsSound.arriveHello {s : State} (h : ClaimsSound s) (counts : HandleCountsTrue s) (p : Port) (tag : Byte) :
    ClaimsSound (s.arriveHello p tag) := by
  unfold State.arriveHello
  split
  · exact h.takeHello counts p tag []
  · exact h.kept (claimsKept_modAttach s p _ beq_iff_eq.mp)

theorem ClaimsSound.takePending_foldl {s : State} (h : ClaimsSound s) (counts : HandleCountsTrue s) (l : List Port) :
    ClaimsSound (l.foldl State.takePending s) := by
  induction l generalizing s with
  | nil => exact h
  | cons p l ih =>
    refine ih ?_ (handleCountsTrue_invariant.takePending p counts)
    unfold State.takePending
    split
    · exact h
    · exact h.takeHello counts p _ _

theorem ClaimsSound.detachPort {s : State} (h : ClaimsSound s) (counts : HandleCountsTrue s) (p : Port) :
    ClaimsSound (s.detachPort p) := by
  obtain ⟨cleaned, gone⟩ := h.cleanup counts (p := p)
    (g := fun q => { q with attach := { q.attach with state := .cleaning } }) rfl rfl rfl .detach
  unfold State.detachPort
  dsimp only
  rw [State.modAttach_eq s]
  generalize (s.modPort p _).cleanup p .detach = t at cleaned gone ⊢
  have detached : ClaimsKept t (t.modAttach p fun a => { a with state := .detached }) :=
    claimsKept_modAttach t p _ fun present => absurd (gone.symm.trans present) (by decide)
  refine ClaimsSound.kept ?_ (claimsKept_modAttach _ p _ beq_iff_eq.mp)
  refine ClaimsSound.kept ?_ (claimsKept_pushPeers _ p _ allPorts)
  exact (cleaned.kept detached).kept (claimsKept_modNotices _ p _)

/-! ## The services of requests -/

section Services

variable {s : State} (h : ClaimsSound s)
include h

theorem ClaimsSound.serveCreate (p : Port) (body : List Byte) : ClaimsSound (serveCreate p body s).1 := by
  unfold Machine.serveCreate
  iterate 6 (split; exact h)
  next empty =>
  iterate 2 (split; exact h)
  exact h.kept (claimsKept_makeShare s _ (handle_of_emptyHandle? empty))

theorem ClaimsSound.serveAttach (p : Port) (body : List Byte) : ClaimsSound (serveAttach p body s).1 := by
  unfold Machine.serveAttach
  iterate 7 (split; exact h)
  next empty => exact h.kept (claimsKept_makeHandle s _ (handle_of_emptyHandle? empty))

theorem ClaimsSound.serveGrant (p : Port) (body : List Byte) : ClaimsSound (serveGrant p body s).1 := by
  unfold Machine.serveGrant
  iterate 10 (split; exact h)
  next empty =>
  exact h.kept ((claimsKept_makeHandle s _ (handle_of_emptyHandle? empty)).trans (claimsKept_push _ _ _))

theorem ClaimsSound.serveClose (p : Port) (body : List Byte) : ClaimsSound (serveClose p body s).1 := by
  unfold Machine.serveClose
  split
  · exact h
  · exact h.kept (claimsKept_closeShare s _ p)

theorem ClaimsSound.serveRevoke (p : Port) (body : List Byte) : ClaimsSound (serveRevoke p body s).1 := by
  unfold Machine.serveRevoke
  split
  · exact h
  · next ok =>
    obtain ⟨valid, current⟩ := StepInvariant.checkAdmin_ok ok
    exact h.kept (claimsKept_revokeShare s valid current)

theorem ClaimsSound.serveDrop (counts : HandleCountsTrue s) (p : Port) (body : List Byte) :
    ClaimsSound (serveDrop p body s).1 := by
  unfold Machine.serveDrop
  split
  · exact h
  split
  · exact h
  split
  · split
    · exact h
    · next valid => exact h.dropHandle counts valid
  · exact h

theorem ClaimsSound.serveDetach (counts : HandleCountsTrue s) (p : Port) (body : List Byte) :
    ClaimsSound (serveDetach p body s).1 :=
  StepInvariant.emptyBody (h.detachPort counts p) h

theorem ClaimsSound.serveClaim (p : Port) (body : List Byte) : ClaimsSound (serveClaim p body s).1 := by
  unfold Machine.serveClaim
  split
  · exact h
  · next ok => exact h.claimShare (servesClaim_of_checkClaimant ok) _

theorem ClaimsSound.serveRelease (p : Port) (body : List Byte) : ClaimsSound (serveRelease p body s).1 := by
  unfold Machine.serveRelease
  split
  · exact h
  · exact h.kept (claimsKept_releaseClaim s _ p)

theorem ClaimsSound.serveRenew (p : Port) (body : List Byte) : ClaimsSound (serveRenew p body s).1 := by
  unfold Machine.serveRenew
  split
  · exact h
  · exact h.kept (claimsKept_renewClaim s _ p)

theorem ClaimsSound.serveFlush (p : Port) (body : List Byte) : ClaimsSound (serveFlush p body s).1 :=
  StepInvariant.emptyBody (h.kept (claimsKept_modPosts s p fun b => { b with faults := 0 })) h

theorem ClaimsSound.serveNotices (p : Port) (body : List Byte) : ClaimsSound (serveNotices p body s).1 :=
  StepInvariant.emptyBody (h.kept (claimsKept_modNotices s p fun nq => nq.collect s.settings.noticeDelay)) h

theorem ClaimsSound.servePropose (p : Port) (body : List Byte) : ClaimsSound (servePropose p body s).1 := by
  unfold Machine.servePropose
  iterate 3 (split; exact h)
  split
  · exact h.kept (claimsKept_openProposal s p _)
  split
  · exact h
  · exact h.kept (claimsKept_openProposal s p _)

theorem ClaimsSound.serveVote (p : Port) (body : List Byte) : ClaimsSound (serveVote p body s).1 := by
  unfold Machine.serveVote
  iterate 6 (split; exact h)
  exact h.kept (claimsKept_castVote s p _ _)

end Services

/-! ## Commands -/

section Commands

variable {s : State} (h : ClaimsSound s)
include h

/-- An event that keeps the claim records. -/
theorem ClaimsSound.took {t : State} (kept : ClaimsKept s t) : Leads ClaimsSound True (took t) :=
  h.kept (kept.trans (claimsKept_settle t))

omit h in
/-- An event whose state before the close has sound records. -/
theorem ClaimsSound.settled {t : State} (sound : ClaimsSound t) : Leads ClaimsSound True (Machine.took t) :=
  sound.took (.refl t)

theorem ClaimsSound.takeBy {p : Port} {isKind : Byte → Bool} {act : Frame → State → State}
    (hact : ∀ f, ClaimsSound (act f (s.dequeue p f))) : Leads ClaimsSound True (s.takeBy p isKind act) := by
  unfold State.takeBy
  split
  · split
    · exact (hact _).settled
    · exact h
  · exact h

/-- A service acts on the state the take hands it, whose records are sound and whose counts are true. -/
theorem ClaimsSound.takeAndAnswer (counts : HandleCountsTrue s) {p : Port} {kind : Byte} {serve : Service}
    (hserve : ∀ t body, ClaimsSound t → HandleCountsTrue t → ClaimsSound (serve body t).1) :
    Leads ClaimsSound True (s.takeAndAnswer p kind serve) :=
  h.takeBy fun f => (hserve _ f.body (h.kept (claimsKept_dequeue s p f))
    (counts.same (sameTables_dequeue s p f).sameCounts)).kept (claimsKept_placeResponse _ p kind _)

theorem ClaimsSound.takeData (p : Port) (kind : Byte) (k : DataKind) : Leads ClaimsSound True (s.takeData p kind k) := by
  refine h.takeBy fun f => h.kept ((claimsKept_dequeue s p f).trans ?_)
  split
  · exact claimsKept_placeResponse _ p kind _
  · exact claimsKept_startOperation _ p k _

theorem ClaimsSound.execPost (p : Port) : Leads ClaimsSound True (execPost p s) := by
  refine h.takeBy fun f => h.kept (((claimsKept_dequeue s p f).trans ?_).trans (claimsKept_drainForHead _ p))
  unfold State.takePost
  split
  · exact claimsKept_modPosts _ p _
  · exact .refl _

theorem ClaimsSound.execPostRelease (p : Port) : Leads ClaimsSound True (execPostRelease p s) := by
  unfold Machine.execPostRelease
  split
  · exact h
  have released := claimsKept_modPosts s p PostBuffer.release
  dsimp only
  split
  · exact h.took (released.trans ((claimsKept_push _ p _).trans (claimsKept_modPosts _ p _)))
  · exact h.took (released.trans (claimsKept_startOperation _ p .post _))

theorem ClaimsSound.execUnknownRequest (p : Port) : Leads ClaimsSound True (execUnknownRequest p s) :=
  h.takeBy fun f => h.kept ((claimsKept_dequeue s p f).trans (claimsKept_placeResponse _ p _ _))

omit h in
theorem claimsKept_completeBurst (s : State) (p : Port) (op : Operation) (f : FrameNo) (captured : List Byte) :
    ClaimsKept s (s.completeBurst p op f captured) := by
  unfold State.completeBurst
  dsimp only
  split
  · exact claimsKept_endOperation s p op none
  split
  · exact .trans .elsewhere (claimsKept_endOperation _ p op _)
  all_goals exact .trans .elsewhere (claimsKept_advance _ p _)

theorem ClaimsSound.execBurstCompletion (p : Port) : Leads ClaimsSound True (execBurstCompletion p s) := by
  unfold Machine.execBurstCompletion
  split
  · split
    · have freed : ClaimsKept s s.freePath := .elsewhere
      exact h.took ((freed.trans (claimsKept_completeBurst _ p _ _ _)).trans (claimsKept_finishCleanup _ p))
    · exact h
  · exact h

theorem ClaimsSound.grantPort (p : Port) (op : Operation) : Leads ClaimsSound True (s.grantPort p op) := by
  unfold State.grantPort
  split
  · exact h.took ((claimsKept_endOperation s p op _).trans (claimsKept_finishCleanup _ p))
  split
  · trivial
  · exact h.took (.trans .elsewhere (claimsKept_setStage _ p _))

theorem ClaimsSound.execGrantDecision : Leads ClaimsSound True (execGrantDecision s) := by
  unfold Machine.execGrantDecision
  split
  · split
    · next r pointer _ =>
      have pointed : ClaimsSound { s with arbiter := { s.arbiter with pointer := pointer } } := h.kept .elsewhere
      unfold State.grantTo
      split
      · exact h.took .elsewhere
      · split
        · exact pointed.grantPort _ _
        · exact pointed
        · exact pointed
    · exact h
  · exact h

theorem ClaimsSound.execScrubBurstCompletion : Leads ClaimsSound True (execScrubBurstCompletion s) := by
  unfold Machine.execScrubBurstCompletion
  split
  · split
    · exact h.took .elsewhere
    · exact h.took .elsewhere
  · exact h

/-- The holder is told, and the claim handed over (R131). -/
theorem ClaimsSound.execLeaseExpiry (i : ShareIdx) : Leads ClaimsSound True (execLeaseExpiry i s) := by
  unfold Machine.execLeaseExpiry
  split
  · next c record =>
    split
    · refine h.took ((claimsKept_push s c.holder _).trans (claimsKept_handover ?_))
      rw [push_shares]
      exact record
    · exact h
  · exact h

theorem ClaimsSound.execVoteWindowExpiry : Leads ClaimsSound True (execVoteWindowExpiry s) := by
  unfold Machine.execVoteWindowExpiry
  split
  · split
    · exact h.took (claimsKept_endProposal s _ _)
    · exact h
  · exact h

theorem ClaimsSound.judge (counts : HandleCountsTrue s) (p : Port) (kind : Byte) (bytes : List Byte) (bits : Nat) :
    ClaimsSound (s.judge p kind bytes bits) := by
  unfold State.judge
  split
  · exact h.kept (claimsKept_modLink s p _)
  split
  · exact h.arriveHello counts p _
  split
  · exact h.kept (claimsKept_modLink s p _)
  unfold State.admitFrame
  dsimp only
  split
  · exact h.kept ((claimsKept_modLink s p _).trans (claimsKept_drainForHead _ p))
  · exact h.kept (claimsKept_modLink s p _)

theorem ClaimsSound.execRequestFrame (counts : HandleCountsTrue s) (p : Port) (bytes : List Byte) (bits : Nat) :
    Leads ClaimsSound True (execRequestFrame p bytes bits s) := by
  unfold Machine.execRequestFrame
  split
  · exact h.took (claimsKept_modLink s p _)
  · exact ((h.kept (claimsKept_modLink s p _)).judge (counts.same (sameTables_modLink s p _).sameCounts) p _ bytes bits).settled
  · exact h

theorem ClaimsSound.execHello (counts : HandleCountsTrue s) (p : Port) (tag : Byte) :
    Leads ClaimsSound True (execHello p tag s) := by
  unfold Machine.execHello
  split
  · exact h.took (claimsKept_modLink s p _)
  · split
    · exact ((h.kept (claimsKept_modLink s p _)).arriveHello (counts.same (sameTables_modLink s p _).sameCounts) p tag).settled
    · exact h
  · exact h

omit h in
theorem claimsKept_wake (s : State) : ClaimsKept s s.wake := by
  unfold State.wake
  split
  · exact .elsewhere
  · exact .refl s

theorem ClaimsSound.execSelectFallingEdge (p : Port) : Leads ClaimsSound True (execSelectFallingEdge p s) := by
  unfold Machine.execSelectFallingEdge
  split
  · exact h
  · exact h.took (.trans (claimsKept_modLink s p _) (claimsKept_wake _))

theorem ClaimsSound.execFirstByteEnd (p : Port) (first : Byte) : Leads ClaimsSound True (execFirstByteEnd p first s) := by
  unfold Machine.execFirstByteEnd
  split
  · exact h.took (claimsKept_modLink s p _)
  · exact h

theorem ClaimsSound.execPoll (p : Port) (clocks : Nat) : Leads ClaimsSound True (execPoll p clocks s) := by
  unfold Machine.execPoll
  split
  · exact h.took (claimsKept_modLink s p _)
  · exact h.took (claimsKept_modLink s p _)
  · exact h

theorem ClaimsSound.execFetch (p : Port) (clocks : Nat) : Leads ClaimsSound True (execFetch p clocks s) := by
  unfold Machine.execFetch
  split
  · exact h.took (claimsKept_modLink s p _)
  · exact h.took ((claimsKept_modLink s p _).trans (claimsKept_modLink _ p _))
  · exact h

theorem ClaimsSound.execPostDelayExpiry (p : Port) : Leads ClaimsSound True (execPostDelayExpiry p s) := by
  unfold Machine.execPostDelayExpiry
  split
  · exact h.took (claimsKept_modPosts s p _)
  · exact h

theorem ClaimsSound.execNoticeDelayExpiry (p : Port) : Leads ClaimsSound True (execNoticeDelayExpiry p s) := by
  unfold Machine.execNoticeDelayExpiry
  split
  · exact h.took (claimsKept_modNotices s p _)
  · exact h

theorem ClaimsSound.execRestCountdownExpiry : Leads ClaimsSound True (execRestCountdownExpiry s) := by
  unfold Machine.execRestCountdownExpiry
  split
  · exact h.took .elsewhere
  · exact h

theorem ClaimsSound.execWarmUpExpiry (counts : HandleCountsTrue s) : Leads ClaimsSound True (execWarmUpExpiry s) := by
  unfold Machine.execWarmUpExpiry
  split
  · have running : ClaimsSound { s with power := .run, warmUpTimer := none } := h.kept .elsewhere
    exact (running.takePending_foldl counts allPorts).settled
  · exact h

omit h in
theorem loseBurst_shares (s : State) : s.loseBurst.shares = s.shares := by
  have freed (f : FrameNo) (offset : Nat) : (s.freeBlock f offset).shares = s.shares := by
    unfold State.freeBlock
    rfl
  unfold State.loseBurst
  split
  · rfl
  · split
    · exact freed _ _
    · rfl
  · split
    · split
      · rfl
      · exact freed _ _
    · rfl
    · rfl

omit h in
/-- While RESET is low the records are held, their leases stopped (R192). -/
theorem claimsKept_held {t : State} (ports : ∀ p : Port, t.ports[p] = s.ports[p].held)
    (shares : ∀ i : ShareIdx, t.shares[i] = s.shares[i].held) : ClaimsKept s t := by
  refine .lessen ⟨fun p => ?_, fun i => ?_, fun i => ?_, fun i => ?_⟩ (fun p present => ?_) fun i c record => ?_
  · rw [ports]; rfl
  · rw [shares]; rfl
  · rw [shares]; rfl
  · rw [shares]; rfl
  · rw [State.isAttached, State.port_eq, ports]
    exact present
  · rw [shares] at record
    obtain ⟨c', before, rfl⟩ := Option.map_eq_some_iff.mp record
    exact ⟨c', before, .refl _⟩

theorem ClaimsSound.execResetAssert : Leads ClaimsSound True (execResetAssert s) := by
  unfold Machine.execResetAssert
  split
  · exact h
  · refine h.kept (claimsKept_held (fun p => ?_) fun i => ?_)
    · refine (State.mapPorts_get _ p _).trans (congrArg PortState.held ?_)
      exact congrArg (·[p]) (loseBurst_ports s)
    · refine (Vector.getElem_ofFn i.isLt).trans (congrArg Share.held ?_)
      exact congrArg (·[i]) (loseBurst_shares s)

omit h in
theorem ClaimsSound.execPowerOn : Leads ClaimsSound True (execPowerOn s) := fun i c record => by
  have none_at_reset : (State.reset.share i).claim = none := by rw [State.share_eq, reset_shares]; rfl
  cases none_at_reset.symm.trans record

theorem ClaimsSound.exec (counts : HandleCountsTrue s) (c : Instr) : Leads ClaimsSound True (exec c s) := by
  cases c with
  | selectFallingEdge p => exact h.execSelectFallingEdge p
  | poll p clocks => exact h.execPoll p clocks
  | fetch p clocks => exact h.execFetch p clocks
  | requestFrame p bytes bits => exact h.execRequestFrame counts p bytes bits
  | hello p tag => exact h.execHello counts p tag
  | detach p => exact h.takeAndAnswer counts (serve := Machine.serveDetach p) fun t body h counts => h.serveDetach counts p body
  | create p => exact h.takeAndAnswer counts (serve := Machine.serveCreate p) fun t body h _ => h.serveCreate p body
  | attach p => exact h.takeAndAnswer counts (serve := Machine.serveAttach p) fun t body h _ => h.serveAttach p body
  | close p => exact h.takeAndAnswer counts (serve := Machine.serveClose p) fun t body h _ => h.serveClose p body
  | revoke p => exact h.takeAndAnswer counts (serve := Machine.serveRevoke p) fun t body h _ => h.serveRevoke p body
  | info p => exact h.takeAndAnswer counts (serve := Machine.serveInfo p) fun t body h _ => StepInvariant.serveInfo p body h
  | grant p => exact h.takeAndAnswer counts (serve := Machine.serveGrant p) fun t body h _ => h.serveGrant p body
  | drop p => exact h.takeAndAnswer counts (serve := Machine.serveDrop p) fun t body h counts => h.serveDrop counts p body
  | list p => exact h.takeAndAnswer counts (serve := Machine.serveList p) fun t body h _ => StepInvariant.serveList p body h
  | read p => exact h.takeData p _ _
  | write p => exact h.takeData p _ _
  | cas p => exact h.takeData p _ _
  | post p => exact h.execPost p
  | postRelease p => exact h.execPostRelease p
  | flush p => exact h.takeAndAnswer counts (serve := Machine.serveFlush p) fun t body h _ => h.serveFlush p body
  | claim p => exact h.takeAndAnswer counts (serve := Machine.serveClaim p) fun t body h _ => h.serveClaim p body
  | release p => exact h.takeAndAnswer counts (serve := Machine.serveRelease p) fun t body h _ => h.serveRelease p body
  | renew p => exact h.takeAndAnswer counts (serve := Machine.serveRenew p) fun t body h _ => h.serveRenew p body
  | notices p => exact h.takeAndAnswer counts (serve := Machine.serveNotices p) fun t body h _ => h.serveNotices p body
  | propose p => exact h.takeAndAnswer counts (serve := Machine.servePropose p) fun t body h _ => h.servePropose p body
  | vote p => exact h.takeAndAnswer counts (serve := Machine.serveVote p) fun t body h _ => h.serveVote p body
  | settings p =>
    exact h.takeAndAnswer counts (serve := Machine.serveSettings p) fun t body h _ => StepInvariant.serveSettings p body h
  | unknownRequest p => exact h.execUnknownRequest p
  | grantDecision => exact h.execGrantDecision
  | burstCompletion p => exact h.execBurstCompletion p
  | scrubBurstCompletion => exact h.execScrubBurstCompletion
  | leaseExpiry i => exact h.execLeaseExpiry i
  | postDelayExpiry p => exact h.execPostDelayExpiry p
  | noticeDelayExpiry p => exact h.execNoticeDelayExpiry p
  | voteWindowExpiry => exact h.execVoteWindowExpiry
  | restCountdownExpiry => exact h.execRestCountdownExpiry
  | warmUpExpiry => exact h.execWarmUpExpiry counts
  | resetAssert => exact h.execResetAssert
  | powerOn => exact .execPowerOn
  | firstByteEnd p first => exact h.execFirstByteEnd p first

theorem ClaimsSound.step (counts : HandleCountsTrue s) : Leads ClaimsSound True (step s) := by
  unfold Machine.step
  split
  · exact h
  · next rest _ =>
    have next : ClaimsSound { s with pending := rest } := h.kept .elsewhere
    exact next.exec counts _

end Commands

/-- Settles O60: by `ClaimsSound.step`, the induction over commands. -/
theorem stepKeepsClaimsSound : Obligations.StepKeepsClaimsSound := by
  intro s t counts sound stepped
  have kept := sound.step counts
  rw [stepped] at kept
  exact kept

end Sys2Proof.Machine
end

