-- ==== Sys2Proof/Proofs/ClaimRequests.lean ====
section
/-! PROOFS. CLAIM, RELEASE, RENEW and LEASE_EXPIRY (R126 to R133): the ordered checks, and the one change that they make,
which is of the claim record of one entry, with the ports that are told of it. -/

namespace Sys2Proof.Machine

/-! ## A flag in the second byte of a body -/

/-- The body of a CLAIM or a VOTE has not two bytes, or its second is neither 0 nor 1. -/
def badFlag (body : List Byte) : Bool := body.length != 2 || decide (1 < (body.getD 1 0).toNat)

theorem claimFields_eq (body : List Byte) :
    claimFields body = if badFlag body = true then none else some (body.headD 0, body.getD 1 0 == 1) := by
  match body with
  | [] => rfl
  | [_] => rfl
  | _ :: _ :: _ :: _ => rfl
  | [b, w] =>
    rw [claimFields, flagOfByte_eq]
    by_cases small : w.toNat ≤ 1
    · rw [if_pos small, if_neg (by simpa [badFlag] using small)]
      rfl
    · rw [if_neg small, if_pos (by simpa [badFlag] using small)]
      rfl

theorem voteFields_eq (body : List Byte) : voteFields body = (claimFields body).map fun x => (x.1.toNat, x.2) := by
  match body with
  | [] => rfl
  | [_] => rfl
  | _ :: _ :: _ :: _ => rfl
  | [b, w] =>
    rw [voteFields, claimFields, Option.map_map]
    rfl

/-! ## The ordered checks -/

/-- R127's checks on handle number `b`, behind a body that may be `bad`. -/
def claimantChecks (s : State) (p : Port) (bad : Bool) (b : Byte) : List (Bool × Result) :=
  [(!s.isAttached p, .notAttached), (bad, .badFrame)] ++ resolution s p b
    ++ [((s.entryAt p b).any fun v => !v.rights.write, .rights)]

theorem dequeue_claimantChecks (s : State) (p : Port) (f : Frame) (bad : Bool) (b : Byte) :
    claimantChecks (s.dequeue p f) p bad b = claimantChecks s p bad b := by
  simp only [claimantChecks, dequeue_entryAt, dequeue_isAttached, dequeue_resolution]

/-- CLAIM, RELEASE and RENEW make them in that order. -/
theorem checkClaimant_of_failing {s : State} {p : Port} {bad : Bool} {b : Byte} {field : Option Byte} {code : Result}
    (field_eq : field = if bad = true then none else some b)
    (failing : firstFailing (claimantChecks s p bad b) = some code) : s.checkClaimant p field = .error code := by
  rw [claimantChecks, firstFailing_append, firstFailing_append, firstFailing_resolution] at failing
  unfold State.checkClaimant
  cases attached : s.isAttached p with
  | false =>
    rw [attached] at failing
    cases failing
    rfl
  | true =>
    rw [attached] at failing
    cases bad with
    | true =>
      rw [field_eq]
      cases failing
      rfl
    | false =>
      rw [field_eq]
      simp only [Bool.true_eq_false, Bool.false_eq_true, if_false]
      cases resolved : s.resolve p b with
      | error code' =>
        rw [resolved] at failing
        cases failing
        rfl
      | ok found =>
        obtain ⟨k, v⟩ := found
        rw [resolved, entryAt_of_resolve resolved] at failing
        cases write : v.rights.write with
        | true =>
          simp [firstFailing, write] at failing
        | false =>
          simp only [Option.any_some, firstFailing, write] at failing
          cases failing
          simp only [write, Bool.false_eq_true, if_false]

theorem handleField_eq (body : List Byte) :
    handleField body = if (body.length != 1) = true then none else some (body.headD 0) := by
  match body with
  | [] => rfl
  | [_] => rfl
  | _ :: _ :: _ => rfl

/-- PROPOSE's checks, in R157's order. -/
theorem servePropose_of_failing {s : State} {p : Port} {body : List Byte} {code : Result}
    (failing : firstFailing [(!s.isAttached p, .notAttached), ((proposeFields body).isNone, .badFrame),
      (s.proposal.isSome, .proposalPending),
      ((proposeFields body).any fun x => match x with
        | .settings bytes => (proposedSettings bytes).isNone
        | .clearAll => false, .badSettings)] = some code) : servePropose p body s = refuse code s := by
  unfold servePropose
  cases attached : s.isAttached p with
  | false =>
    rw [attached] at failing
    cases failing
    rfl
  | true =>
    rw [attached] at failing
    cases fields : proposeFields body with
    | none =>
      rw [fields] at failing
      cases failing
      rfl
    | some x =>
      rw [fields] at failing
      cases pending : s.proposal with
      | some pr =>
        rw [pending] at failing
        cases failing
        rfl
      | none =>
        rw [pending] at failing
        cases x with
        | clearAll => cases failing
        | settings bytes =>
          cases record : proposedSettings bytes with
          | some r =>
            simp only [firstFailing, Option.any_some, record] at failing
            cases failing
          | none =>
            simp only [firstFailing, Option.any_some, record] at failing
            cases failing
            simp only [record]
            rfl

/-- VOTE's checks, in R159's order. -/
theorem serveVote_of_failing {s : State} {p : Port} {body : List Byte} {code : Result}
    (failing : firstFailing [(!s.isAttached p, .notAttached), (badFlag body, .badFrame),
      (!(s.proposal.any fun pr => pr.id == (body.headD 0).toNat), .noProposal),
      (!(s.proposal.any fun pr => pr.voters[p]), .notVoter),
      (s.proposal.any fun pr => pr.accepted[p], .alreadyVoted)] = some code) : serveVote p body s = refuse code s := by
  unfold serveVote
  rw [voteFields_eq, claimFields_eq]
  cases attached : s.isAttached p with
  | false =>
    rw [attached] at failing
    cases failing
    rfl
  | true =>
    rw [attached] at failing
    cases bad : badFlag body with
    | true =>
      rw [bad] at failing
      cases failing
      rfl
    | false =>
      rw [bad] at failing
      simp only [Bool.true_eq_false, Bool.false_eq_true, if_false, Option.map_some]
      cases pending : s.proposal with
      | none =>
        rw [pending] at failing
        cases failing
        rfl
      | some pr =>
        simp only [pending, firstFailing, Option.any_some, Bool.not_true, Bool.not_eq_true', Bool.false_eq_true,
          beq_eq_false_iff_ne, if_false] at failing
        by_cases id : pr.id = (body.headD 0).toNat
        · rw [if_neg (not_not_intro id)] at failing
          dsimp only
          rw [if_neg (not_not_intro id)]
          split at failing
          · next voter => cases failing; rw [if_pos voter]
          · next voter =>
            rw [if_neg voter]
            split at failing
            · next voted => cases failing; rw [if_pos voted]
            · cases failing
        · rw [if_pos id] at failing
          cases failing
          exact if_pos id

/-- Settles O39: each service refuses with the first check that fails, as `checkClaimant_of_failing`,
`servePropose_of_failing` and `serveVote_of_failing` say. -/
theorem claimAndAgreementRequestsRefuse : Obligations.ClaimAndAgreementRequestsRefuse := by
  refine ⟨⟨fun s p f c kind code which h failing => ?_, fun s p f code h failing => ?_⟩, fun s p f code h failing => ?_,
    fun s p f code h failing => ?_⟩
  · have refused : (s.dequeue p f).checkClaimant p (handleField f.body) = .error code := by
      refine checkClaimant_of_failing (handleField_eq f.body) ?_
      rw [dequeue_claimantChecks]
      exact failing
    simp only [List.mem_cons, List.not_mem_nil, or_false] at which
    rcases which with e | e
    all_goals cases e
    · refine onlyAnswers_of_takes (serve := serveRelease p) h (by decide) ?_
      unfold serveRelease
      rw [refused]
      rfl
    · refine onlyAnswers_of_takes (serve := serveRenew p) h (by decide) ?_
      unfold serveRenew
      rw [refused]
      rfl
  · have refused : (s.dequeue p f).checkClaimant p ((claimFields f.body).map Prod.fst) = .error code := by
      refine checkClaimant_of_failing (bad := badFlag f.body) (b := f.body.headD 0) ?_ ?_
      · rw [claimFields_eq]
        split <;> rfl
      · rw [dequeue_claimantChecks]
        exact failing
    refine onlyAnswers_of_takes (serve := serveClaim p) h (by decide) ?_
    unfold serveClaim
    rw [refused]
    rfl
  · rw [← dequeue_isAttached s p f p] at failing
    exact onlyAnswers_of_takes (serve := servePropose p) h (by decide) (servePropose_of_failing failing)
  · rw [← dequeue_isAttached s p f p] at failing
    exact onlyAnswers_of_takes (serve := serveVote p) h (by decide) (serveVote_of_failing failing)

/-! ## The change of one claim record -/

/-- From `s` to `u` the claim record of entry `i` became `o` and these notices were pushed, and nothing else changed. -/
structure ClaimBecomes (s u : State) (i : ShareIdx) (o : Option Claim) (ns : Port → List Notice) : Prop where
  shares : ∀ j : ShareIdx, u.shares[j] = if j = i then { s.shares[i] with claim := o } else s.shares[j]
  pushed : Pushed s u ns
  keeps : Keeps s u
  pool : u.pool = s.pool

theorem claimBecomes_setClaim (s : State) (i : ShareIdx) (o : Option Claim) :
    ClaimBecomes s (s.setClaim i o) i o fun _ => [] where
  shares := setClaim_shares s i o
  pushed := .setClaim s i o
  keeps := keeps_setClaim s i o
  pool := rfl

theorem claimBecomes_handover (s : State) (i : ShareIdx) (c : Claim) :
    ClaimBecomes s (s.handover i c) i (c.handedOver s.lease) (c.grantedTo i s.shares[i].generation) where
  shares := handover_shares s i c
  pushed := .handover s i c
  keeps := keeps_handover s i c
  pool := (sameTables_handover s i c).pool

/-- The record stays as it is. -/
theorem claimBecomes_same {s : State} {i : ShareIdx} {o : Option Claim} (record : s.shares[i].claim = o) :
    ClaimBecomes s s i o fun _ => [] where
  shares j := by
    split
    · next e => rw [e]; exact share_with_claim _ record
    · rfl
  pushed := .of_ports rfl rfl
  keeps := .refl s
  pool := rfl

/-- The holder whose lease has run out is told LEASE_LOST, and then the claim is handed over (R131, R133). -/
theorem claimBecomes_expireLease (s : State) (i : ShareIdx) (c : Claim) :
    ClaimBecomes s (s.expireLease i c) i (c.handedOver s.lease) fun q =>
      (if q = c.holder then [shareNotice .leaseLost none c.handle i s.shares[i].generation] else [])
        ++ c.grantedTo i s.shares[i].generation q := by
  have told := Pushed.push s c.holder (shareNotice .leaseLost none c.handle i s.shares[i].generation)
  have keeps := keeps_push s c.holder (shareNotice .leaseLost none c.handle i s.shares[i].generation)
  have shares := push_shares s c.holder (shareNotice .leaseLost none c.handle i s.shares[i].generation)
  have pool := (sameTables_push s c.holder (shareNotice .leaseLost none c.handle i s.shares[i].generation)).pool
  have passed := claimBecomes_handover (s.push c.holder (shareNotice .leaseLost none c.handle i s.shares[i].generation)) i c
  rw [State.lease, keeps.settings, shares] at passed
  exact ⟨fun j => by rw [← shares]; exact passed.shares j, told.trans passed.pushed, keeps.trans passed.keeps,
    passed.pool.trans pool⟩

namespace ClaimBecomes

variable {s u : State} {p : Port} {f : Frame} {i : ShareIdx} {o : Option Claim} {ns : Port → List Notice}

/-! ## The close of the event of a request -/

section Answered

variable (h : ClaimBecomes (s.dequeue p f) u i o ns) (r : Reply)
include h

theorem answer_share : (u.answer p f r).share i = { s.share i with claim := o } := by
  rw [State.share_eq, answer_shares, h.shares, if_pos rfl]
  rfl

theorem answer_otherShares : OtherSharesSame s (u.answer p f r) i := fun j other => by
  rw [State.share_eq, answer_shares, h.shares, if_neg other]
  rfl

theorem answer_only : OnlyPortsShares s (u.answer p f r) :=
  onlyPortsShares_of_pool
    (onlyPortsSharesPool_settle (((keeps_dequeue s p f).trans h.keeps).trans (keeps_placeResponse _ p f.kind r)))
    ((answer_pool ..).trans h.pool)

theorem answer_told (q : Port) : Told s (u.answer p f r) q (ns q) := by
  refine (h.pushed.told q).of_notices ?_ ?_ rfl ?_
  · rw [dequeue_port]
  · rw [dequeue_port]
  · rw [answer_port]

/-- The requesting port gets its answer, and no notice. -/
theorem answer_requester (completed : (s.port p).link.allCompleted = true) (post : f.kind ≠ kindPost) (untold : ns p = []) :
    (u.answer p f r).port p = { s.port p with
      link := (s.port p).link.answered f r, attention := ((u.answer p f r).port p).attention } := by
  have told := h.pushed.told p
  rw [untold] at told
  have kept : u.ports[p] = (s.dequeue p f).ports[p] := by
    rw [h.pushed.ports p, show u.ports[p].notices = _ from notices_of_told_nil told]
    rfl
  rw [State.port_eq, answer_port, answer_link r completed post (by rw [kept]), kept, dequeue_port]
  rfl

theorem answer_other {q : Port} (other : q ≠ p) : (u.answer p f r).port q = { s.port q with
    notices := ((u.answer p f r).port q).notices, attention := ((u.answer p f r).port q).attention } := by
  rw [State.port_eq, answer_port, answer_link_other _ _ _ _ other, h.pushed.ports q, dequeue_port,
    dequeue_link_other s p f other]
  rfl

omit h in
theorem answer_otherPorts (h : ClaimBecomes (s.dequeue p f) u i o fun _ => []) (r : Reply) :
    OtherPortsSame s (u.answer p f r) [p] := fun q hq => by
  have other := h.answer_other r fun e => hq (List.mem_singleton.mpr e)
  rw [notices_of_told_nil (h.answer_told r q)] at other
  exact other

end Answered

end ClaimBecomes

/-! ## The requests that pass their checks (R127) -/

/-- A handle that resolves and holds WRITE passes them. -/
theorem checkClaimant_of_resolves {s : State} {p : Port} {b : Byte} {h : HandleNo} {v : Handle} (f : Frame)
    (attached : s.isAttached p = true) (r : Resolves s p b h v) (write : v.rights.write = true) :
    (s.dequeue p f).checkClaimant p (some b) = .ok (h, v) := by
  unfold State.checkClaimant
  rw [dequeue_isAttached, attached]
  simp only [dequeue_resolve, resolve_of_resolves r, write, Bool.true_eq_false, if_false, if_true]

/-! ## CLAIM (R128) -/

theorem waiterPlace_of_first {p : Port} {ws : List Waiter} {n : Nat} (here : (ws.map Waiter.port)[n]? = some p)
    (first : ∀ m, m < n → (ws.map Waiter.port)[m]? ≠ some p) : waiterPlace p ws = some (n + 1) := by
  induction ws generalizing n with
  | nil => cases here
  | cons w ws ih =>
    rw [waiterPlace]
    cases n with
    | zero => exact if_pos (Option.some.inj here)
    | succ n =>
      have other : w.port ≠ p := fun e => first 0 (Nat.succ_pos n) (congrArg some e)
      rw [if_neg other, ih here fun m lt => first (m + 1) (Nat.succ_lt_succ lt)]
      rfl

/-- A port that did not wait before waits at the tail. -/
theorem waiterPlace_append {p : Port} {ws : List Waiter} (h : HandleNo) (fresh : p ∉ ws.map Waiter.port) :
    waiterPlace p (ws ++ [{ port := p, handle := h }]) = some (ws.length + 1) := by
  have append : (ws ++ [({ port := p, handle := h } : Waiter)]).map Waiter.port = ws.map Waiter.port ++ [p] := List.map_append
  refine waiterPlace_of_first ?_ fun m lt here => fresh ?_
  · rw [append, List.getElem?_append_right (by rw [List.length_map]), List.length_map, Nat.sub_self]
    rfl
  · rw [append, List.getElem?_append_left (by rwa [List.length_map])] at here
    exact List.mem_of_getElem? here

theorem place_of_holder {c : Claim} {p : Port} (holds : c.holder = p) : c.place p = some 0 := if_pos holds

theorem place_of_other {c : Claim} {p : Port} (other : c.holder ≠ p) : c.place p = waiterPlace p c.waiters := if_neg other

section Claimed

variable {s : State} {p : Port} {h : HandleNo} {i : ShareIdx} {c : Claim}

theorem claimShare_of_unclaimed (wait : Bool) (record : s.shares[i].claim = none) : s.claimShare p h i wait
    = (s.setClaim i (some { holder := p, handle := h, lease := s.lease, waiters := [] }),
        { result := .ok, ending := .done, body := .claim (some p) (some 0) }) := by
  unfold State.claimShare
  rw [State.share_eq, record]
  simp only [claimReply, place_of_holder]

variable (record : s.shares[i].claim = some c)
include record

theorem claimShare_of_holder (wait : Bool) (holds : c.holder = p) : s.claimShare p h i wait
    = (s, { result := .alreadyHeld, ending := .done, body := .claim (some p) (some 0) }) := by
  unfold State.claimShare
  rw [State.share_eq, record]
  simp only [if_pos holds, claimReply, place_of_holder holds]
  rw [holds]

variable (other : c.holder ≠ p)
include other

theorem claimShare_of_waiter (wait : Bool) {n : Nat} (place : waiterPlace p c.waiters = some n) : s.claimShare p h i wait
    = (s, { result := .alreadyWaiting, ending := .done, body := .claim (some c.holder) (some n) }) := by
  unfold State.claimShare
  rw [State.share_eq, record]
  simp only [if_neg other, place, Option.isSome_some, if_true, claimReply, place_of_other other]

variable (fresh : p ∉ c.waiters.map Waiter.port)
include fresh

theorem claimShare_of_other (wait : Bool) : s.claimShare p h i wait
    = if wait = true then
        (s.setClaim i (some { c with waiters := c.waiters ++ [{ port := p, handle := h }] }),
          { result := .queued, ending := .done, body := .claim (some c.holder) (some (c.waiters.length + 1)) })
      else (s, { result := .claimBusy, ending := .refused, body := .claim none none }) := by
  have waits : ¬ (waiterPlace p c.waiters).isSome = true := fun waits => fresh ((waiterPlace_isSome p _).mp waits)
  unfold State.claimShare
  rw [State.share_eq, record]
  have place : ({ c with waiters := c.waiters ++ [{ port := p, handle := h }] } : Claim).place p
      = some (c.waiters.length + 1) :=
    (if_neg other).trans (waiterPlace_append h fresh)
  simp only [if_neg other, if_neg waits, claimReply, place]
  rfl

end Claimed

theorem serveClaim_of_resolves {s : State} {p : Port} {f : Frame} {b wait : Byte} {h : HandleNo} {v : Handle}
    (attached : s.isAttached p = true) (body : f.body = [b, wait]) (flag : wait.toNat ≤ 1) (r : Resolves s p b h v)
    (write : v.rights.write = true) :
    serveClaim p f.body (s.dequeue p f) = (s.dequeue p f).claimShare p h v.share (wait == 1) := by
  have fields : claimFields [b, wait] = some (b, wait == 1) := by
    rw [claimFields, flagOfByte_eq, if_pos flag]
    rfl
  unfold serveClaim
  rw [body, fields, Option.map_some, checkClaimant_of_resolves f attached r write]
  rfl

/-- Settles O40: the state and the answer are those of `State.claimShare`, whose cases are the `claimShare_of` lemmas. -/
theorem claimTakesQueuesOrReports : Obligations.ClaimTakesQueuesOrReports := by
  intro s p f b wait h v takes attached body flag r write answers
  have post : f.kind ≠ kindPost := by rw [takes.2.1]; decide
  have answered {u : State} {o : Option Claim} {code : Result} {ending : Ending} {holder : Option Port} {place : Option Nat}
      (served : (s.dequeue p f).claimShare p h v.share (wait == 1)
        = (u, { result := code, ending := ending, body := .claim holder place }))
      (becomes : ClaimBecomes (s.dequeue p f) u v.share o fun _ => []) :
      ∃ t, answers t code ending holder place ∧ t.share v.share = { s.share v.share with claim := o } :=
    ⟨_, ⟨takeAndAnswer_takes (serve := serveClaim p) takes
        ((serveClaim_of_resolves attached body flag r write).trans served),
      becomes.answer_otherPorts _, becomes.answer_requester _ takes.2.2 post rfl, becomes.answer_otherShares _,
      becomes.answer_only _⟩, becomes.answer_share _⟩
  have unchanged {code : Result} {ending : Ending} {holder : Option Port} {place : Option Nat}
      (served : (s.dequeue p f).claimShare p h v.share (wait == 1)
        = (s.dequeue p f, { result := code, ending := ending, body := .claim holder place })) :
      ∃ t, answers t code ending holder place ∧ t.share v.share = s.share v.share :=
    answered served (claimBecomes_same rfl)
  refine ⟨fun record => answered (claimShare_of_unclaimed _ record) (claimBecomes_setClaim ..), fun c record =>
    ⟨fun holds => unchanged (claimShare_of_holder (s := s.dequeue p f) record _ holds), fun other n here first =>
      unchanged (claimShare_of_waiter (s := s.dequeue p f) record other _ (waiterPlace_of_first here first)),
      fun other fresh one => ?_, fun other fresh zero => ?_⟩⟩
  · have served := claimShare_of_other (s := s.dequeue p f) (h := h) record other fresh (wait == 1)
    rw [if_pos (beq_iff_eq.mpr one)] at served
    exact answered served (claimBecomes_setClaim ..)
  · have served := claimShare_of_other (s := s.dequeue p f) (h := h) record other fresh (wait == 1)
    rw [if_neg (by rw [zero]; decide)] at served
    exact unchanged served

/-! ## RELEASE and RENEW (R129, R130) -/

section Holder

variable {s : State} {p : Port} {f : Frame} {b : Byte} {h : HandleNo} {v : Handle}

section Serves

variable (attached : s.isAttached p = true) (body : f.body = [b]) (r : Resolves s p b h v) (write : v.rights.write = true)
include attached body r write

theorem serveRelease_of_resolves :
    serveRelease p f.body (s.dequeue p f) = (s.dequeue p f).releaseClaim p v.share := by
  unfold serveRelease
  rw [body, handleField, checkClaimant_of_resolves f attached r write]

theorem serveRenew_of_resolves : serveRenew p f.body (s.dequeue p f) = (s.dequeue p f).renewClaim p v.share := by
  unfold serveRenew
  rw [body, handleField, checkClaimant_of_resolves f attached r write]

end Serves

variable {i : ShareIdx} {c : Claim}

theorem releaseClaim_of_unclaimed (record : s.shares[i].claim = none) : s.releaseClaim p i = refuse .notHolder s := by
  unfold State.releaseClaim
  rw [State.share_eq, record]

theorem releaseClaim_of_claimed (record : s.shares[i].claim = some c) : s.releaseClaim p i
    = if c.holder = p then (s.handover i c, Reply.ok .empty)
      else if p ∈ c.waiters.map Waiter.port then
        (s.setClaim i (some { c with waiters := withoutPort p c.waiters }), Reply.ok .empty)
      else refuse .notHolder s := by
  unfold State.releaseClaim
  rw [State.share_eq, record]
  exact if_congr Iff.rfl rfl (if_congr (waiterPlace_isSome p _) rfl rfl)

theorem renewClaim_of_holder (record : s.shares[i].claim = some c) (holds : c.holder = p) :
    s.renewClaim p i = (s.setClaim i (some { c with lease := s.lease }), Reply.ok .empty) := by
  unfold State.renewClaim
  rw [State.share_eq, record]
  exact if_pos holds

theorem renewClaim_of_other (other : ∀ c, s.shares[i].claim = some c → c.holder ≠ p) :
    s.renewClaim p i = refuse .notHolder s := by
  unfold State.renewClaim
  split
  · rfl
  · next c record => exact if_neg (other c record)

end Holder

/-- A handover tells the waiter at its head alone. -/
theorem grantedTo_of_fresh {c : Claim} {p : Port} (i : ShareIdx) (g : Nat) (fresh : ∀ w ∈ c.waiters, w.port ≠ p) :
    c.grantedTo i g p = [] := by
  unfold Claim.grantedTo
  split
  · rfl
  · next waiters => exact if_neg (fresh _ (waiters ▸ List.mem_cons_self))

/-- Settles O41: the cases of `releaseClaim_of_claimed`; the handover is that of `claimBecomes_handover`. -/
theorem releaseHandsOverOrWithdraws : Obligations.ReleaseHandsOverOrWithdraws := by
  intro s p f b h v takes attached body r write
  have post : f.kind ≠ kindPost := by rw [takes.2.1]; decide
  have serves := serveRelease_of_resolves attached body r write
  have refused (served : (s.dequeue p f).releaseClaim p v.share = refuse .notHolder (s.dequeue p f)) :
      ∃ t, exec (.release p) s = .next t ∧ OnlyAnswers s t p f (Reply.refusal .notHolder) :=
    onlyAnswers_of_takes (serve := serveRelease p) takes (by decide) (serves.trans served)
  have taken {u : State} (served : (s.dequeue p f).releaseClaim p v.share = (u, Reply.ok .empty)) :
      exec (.release p) s = .next (u.answer p f (Reply.ok .empty)) :=
    takeAndAnswer_takes (serve := serveRelease p) takes (serves.trans served)
  refine ⟨fun record => refused (releaseClaim_of_unclaimed record), fun c record => ?_⟩
  have served := releaseClaim_of_claimed (s := s.dequeue p f) (p := p) record
  refine ⟨fun holds fresh => ?_, fun other waits => ?_, fun other fresh => ?_⟩
  · rw [if_pos holds] at served
    have becomes := claimBecomes_handover (s.dequeue p f) v.share c
    exact ⟨_, taken served, becomes.answer_share _, becomes.answer_requester _ takes.2.2 post (grantedTo_of_fresh _ _ fresh),
      fun q other => ⟨becomes.answer_told _ q, becomes.answer_other _ other⟩, becomes.answer_otherShares _,
      becomes.answer_only _⟩
  · rw [if_neg other, if_pos waits] at served
    have becomes := claimBecomes_setClaim (s.dequeue p f) v.share (some { c with waiters := withoutPort p c.waiters })
    exact ⟨_, taken served, becomes.answer_share _, becomes.answer_requester _ takes.2.2 post rfl,
      becomes.answer_otherPorts _, becomes.answer_otherShares _, becomes.answer_only _⟩
  · rw [if_neg other, if_neg fresh] at served
    exact refused served

/-! ## LEASE_EXPIRY (R131) -/

theorem execLeaseExpiry_of_running {s : State} {i : ShareIdx} {c : Claim} (running : s.running = true)
    (record : s.shares[i].claim = some c) (lease : c.lease.isSome = true) :
    execLeaseExpiry i s = .next (s.expireLease i c).settle := by
  unfold execLeaseExpiry
  rw [State.share_eq, record]
  simp only [running, lease, Bool.and_self, if_true]
  rfl

/-- Settles O42: RENEW sets the lease alone, and an expiry changes the record as `claimBecomes_expireLease` says. -/
theorem leaseIsRenewedOrHandedOver : Obligations.LeaseIsRenewedOrHandedOver := by
  refine ⟨fun s p f b h v takes attached body r write => ⟨fun c record holds => ?_, fun other => ?_⟩,
    fun s i c running record lease => ?_⟩
  · have post : f.kind ≠ kindPost := by rw [takes.2.1]; decide
    have served := (serveRenew_of_resolves attached body r write).trans
      (renewClaim_of_holder (s := s.dequeue p f) record holds)
    have becomes := claimBecomes_setClaim (s.dequeue p f) v.share (some { c with lease := s.lease })
    exact ⟨_, takeAndAnswer_takes (serve := serveRenew p) takes served, becomes.answer_share _,
      becomes.answer_requester _ takes.2.2 post rfl, becomes.answer_otherPorts _, becomes.answer_otherShares _,
      becomes.answer_only _⟩
  · exact onlyAnswers_of_takes (serve := serveRenew p) takes (by decide) ((serveRenew_of_resolves attached body r write).trans
      (renewClaim_of_other (s := s.dequeue p f) other))
  · have becomes := claimBecomes_expireLease s i c
    refine ⟨_, execLeaseExpiry_of_running running record lease, ?_, fun q => ⟨?_, ?_⟩, fun j other => ?_,
      onlyPortsShares_of_pool (onlyPortsSharesPool_settle becomes.keeps) ((State.settle_pool _).trans becomes.pool)⟩
    · rw [State.share_eq, State.settle_shares, becomes.shares, if_pos rfl]
      rfl
    · exact (becomes.pushed.told q).of_notices rfl rfl rfl (by rw [State.settle_get])
    · rw [State.port_eq, State.settle_get, becomes.pushed.ports q]
      rfl
    · rw [State.share_eq, State.settle_shares, becomes.shares, if_neg other]
      rfl

end Sys2Proof.Machine
end

