-- ==== Sys2Proof/Proofs/Retirements.lean ====
section
/-! PROOFS. Retirements one after another (R2, R11, R57): what they reach of the pool, of the data stages and of the handle
tables, in the words of `Pool.takeBack`, `Stage.steppedBy` and `HandlesStepped`, for the cleanup of a port and for CLEAR_ALL. -/

namespace Sys2Proof.Machine

/-! ## What a retirement reaches (R2) -/

/-- A handle entry after the retirement of these entries, as `HandlesStepped` says it. -/
def State.steppedHandle (s : State) (gone : List ShareIdx) (o : Option Handle) : Option Handle :=
  if o.any fun v => gone.contains v.share && v.generation == nextGeneration (s.share v.share).generation then none else o

/-- A data stage after the retirement of these entries. -/
def DataStage.steppedBy (d : DataStage) (s : State) (gone : List ShareIdx) : DataStage :=
  { d with stage := d.stage.steppedBy s gone }

section Stepped

variable (s : State) (gone : List ShareIdx) (i : ShareIdx)

@[simp] theorem steppedHandle_none : s.steppedHandle gone none = none := rfl

@[simp] theorem steppedHandle_nil (o : Option Handle) : s.steppedHandle [] o = o := by
  cases o <;> rfl

theorem steppedHandle_some (v : Handle) : s.steppedHandle gone (some v)
    = if v.share ∈ gone ∧ v.generation = nextGeneration s.shares[v.share].generation then none else some v := by
  unfold State.steppedHandle
  exact if_congr (by simp) rfl rfl

variable {s gone} in
/-- Nothing is made by a retirement. -/
theorem of_steppedHandle {o : Option Handle} {v : Handle} (h : s.steppedHandle gone o = some v) : o = some v := by
  unfold State.steppedHandle at h
  split at h
  · cases h
  · exact h

/-- One more retirement. -/
theorem steppedHandle_append (o : Option Handle) : s.steppedHandle (gone ++ [i]) o
    = Handle.afterStep i (nextGeneration s.shares[i].generation) (s.steppedHandle gone o) := by
  cases o with
  | none => rfl
  | some v =>
    rw [steppedHandle_some, steppedHandle_some]
    by_cases before : v.share ∈ gone ∧ v.generation = nextGeneration s.shares[v.share].generation
    · rw [if_pos before, if_pos ⟨List.mem_append_left _ before.1, before.2⟩]
      rfl
    · rw [if_neg before, Handle.afterStep, Handle.records]
      refine if_congr ?_ rfl rfl
      rw [List.mem_append, List.mem_singleton, Bool.and_eq_true, beq_iff_eq, beq_iff_eq]
      constructor
      · rintro ⟨earlier | rfl, new⟩
        · exact absurd ⟨earlier, new⟩ before
        · exact ⟨rfl, new⟩
      · rintro ⟨rfl, new⟩
        exact ⟨.inr rfl, new⟩

theorem Operation.steppedBy_def (op : Operation) : op.steppedBy s gone
    = if (op.kind.isRead = true ∧ op.share ∈ gone) ∧ op.generation = nextGeneration s.shares[op.share].generation then
        { op with generation := 0 }
      else op := by
  unfold Operation.steppedBy
  exact if_congr (by rw [Bool.and_eq_true, Bool.and_eq_true, List.contains_iff_mem, beq_iff_eq, State.share_eq]) rfl rfl

theorem Operation.steppedBy_append (op : Operation) : op.steppedBy s (gone ++ [i])
    = (op.steppedBy s gone).afterStep i (nextGeneration s.shares[i].generation) := by
  rw [Operation.afterStep_eq, op.steppedBy_def, op.steppedBy_def]
  by_cases before : (op.kind.isRead = true ∧ op.share ∈ gone) ∧ op.generation = nextGeneration s.shares[op.share].generation
  · rw [if_pos before, if_pos ⟨⟨before.1.1, List.mem_append_left _ before.1.2⟩, before.2⟩, ite_self]
  · rw [if_neg before]
    refine if_congr ?_ rfl rfl
    rw [List.mem_append, List.mem_singleton, Bool.and_eq_true, Bool.and_eq_true, beq_iff_eq, beq_iff_eq]
    constructor
    · rintro ⟨⟨read, earlier | rfl⟩, new⟩
      · exact absurd ⟨⟨read, earlier⟩, new⟩ before
      · exact ⟨⟨read, rfl⟩, new⟩
    · rintro ⟨⟨read, rfl⟩, new⟩
      exact ⟨⟨read, .inr rfl⟩, new⟩

theorem Stage.steppedBy_append (st : Stage) : st.steppedBy s (gone ++ [i])
    = (st.steppedBy s gone).afterStep i (nextGeneration s.shares[i].generation) := by
  cases st with
  | empty => rfl
  | waiting op => exact congrArg Stage.waiting (op.steppedBy_append s gone i)
  | bursting op f bs => exact congrArg (Stage.bursting · f bs) (op.steppedBy_append s gone i)

@[simp] theorem DataStage.steppedBy_nil (d : DataStage) : d.steppedBy s [] = d := by
  rw [DataStage.steppedBy, Stage.steppedBy_nil]

theorem DataStage.steppedBy_append (d : DataStage) : d.steppedBy s (gone ++ [i]) = { d.steppedBy s gone with
    stage := (d.steppedBy s gone).stage.afterStep i (nextGeneration s.shares[i].generation) } := by
  rw [DataStage.steppedBy, Stage.steppedBy_append]
  rfl

/-- The retirement of entries changes of an operation at most the copy of the generation. -/
theorem Operation.steppedBy_eq (op : Operation) :
    op.steppedBy s gone = { op with generation := (op.steppedBy s gone).generation } := by
  unfold Operation.steppedBy
  split <;> rfl

theorem Operation.steppedBy_of_write {op : Operation} (write : op.kind.isRead = false) : op.steppedBy s gone = op := by
  unfold Operation.steppedBy
  rw [write]
  rfl

theorem Pool.takeBack_concat (q : Pool) :
    q.takeBack s (gone ++ [i]) = (q.takeBack s gone).giveBack s.shares[i].bySlot := by
  rw [Pool.takeBack_append]
  rfl

end Stepped

/-! ## Retirements in order -/

/-- From `s` to `t` the entries `gone` retired in this order, the handles `done` of port `p` were emptied, and `d` took the place
of port `p`'s data stage; no other entry's generation and no other frame, data stage or handle was touched. -/
structure Swept (s t : State) (p : Port) (done : List HandleNo) (d : DataStage) (gone : List ShareIdx) : Prop where
  generation : ∀ i : ShareIdx, i ∉ gone → t.shares[i].generation = s.shares[i].generation
  frameMap : ∀ i : ShareIdx, i ∉ gone → t.shares[i].frameMap = s.shares[i].frameMap
  pool : t.pool = s.pool.takeBack s gone
  stage : ∀ q : Port, t.ports[q].stage = (if q = p then d else s.ports[q].stage).steppedBy s gone
  handle : ∀ (q : Port) (k : HandleNo), t.ports[q].handles[k]
    = if q = p ∧ k ∈ done then none else s.steppedHandle gone s.ports[q].handles[k]

namespace Swept

variable {s t u : State} {p : Port} {done : List HandleNo} {d : DataStage} {gone : List ShareIdx}

theorem refl (s : State) (p : Port) : Swept s s p [] s.ports[p].stage [] where
  generation _ _ := rfl
  frameMap _ _ := rfl
  pool := rfl
  stage q := by
    rw [DataStage.steppedBy_nil]
    split
    · next e => rw [e]
    · rfl
  handle q k := by simp

/-- What touches no handle, no data stage, no generation and no frame. -/
theorem same (h : Swept s t p done d gone) (handles : ∀ q : Port, u.ports[q].handles = t.ports[q].handles)
    (stage : ∀ q : Port, u.ports[q].stage = t.ports[q].stage)
    (generation : ∀ i : ShareIdx, u.shares[i].generation = t.shares[i].generation := by intro _; rfl)
    (frameMap : ∀ i : ShareIdx, u.shares[i].frameMap = t.shares[i].frameMap := by intro _; rfl)
    (pool : u.pool = t.pool := by rfl) : Swept s u p done d gone where
  generation i hi := (generation i).trans (h.generation i hi)
  frameMap i hi := (frameMap i).trans (h.frameMap i hi)
  pool := pool.trans h.pool
  stage q := (stage q).trans (h.stage q)
  handle q k := by rw [handles q, h.handle q k]

theorem modPort (h : Swept s t p done d gone) (q : Port) (f : PortState → PortState)
    (handles : (f t.ports[q]).handles = t.ports[q].handles) (stage : (f t.ports[q]).stage = t.ports[q].stage) :
    Swept s (t.modPort q f) p done d gone := by
  refine h.same (fun r => ?_) fun r => ?_
  all_goals
    rw [State.modPort_get]
    split
    · next e => rw [e]; assumption
    · rfl

/-- Notices, and claim records at most. -/
theorem pushed (h : Swept s t p done d gone) {ns : Port → List Notice} (pushed : Pushed t u ns) (tables : SameTables t u) :
    Swept s u p done d gone :=
  h.same tables.handles (fun q => by rw [pushed.ports q]) tables.generation tables.frameMap tables.pool

theorem modShare (h : Swept s t p done d gone) (i : ShareIdx) (f : Share → Share)
    (generation : (f t.shares[i]).generation = t.shares[i].generation)
    (frameMap : (f t.shares[i]).frameMap = t.shares[i].frameMap) : Swept s (t.modShare i f) p done d gone := by
  refine h.same (fun _ => rfl) (fun _ => rfl) (fun j => ?_) fun j => ?_
  all_goals
    rw [State.modShare_get]
    split
    · next e => rw [e]; assumption
    · rfl

/-- A handle of port `p` is empty. -/
theorem emptied (h : Swept s t p done d gone) {k : HandleNo} (empty : t.ports[p].handles[k] = none) :
    Swept s t p (done ++ [k]) d gone where
  generation := h.generation
  frameMap := h.frameMap
  pool := h.pool
  stage := h.stage
  handle q j := by
    by_cases here : q = p ∧ j = k
    · rw [if_pos ⟨here.1, by simp [here.2]⟩, here.1, here.2, empty]
    · rw [h.handle q j]
      exact if_congr (and_congr_right fun e => by simp [show j ≠ k from fun f => here ⟨e, f⟩]) rfl rfl

theorem setHandle (h : Swept s t p done d gone) (k : HandleNo) : Swept s (t.setHandle p k none) p (done ++ [k]) d gone where
  generation := h.generation
  frameMap := h.frameMap
  pool := h.pool
  stage q := by
    rw [State.setHandle_eq, State.modPort_get]
    split
    · exact (h.stage p).trans (if_pos rfl ▸ rfl)
    · next e => rw [h.stage q, if_neg e]
  handle q j := by
    rw [setHandle_get, h.handle q j]
    by_cases here : q = p ∧ j = k
    · rw [if_pos here, if_pos ⟨here.1, by simp [here.2]⟩]
    · rw [if_neg here]
      exact if_congr (and_congr_right fun e => by simp [show j ≠ k from fun f => here ⟨e, f⟩]) rfl rfl

theorem setStage (h : Swept s t p done d gone) {d' : DataStage} : Swept s (t.setStage p (d'.steppedBy s gone)) p done d' gone where
  generation := h.generation
  frameMap := h.frameMap
  pool := h.pool
  stage q := by
    rw [State.setStage_eq, State.modPort_get]
    split
    · rfl
    · next e => rw [h.stage q, if_neg e]
  handle q k := by rw [setStage_handles, h.handle q k]

theorem retire (h : Swept s t p done d gone) {i : ShareIdx} (fresh : i ∉ gone) :
    Swept s (t.retire i) p done d (gone ++ [i]) where
  generation j hj := by
    obtain ⟨before, other⟩ := not_or.mp (fun e => hj (List.mem_append.mpr e))
    rw [retire_shares, if_neg fun e => other (List.mem_singleton.mpr e), h.generation j before]
  frameMap j hj := by
    obtain ⟨before, other⟩ := not_or.mp (fun e => hj (List.mem_append.mpr e))
    rw [retire_shares, if_neg fun e => other (List.mem_singleton.mpr e), h.frameMap j before]
  pool := by
    rw [retire_pool, Pool.takeBack_concat, h.pool, Share.bySlot, h.frameMap i fresh]
    rfl
  stage q := by
    rw [retire_ports, h.generation i fresh, DataStage.steppedBy_append, ← h.stage q]
  handle q k := by
    rw [retire_handle, h.handle q k, h.generation i fresh]
    split
    · rfl
    · exact (steppedHandle_append ..).symm

/-- The entry into CLOSING, with the retirement that follows when no operation is in flight (R10, R11). -/
theorem enterClosing (h : Swept s t p done d gone) {i : ShareIdx} (fresh : t.shares[i].inUse = 0 → i ∉ gone) :
    Swept s (t.enterClosing i) p done d (gone ++ if t.shares[i].inUse = 0 then [i] else []) := by
  have marked : Swept s (t.markClosing i) p done d gone := h.modShare i _ rfl rfl
  split
  · next unused =>
    rw [enterClosing_of_unused t i unused]
    exact marked.retire (fresh unused)
  · next used =>
    rw [enterClosing_of_used t i used, List.append_nil]
    exact marked

/-- The end of a use, with the retirement of a CLOSING entry that has none left (R86, R11). -/
theorem releaseUse (h : Swept s t p done d gone) {i : ShareIdx} (fresh : t.shares[i].state = .closing → i ∉ gone) :
    Swept s (t.releaseUse i) p done d
      (gone ++ if t.shares[i].state = .closing ∧ t.shares[i].inUse - 1 = 0 then [i] else []) := by
  have lowered : Swept s (t.lowerUse i) p done d gone := h.modShare i _ rfl rfl
  split
  · next retires =>
    rw [releaseUse_of_retiring retires]
    exact lowered.retire (fresh retires.1)
  · next stays =>
    rw [releaseUse_of_staying stays, List.append_nil]
    exact lowered

/-- The handle table of another port, as R2 has it. -/
theorem handlesStepped (h : Swept s t p done d gone) {q : Port} (other : q ≠ p) : HandlesStepped s t gone q := fun k =>
  (h.handle q k).trans (if_neg fun both => other both.1)

theorem stage_other (h : Swept s t p done d gone) {q : Port} (other : q ≠ p) : (t.port q).stage
    = { (s.port q).stage with stage := (s.port q).stage.stage.steppedBy s gone } :=
  (h.stage q).trans (by rw [if_neg other]; rfl)

theorem stage_own (h : Swept s t p done d gone) : t.ports[p].stage = d.steppedBy s gone :=
  (h.stage p).trans (by rw [if_pos rfl])

end Swept

end Sys2Proof.Machine
end

