-- ==== Sys2Proof/Proofs/TableCleanup.lean ====
section
/-! PROOFS. The Handle Tables' part of a cleanup (R43, R147): by induction over the handles of the port in ascending order, what
the emptying of the handles so far has made of every share entry (R5, R8, R9), which entries have retired, and how many handles
were counted. -/

namespace Sys2Proof.Machine

/-! ## What the handles emptied so far make of an entry -/

section SoFar

variable (s : State) (p : Port) (i : ShareIdx) (done : List HandleNo)

/-- How many of these handles of port `p` are current on entry `i`. -/
def State.lostIn : Nat := done.countP (s.currentOn p i)

/-- One of these handles of port `p` is current on entry `i` and holds ADMIN. -/
def State.adminIn : Bool := done.any fun k => s.currentOn p i k && (s.handle p k).any fun v => v.rights.admin

/-- The emptying of these handles closes entry `i` (R9): it has lost a handle, is ORPHANED, and has none left. -/
def State.closesIn : Bool :=
  decide (0 < s.lostIn p i done) && ((s.share i).state == .orphaned || s.adminIn p i done)
    && decide ((s.share i).handleCount ≤ s.lostIn p i done)

/-- Entry `i` without these handles of port `p`, and with its claim as `p` leaves it, before it may close. -/
def State.leftIn : Share :=
  { s.share i with
    claim := (s.share i).claim.bind fun c => c.leftBy p (some (s.settings.leaseDuration * 1000))
    handleCount := (s.share i).handleCount - s.lostIn p i done
    state := if (s.share i).state == .opened && s.adminIn p i done then .orphaned else (s.share i).state }

/-- Entry `i` once these handles of port `p` are emptied. -/
def State.leftAfter : Share := if s.closesIn p i done then (s.leftIn p i done).closed else s.leftIn p i done

/-- The entry that the emptying of handle `h` of port `p` retires. -/
def State.retiresAt (h : HandleNo) : Option ShareIdx :=
  (s.handle p h).bind fun v =>
    if s.closesAt p v.share h && (allHandles.all fun k => !decide (k < h) || !s.closesAt p v.share k)
        && (s.share v.share).inUse == 0 then some v.share else none

end SoFar

section SoFarLemmas

variable {s : State} {p : Port} {i : ShareIdx} {done : List HandleNo} {h : HandleNo}

theorem lostIn_concat : s.lostIn p i (done ++ [h]) = s.lostIn p i done + if s.currentOn p i h then 1 else 0 := by
  unfold State.lostIn
  rw [List.countP_append, List.countP_singleton]

theorem adminIn_concat : s.adminIn p i (done ++ [h])
    = (s.adminIn p i done || s.currentOn p i h && (s.handle p h).any fun v => v.rights.admin) := by
  unfold State.adminIn
  rw [List.any_append, List.any_cons, List.any_nil, Bool.or_false]

/-- A handle that is not current on the entry is nothing to it. -/
theorem lostIn_concat_of_stale (stale : s.currentOn p i h = false) : s.lostIn p i (done ++ [h]) = s.lostIn p i done := by
  rw [lostIn_concat, stale]
  rfl

theorem adminIn_concat_of_stale (stale : s.currentOn p i h = false) : s.adminIn p i (done ++ [h]) = s.adminIn p i done := by
  rw [adminIn_concat, stale, Bool.false_and, Bool.or_false]

theorem closesIn_concat_of_stale (stale : s.currentOn p i h = false) :
    s.closesIn p i (done ++ [h]) = s.closesIn p i done := by
  unfold State.closesIn
  rw [lostIn_concat_of_stale stale, adminIn_concat_of_stale stale]

theorem leftIn_concat_of_stale (stale : s.currentOn p i h = false) : s.leftIn p i (done ++ [h]) = s.leftIn p i done := by
  unfold State.leftIn
  rw [lostIn_concat_of_stale stale, adminIn_concat_of_stale stale]

theorem closesIn_iff : s.closesIn p i done = true ↔ 0 < s.lostIn p i done
    ∧ ((s.share i).state = .orphaned ∨ s.adminIn p i done = true) ∧ (s.share i).handleCount ≤ s.lostIn p i done := by
  rw [State.closesIn, Bool.and_eq_true, Bool.and_eq_true, Bool.or_eq_true, decide_eq_true_iff, decide_eq_true_iff, beq_iff_eq,
    and_assoc]

/-- What has closed stays closed. -/
theorem closesIn_concat (closed : s.closesIn p i done = true) : s.closesIn p i (done ++ [h]) = true := by
  obtain ⟨lost, orphaned, few⟩ := closesIn_iff.mp closed
  rw [closesIn_iff, lostIn_concat, adminIn_concat, Bool.or_eq_true]
  exact ⟨Nat.add_pos_left lost _, orphaned.imp_right .inl, Nat.le_add_right_of_le few⟩

/-- A closed entry is the same whatever the count and the phase were before. -/
theorem closed_leftIn (done' : List HandleNo) : (s.leftIn p i done).closed = (s.leftIn p i done').closed := rfl

/-- Nothing happens to an entry by a handle that is not current on it, or once it has closed. -/
theorem leftAfter_concat_of_nothing (nothing : s.currentOn p i h = false ∨ s.closesIn p i done = true) :
    s.leftAfter p i (done ++ [h]) = s.leftAfter p i done := by
  unfold State.leftAfter
  obtain stale | closed := nothing
  · rw [closesIn_concat_of_stale stale, leftIn_concat_of_stale stale]
  · rw [closed, closesIn_concat closed]
    exact closed_leftIn _

theorem leftAfter_nil : s.leftAfter p i [] = { s.share i with
    claim := (s.share i).claim.bind fun c => c.leftBy p (some (s.settings.leaseDuration * 1000)) } := by
  have open_still : s.closesIn p i [] = false := rfl
  rw [State.leftAfter, open_still, State.leftIn, State.adminIn, List.any_nil, Bool.and_false]
  rfl

theorem leftAfter_generation (open_still : s.closesIn p i done = false) :
    (s.leftAfter p i done).generation = (s.share i).generation := by
  rw [State.leftAfter, open_still]
  rfl

theorem leftIn_live : (s.leftIn p i done).live = (s.share i).live := by
  unfold State.leftIn Share.live
  cases (s.share i).state <;> cases s.adminIn p i done <;> rfl

theorem leftAfter_live : (s.leftAfter p i done).live = ((s.share i).live && !s.closesIn p i done) := by
  unfold State.leftAfter
  split
  · next closed =>
    rw [closed, Bool.not_true, Bool.and_false, Share.closed]
    split <;> rfl
  · next open_still => rw [leftIn_live, Bool.eq_false_iff.mpr open_still, Bool.not_false, Bool.and_true]

theorem leftAfter_inUse : (s.leftAfter p i done).inUse = (s.share i).inUse := by
  unfold State.leftAfter Share.closed
  split
  · split <;> rfl
  · rfl

end SoFarLemmas

/-! ## The handles so far, as numbers -/

section Rising

variable {done rest : List HandleNo} {h : HandleNo} (all : allHandles = done ++ h :: rest)

include all

theorem below_of_mem (k : HandleNo) (hk : k ∈ done) : k < h := by
  have rising := pairwise_lt_finRange 32
  rw [show List.finRange 32 = done ++ h :: rest from all, List.pairwise_append] at rising
  exact rising.2.2 k hk h List.mem_cons_self

theorem above_of_mem (k : HandleNo) (hk : k ∈ rest) : h < k := by
  have rising := pairwise_lt_finRange 32
  rw [show List.finRange 32 = done ++ h :: rest from all, List.pairwise_append, List.pairwise_cons] at rising
  exact rising.2.1.1 k hk

theorem filter_upTo : allHandles.filter (fun k => decide (k ≤ h)) = done ++ [h] := by
  have below : done.filter (fun k => decide (k ≤ h)) = done :=
    List.filter_eq_self.mpr fun k hk => decide_eq_true (Nat.le_of_lt (below_of_mem all k hk))
  have above : rest.filter (fun k => decide (k ≤ h)) = [] :=
    List.filter_eq_nil_iff.mpr fun k hk => by simpa using above_of_mem all k hk
  rw [all, List.filter_append, List.filter_cons, below, above, if_pos (decide_eq_true le_rfl)]

theorem filter_below : allHandles.filter (fun k => decide (k < h)) = done := by
  have below : done.filter (fun k => decide (k < h)) = done :=
    List.filter_eq_self.mpr fun k hk => decide_eq_true (below_of_mem all k hk)
  have above : rest.filter (fun k => decide (k < h)) = [] :=
    List.filter_eq_nil_iff.mpr fun k hk => by simpa using Nat.le_of_lt (above_of_mem all k hk)
  rw [all, List.filter_append, List.filter_cons, below, above, if_neg (by simp), List.append_nil]

theorem adminUpTo_eq (s : State) (p : Port) (i : ShareIdx) : s.adminUpTo p i h = s.adminIn p i (done ++ [h]) := by
  rw [State.adminIn, ← filter_upTo all, List.any_filter, State.adminUpTo]
  simp only [Bool.and_assoc]

theorem lostUpTo_eq (s : State) (p : Port) (i : ShareIdx) :
    (allHandles.countP fun k => decide (k ≤ h) && s.currentOn p i k) = s.lostIn p i (done ++ [h]) := by
  rw [State.lostIn, ← filter_upTo all, List.countP_filter]
  exact List.countP_congr fun k _ => by rw [Bool.and_comm]

/-- The emptying of a handle closes its entry when it is current, and the entry has closed with it. -/
theorem closesAt_eq (s : State) (p : Port) (i : ShareIdx) :
    s.closesAt p i h = (s.currentOn p i h && s.closesIn p i (done ++ [h])) := by
  rw [State.closesAt, adminUpTo_eq all, lostUpTo_eq all, State.closesIn]
  cases current : s.currentOn p i h with
  | false => rfl
  | true =>
    have lost : decide (0 < s.lostIn p i (done ++ [h])) = true := by
      rw [lostIn_concat, current]
      exact decide_eq_true (Nat.succ_pos _)
    rw [lost]
    rfl

end Rising

/-- An entry has closed when one of the handles so far closed it. -/
theorem closesIn_eq_any (s : State) (p : Port) (i : ShareIdx) {done rest : List HandleNo} (all : allHandles = done ++ rest) :
    s.closesIn p i done = done.any (s.closesAt p i) := by
  induction done using List.reverseRecOn generalizing rest with
  | nil => rfl
  | append_singleton done h ih =>
    rw [List.append_assoc] at all
    have before := ih all
    rw [List.any_append, ← before, List.any_cons, List.any_nil, Bool.or_false, closesAt_eq all]
    cases current : s.currentOn p i h with
    | false => rw [closesIn_concat_of_stale current, Bool.false_and, Bool.or_false]
    | true =>
      rw [Bool.true_and]
      cases closed : s.closesIn p i done with
      | false => rfl
      | true => rw [closesIn_concat closed]; rfl

section Retires

variable {s : State} {p : Port} {done rest : List HandleNo} {h : HandleNo} (all : allHandles = done ++ h :: rest)

include all

/-- The first handle whose emptying closes the entry retires it, with no operation in flight (R11, R25). -/
theorem retiresAt_eq : s.retiresAt p h = (s.handle p h).bind fun v =>
    if s.currentOn p v.share h && s.closesIn p v.share (done ++ [h]) && !s.closesIn p v.share done
        && (s.share v.share).inUse == 0 then some v.share else none := by
  have none_before (i : ShareIdx) :
      (allHandles.all fun k => !decide (k < h) || !s.closesAt p i k) = !s.closesIn p i done := by
    rw [closesIn_eq_any s p i all, ← filter_below all, List.any_filter, List.not_any_eq_all_not]
    exact congrArg allHandles.all (funext fun k => (Bool.not_and ..).symm)
  unfold State.retiresAt
  simp only [closesAt_eq all, none_before]

end Retires

/-- The entries that have retired are closed, and had no operation in flight. -/
theorem closed_of_retired {s : State} {p : Port} {done rest : List HandleNo} (all : allHandles = done ++ rest) {i : ShareIdx}
    (retired : i ∈ done.filterMap (s.retiresAt p)) : s.closesIn p i done = true ∧ (s.share i).inUse = 0 := by
  obtain ⟨k, hk, at_k⟩ := List.mem_filterMap.mp retired
  obtain ⟨v, -, found⟩ := Option.bind_eq_some_iff.mp at_k
  split at found
  · next conditions =>
    cases found
    obtain ⟨closes, unused⟩ := Bool.and_eq_true_iff.mp conditions
    rw [closesIn_eq_any s p v.share all, List.any_eq_true]
    exact ⟨⟨k, hk, (Bool.and_eq_true_iff.mp closes).1⟩, beq_iff_eq.mp unused⟩
  · cases found

section Left

variable {s : State} {p : Port} {i : ShareIdx} {done : List HandleNo}

theorem of_currentOn {k : HandleNo} (current : s.currentOn p i k = true) : ∃ v, s.handle p k = some v ∧ v.share = i
    ∧ (s.share i).live = true ∧ v.generation = (s.share i).generation := by
  unfold State.currentOn at current
  cases valid : s.handle p k with
  | none =>
    rw [valid] at current
    cases current
  | some v =>
    rw [valid, Option.any_some, Bool.and_eq_true, Bool.and_eq_true, beq_iff_eq, beq_iff_eq] at current
    exact ⟨v, rfl, current.1.1, current.1.2, current.2⟩

theorem live_of_lost (lost : 0 < s.lostIn p i done) : (s.share i).live = true := by
  obtain ⟨k, -, current⟩ := List.countP_pos_iff.mp lost
  obtain ⟨-, -, -, live, -⟩ := of_currentOn current
  exact live

theorem leftIn_orphaned (live : (s.share i).live = true) : (s.leftIn p i done).state = .orphaned
    ↔ (s.share i).state = .orphaned ∨ s.adminIn p i done = true := by
  unfold Share.live at live
  unfold State.leftIn
  cases state : (s.share i).state <;> cases s.adminIn p i done <;> simp_all

/-- An entry closes when the loss of a handle leaves it ORPHANED with none counted (R9). -/
theorem closesIn_iff_left : s.closesIn p i done = true ↔ 0 < s.lostIn p i done
    ∧ (s.leftIn p i done).state = .orphaned ∧ (s.leftIn p i done).handleCount = 0 := by
  rw [closesIn_iff]
  refine and_congr_right fun lost => ?_
  rw [leftIn_orphaned (live_of_lost lost)]
  exact and_congr_right fun _ => Nat.sub_eq_zero_iff_le.symm

/-- With the whole table emptied an entry is left as `leftByTable` says. -/
theorem leftAfter_allHandles : s.leftAfter p i allHandles = s.leftByTable p i := by
  have admin : s.adminUpTo p i 31 = s.adminIn p i allHandles := by
    unfold State.adminUpTo State.adminIn
    refine congrArg allHandles.any (funext fun k => ?_)
    rw [decide_eq_true (show k ≤ 31 from Fin.le_last k), Bool.true_and]
  unfold State.leftByTable
  rw [admin]
  exact if_congr closesIn_iff_left rfl rfl

end Left

/-! ## The emptying of one handle -/

namespace Swept

variable {s t : State} {p : Port} {done : List HandleNo} {d : DataStage} {gone : List ShareIdx}

/-- The emptying of a handle, with the retirement that may follow (R39, R9, R11). -/
theorem emptyHandle (swept : Swept s t p done d gone) {h : HandleNo} {v : Handle} (valid : t.handle p h = some v)
    (fresh : t.retiresWithout v → v.share ∉ gone) :
    Swept s (t.emptyHandle p h) p (done ++ [h]) d (gone ++ if t.retiresWithout v then [v.share] else []) := by
  have without : Swept s (t.without p h v) p (done ++ [h]) d gone := (swept.setHandle h).modShare v.share _ rfl rfl
  have inUse : (t.without p h v).shares[v.share].inUse = (t.share v.share).inUse := by
    rw [without_shares, if_pos rfl]
    rfl
  rw [emptyHandle_eq valid]
  by_cases closes : t.closesWithout v
  · have closing := without.enterClosing (i := v.share) fun unused => fresh ⟨closes, inUse ▸ unused⟩
    rw [inUse] at closing
    rw [if_pos closes, if_congr (and_iff_right closes : t.retiresWithout v ↔ _) rfl rfl]
    exact closing
  · rw [if_neg closes, if_neg fun retires => closes retires.1, List.append_nil]
    exact without

end Swept

/-- From `s` to `t` the handles `done` of port `p` were emptied, behind the Claim Unit's part, and counted but for those that a
retirement had emptied (R43, R147; log 26). -/
structure TableEmptied (s t : State) (p : Port) (done : List HandleNo) : Prop where
  swept : Swept s t p done s.ports[p].stage (done.filterMap (s.retiresAt p))
  shares : ∀ i : ShareIdx, t.shares[i] = s.leftAfter p i done
  counted : t.ports[p].attach.emptied ≤ (s.port p).attach.emptied + done.countP fun k => (s.handle p k).isSome
  full : (∀ (k : HandleNo) (v : Handle), s.handle p k = some v →
      v.generation ≠ nextGeneration (s.share v.share).generation) →
    t.ports[p].attach.emptied = (s.port p).attach.emptied + done.countP fun k => (s.handle p k).isSome

namespace TableEmptied

variable {s t : State} {p : Port} {done rest : List HandleNo} {h : HandleNo}

/-- A handle ahead is as R2 has left it. -/
theorem ahead (e : TableEmptied s t p done) (all : allHandles = done ++ h :: rest) :
    t.handle p h = s.steppedHandle (done.filterMap (s.retiresAt p)) (s.handle p h) :=
  (e.swept.handle p h).trans (if_neg fun both => Nat.lt_irrefl _ (below_of_mem all h both.2))

theorem retired_concat : (done ++ [h]).filterMap (s.retiresAt p)
    = done.filterMap (s.retiresAt p) ++ (s.retiresAt p h).toList := by
  rw [List.filterMap_append]
  cases at_h : s.retiresAt p h <;> simp [at_h]

theorem count_concat : ((done ++ [h]).countP fun k => (s.handle p k).isSome)
    = (done.countP fun k => (s.handle p k).isSome) + if (s.handle p h).isSome then 1 else 0 := by
  rw [List.countP_append, List.countP_singleton]

/-- An EMPTY handle, or one that a retirement has emptied, is passed over. -/
theorem skip (e : TableEmptied s t p done) (all : allHandles = done ++ h :: rest) (empty : t.handle p h = none) :
    TableEmptied s t p (done ++ [h]) := by
  have stepped := (e.ahead all).symm.trans empty
  have stale (i : ShareIdx) : s.currentOn p i h = false := by
    refine Bool.eq_false_iff.mpr fun current => ?_
    obtain ⟨v, valid, rfl, -, same⟩ := of_currentOn current
    rw [valid, steppedHandle_some] at stepped
    split at stepped
    · next gone => exact nextGeneration_ne _ (gone.2.symm.trans same)
    · cases stepped
  have none_retires : s.retiresAt p h = none := by
    rw [retiresAt_eq all]
    simp only [stale, Bool.false_and, Bool.false_eq_true, if_false, Option.bind_fun_none]
  refine ⟨?_, fun i => ?_, ?_, fun apart => ?_⟩
  · rw [retired_concat, none_retires, Option.toList_none, List.append_nil]
    exact e.swept.emptied empty
  · rw [e.shares i, leftAfter_concat_of_nothing (.inl (stale i))]
  · rw [count_concat, ← Nat.add_assoc]
    exact Nat.le_add_right_of_le e.counted
  · rw [count_concat, e.full apart]
    cases valid : s.handle p h with
    | none => rfl
    | some v =>
      rw [valid, steppedHandle_some, if_neg fun gone => apart h v valid gone.2] at stepped
      cases stepped

section Valid

variable {v : Handle} (e : TableEmptied s t p done) (all : allHandles = done ++ h :: rest) (valid : t.handle p h = some v)

include e all valid

theorem valid_before : s.handle p h = some v := of_steppedHandle ((e.ahead all).symm.trans valid)

/-- A handle is current still unless its entry has closed. -/
theorem current_eq : t.current v = (s.currentOn p v.share h && !s.closesIn p v.share done) := by
  have before : s.currentOn p v.share h
      = ((s.share v.share).live && v.generation == (s.share v.share).generation) := by
    rw [State.currentOn, e.valid_before all valid, Option.any_some, beq_self_eq_true, Bool.true_and]
  rw [before, State.current, State.share_eq, e.shares, leftAfter_live]
  cases closed : s.closesIn p v.share done with
  | true => simp
  | false => rw [leftAfter_generation closed, Bool.not_false, Bool.and_true, Bool.and_true]

theorem leftWithout_eq (current : t.current v = true) : t.leftWithout v = s.leftIn p v.share (done ++ [h]) := by
  have both := (e.current_eq all valid).symm.trans current
  obtain ⟨on, open_still⟩ := Bool.and_eq_true_iff.mp both
  have admin : s.adminIn p v.share (done ++ [h]) = (s.adminIn p v.share done || v.rights.admin) := by
    rw [adminIn_concat, on, e.valid_before all valid]
    rfl
  have lost : s.lostIn p v.share (done ++ [h]) = s.lostIn p v.share done + 1 := by
    rw [lostIn_concat, on]
    rfl
  rw [leftWithout_of_current current, State.share_eq, e.shares, State.leftAfter,
    if_neg (by rw [Bool.not_eq_true]; exact Bool.not_eq_true' _ ▸ open_still)]
  unfold State.leftIn Share.loseHandle
  rw [admin, lost, Nat.sub_sub]
  cases (s.share v.share).state <;> cases s.adminIn p v.share done <;> cases v.rights.admin <;> rfl

theorem closesWithout_iff : t.closesWithout v ↔ t.current v = true ∧ s.closesIn p v.share (done ++ [h]) = true := by
  refine and_congr_right fun current => ?_
  have on := (Bool.and_eq_true_iff.mp ((e.current_eq all valid).symm.trans current)).1
  rw [closesIn_iff_left, e.leftWithout_eq all valid current, lostIn_concat, if_pos on]
  exact (and_iff_right (Nat.succ_pos _)).symm

theorem retiresAt_toList : (s.retiresAt p h).toList = if t.retiresWithout v then [v.share] else [] := by
  have inUse : (t.share v.share).inUse = (s.share v.share).inUse := by
    rw [State.share_eq, e.shares, leftAfter_inUse]
  have iff : t.retiresWithout v ↔ (s.currentOn p v.share h && s.closesIn p v.share (done ++ [h])
      && !s.closesIn p v.share done && (s.share v.share).inUse == 0) = true := by
    rw [State.retiresWithout, e.closesWithout_iff all valid, e.current_eq all valid, inUse]
    simp only [Bool.and_eq_true, beq_iff_eq]
    tauto
  rw [retiresAt_eq all, e.valid_before all valid, Option.bind_some]
  by_cases retires : t.retiresWithout v
  · rw [if_pos retires, if_pos (iff.mp retires)]
    rfl
  · rw [if_neg retires, if_neg fun yes => retires (iff.mpr yes)]
    rfl

/-- The entries once the handle is emptied. -/
theorem emptied_shares (i : ShareIdx) : (t.emptyHandle p h).shares[i] = s.leftAfter p i (done ++ [h]) := by
  have other (e' : i ≠ v.share) : s.currentOn p i h = false := by
    rw [State.currentOn, e.valid_before all valid, Option.any_some, beq_eq_false_iff_ne.mpr (Ne.symm e')]
    rfl
  rw [emptyHandle_shares valid]
  split
  · next here =>
    subst here
    by_cases current : t.current v = true
    · rw [State.leftAfter, ← e.leftWithout_eq all valid current]
      exact if_congr ((e.closesWithout_iff all valid).trans (and_iff_right current)) rfl rfl
    · have nothing : s.currentOn p v.share h = false ∨ s.closesIn p v.share done = true := by
        have := e.current_eq all valid
        rw [Bool.eq_false_iff.mpr current, eq_comm, Bool.and_eq_false_iff, Bool.not_eq_false'] at this
        exact this
      rw [if_neg fun closes => current closes.1, leftWithout_of_stale current, e.shares,
        leftAfter_concat_of_nothing nothing]
  · next elsewhere => rw [e.shares, leftAfter_concat_of_nothing (.inl (other elsewhere))]

/-- A VALID handle is emptied and counted. -/
theorem empty : TableEmptied s ((t.emptyHandle p h).modAttach p fun a => { a with emptied := a.emptied + 1 }) p
    (done ++ [h]) := by
  have emptied : ((t.emptyHandle p h).modAttach p fun a => { a with emptied := a.emptied + 1 }).ports[p].attach.emptied
      = t.ports[p].attach.emptied + 1 := by
    rw [State.modAttach_eq, State.modPort_same, emptyHandle_port valid]
  have one : ((done ++ [h]).countP fun k => (s.handle p k).isSome)
      = (done.countP fun k => (s.handle p k).isSome) + 1 := by
    rw [count_concat, e.valid_before all valid]
    rfl
  refine ⟨?_, e.emptied_shares all valid, ?_, fun apart => ?_⟩
  · rw [retired_concat, e.retiresAt_toList all valid]
    refine (e.swept.emptyHandle valid fun retires retired => ?_).modPort p _ rfl rfl
    have closed := (closed_of_retired all retired).1
    have current := (e.current_eq all valid).symm.trans retires.1.1
    rw [closed] at current
    simp at current
  · rw [emptied, one]
    exact Nat.succ_le_succ e.counted
  · rw [emptied, one, e.full apart]
    rfl

end Valid

/-- The handles still ahead are emptied one after another. -/
theorem foldl (e : TableEmptied s t p done) (all : allHandles = done ++ rest) : TableEmptied s (rest.foldl (fun s h =>
    if (s.handle p h).isSome then (s.emptyHandle p h).modAttach p fun a => { a with emptied := a.emptied + 1 } else s) t)
    p allHandles := by
  induction rest generalizing done t with
  | nil =>
    rw [List.append_nil] at all
    exact all ▸ e
  | cons h rest ih =>
    have all' : allHandles = done ++ [h] ++ rest := by rw [all, List.append_assoc]; rfl
    rw [List.foldl_cons]
    cases valid : t.handle p h with
    | none => exact ih (e.skip all valid) all'
    | some v => exact ih (e.empty all valid) all'

end TableEmptied

end Sys2Proof.Machine
end

