-- ==== Sys2Proof/Proofs/PortCleanup.lean ====
section
/-! PROOFS. The cleanup of a port up to the Agreement Unit's part (R147): the handovers of the claims it held (R139), its table
(R43), and the Data Engine's part (R108, R109), put together as `Cleaned` says for HELLO and DETACH alike. -/

namespace Sys2Proof.Machine

/-! ## What an event leaves of a port that it tells something -/

/-- From `s` to `t` these notices were pushed to port `q`, and of its record nothing else changed but its handles, its data stage
and its attention line. -/
structure Tells (s t : State) (q : Port) (ns : List Notice) : Prop where
  port : t.ports[q] = { s.ports[q] with
    notices := t.ports[q].notices, handles := t.ports[q].handles, stage := t.ports[q].stage
    attention := t.ports[q].attention }
  told : Told s t q ns

namespace Tells

variable {s t u : State} {p q : Port} {ns ms : List Notice}

theorem isAttached (h : Tells s t q ns) : t.isAttached q = s.isAttached q := by
  unfold State.isAttached
  rw [State.port_eq, h.port]
  rfl

theorem trans (a : Tells s t q ns) (settings : t.settings = s.settings) (b : Tells t u q ms) : Tells s u q (ns ++ ms) where
  port := by rw [b.port, a.port]
  told := by
    have first := a.told
    have second := b.told
    unfold Told at first second ⊢
    rw [a.isAttached, first, settings] at second
    rw [second, NoticeQueue.pushAll_append]
    split <;> rfl

/-- Nothing is pushed to a port whose queue stays. -/
theorem of_port (port : t.ports[q] = { s.ports[q] with
    handles := t.ports[q].handles, stage := t.ports[q].stage, attention := t.ports[q].attention }) : Tells s t q [] where
  port := by rw [port]
  told := by
    unfold Told
    rw [State.port_eq, State.port_eq, port]
    exact (ite_self _).symm

theorem of_same (port : t.ports[q] = s.ports[q]) : Tells s t q [] := of_port (by rw [port])

theorem modPort (s : State) (f : PortState → PortState) (other : q ≠ p) : Tells s (s.modPort p f) q [] :=
  of_same (State.modPort_other s f other)

theorem settle (s : State) (q : Port) : Tells s s.settle q [] := of_port (by rw [State.settle_get])

/-- What changes no more than handles, data stage and attention line tells nothing beside. -/
theorem silent (a : Tells s t q ns) (settings : t.settings = s.settings) (b : Tells t u q []) : Tells s u q ns :=
  List.append_nil ns ▸ a.trans settings b

end Tells

theorem Pushed.tells {s t : State} {ns : Port → List Notice} (h : Pushed s t ns) (q : Port) : Tells s t q (ns q) where
  port := by rw [h.ports q]
  told := h.told q

/-- A port that is not ATTACHED is told nothing. -/
theorem Pushed.untold {s t : State} {ns : Port → List Notice} (h : Pushed s t ns) {q : Port} (absent : s.isAttached q = false) :
    t.ports[q] = s.ports[q] := by
  have notices := h.told q
  unfold Told at notices
  rw [absent, if_neg Bool.false_ne_true] at notices
  rw [h.ports q, ← State.port_eq t q, notices]
  rfl

/-! ## Pushes to the ports that pass a test -/

/-- A notice is pushed to the ports of a list that hear it. -/
def State.pushWhere (s : State) (hears : Port → Bool) (n : Notice) (l : List Port) : State :=
  l.foldl (fun t q => if hears q then t.push q n else t) s

theorem pushPeers_eq (s : State) (p : Port) (n : Notice) (l : List Port) :
    s.pushPeers p n l = s.pushWhere (fun q => q != p) n l := by
  induction l generalizing s with
  | nil => rfl
  | cons q l ih =>
    unfold State.pushPeers
    rw [ih, State.pushWhere, State.pushWhere, List.foldl_cons]
    by_cases own : q = p <;> simp [own]

theorem pushDecided_eq (s : State) (pr : Proposal) (o : ProposalOutcome) (l : List Port) : s.pushDecided pr o l
    = s.pushWhere (pr.hears o) (proposalNotice .proposalDecided pr.proposer pr.id o.code) l := by
  induction l generalizing s with
  | nil => rfl
  | cons q l ih =>
    unfold State.pushDecided
    rw [ih]
    rfl

theorem Pushed.pushWhere_of_nodup (s : State) (hears : Port → Bool) (n : Notice) {l : List Port} (nodup : l.Nodup) :
    Pushed s (s.pushWhere hears n l) fun q => if q ∈ l ∧ hears q = true then [n] else [] := by
  induction l generalizing s with
  | nil => exact (of_ports rfl rfl).congr fun q => (if_neg fun both => absurd both.1 List.not_mem_nil).symm
  | cons r l ih =>
    obtain ⟨fresh, nodup⟩ := List.nodup_cons.mp nodup
    have rest (t : State) := ih t nodup
    unfold State.pushWhere at rest ⊢
    rw [List.foldl_cons]
    by_cases told : hears r = true
    · rw [if_pos told]
      refine ((push s r n).trans (rest _)).congr fun q => ?_
      by_cases e : q = r
      · simp [e, fresh, told]
      · simp [e]
    · rw [if_neg told]
      refine (rest s).congr fun q => ?_
      by_cases e : q = r
      · simp [e, fresh, told]
      · simp [e]

/-- Each port that hears the notice is told it once. -/
theorem Pushed.pushWhere (s : State) (hears : Port → Bool) (n : Notice) :
    Pushed s (s.pushWhere hears n allPorts) fun q => if hears q then [n] else [] :=
  (pushWhere_of_nodup s hears n (by decide)).congr fun q => if_congr (and_iff_right (mem_allPorts q)) rfl rfl

/-- The other ports are told of `p` (R148, R151). -/
theorem Pushed.pushPeers (s : State) (p : Port) (n : Notice) :
    Pushed s (s.pushPeers p n allPorts) fun q => if q = p then [] else [n] := by
  rw [pushPeers_eq]
  refine (Pushed.pushWhere s _ n).congr fun q => ?_
  by_cases own : q = p <;> simp [own]

/-- The end of a proposal is told to the ports that hear it (R162). -/
theorem Pushed.pushDecided (s : State) (pr : Proposal) (o : ProposalOutcome) : Pushed s (s.pushDecided pr o allPorts) fun q =>
    if pr.hears o q then [proposalNotice .proposalDecided pr.proposer pr.id o.code] else [] := by
  rw [pushDecided_eq]
  exact Pushed.pushWhere s _ _

/-! ## The handovers of a cleanup (R139) -/

/-- The notices of entry `i` when port `p` yields the claim on it. -/
def Share.yieldNotices (sh : Share) (p : Port) (i : ShareIdx) (q : Port) : List Notice :=
  match sh.claim with
  | none => []
  | some c => if c.holder = p then c.grantedTo i sh.generation q else []

theorem Pushed.yieldClaim (p : Port) (s : State) (i : ShareIdx) :
    Pushed s (State.yieldClaim p s i) (s.shares[i].yieldNotices p i) := by
  unfold State.yieldClaim
  cases record : (s.share i).claim with
  | none =>
    refine (of_ports rfl rfl).congr fun q => ?_
    rw [Share.yieldNotices, show s.shares[i].claim = none from record]
  | some c =>
    have notices (q : Port) : s.shares[i].yieldNotices p i q
        = if c.holder = p then c.grantedTo i s.shares[i].generation q else [] := by
      rw [Share.yieldNotices, show s.shares[i].claim = some c from record]
    dsimp only
    split
    · next holds => exact (handover s i c).congr fun q => by rw [notices, if_pos holds]
    · next other => exact (of_ports rfl rfl).congr fun q => by rw [notices, if_neg other]

/-- The claims are handed over in the order of the list. -/
theorem Pushed.yieldClaims (p : Port) {l : List ShareIdx} (nodup : l.Nodup) (s : State) :
    Pushed s (l.foldl (State.yieldClaim p) s) fun q => l.flatMap fun i => s.shares[i].yieldNotices p i q := by
  induction l generalizing s with
  | nil => exact of_ports rfl rfl
  | cons i l ih =>
    obtain ⟨fresh, nodup⟩ := List.nodup_cons.mp nodup
    refine ((yieldClaim p s i).trans (ih nodup _)).congr fun q => ?_
    have later : (l.flatMap fun j => (State.yieldClaim p s i).shares[j].yieldNotices p j q)
        = l.flatMap fun j => s.shares[j].yieldNotices p j q := List.flatMap_congr fun j hj => by
      have other : j ≠ i := fun e => fresh (e ▸ hj)
      rw [yieldClaim_shares, if_neg other]
    rw [later, List.flatMap_cons]

theorem leaveWaiters_ports (p : Port) (s : State) (i : ShareIdx) : (State.leaveWaiters p s i).ports = s.ports := by
  unfold State.leaveWaiters
  split <;> rfl

theorem leaveWaiters_foldl_ports (p : Port) (l : List ShareIdx) (s : State) :
    (l.foldl (State.leaveWaiters p) s).ports = s.ports := by
  induction l generalizing s with
  | nil => rfl
  | cons i l ih => exact (ih _).trans (leaveWaiters_ports p s i)

/-- Each new holder is told, in ascending share index order (R139). -/
theorem Pushed.claimCleanup (s : State) (p : Port) : Pushed s (s.claimCleanup p) (s.handedTo p) := by
  have leaves (i : ShareIdx) := foldl_allShares_get (s := s)
    (g := fun sh => { sh with claim := sh.claim.map fun c => c.without p }) (fun t i j _ => leaveWaiters_shares p t i j)
    (fun t i => (keeps_leaveWaiters p t i).settings) i
  have left : Pushed s (allShares.foldl (State.leaveWaiters p) s) fun _ => [] :=
    of_ports (leaveWaiters_foldl_ports p allShares s) (Keeps.foldl (keeps_leaveWaiters p) allShares s).settings
  refine (left.trans (yieldClaims p (List.nodup_finRange 64) _)).congr fun q => ?_
  rw [List.nil_append, State.handedTo]
  refine List.flatMap_congr fun i _ => ?_
  rw [leaves, Share.yieldNotices, State.share_eq]
  cases s.shares[i].claim <;> rfl

/-! ## The Handle Tables' part -/

/-- Emptying its table changes of port `p` the count too, and of any port no more than handles and data stage. -/
theorem emptyTable_port (s : State) (p q : Port) : (s.emptyTable p).ports[q] = { s.ports[q] with
    attach := if q = p then { s.ports[p].attach with emptied := (s.emptyTable p).ports[p].attach.emptied }
      else s.ports[q].attach
    handles := (s.emptyTable p).ports[q].handles
    stage := (s.emptyTable p).ports[q].stage } := by
  have own (x : PortState) : x = if q = p then { x with attach := { x.attach with emptied := x.attach.emptied } } else x := by
    split <;> rfl
  unfold State.emptyTable
  induction allHandles generalizing s with
  | nil =>
    split
    · next e => subst e; rfl
    · rfl
  | cons h l ih =>
    rw [List.foldl_cons]
    cases valid : s.handle p h with
    | none => exact ih s
    | some v =>
      rw [Option.isSome_some, if_pos rfl, ih, State.modAttach_eq, State.modPort_same, State.modPort_get,
        emptyHandle_port valid p]
      split
      · next e =>
        subst e
        rfl
      · rw [emptyHandle_port valid q]

/-! ## The Data Engine's part (R108, R109) -/

/-- The data stage that a cleanup leaves: a WAITING READ is abandoned, a BURSTING READ is marked (R108). -/
def DataStage.leftByCleanup (d : DataStage) : DataStage :=
  match d.stage with
  | .empty => d
  | .waiting op => if op.kind.isRead then { stage := .empty, abandon := false } else d
  | .bursting op f bs => if op.kind.isRead then { stage := .bursting op f bs, abandon := true } else d

/-- The state behind the Handle Tables' part whose Post Buffer is emptied (R109). -/
def State.postsCleared (s : State) (p : Port) : State := s.modPosts p fun b => { b.cleared with faults := 0 }

theorem releaseUse_shares (s : State) (i j : ShareIdx) :
    (s.releaseUse i).shares[j] = if j = i then s.shares[i].released else s.shares[j] := by
  by_cases retires : (s.share i).state = .closing ∧ (s.share i).inUse - 1 = 0
  · have released : s.shares[i].released = { s.share i with inUse := (s.share i).inUse - 1 }.retired :=
      (if_pos retires).trans (Share.retired_eq_closed (sh := { s.share i with inUse := (s.share i).inUse - 1 }) retires.2).symm
    rw [releaseUse_of_retiring retires, retire_shares, lowerUse_share, released]
    split
    · rfl
    · next e => exact State.modShare_other _ _ e
  · have released : s.shares[i].released = { s.share i with inUse := (s.share i).inUse - 1 } := if_neg retires
    rw [releaseUse_of_staying retires, released]
    exact State.modShare_get ..

section DataCleanup

variable {t : State} {p : Port}

theorem postsCleared_stage : (t.postsCleared p).ports[p].stage = t.ports[p].stage := by
  rw [State.postsCleared, State.modPosts_eq, State.modPort_same]

theorem dataCleanup_of_empty (held : t.ports[p].stage.stage = .empty) : t.dataCleanup p = t.postsCleared p := by
  have stage : ((t.postsCleared p).port p).stage.stage = .empty := by rw [State.port_eq, postsCleared_stage, held]
  unfold State.postsCleared at stage ⊢
  unfold State.dataCleanup
  simp only [stage]

theorem dataCleanup_of_waiting {op : Operation} (held : t.ports[p].stage.stage = .waiting op) :
    t.dataCleanup p = if op.kind.isRead then (t.postsCleared p).endOperation p op none else t.postsCleared p := by
  have stage : ((t.postsCleared p).port p).stage.stage = .waiting op := by rw [State.port_eq, postsCleared_stage, held]
  unfold State.postsCleared at stage ⊢
  unfold State.dataCleanup
  simp only [stage]

theorem dataCleanup_of_bursting {op : Operation} {f : FrameNo} {bs : List Byte}
    (held : t.ports[p].stage.stage = .bursting op f bs) : t.dataCleanup p = if op.kind.isRead then
        (t.postsCleared p).setStage p { stage := .bursting op f bs, abandon := true }
      else t.postsCleared p := by
  have stage : ((t.postsCleared p).port p).stage.stage = .bursting op f bs := by
    rw [State.port_eq, postsCleared_stage, held]
  unfold State.postsCleared at stage ⊢
  unfold State.dataCleanup
  simp only [stage]

end DataCleanup

/-- Of a port the Data Engine's part changes the posts of the one cleaned up, and handles and data stages. -/
theorem dataCleanup_port (t : State) (p q : Port) : (t.dataCleanup p).ports[q] = { t.ports[q] with
    posts := if q = p then { t.ports[p].posts.cleared with faults := 0 } else t.ports[q].posts
    handles := (t.dataCleanup p).ports[q].handles
    stage := (t.dataCleanup p).ports[q].stage } := by
  have cleared : (t.postsCleared p).ports[q] = { t.ports[q] with
      posts := if q = p then { t.ports[p].posts.cleared with faults := 0 } else t.ports[q].posts } := by
    rw [State.postsCleared, State.modPosts_eq, State.modPort_get]
    split
    · next e => subst e; rfl
    · rfl
  have posts (u : State) (port : u.ports[q] = { (t.postsCleared p).ports[q] with
      handles := u.ports[q].handles, stage := u.ports[q].stage }) : u.ports[q] = { t.ports[q] with
      posts := if q = p then { t.ports[p].posts.cleared with faults := 0 } else t.ports[q].posts
      handles := u.ports[q].handles
      stage := u.ports[q].stage } := by rw [port, cleared]
  have same : (t.postsCleared p).ports[q] = { (t.postsCleared p).ports[q] with
      handles := (t.postsCleared p).ports[q].handles, stage := (t.postsCleared p).ports[q].stage } := rfl
  have ended (op : Operation) : ((t.postsCleared p).endOperation p op none).ports[q] = { (t.postsCleared p).ports[q] with
      handles := ((t.postsCleared p).endOperation p op none).ports[q].handles
      stage := ((t.postsCleared p).endOperation p op none).ports[q].stage } := by
    have link : ((t.postsCleared p).endOperation p op none).ports[q].link = (t.postsCleared p).ports[q].link := by
      by_cases e : q = p
      · subst e
        rw [endOperation_link]
        rfl
      · exact endOperation_link_other _ p op none e
    rw [endOperation_port, link]
  have set (d : DataStage) : ((t.postsCleared p).setStage p d).ports[q] = { (t.postsCleared p).ports[q] with
      handles := ((t.postsCleared p).setStage p d).ports[q].handles
      stage := ((t.postsCleared p).setStage p d).ports[q].stage } := by
    rw [State.setStage_eq, State.modPort_get]
    split
    · next e => rw [e]
    · rfl
  cases held : t.ports[p].stage.stage with
  | empty => exact dataCleanup_of_empty held ▸ posts _ same
  | waiting op =>
    rw [dataCleanup_of_waiting held]
    split
    · exact posts _ (ended op)
    · exact posts _ same
  | bursting op f bs =>
    rw [dataCleanup_of_bursting held]
    split
    · exact posts _ (set _)
    · exact posts _ same

/-- The entry that retires with an abandoned READ (R108, R86). -/
def State.retiresAbandoned (s : State) (p : Port) : List ShareIdx :=
  match (s.port p).stage.stage with
  | .waiting op =>
    if op.kind.isRead = true ∧ (s.leftByTable p op.share).state = .closing ∧ (s.share op.share).inUse - 1 = 0 then
      [op.share] else []
  | .empty | .bursting _ _ _ => []

theorem retiring_eq (s : State) (p : Port) :
    s.retiring p = allHandles.filterMap (s.retiresAt p) ++ s.retiresAbandoned p := rfl

/-- An entry that the Handle Tables' part retired is FREE. -/
theorem free_of_retired {s : State} {p : Port} {i : ShareIdx} (retired : i ∈ allHandles.filterMap (s.retiresAt p)) :
    (s.leftByTable p i).state = .free := by
  obtain ⟨closed, unused⟩ := closed_of_retired (List.append_nil allHandles).symm retired
  rw [← leftAfter_allHandles, State.leftAfter, if_pos closed, Share.closed]
  exact congrArg Share.state (if_pos unused)

/-- No READ waits in the data stage. -/
def Stage.keeps (st : Stage) : Prop := ∀ op, st = .waiting op → op.kind.isRead = false

section NoRead

variable {s : State} {p : Port} (kept : s.ports[p].stage.stage.keeps)

include kept

theorem retiring_of_kept : s.retiring p = allHandles.filterMap (s.retiresAt p) := by
  rw [retiring_eq, State.retiresAbandoned, State.port_eq]
  split
  · next op waiting => rw [if_neg fun both => Bool.noConfusion (both.1.symm.trans (kept op waiting)), List.append_nil]
  all_goals exact List.append_nil _

theorem leftByCleanup_of_kept (i : ShareIdx) : s.leftByCleanup p i = s.leftByTable p i := by
  rw [State.leftByCleanup, State.port_eq]
  split
  · next op waiting => exact if_neg fun both => Bool.noConfusion (both.1.symm.trans (kept op waiting))
  all_goals rfl

end NoRead

theorem Operation.kind_steppedBy (op : Operation) (s : State) (gone : List ShareIdx) :
    (op.steppedBy s gone).kind = op.kind := by
  rw [op.steppedBy_eq]

theorem Operation.share_steppedBy (op : Operation) (s : State) (gone : List ShareIdx) :
    (op.steppedBy s gone).share = op.share := by
  rw [op.steppedBy_eq]

namespace TableEmptied

variable {s t : State} {p : Port} (e : TableEmptied s t p allHandles)

include e

theorem table_shares (i : ShareIdx) : t.shares[i] = s.leftByTable p i := (e.shares i).trans leftAfter_allHandles

theorem emptiedCount : EmptiedCount s p t.ports[p].attach.emptied := ⟨e.counted, e.full⟩

theorem swept_postsCleared :
    Swept s (t.postsCleared p) p allHandles s.ports[p].stage (allHandles.filterMap (s.retiresAt p)) :=
  e.swept.modPort p (fun q => { q with posts := { q.posts.cleared with faults := 0 } }) rfl rfl

/-- The data stage is left as it was. -/
theorem postsCleared (kept : s.ports[p].stage.stage.keeps) (left : s.ports[p].stage.leftByCleanup = s.ports[p].stage) :
    Swept s (t.postsCleared p) p allHandles s.ports[p].stage.leftByCleanup (s.retiring p)
      ∧ ∀ i : ShareIdx, (t.postsCleared p).shares[i] = s.leftByCleanup p i := by
  rw [left, retiring_of_kept kept]
  exact ⟨e.swept_postsCleared, fun i => (e.table_shares i).trans (leftByCleanup_of_kept kept i).symm⟩

/-- A WAITING READ ends without an answer (R108). -/
theorem abandoned {op : Operation} (waiting : s.ports[p].stage.stage = .waiting op) (read : op.kind.isRead = true)
    {op' : Operation} (same : op'.share = op.share) :
    Swept s ((t.postsCleared p).endOperation p op' none) p allHandles s.ports[p].stage.leftByCleanup (s.retiring p)
      ∧ ∀ i : ShareIdx, ((t.postsCleared p).endOperation p op' none).shares[i] = s.leftByCleanup p i := by
  have cleared := e.swept_postsCleared
  have share (i : ShareIdx) : (t.postsCleared p).shares[i] = s.leftByTable p i := e.table_shares i
  have inUse : (s.leftByTable p op.share).inUse = (s.share op.share).inUse := by
    rw [← leftAfter_allHandles, leftAfter_inUse]
  have retires : s.retiresAbandoned p = if (t.postsCleared p).shares[op.share].state = .closing
      ∧ (t.postsCleared p).shares[op.share].inUse - 1 = 0 then [op.share] else [] := by
    rw [State.retiresAbandoned, State.port_eq, waiting, share, inUse]
    exact if_congr (and_iff_right read) rfl rfl
  have stage : s.ports[p].stage.leftByCleanup = { stage := .empty, abandon := false } := by
    rw [DataStage.leftByCleanup, waiting]
    exact if_pos read
  refine ⟨?_, fun i => ?_⟩
  · have released := cleared.releaseUse (i := op.share) fun closing retired => by
      rw [share, free_of_retired retired] at closing
      cases closing
    rw [endOperation_eq, State.released, same, retiring_eq, retires, stage]
    exact released.setStage (d' := { stage := .empty, abandon := false })
  · rw [endOperation_shares, same, releaseUse_shares, share, share, State.leftByCleanup, State.port_eq, waiting]
    by_cases here : i = op.share
    · rw [if_pos here, here]
      exact (if_pos ⟨read, rfl⟩).symm
    · rw [if_neg here]
      exact (if_neg fun both => here both.2.symm).symm

/-- A BURSTING READ is marked (R108). -/
theorem marked {op : Operation} {f : FrameNo} {bs : List Byte} (bursting : s.ports[p].stage.stage = .bursting op f bs)
    (read : op.kind.isRead = true) {op' : Operation} (same : op' = op.steppedBy s (allHandles.filterMap (s.retiresAt p))) :
    Swept s ((t.postsCleared p).setStage p { stage := .bursting op' f bs, abandon := true }) p allHandles
        s.ports[p].stage.leftByCleanup (s.retiring p)
      ∧ ∀ i : ShareIdx, ((t.postsCleared p).setStage p { stage := .bursting op' f bs, abandon := true }).shares[i]
        = s.leftByCleanup p i := by
  have cleared := e.swept_postsCleared
  have kept : s.ports[p].stage.stage.keeps := fun op' waiting => by rw [bursting] at waiting; cases waiting
  have stage : s.ports[p].stage.leftByCleanup = { stage := .bursting op f bs, abandon := true } := by
    rw [DataStage.leftByCleanup, bursting]
    exact if_pos read
  refine ⟨?_, fun i => (e.table_shares i).trans (leftByCleanup_of_kept kept i).symm⟩
  rw [retiring_of_kept kept, stage, same]
  exact cleared.setStage (d' := { stage := .bursting op f bs, abandon := true })

/-- The Data Engine's part behind the Handle Tables' (R108, R109, R86). -/
theorem dataCleanup : Swept s (t.dataCleanup p) p allHandles s.ports[p].stage.leftByCleanup (s.retiring p)
    ∧ ∀ i : ShareIdx, (t.dataCleanup p).shares[i] = s.leftByCleanup p i := by
  have stage : t.ports[p].stage.stage = s.ports[p].stage.stage.steppedBy s (allHandles.filterMap (s.retiresAt p)) :=
    congrArg DataStage.stage e.swept.stage_own
  have no_read {st : Stage} (held : s.ports[p].stage.stage = st) (other : ∀ op, st ≠ .waiting op) :
      s.ports[p].stage.stage.keeps := fun op waiting => absurd (held.symm.trans waiting) (other op)
  cases held : s.ports[p].stage.stage with
  | empty =>
    rw [held] at stage
    rw [dataCleanup_of_empty stage]
    refine e.postsCleared (no_read held nofun) ?_
    rw [DataStage.leftByCleanup, held]
  | waiting op =>
    rw [held] at stage
    rw [dataCleanup_of_waiting stage, Operation.kind_steppedBy]
    split
    · next read => exact e.abandoned held read (op.share_steppedBy ..)
    · next write =>
      refine e.postsCleared (fun op' waiting => ?_) ?_
      · cases held.symm.trans waiting
        exact Bool.eq_false_iff.mpr write
      · rw [DataStage.leftByCleanup, held]
        exact if_neg write
  | bursting op f bs =>
    rw [held] at stage
    rw [dataCleanup_of_bursting stage, Operation.kind_steppedBy]
    split
    · next read => exact e.marked held read rfl
    · next write =>
      refine e.postsCleared (no_read held nofun) ?_
      rw [DataStage.leftByCleanup, held]
      exact if_neg write

end TableEmptied

/-! ## The three parts together (R147) -/

/-- A port's record as a cleanup finds it: CLEANING, with its handles, its data stage and its count as they were. -/
structure Entering (before after : PortState) : Prop where
  handles : after.handles = before.handles
  stage : after.stage = before.stage
  emptied : after.attach.emptied = before.attach.emptied
  cleaning : after.attach.state = .cleaning

/-- The cleanup of port `p` up to the Agreement Unit's part, from the record `g` makes of the port's. -/
def State.cleaned (s : State) (p : Port) (g : PortState → PortState) : State :=
  (((s.modPort p g).claimCleanup p).emptyTable p).dataCleanup p

section Cleaned

variable {s : State} {p : Port} {g : PortState → PortState} (entering : Entering s.ports[p] (g s.ports[p]))

include entering

theorem Entering.absent : (s.modPort p g).isAttached p = false := by
  rw [State.isAttached, State.port_eq, State.modPort_same, entering.cleaning]
  rfl

theorem Entering.claimCleanup_own : ((s.modPort p g).claimCleanup p).ports[p] = g s.ports[p] :=
  ((Pushed.claimCleanup _ p).untold entering.absent).trans (State.modPort_same ..)

theorem Entering.tableEmptied : TableEmptied s (((s.modPort p g).claimCleanup p).emptyTable p) p allHandles := by
  have own := entering.claimCleanup_own
  have before : TableEmptied s ((s.modPort p g).claimCleanup p) p [] := by
    refine ⟨((Swept.refl s p).modPort p g entering.handles entering.stage).pushed (Pushed.claimCleanup _ p)
      (sameTables_claimCleanup _ p), fun i => ?_, ?_, fun _ => ?_⟩
    · rw [claimCleanup_shares, leftAfter_nil]
      rfl
    · rw [own, entering.emptied]
      exact Nat.le_refl _
    · rw [own, entering.emptied]
      rfl
  exact before.foldl (List.nil_append _).symm

/-- The entries of the port's data stage and table, and all other tables, pools and shares behind a cleanup. -/
theorem Entering.swept :
    Swept s (s.cleaned p g) p allHandles s.ports[p].stage.leftByCleanup (s.retiring p) := entering.tableEmptied.dataCleanup.1

theorem Entering.shares (i : ShareIdx) : (s.cleaned p g).shares[i] = s.leftByCleanup p i :=
  entering.tableEmptied.dataCleanup.2 i

theorem Entering.counted : EmptiedCount s p (s.cleaned p g).ports[p].attach.emptied := by
  have emptied : (s.cleaned p g).ports[p].attach.emptied
      = (((s.modPort p g).claimCleanup p).emptyTable p).ports[p].attach.emptied := by
    rw [State.cleaned, dataCleanup_port]
  rw [emptied]
  exact entering.tableEmptied.emptiedCount

theorem Entering.own : (s.cleaned p g).ports[p] = { g s.ports[p] with
    attach := { (g s.ports[p]).attach with emptied := (s.cleaned p g).ports[p].attach.emptied }
    handles := Vector.replicate 32 none
    stage := s.ports[p].stage.leftByCleanup.steppedBy s (s.retiring p)
    posts := { (g s.ports[p]).posts.cleared with faults := 0 } } := by
  have handles : (s.cleaned p g).ports[p].handles = Vector.replicate 32 none := by
    refine Vector.ext fun k hk => ?_
    rw [Vector.getElem_replicate]
    exact (entering.swept.handle p ⟨k, hk⟩).trans (if_pos ⟨rfl, List.mem_finRange _⟩)
  have emptied : (s.cleaned p g).ports[p].attach.emptied
      = (((s.modPort p g).claimCleanup p).emptyTable p).ports[p].attach.emptied := by
    rw [State.cleaned, dataCleanup_port]
  have port := dataCleanup_port (((s.modPort p g).claimCleanup p).emptyTable p) p p
  rw [emptyTable_port, entering.claimCleanup_own] at port
  simp only [if_true] at port
  refine port.trans ?_
  rw [emptied, ← entering.swept.stage_own, ← handles]
  rfl

omit entering in
theorem cleaned_tells {q : Port} (other : q ≠ p) : Tells s (s.cleaned p g) q (s.handedTo p q) := by
  have entered : Tells s (s.modPort p g) q [] := .modPort s g other
  have handed : Tells (s.modPort p g) ((s.modPort p g).claimCleanup p) q (s.handedTo p q) := (Pushed.claimCleanup _ p).tells q
  have emptied : Tells ((s.modPort p g).claimCleanup p) (((s.modPort p g).claimCleanup p).emptyTable p) q [] :=
    .of_port (by rw [emptyTable_port, if_neg other])
  have ended : Tells (((s.modPort p g).claimCleanup p).emptyTable p) (s.cleaned p g) q [] :=
    .of_port (by rw [State.cleaned, dataCleanup_port, if_neg other])
  have kept := keeps_claimCleanup (s.modPort p g) p
  exact ((entered.trans rfl handed).silent kept.settings emptied).silent
    ((kept.trans (keeps_emptyTable _ p)).settings) ended

theorem Entering.otherPortKept {q : Port} (other : q ≠ p) : OtherPortKept s (s.cleaned p g) (s.retiring p) q := by
  have port := (cleaned_tells (s := s) (g := g) other).port
  refine ⟨?_, ?_, ?_, entering.swept.stage_other other, entering.swept.handlesStepped other⟩
  all_goals
    rw [State.port_eq, port]
    rfl

omit entering in
theorem keeps_cleaned (s : State) (p : Port) (g : PortState → PortState) : Keeps s (s.cleaned p g) :=
  (((keeps_modPort s p g).trans (keeps_claimCleanup _ p)).trans (keeps_emptyTable _ p)).trans (keeps_dataCleanup _ p)

end Cleaned

/-! ## The claims behind a cleanup (R139) -/

theorem claim_of_closed {sh : Share} {c : Claim} (record : sh.closed.claim = some c) : sh.claim = some c := by
  unfold Share.closed at record
  split at record
  · cases record
  · exact record

theorem claim_of_released {sh : Share} {c : Claim} (record : sh.released.claim = some c) : sh.claim = some c := by
  by_cases retires : sh.state = .closing ∧ sh.inUse - 1 = 0
  · rw [show sh.released = _ from if_pos retires] at record
    exact claim_of_closed (sh := { sh with inUse := sh.inUse - 1 }) record
  · rw [show sh.released = _ from if_neg retires] at record
    exact record

theorem claim_of_leftByTable {s : State} {p : Port} {i : ShareIdx} {c : Claim} (record : (s.leftByTable p i).claim = some c) :
    ((s.share i).claim.bind fun c => c.leftBy p (some (s.settings.leaseDuration * 1000))) = some c := by
  rw [← leftAfter_allHandles, State.leftAfter] at record
  split at record
  · exact claim_of_closed record
  · exact record

theorem claim_of_leftByCleanup {s : State} {p : Port} {i : ShareIdx} {c : Claim}
    (record : (s.leftByCleanup p i).claim = some c) : (s.leftByTable p i).claim = some c := by
  unfold State.leftByCleanup at record
  split at record
  · split at record
    · exact claim_of_released record
    · exact record
  · exact record
  · exact record

/-- Port `p` has no place left in a claim record. -/
theorem no_place_left {s : State} {p : Port} {i : ShareIdx} {c : Claim} (record : (s.leftByCleanup p i).claim = some c) :
    p ∉ c.places.map Prod.fst := fun mem => by
  obtain ⟨c', -, left⟩ := Option.bind_eq_some_iff.mp (claim_of_leftByTable (claim_of_leftByCleanup record))
  obtain ⟨x, hx, own⟩ := List.mem_map.mp mem
  exact (places_leftBy left).2 x hx own

end Sys2Proof.Machine
end

