-- ==== Sys2Proof/Proofs/Hellos.lean ====
section
/-! PROOFS. HELLO (R145 to R149, R180): the Agreement Unit's part of its cleanup (R161), the end of a cleanup, by which a port
becomes ATTACHED, and the effects of a HELLO that is taken, in RUN or on the return to it. -/

namespace Sys2Proof.Machine

/-- Nothing is pushed to a port that has no notice. -/
theorem Pushed.port_of_nil {s t : State} {ns : Port → List Notice} (h : Pushed s t ns) {q : Port} (nothing : ns q = []) :
    t.ports[q] = s.ports[q] := by
  have notices := notices_of_told_nil (nothing ▸ h.told q)
  rw [h.ports q, ← State.port_eq t q, notices]
  rfl

theorem pushWhere_shares (s : State) (hears : Port → Bool) (n : Notice) (l : List Port) :
    (s.pushWhere hears n l).shares = s.shares := by
  unfold State.pushWhere
  induction l generalizing s with
  | nil => rfl
  | cons q l ih =>
    rw [List.foldl_cons, ih]
    split
    · exact push_shares ..
    · rfl

/-! ## The Agreement Unit's part (R161, R162) -/

/-- From `s` to `t` a proposal ended, or changed, without an adoption: these notices were pushed. -/
structure Agreed (s t : State) (proposal : Option Proposal) (ns : Port → List Notice) : Prop where
  pushed : Pushed s t ns
  shares : t.shares = s.shares
  pool : t.pool = s.pool
  core : KeepsCore s t
  arbiter : t.arbiter = s.arbiter
  proposal : t.proposal = proposal

theorem agreed_same (s : State) : Agreed s s s.proposal fun _ => [] :=
  ⟨.of_ports rfl rfl, rfl, rfl, .refl s, rfl, rfl⟩

theorem agreed_setProposal (s : State) (o : Option Proposal) : Agreed s { s with proposal := o } o fun _ => [] :=
  ⟨.of_ports rfl rfl, rfl, rfl, ⟨rfl, rfl, rfl, rfl, rfl, rfl, rfl, rfl, rfl⟩, rfl, rfl⟩

/-- A proposal that is not adopted ends with the notices of its end (R162). -/
theorem agreed_endProposal (s : State) (pr : Proposal) {o : ProposalOutcome} (dropped : o ≠ .adopted) :
    Agreed s (s.endProposal pr o) none fun q =>
      if q = pr.proposer ∨ pr.voters[q] = true then [proposalNotice .proposalDecided pr.proposer pr.id o.code] else [] := by
  have ends : s.endProposal pr o = { s with proposal := none }.pushDecided pr o allPorts := by
    unfold State.endProposal
    rw [if_neg dropped]
  have keeps := keeps_pushDecided { s with proposal := none } pr o allPorts
  have tables := sameTables_pushDecided { s with proposal := none } pr o allPorts
  rw [ends]
  refine ⟨((Pushed.of_ports (s := s) (t := { s with proposal := none }) rfl rfl).trans (Pushed.pushDecided _ pr o)).congr
    fun q => ?_, ?_, tables.pool, ?_, keeps.arbiter, keeps.proposal⟩
  · refine if_congr ?_ rfl rfl
    rw [Proposal.hears, beq_eq_false_iff_ne.mpr dropped, Bool.false_and, Bool.or_false, Bool.or_eq_true, beq_iff_eq]
  · rw [pushDecided_eq, pushWhere_shares]
  · exact (agreed_setProposal s none).core.trans keeps.toKeepsCore

/-- A HELLO withdraws the proposal of its port, and restarts a voter (R161). -/
theorem agreed_hello (s : State) (p : Port) : Agreed s (s.agreementCleanup p .hello)
    (if s.proposal.any fun pr => pr.proposer == p || pr.voters[p] then none else s.proposal) (s.decidedAtHello p) := by
  unfold State.agreementCleanup State.decidedAtHello
  cases pending : s.proposal with
  | none =>
    have same := agreed_same s
    rw [pending] at same
    exact same
  | some pr =>
    dsimp only
    rw [Option.any_some]
    by_cases proposer : pr.proposer = p
    · have ends := agreed_endProposal s pr (o := .withdrawn) (by decide)
      have any : (pr.proposer == p || pr.voters[p]) = true := by rw [beq_iff_eq.mpr proposer, Bool.true_or]
      rw [if_pos proposer, if_pos any]
      simpa [proposer, ProposalOutcome.code] using ends
    · by_cases votes : pr.voters[p] = true
      · have ends := agreed_endProposal s pr (o := .voterRestarted) (by decide)
        rw [if_neg proposer, if_pos votes, if_pos (by rw [votes, Bool.or_true])]
        simpa [proposer, votes, ProposalOutcome.code] using ends
      · have same := agreed_same s
        have other : ¬ (pr.proposer == p || pr.voters[p]) = true := by simp [proposer, votes]
        rw [if_neg proposer, if_neg votes, if_neg other]
        rw [pending] at same
        simpa [proposer, votes] using same

/-! ## The end of a cleanup (R148) -/

/-- The record of a port that has become ATTACHED, but for its announcement and its count. -/
def PortState.welcomed (clean : Nat) (q : PortState) : PortState :=
  { q with
    attach := { q.attach with state := .attached }
    posts := { q.posts with ordinal := 0 }
    link := { q.link with responses := completeReserved kindHello (Reply.ok (.hello clean)) q.link.responses } }

/-- What the other ports are told when a cleanup ends (R148, R153). -/
def Attachment.peerNotices (a : Attachment) (p : Port) : List Notice :=
  match a.announcement with
  | .none => []
  | .attached => [peerNotice .peerAttached p a.emptied]
  | .restarted => [peerNotice .peerRestarted p a.emptied]

/-- The other ports are told what the attachment record `a` announces. -/
def State.announce (s : State) (p : Port) (a : Attachment) : State :=
  match a.announcement.kind? with
  | some k => s.pushPeers p (peerNotice k p a.emptied) allPorts
  | none => s

theorem Pushed.announce (s : State) (p : Port) (a : Attachment) :
    Pushed s (s.announce p a) fun q => if q = p then [] else a.peerNotices p := by
  unfold State.announce Attachment.peerNotices
  cases a.announcement with
  | none => exact (of_ports rfl rfl).congr fun q => (ite_self _).symm
  | attached => exact pushPeers s p _
  | restarted => exact pushPeers s p _

theorem announce_shares (s : State) (p : Port) (a : Attachment) : (s.announce p a).shares = s.shares := by
  unfold State.announce
  split
  · rw [pushPeers_eq, pushWhere_shares]
  · rfl

theorem becomeAttached_eq (s : State) (p : Port) : s.becomeAttached p
    = ((s.modPort p (PortState.welcomed s.pool.clean.length)).announce p s.ports[p].attach).modAttach p fun a =>
        { a with emptied := 0, announcement := .none } := by
  have welcomed : ((s.modAttach p fun a => { a with state := .attached }).modPosts p fun b =>
      { b with ordinal := 0 }).placeResponse p kindHello (Reply.ok (.hello s.pool.clean.length))
      = s.modPort p (PortState.welcomed s.pool.clean.length) := by
    rw [State.placeResponse_eq, State.modPosts_eq, State.modAttach_eq, State.modPort_modPort, State.modPort_modPort]
    rfl
  unfold State.becomeAttached
  dsimp only
  rw [← welcomed]
  rfl

section Attached

variable (s : State) (p : Port)

/-- The port that becomes ATTACHED (R148). -/
theorem becomeAttached_own : (s.becomeAttached p).ports[p] = { s.ports[p].welcomed s.pool.clean.length with
    attach := { s.ports[p].attach with state := .attached, emptied := 0, announcement := .none } } := by
  rw [becomeAttached_eq, State.modAttach_eq, State.modPort_same,
    (Pushed.announce _ p s.ports[p].attach).port_of_nil (if_pos rfl), State.modPort_same]
  rfl

variable {p} in
/-- The other ports are told of it as the announcement says (R148, R153). -/
theorem becomeAttached_tells {q : Port} (other : q ≠ p) : Tells s (s.becomeAttached p) q (s.ports[p].attach.peerNotices p) := by
  have welcomed : Tells s (s.modPort p (PortState.welcomed s.pool.clean.length)) q [] := .modPort s _ other
  have announced := Pushed.announce (s.modPort p (PortState.welcomed s.pool.clean.length)) p s.ports[p].attach
  have told := announced.tells q
  rw [if_neg other] at told
  rw [becomeAttached_eq]
  exact (welcomed.trans rfl told).silent announced.settings (.modPort _ _ other)

theorem becomeAttached_shares : (s.becomeAttached p).shares = s.shares := by
  rw [becomeAttached_eq]
  exact announce_shares _ p _

theorem becomeAttached_pool : (s.becomeAttached p).pool = s.pool := (sameTables_becomeAttached s p).pool

/-- What is EMPTY for a HELLO's cleanup ends it (R148). -/
theorem finishCleanup_of_empty {s : State} {p : Port} (cleaning : s.ports[p].attach.state = .cleaning)
    (empty : s.ports[p].stage.stage = .empty) : s.finishCleanup p = s.becomeAttached p := by
  unfold State.finishCleanup
  rw [State.port_eq, cleaning, empty]
  rfl

theorem finishCleanup_of_held {s : State} {p : Port} (held : s.ports[p].stage.stage ≠ .empty) : s.finishCleanup p = s :=
  if_neg fun both => held (beq_iff_eq.mp (Bool.and_eq_true_iff.mp both).2)

end Attached

/-! ## The data stage that a HELLO leaves (R108) -/

theorem leftByCleanup_steppedBy (d : DataStage) (s : State) (gone : List ShareIdx) :
    d.leftByCleanup.steppedBy s gone = match d.stage with
      | .empty => d
      | .waiting op => if op.kind.isRead then { stage := .empty, abandon := false } else d
      | .bursting op f bs =>
        if op.kind.isRead then { stage := .bursting (op.steppedBy s gone) f bs, abandon := true } else d := by
  obtain ⟨stage, abandon⟩ := d
  cases stage with
  | empty => rfl
  | waiting op =>
    cases read : op.kind.isRead <;>
      simp [DataStage.leftByCleanup, DataStage.steppedBy, Stage.steppedBy, read, Operation.steppedBy_of_write]
  | bursting op f bs =>
    cases read : op.kind.isRead <;>
      simp [DataStage.leftByCleanup, DataStage.steppedBy, Stage.steppedBy, read, Operation.steppedBy_of_write]

/-- A cleanup leaves the data stage EMPTY when it has nothing to wait for. -/
theorem leftByCleanup_empty_iff (d : DataStage) (s : State) (gone : List ShareIdx) :
    (d.leftByCleanup.steppedBy s gone).stage = .empty ↔ d.stage.endsAtHello = true := by
  rw [leftByCleanup_steppedBy]
  obtain ⟨stage, abandon⟩ := d
  cases stage with
  | empty => simp [Stage.endsAtHello]
  | waiting op => cases read : op.kind.isRead <;> simp [Stage.endsAtHello, read]
  | bursting op f bs => cases read : op.kind.isRead <;> simp [Stage.endsAtHello, read]

/-! ## A HELLO taken (R145) -/

/-- Port `p`'s record as a HELLO's cleanup finds it: the queues are flushed and the announcement set (R145). -/
def PortState.greeted (tag : Byte) (stay : List Frame) (announcement : Announcement) (q : PortState) : PortState :=
  { q with
    link := { q.link with requests := stay, responses := [.reserved kindHello tag] }
    attach := { q.attach with
      helloTag := tag, pendingHello := none, announcement := announcement, state := .cleaning }
    notices := q.notices.emptied }

theorem entering_greeted (tag : Byte) (stay : List Frame) (announcement : Announcement) (q : PortState) :
    Entering q (q.greeted tag stay announcement) := ⟨rfl, rfl, rfl, rfl⟩

theorem greeted_eq (s : State) (p : Port) (tag : Byte) (stay : List Frame) (announcement : Announcement) :
    ((s.flushQueues p tag stay).modAttach p fun a => { a with announcement := announcement, state := .cleaning })
      = s.modPort p (PortState.greeted tag stay announcement) := by
  rw [State.flushQueues, State.modAttach_eq, State.modPort_modPort]
  rfl

/-- A HELLO on a port that is not CLEANING: the cleanup, and its end when nothing is left to wait for (R145, R148). -/
theorem takeHello_eq {s : State} {p : Port} (state : s.ports[p].attach.state ≠ .cleaning) (tag : Byte) (stay : List Frame) :
    s.takeHello p tag stay = ((s.cleaned p (PortState.greeted tag stay s.ports[p].attach.state.announcement)).agreementCleanup
      p .hello).finishCleanup p := by
  unfold State.takeHello
  dsimp only
  rw [State.port_eq, if_neg state, greeted_eq]
  rfl

theorem hello_frame {s t : State} (core : KeepsCore s t) (settings : t.settings = s.settings) (arbiter : t.arbiter = s.arbiter) :
    t = { s with ports := t.ports, shares := t.shares, pool := t.pool, proposal := t.proposal
                 restCountdown := t.restCountdown } := by
  obtain ⟨hmem, -, hcounter, hpower, -, hwarm, hreset, hfree, hpending⟩ := core
  cases t
  simp only at hmem hcounter hpower hwarm hreset hfree hpending settings arbiter
  subst hmem hcounter hpower hwarm hreset hfree hpending settings arbiter
  rfl

/-- `w` is the state behind the cleanup of a HELLO taken on port `p`, before the port may become ATTACHED; `n` is the
emptied-handle count. -/
structure HelloCleaned (s w : State) (p : Port) (tag : Byte) (stay : List Frame) (n : Nat) : Prop where
  counted : EmptiedCount s p n
  own : w.ports[p] = { s.ports[p].greeted tag stay s.ports[p].attach.state.announcement with
    attach := { (s.ports[p].greeted tag stay s.ports[p].attach.state.announcement).attach with emptied := n }
    handles := Vector.replicate 32 none
    stage := s.ports[p].stage.leftByCleanup.steppedBy s (s.retiring p)
    posts := { s.ports[p].posts.cleared with faults := 0 } }
  tells : ∀ q : Port, q ≠ p → Tells s w q (s.handedTo p q ++ s.decidedAtHello p q)
  swept : Swept s w p allHandles s.ports[p].stage.leftByCleanup (s.retiring p)
  shares : ∀ i : ShareIdx, w.shares[i] = s.leftByCleanup p i
  proposal : w.proposal = if s.proposal.any fun pr => pr.proposer == p || pr.voters[p] then none else s.proposal
  settings : w.settings = s.settings
  arbiter : w.arbiter = s.arbiter
  core : KeepsCore s w

/-- The parts of the cleanup of a HELLO, in their order (R147). -/
theorem helloCleaned (s : State) (p : Port) (tag : Byte) (stay : List Frame) : ∃ n, HelloCleaned s
    ((s.cleaned p (PortState.greeted tag stay s.ports[p].attach.state.announcement)).agreementCleanup p .hello) p tag stay n := by
  have entering := entering_greeted tag stay s.ports[p].attach.state.announcement s.ports[p]
  have keeps := keeps_cleaned s p (PortState.greeted tag stay s.ports[p].attach.state.announcement)
  have agreed := agreed_hello (s.cleaned p (PortState.greeted tag stay s.ports[p].attach.state.announcement)) p
  have decided : (s.cleaned p (PortState.greeted tag stay s.ports[p].attach.state.announcement)).decidedAtHello p
      = s.decidedAtHello p := by
    funext q
    rw [State.decidedAtHello, keeps.proposal]
    rfl
  have absent : (s.cleaned p (PortState.greeted tag stay s.ports[p].attach.state.announcement)).isAttached p = false := by
    rw [State.isAttached, State.port_eq, entering.own]
    rfl
  have own := (agreed.pushed.untold absent).trans entering.own
  rw [decided, keeps.proposal] at agreed
  refine ⟨_, entering.counted, own, fun q other => ?_, ?_, fun i => ?_, agreed.proposal,
    agreed.pushed.settings.trans keeps.settings, agreed.arbiter.trans keeps.arbiter, keeps.toKeepsCore.trans agreed.core⟩
  · exact (cleaned_tells other).trans keeps.settings (agreed.pushed.tells q)
  · exact entering.swept.same (fun q => by rw [agreed.pushed.ports q]) (fun q => by rw [agreed.pushed.ports q])
      (fun i => by rw [agreed.shares]) (fun i => by rw [agreed.shares]) agreed.pool
  · rw [agreed.shares]
    exact entering.shares i

/-- The other ports behind a HELLO. -/
theorem otherPortKept_of_swept {s t : State} {p q : Port} {gone : List ShareIdx} {ns : List Notice} {done : List HandleNo}
    {d : DataStage} (other : q ≠ p) (swept : Swept s t p done d gone) (tells : Tells s t q ns) : OtherPortKept s t gone q := by
  refine ⟨?_, ?_, ?_, swept.stage_other other, swept.handlesStepped other⟩
  all_goals
    rw [State.port_eq, tells.port]
    rfl

theorem sameTables_announce (s : State) (p : Port) (a : Attachment) : SameTables s (s.announce p a) := by
  unfold State.announce
  split
  · exact sameTables_pushPeers s p _ _
  · exact .refl s

theorem Swept.becomeAttached {s t : State} {p : Port} {done : List HandleNo} {d : DataStage} {gone : List ShareIdx}
    (h : Swept s t p done d gone) (q : Port) : Swept s (t.becomeAttached q) p done d gone := by
  rw [becomeAttached_eq]
  exact ((h.modPort q (PortState.welcomed t.pool.clean.length) rfl rfl).pushed (Pushed.announce _ q _)
    (sameTables_announce _ q _)).modPort q _ rfl rfl

namespace HelloCleaned

variable {s w : State} {p : Port} {tag : Byte} {stay : List Frame} {n : Nat} (h : HelloCleaned s w p tag stay n)

include h

theorem empty_iff : w.ports[p].stage.stage = .empty ↔ s.ports[p].stage.stage.endsAtHello = true := by
  rw [h.own]
  exact leftByCleanup_empty_iff ..

theorem toldAtHello_of_ended (ends : s.ports[p].stage.stage.endsAtHello = true) (q : Port) :
    s.toldAtHello p q n = s.handedTo p q ++ s.decidedAtHello p q ++ w.ports[p].attach.peerNotices p := by
  rw [State.toldAtHello, State.port_eq, if_pos ends, h.own, Attachment.peerNotices]
  cases state : s.ports[p].attach.state <;> simp [PortState.greeted, AttachState.announcement]

/-- With nothing to wait for the port becomes ATTACHED in the same event (R148). -/
theorem effects_of_ended (ends : s.ports[p].stage.stage.endsAtHello = true) :
    HelloEffects s (w.becomeAttached p) p tag stay n := by
  have keeps := keeps_becomeAttached w p
  have swept := h.swept.becomeAttached p
  have pool := becomeAttached_pool w p
  unfold HelloEffects
  rw [State.port_eq s p, ends]
  refine ⟨?_, fun q other => ?_, fun i => ?_, swept.pool, keeps.proposal.trans h.proposal,
    hello_frame (h.core.trans keeps.toKeepsCore) (keeps.settings.trans h.settings) (keeps.arbiter.trans h.arbiter)⟩
  · rw [State.port_eq, becomeAttached_own, h.own, pool, leftByCleanup_steppedBy]
    rfl
  · have tells := (h.tells q other).trans h.settings (becomeAttached_tells w other)
    rw [h.toldAtHello_of_ended ends]
    exact ⟨tells.told, otherPortKept_of_swept other swept tells⟩
  · rw [State.share_eq, becomeAttached_shares]
    exact h.shares i

/-- With an operation to wait for the port stays CLEANING (R147, R108). -/
theorem effects_of_waiting (waits : s.ports[p].stage.stage.endsAtHello = false) : HelloEffects s w p tag stay n := by
  unfold HelloEffects
  rw [State.port_eq s p, waits]
  refine ⟨?_, fun q other => ?_, h.shares, h.swept.pool, h.proposal, hello_frame h.core h.settings h.arbiter⟩
  · rw [State.port_eq, h.own, leftByCleanup_steppedBy]
    cases s.ports[p].attach.state <;> rfl
  · have tells := h.tells q other
    rw [State.toldAtHello, State.port_eq, waits]
    exact ⟨(List.append_nil _).symm ▸ tells.told, otherPortKept_of_swept other h.swept tells⟩

end HelloCleaned

/-- What a HELLO taken on a port that is not CLEANING does, up to the close of its event (R145 to R148). -/
theorem helloTaken {s : State} {p : Port} (state : s.ports[p].attach.state ≠ .cleaning) (tag : Byte) (stay : List Frame) :
    HelloTaken s (s.takeHello p tag stay) p tag stay := by
  obtain ⟨n, cleaned⟩ := helloCleaned s p tag stay
  refine ⟨n, cleaned.counted, ?_⟩
  rw [takeHello_eq state]
  by_cases ends : s.ports[p].stage.stage.endsAtHello = true
  · rw [finishCleanup_of_empty (by rw [cleaned.own]; rfl) (cleaned.empty_iff.mpr ends)]
    exact cleaned.effects_of_ended ends
  · rw [finishCleanup_of_held fun empty => ends (cleaned.empty_iff.mp empty)]
    exact cleaned.effects_of_waiting (Bool.eq_false_iff.mpr ends)

/-- The close of the event changes nothing of this but attention lines and the rest countdown (R176, R188). -/
theorem HelloTaken.settle {s t : State} {p : Port} {tag : Byte} {stay : List Frame} (h : HelloTaken s t p tag stay) :
    HelloTaken s t.settle p tag stay := by
  obtain ⟨n, counted, port, others, shares, pool, proposal, frame⟩ := h
  have settled (q : Port) : t.settle.port q = { t.port q with attention := (t.settle.port q).attention } := by
    rw [State.port_eq, State.settle_get]
    rfl
  refine ⟨n, counted, ?_, fun q other => ?_, fun i => ?_, ?_, ?_, ?_⟩
  · rw [settled, port, State.settle_pool]
  · obtain ⟨told, link, attach, posts, stage, handles⟩ := others q other
    refine ⟨told.of_notices rfl rfl rfl (by rw [State.settle_get]), ?_, ?_, ?_, ?_, fun k => ?_⟩
    · rw [settled]; exact link
    · rw [settled]; exact attach
    · rw [settled]; exact posts
    · rw [settled]; exact stage
    · rw [← handles k, State.handle_eq, State.settle_get]
      rfl
  · rw [← shares i, State.share_eq, State.settle_shares]
    rfl
  · rw [State.settle_pool]
    exact pool
  · rw [State.settle_proposal]
    exact proposal
  · rw [State.settle_shares, State.settle_pool, State.settle_proposal]
    exact (settle_eq t).trans (congrArg (fun u : State =>
      { u with ports := t.settle.ports, restCountdown := t.settle.restCountdown }) frame)

/-! ## HELLO as a command (R145, R146, R149, R180) -/

/-- Port `p`'s link at the rise of select behind a HELLO frame. -/
def Link.afterHello (status : Byte) (l : Link) : Link := { l with transaction := none, dataOut := [status, 0, 0, 0] }

theorem receivedFrame_hello (tag : Byte) :
    receivedFrame kindHello [tag, 0, 0] 0 = some { kind := kindHello, tag := tag, body := [] } :=
  by simp [receivedFrame, be16, Config.maxBody]

theorem judge_hello (s : State) (p : Port) (tag : Byte) : s.judge p kindHello [tag, 0, 0] 0 = s.arriveHello p tag := by
  unfold State.judge
  rw [receivedFrame_hello]
  exact if_pos rfl

section Commands

variable {s : State} {p : Port} {status tag : Byte} (reset : s.resetLow = false)
  (transaction : (s.port p).link.transaction = some { status := status, phase := .request 0x01 })

include reset transaction

theorem openTransaction_eq : s.openTransaction p = some { status := status, phase := .request kindHello } := by
  unfold State.openTransaction
  rw [reset]
  exact transaction

theorem exec_hello :
    exec (.hello p tag) s = .next ((s.modLink p (Link.afterHello status)).arriveHello p tag).settle := by
  show execHello p tag s = _
  unfold execHello
  rw [openTransaction_eq reset transaction]
  rfl

/-- A HELLO is the REQUEST_FRAME event of a HELLO's frame (R180). -/
theorem exec_requestFrame_hello : exec (.requestFrame p [tag, 0, 0] 0) s = exec (.hello p tag) s := by
  rw [exec_hello reset transaction]
  show execRequestFrame p [tag, 0, 0] 0 s = _
  unfold execRequestFrame
  rw [openTransaction_eq reset transaction]
  dsimp only
  rw [judge_hello]
  rfl

end Commands

theorem arriveHello_of_run {s : State} {p : Port} {tag : Byte} (power : s.power = .run) :
    s.arriveHello p tag = s.takeHello p tag [] := if_pos power

/-- Settles O10: `helloTaken` on the state whose transaction has closed. -/
theorem helloCleansThePort : Obligations.HelloCleansThePort := by
  intro s p status tag reset power transaction state
  have attach : (s.modLink p (Link.afterHello status)).ports[p].attach = s.ports[p].attach := by
    rw [State.modLink_eq, State.modPort_same]
  have taken := (helloTaken (s := s.modLink p (Link.afterHello status)) (p := p) (by rw [attach]; exact state) tag []).settle
  have executed := exec_hello (tag := tag) reset transaction
  rw [arriveHello_of_run (s := s.modLink p (Link.afterHello status)) power] at executed
  refine ⟨exec_requestFrame_hello reset transaction, _, executed, taken, fun i c record => ?_, fun pr pending => ?_⟩
  all_goals obtain ⟨n, -, -, -, shares, -, proposal, -⟩ := taken
  · rw [shares] at record
    exact no_place_left record
  · rw [proposal] at pending
    split at pending
    · cases pending
    · next other =>
      rw [pending, Option.any_some, Bool.or_eq_true, beq_iff_eq, not_or, Bool.not_eq_true] at other
      exact other

end Sys2Proof.Machine
end

