-- ==== Sys2Proof/Proofs/HelloCases.lean ====
section
/-! PROOFS. The cases of HELLO beside a cleanup: on a port with nothing to clean up (R145), outside RUN (R146), and on a port that
is CLEANING already (R149). -/

namespace Sys2Proof.Machine

/-! ## HELLO outside RUN and in CLEANING (R146, R149) -/

theorem arriveHello_of_rest {s : State} {p : Port} {tag : Byte} (power : s.power ≠ .run) : s.arriveHello p tag
    = s.modAttach p fun a => { a with pendingHello := some { tag := tag, arrival := (s.port p).link.requests.length } } :=
  if_neg power

/-- While the operation of a CLEANING port goes on, a HELLO repeats the queue flush alone (R149). -/
theorem takeHello_of_cleaning {s : State} {p : Port} (cleaning : s.ports[p].attach.state = .cleaning)
    (held : s.ports[p].stage.stage ≠ .empty) (tag : Byte) (stay : List Frame) :
    s.takeHello p tag stay = s.modPort p (PortState.greeted tag stay .restarted) := by
  unfold State.takeHello
  dsimp only
  rw [State.port_eq, if_pos cleaning, greeted_eq, cleaning]
  exact finishCleanup_of_held (by rw [State.modPort_same]; exact held)

/-- Port `p`'s record once a HELLO that arrived outside RUN is recorded (R146). -/
def PortState.pending (status tag : Byte) (arrival : Nat) (q : PortState) : PortState :=
  { q with
    link := q.link.afterHello status
    attach := { q.attach with pendingHello := some { tag := tag, arrival := arrival } } }

/-- The event of a HELLO changes one port alone, whatever its link shifts out. -/
theorem OnlyPortChanged.shifted {s t : State} {p : Port} {q : PortState} (h : OnlyPortChanged s t p q) :
    OnlyPortChanged s t p { q with link := { q.link with dataOut := (t.port p).link.dataOut } } := by
  obtain ⟨port, rest⟩ := h
  refine ⟨?_, rest⟩
  have same : (t.port p).link.dataOut = q.link.dataOut := (congrArg (fun r : PortState => r.link.dataOut) port :)
  rw [same]
  exact port

section Commands

variable {s : State} {p : Port} {status tag : Byte} (reset : s.resetLow = false)
  (transaction : (s.port p).link.transaction = some { status := status, phase := .request 0x01 })

include reset transaction

theorem exec_hello_of_rest (power : s.power ≠ .run) : exec (.hello p tag) s
    = .next (s.modPort p (PortState.pending status tag s.ports[p].link.requests.length)).settle := by
  rw [exec_hello reset transaction, arriveHello_of_rest (s := s.modLink p (Link.afterHello status)) power, State.port_eq,
    State.modAttach_eq, State.modLink_eq, State.modPort_same, State.modPort_modPort]
  rfl

theorem exec_hello_of_cleaning (power : s.power = .run) (cleaning : s.ports[p].attach.state = .cleaning)
    (held : s.ports[p].stage.stage ≠ .empty) : exec (.hello p tag) s = .next (s.modPort p fun q =>
      PortState.greeted tag [] .restarted { q with link := q.link.afterHello status }).settle := by
  rw [exec_hello reset transaction, arriveHello_of_run (s := s.modLink p (Link.afterHello status)) power, State.modLink_eq,
    takeHello_of_cleaning (by rw [State.modPort_same]; exact cleaning) (by rw [State.modPort_same]; exact held),
    State.modPort_modPort]

end Commands

/-- Settles O11: both cases change the record of the port alone. -/
theorem helloPendsOutsideRunAndRepeatsInCleaning : Obligations.HelloPendsOutsideRunAndRepeatsInCleaning := by
  intro s p status tag reset transaction
  refine ⟨fun power => ?_, fun power cleaning held => ?_⟩
  · exact ⟨_, exec_hello_of_rest reset transaction power, (settle_modPort s p _).shifted⟩
  · obtain ⟨port, rest⟩ := (settle_modPort s p fun q =>
      PortState.greeted tag [] .restarted { q with link := q.link.afterHello status }).shifted
    refine ⟨_, exec_hello_of_cleaning reset transaction power cleaning held, port.trans ?_, rest⟩
    rw [PortState.greeted, ← cleaning]
    rfl

/-! ## Nothing to clean up -/

section Nothing

variable {s : State} {p : Port}

theorem currentOn_of_empty (empty : ∀ h : HandleNo, s.handle p h = none) (i : ShareIdx) (h : HandleNo) :
    s.currentOn p i h = false := by
  rw [State.currentOn, empty h]
  rfl

theorem retiresAt_of_empty {h : HandleNo} (empty : s.handle p h = none) : s.retiresAt p h = none := by
  rw [State.retiresAt, empty]
  rfl

/-- A port without handles leaves an entry as it was, but for its claim. -/
theorem leftByTable_of_empty (empty : ∀ h : HandleNo, s.handle p h = none) (i : ShareIdx) : s.leftByTable p i
    = { s.share i with claim := (s.share i).claim.bind fun c => c.leftBy p (some (s.settings.leaseDuration * 1000)) } := by
  have none_lost (done : List HandleNo) : s.leftAfter p i done = s.leftAfter p i [] := by
    induction done using List.reverseRecOn with
    | nil => rfl
    | append_singleton done h ih => rw [leftAfter_concat_of_nothing (.inl (currentOn_of_empty empty i h)), ih]
  rw [← leftAfter_allHandles, none_lost, leftAfter_nil]

/-- A port without a place leaves a claim as it was (R139). -/
theorem leftBy_of_absent {c : Claim} (absent : p ∉ c.places.map Prod.fst) (lease : Timer) : c.leftBy p lease = some c := by
  rw [ports_of_places, List.mem_cons, not_or] at absent
  have waiters : c.waiters.filter (fun w => w.port != p) = c.waiters := List.filter_eq_self.mpr fun w hw =>
    bne_iff_ne.mpr fun own => absent.2 (own ▸ List.mem_map_of_mem hw)
  rw [Claim.leftBy, if_neg (Ne.symm absent.1), Claim.without, waiters]

theorem leftByCleanup_of_nothing (idle : s.ports[p].stage.stage = .empty) (empty : ∀ h : HandleNo, s.handle p h = none)
    (unclaimed : ∀ (i : ShareIdx) c, (s.share i).claim = some c → p ∉ c.places.map Prod.fst) (i : ShareIdx) :
    s.leftByCleanup p i = s.share i := by
  rw [leftByCleanup_of_kept fun op waiting => (by rw [idle] at waiting; cases waiting), leftByTable_of_empty empty]
  cases record : (s.share i).claim with
  | none => exact (share_with_claim _ record).symm
  | some c =>
    rw [Option.bind_some, leftBy_of_absent (unclaimed i c record)]
    exact (share_with_claim _ record).symm

theorem retiring_of_nothing (idle : s.ports[p].stage.stage = .empty) (empty : ∀ h : HandleNo, s.handle p h = none) :
    s.retiring p = [] := by
  rw [retiring_of_kept fun op waiting => (by rw [idle] at waiting; cases waiting), List.filterMap_eq_nil_iff]
  exact fun h _ => retiresAt_of_empty (empty h)

theorem emptiedCount_of_nothing {n : Nat} (counted : EmptiedCount s p n) (none_before : (s.port p).attach.emptied = 0)
    (empty : ∀ h : HandleNo, s.handle p h = none) : n = 0 := by
  have count : (allHandles.countP fun h => (s.handle p h).isSome) = 0 :=
    List.countP_eq_zero.mpr fun h _ => by rw [empty h]; exact Bool.false_ne_true
  have few := counted.1
  rw [none_before, count] at few
  exact Nat.le_zero.mp few

theorem handedTo_of_nothing (unclaimed : ∀ (i : ShareIdx) c, (s.share i).claim = some c → p ∉ c.places.map Prod.fst)
    (q : Port) : s.handedTo p q = [] := by
  refine List.flatMap_eq_nil_iff.mpr fun i _ => ?_
  cases record : (s.share i).claim with
  | none => rfl
  | some c =>
    have absent := unclaimed i c record
    rw [ports_of_places, List.mem_cons, not_or] at absent
    exact if_neg (Ne.symm absent.1)

theorem decidedAtHello_of_nothing (apart : ∀ pr, s.proposal = some pr → pr.proposer ≠ p ∧ pr.voters[p] = false) (q : Port) :
    s.decidedAtHello p q = [] := by
  unfold State.decidedAtHello
  cases pending : s.proposal with
  | none => rfl
  | some pr =>
    obtain ⟨proposer, voter⟩ := apart pr pending
    exact if_neg fun both => both.1.elim proposer fun votes => Bool.noConfusion (voter.symm.trans votes)

theorem toldAtHello_of_nothing (idle : s.ports[p].stage.stage = .empty)
    (detached : (s.port p).attach.state = .detached)
    (unclaimed : ∀ (i : ShareIdx) c, (s.share i).claim = some c → p ∉ c.places.map Prod.fst)
    (apart : ∀ pr, s.proposal = some pr → pr.proposer ≠ p ∧ pr.voters[p] = false) (q : Port) (n : Nat) :
    s.toldAtHello p q n = [peerNotice .peerAttached p n] := by
  rw [State.toldAtHello, handedTo_of_nothing unclaimed, decidedAtHello_of_nothing apart, detached, State.port_eq, idle]
  rfl

theorem handles_of_empty (empty : ∀ h : HandleNo, s.handle p h = none) : (s.port p).handles = Vector.replicate 32 none :=
  Vector.ext fun k hk => (empty ⟨k, hk⟩).trans (Vector.getElem_replicate hk).symm

end Nothing

/-- Port records that agree in all but notices and attention line. -/
theorem port_eq_of_kept {x y : PortState} (link : x.link = y.link) (attach : x.attach = y.attach)
    (posts : x.posts = y.posts) (stage : x.stage = y.stage) (handles : x.handles = y.handles) :
    x = { y with notices := x.notices, attention := x.attention } := by
  cases x
  cases y
  simp only at link attach posts stage handles
  subst link attach posts stage handles
  rfl

/-- A port from which no retirement takes anything. -/
theorem port_of_otherPortKept {s t : State} {q : Port} (h : OtherPortKept s t [] q) :
    t.port q = { s.port q with notices := (t.port q).notices, attention := (t.port q).attention } := by
  obtain ⟨link, attach, posts, stage, handles⟩ := h
  refine port_eq_of_kept link attach posts ?_ (Vector.ext fun k hk => ?_)
  · rw [stage, Stage.steppedBy_nil]
  · exact (handles ⟨k, hk⟩).trans (steppedHandle_nil s _)

/-- A HELLO taken on a DETACHED port with nothing to clean up, and the close of its event (R145, R148). -/
theorem helloTaken_of_nothing {s t : State} {p : Port} {tag : Byte} {stay : List Frame} (taken : HelloTaken s t p tag stay)
    (detached : (s.port p).attach.state = .detached) (none_before : (s.port p).attach.emptied = 0)
    (idle : (s.port p).stage.stage = .empty) (empty : ∀ h : HandleNo, s.handle p h = none)
    (unclaimed : ∀ (i : ShareIdx) c, (s.share i).claim = some c → p ∉ c.places.map Prod.fst)
    (apart : ∀ pr, s.proposal = some pr → pr.proposer ≠ p ∧ pr.voters[p] = false) :
    t.port p = { s.port p with
        link := { (s.port p).link with
          requests := stay
          responses := [.completed { kind := 0x01, tag := tag, reply := Reply.ok (.hello s.pool.clean.length) }] }
        attach := { state := .attached, pendingHello := none, announcement := .none, emptied := 0, helloTag := tag }
        posts := { (s.port p).posts with posts := [], mode := .holding, timer := none, ordinal := 0, faults := 0 }
        notices := { (s.port p).notices with records := [], overflow := false, timer := none, aged := false }
        attention := (t.port p).attention }
      ∧ (∀ q : Port, q ≠ p → Told s t q [peerNotice .peerAttached p 0]
        ∧ t.port q = { s.port q with notices := (t.port q).notices, attention := (t.port q).attention })
      ∧ OnlyPorts s t := by
  obtain ⟨n, counted, effects⟩ := taken
  obtain rfl := emptiedCount_of_nothing counted none_before empty
  unfold HelloEffects at effects
  rw [retiring_of_nothing idle empty, idle] at effects
  obtain ⟨port, others, shares, pool, proposal, frame⟩ := effects
  have handles := handles_of_empty empty
  have shares_same : t.shares = s.shares := Vector.ext fun k hk =>
    (shares ⟨k, hk⟩).trans (leftByCleanup_of_nothing idle empty unclaimed ⟨k, hk⟩)
  have proposal_same : t.proposal = s.proposal := by
    refine proposal.trans (if_neg fun any => ?_)
    cases pending : s.proposal with
    | none => rw [pending] at any; cases any
    | some pr =>
      obtain ⟨proposer, voter⟩ := apart pr pending
      rw [pending, Option.any_some, voter, Bool.or_false, beq_iff_eq] at any
      exact proposer any
  refine ⟨?_, fun q other => ?_, ?_⟩
  · rw [port, pool, ← handles]
    rfl
  · obtain ⟨told, kept⟩ := others q other
    rw [toldAtHello_of_nothing idle detached unclaimed apart] at told
    exact ⟨told, port_of_otherPortKept kept⟩
  · unfold OnlyPorts
    rw [shares_same, pool, proposal_same] at frame
    exact frame

/-- Settles O9: `helloTaken_of_nothing` on the state whose transaction has closed; the response asserts the attention line. -/
theorem firstHelloAttachesThePort : Obligations.FirstHelloAttachesThePort := by
  intro s p status tag reset power transaction detached none_before stage empty unclaimed apart
  have closed : (s.modLink p (Link.afterHello status)).port p
      = { s.port p with link := (s.port p).link.afterHello status } := State.modPort_same ..
  have closed_other {q : Port} (other : q ≠ p) : (s.modLink p (Link.afterHello status)).port q = s.port q :=
    State.modPort_other s _ other
  have taken := helloTaken (s := s.modLink p (Link.afterHello status)) (p := p)
    (by rw [← State.port_eq, closed]; exact fun cleaning => by cases detached.symm.trans cleaning) tag []
  have executed := exec_hello (tag := tag) reset transaction
  rw [arriveHello_of_run (s := s.modLink p (Link.afterHello status)) power] at executed
  generalize (s.modLink p (Link.afterHello status)).takeHello p tag [] = u at executed taken
  have nothing {t : State} (taken : HelloTaken (s.modLink p (Link.afterHello status)) t p tag []) :=
    helloTaken_of_nothing taken (by rw [closed]; exact detached) (by rw [closed]; exact none_before)
      (by rw [closed, stage]) (fun h => by rw [State.handle_eq, ← State.port_eq, closed]; exact empty h) unclaimed apart
  have running : u.running = true := by
    have only := (nothing taken).2.2
    have resetLow : u.resetLow = s.resetLow := (congrArg State.resetLow only :)
    have run : u.power = s.power := (congrArg State.power only :)
    rw [State.running, resetLow, run, reset, power]
    rfl
  obtain ⟨port, others, only⟩ := nothing taken.settle
  have attention : (u.settle.port p).attention = true := settle_attention u p running (by
    rw [(nothing taken).1]
    rfl)
  rw [closed, attention] at port
  have shifted : (u.settle.port p).link.dataOut = [status, 0, 0, 0] := (congrArg (fun q : PortState => q.link.dataOut) port :)
  refine ⟨exec_requestFrame_hello reset transaction, _, executed, ?_, fun q other => ?_, only⟩
  · rw [shifted]
    exact port
  · obtain ⟨told, same⟩ := others q other
    have before := closed_other other
    rw [before] at same
    exact ⟨told.of_notices (congrArg PortState.attach before).symm (congrArg PortState.notices before).symm rfl rfl, same⟩

end Sys2Proof.Machine
end

