-- ==== Sys2Proof/Proofs/CleaningEnds.lean ====
section
/-! PROOFS. The end of the operation that a CLEANING port waits for (R85, R86, R108): its last burst stores its bytes, nothing but
the HELLO's response is placed, and the port becomes ATTACHED (R148). -/

namespace Sys2Proof.Machine

section Completed

variable {s : State} {p : Port} {op : Operation} {f : FrameNo} {bs : List Byte}

/-- The burst that a cleanup waits for ends its operation: an abandoned READ with nothing stored, a write-type operation with its
last piece (R85, R108). -/
theorem completeBurst_ends (marked : op.kind.isRead = true → (s.port p).stage.abandon = true)
    (last : op.kind.isRead = false → op.start + op.length ≤ op.pos + op.piece) :
    ∃ (op' : Operation) (answer : Option Reply), op'.share = op.share
      ∧ s.freePath.completeBurst p op f bs = (s.stored (s.burstMemory op f bs)).endOperation p op' answer := by
  by_cases read : op.kind.isRead = true
  · have nothing : op.written bs = [] := by
      unfold Operation.written
      split
      · rfl
      all_goals next kind => rw [kind] at read; cases read
    refine ⟨op, none, rfl, ?_⟩
    unfold State.completeBurst State.burstMemory
    rw [nothing]
    exact if_pos (Bool.and_eq_true_iff.mpr ⟨marked read, read⟩)
  · by_cases cas : ∃ e n, op.kind = .cas e n
    · obtain ⟨e, n, kind⟩ := cas
      exact ⟨op, _, rfl, completeBurst_cas kind⟩
    · have stop : (op.deliver bs op.pieceLength).stop ≤ (op.deliver bs op.pieceLength).pos := by
        rw [op.stop_deliver, op.pos_deliver]
        exact last (Bool.eq_false_iff.mpr read)
      exact ⟨op.deliver bs op.pieceLength, _, op.share_deliver ..,
        (completeBurst_goes_on (fun yes => absurd yes read) fun e n kind => cas ⟨e, n, kind⟩).trans
          (advance_of_finished (reachPiece_of_stop stop))⟩

end Completed

/-- No operation's answer is placed in the entry reserved for a HELLO (R147, R183). -/
theorem completeReserved_hello {kind : Byte} (other : kind ≠ kindHello) (r : Reply) (tag : Byte) :
    completeReserved kind r [.reserved kindHello tag] = [.reserved kindHello tag] := by
  rw [completeReserved, if_neg (Ne.symm other), completeReserved]

section Ended

variable (s : State) (p : Port) (op : Operation) (answer : Option Reply)

theorem giveBack_clean (q : Pool) (fs : List FrameNo) : (q.giveBack fs).clean = q.clean := by
  unfold Pool.giveBack Pool.nextScrub
  split <;> rfl

/-- The end of an operation returns frames to be scrubbed at most. -/
theorem endOperation_clean : (s.endOperation p op answer).pool.clean = s.pool.clean := by
  rw [endOperation_pool]
  by_cases retires : (s.share op.share).state = .closing ∧ (s.share op.share).inUse - 1 = 0
  · rw [releaseUse_of_retiring retires, retire_pool, giveBack_clean]
    rfl
  · rw [releaseUse_of_staying retires]
    rfl

variable {s p} in
/-- The port that waits for the end keeps its link, the HELLO's entry in it. -/
theorem endOperation_own {tag : Byte} (reserved : s.ports[p].link.responses = [.reserved kindHello tag]) :
    (s.endOperation p op answer).ports[p] = { s.ports[p] with
      handles := (s.endOperation p op answer).ports[p].handles, stage := { stage := .empty, abandon := false } } := by
  have link : (s.endOperation p op answer).ports[p].link = s.ports[p].link := by
    rw [endOperation_link]
    cases answer with
    | none => rfl
    | some r =>
      have kept : completeReserved op.kind.requestKind r s.ports[p].link.responses = s.ports[p].link.responses := by
        rw [reserved, completeReserved_hello (requestKind_ne_hello _)]
      exact congrArg (fun es => { s.ports[p].link with responses := es }) kept
  rw [endOperation_port, link, if_pos rfl]

variable {p} in
theorem endOperation_tells {q : Port} (other : q ≠ p) : Tells s (s.endOperation p op answer) q [] :=
  .of_port (by rw [endOperation_port, endOperation_link_other s p op answer other])

theorem becomeAttached_stage (q : Port) : (s.becomeAttached p).ports[q].stage = s.ports[q].stage := by
  rw [((Swept.refl s p).becomeAttached p).stage q, DataStage.steppedBy_nil]
  split
  · next e => rw [e]
  · rfl

end Ended

/-- The state in which a CLEANING port's operation has ended and the port has become ATTACHED, at the close of the event. -/
def State.endedCleaning (s : State) (p : Port) (op : Operation) (answer : Option Reply) : State :=
  ((s.endOperation p op answer).becomeAttached p).settle

section Cleaning

variable (s : State) (p : Port) (op : Operation) (answer : Option Reply)

theorem keeps_endedCleaning : Keeps s ((s.endOperation p op answer).becomeAttached p) :=
  (keeps_endOperation s p op answer).trans (keeps_becomeAttached _ p)

/-- Becoming ATTACHED touches no share entry, no frame, no handle and no data stage that the end of the operation leaves. -/
theorem endedCleaning_tables (q : Port) :
    (s.endedCleaning p op answer).shares = (s.endOperation p op answer).settle.shares
      ∧ (s.endedCleaning p op answer).pool = (s.endOperation p op answer).settle.pool
      ∧ (s.endedCleaning p op answer).ports[q].handles = (s.endOperation p op answer).settle.ports[q].handles
      ∧ (s.endedCleaning p op answer).ports[q].stage = (s.endOperation p op answer).settle.ports[q].stage := by
  unfold State.endedCleaning
  rw [State.settle_shares, State.settle_shares, State.settle_pool, State.settle_pool, State.settle_get, State.settle_get]
  exact ⟨becomeAttached_shares .., becomeAttached_pool .., (sameTables_becomeAttached _ p).handles q,
    becomeAttached_stage ..⟩

variable {s p} {tag : Byte} (reserved : s.ports[p].link.responses = [.reserved kindHello tag])

include reserved

/-- The port that was waiting, before the close of the event: its response is the HELLO's alone (R147, R148). -/
theorem attached_own : ((s.endOperation p op answer).becomeAttached p).ports[p] = { s.ports[p] with
    handles := (s.endOperation p op answer).ports[p].handles
    stage := { stage := .empty, abandon := false }
    attach := { s.ports[p].attach with state := .attached, announcement := .none, emptied := 0 }
    posts := { s.ports[p].posts with ordinal := 0 }
    link := { s.ports[p].link with
      responses := [.completed { kind := kindHello, tag := tag, reply := Reply.ok (.hello s.pool.clean.length) }] } } := by
  have placed : completeReserved kindHello (Reply.ok (.hello s.pool.clean.length)) s.ports[p].link.responses
      = [.completed { kind := kindHello, tag := tag, reply := Reply.ok (.hello s.pool.clean.length) }] := by
    rw [reserved]
    exact if_pos rfl
  rw [becomeAttached_own, endOperation_clean, endOperation_own op answer reserved, PortState.welcomed]
  dsimp only
  rw [placed]

theorem endedCleaning_own (running : s.running = true) : (s.endedCleaning p op answer).port p = { s.ports[p] with
    handles := ((s.endedCleaning p op answer).port p).handles
    stage := { stage := .empty, abandon := false }
    attach := { s.ports[p].attach with state := .attached, announcement := .none, emptied := 0 }
    posts := { s.ports[p].posts with ordinal := 0 }
    link := { s.ports[p].link with
      responses := [.completed { kind := kindHello, tag := tag, reply := Reply.ok (.hello s.pool.clean.length) }] }
    attention := true } := by
  have own := attached_own op answer reserved
  have keeps := keeps_endedCleaning s p op answer
  have run : ((s.endOperation p op answer).becomeAttached p).running = true := by
    rw [State.running, keeps.resetLow, keeps.power]
    exact running
  have attention : ((s.endedCleaning p op answer).port p).attention = true :=
    settle_attention _ p run (by rw [State.port_eq, own]; rfl)
  have settled : (s.endedCleaning p op answer).port p
      = { ((s.endOperation p op answer).becomeAttached p).ports[p] with
        attention := ((s.endedCleaning p op answer).port p).attention } := by
    rw [State.endedCleaning, State.port_eq, State.settle_get]
  have handles : ((s.endedCleaning p op answer).port p).handles = (s.endOperation p op answer).ports[p].handles := by
    rw [settled, own]
  rw [handles, settled, own, attention]

theorem endedCleaning_tells {q : Port} (other : q ≠ p) :
    Tells s (s.endedCleaning p op answer) q (s.ports[p].attach.peerNotices p) := by
  have attach : (s.endOperation p op answer).ports[p].attach = s.ports[p].attach := by
    rw [endOperation_own op answer reserved]
  have told := becomeAttached_tells (s.endOperation p op answer) other
  rw [attach] at told
  exact ((endOperation_tells s op answer other).trans (keeps_endOperation s p op answer).settings told).silent
    (keeps_endedCleaning s p op answer).settings (.settle _ q)

end Cleaning

/-- Settles O32: the operation ends as `operationEnded` says, on the store of `burstStored`, and the port becomes ATTACHED. -/
theorem cleaningPortAttachesWhenItsOperationEnds : Obligations.CleaningPortAttachesWhenItsOperationEnds := by
  intro s p op f bs tag running path stage cleaning reserved marked last canonical left retires g
  obtain ⟨op', answer, share, ended⟩ := completeBurst_ends (f := f) (bs := bs) marked last
  have completed := exec_burstCompletion running path stage
  have state : ((s.stored (s.burstMemory op f bs)).endOperation p op' answer).ports[p].attach.state = .cleaning := by
    rw [endOperation_port]
    exact cleaning
  have empty : ((s.stored (s.burstMemory op f bs)).endOperation p op' answer).ports[p].stage.stage = .empty := by
    rw [endOperation_port, if_pos rfl]
  rw [ended, finishCleanup_of_empty state empty] at completed
  change exec (.burstCompletion p) s = .next ((s.stored (s.burstMemory op f bs)).endedCleaning p op' answer) at completed
  obtain ⟨mem, arbiter, frame⟩ := stored_frame
    (onlyPortsSharesPool_settle (keeps_endedCleaning (s.stored (s.burstMemory op f bs)) p op' answer))
  obtain ⟨retired, stayed, -, -, -, otherShares⟩ := operationEnded (s.stored (s.burstMemory op f bs)) p op' answer
  have tables := endedCleaning_tables (s.stored (s.burstMemory op f bs)) p op' answer
  have own := endedCleaning_own (s := s.stored (s.burstMemory op f bs)) op' answer reserved running
  have tells {q : Port} (other : q ≠ p) :=
    endedCleaning_tells (s := s.stored (s.burstMemory op f bs)) op' answer reserved other
  rw [share] at retired stayed otherShares
  refine ⟨_, completed, burstStored canonical mem, own, fun q other => ⟨?_, (tells other).port⟩, fun yes => ?_, fun no => ?_,
    arbiter, ?_, frame⟩
  · exact (tells other).told
  · obtain ⟨entry, pool, handles, stages⟩ := retired yes
    refine ⟨?_, (tables p).2.1.trans pool, fun q k => ?_, fun q other => ?_⟩
    · rw [State.share_eq, (tables p).1]
      exact entry
    · rw [State.handle_eq ((s.stored (s.burstMemory op f bs)).endedCleaning p op' answer), (tables q).2.2.1]
      exact handles q k
    · rw [State.port_eq ((s.stored (s.burstMemory op f bs)).endedCleaning p op' answer), (tables q).2.2.2]
      exact stages q other
  · obtain ⟨entry, pool, handles, stages⟩ := stayed no
    refine ⟨?_, (tables p).2.1.trans pool, fun q => (tables q).2.2.1.trans (handles q), fun q other => ?_⟩
    · rw [State.share_eq, (tables p).1]
      exact entry
    · exact (tables q).2.2.2.trans (stages q other)
  · intro j other
    rw [State.share_eq, (tables p).1]
    exact otherShares j other

end Sys2Proof.Machine
end

