-- ==== Sys2Proof/Proofs/DetachAgreement.lean ====
section
/-! PROOFS. The Agreement Unit's part of a DETACH (R161): it changes no more than the notices of the ports that hear of a decision,
unless it adopts a CLEAR_ALL; and the closing of every share at the adoption of CLEAR_ALL (R164, R26). -/

namespace Sys2Proof.Machine

/-! ## What changes no more than notices -/

/-- From `s` to `t` no share entry, no frame list and of the ports no more than the notices of ATTACHED ones changed. -/
structure NoticesOnly (s t : State) : Prop where
  ports : ∀ q : Port, t.ports[q] = { s.ports[q] with notices := t.ports[q].notices }
  untold : ∀ q : Port, s.isAttached q = false → t.ports[q] = s.ports[q]
  shares : t.shares = s.shares
  pool : t.pool = s.pool

namespace NoticesOnly

variable {s t u : State}

theorem of_same (ports : t.ports = s.ports) (shares : t.shares = s.shares) (pool : t.pool = s.pool) : NoticesOnly s t where
  ports q := by rw [ports]
  untold q _ := by rw [ports]
  shares := shares
  pool := pool

theorem of_pushed {ns : Port → List Notice} (h : Pushed s t ns) (shares : t.shares = s.shares) (pool : t.pool = s.pool) :
    NoticesOnly s t where
  ports := h.ports
  untold _ absent := h.untold absent
  shares := shares
  pool := pool

theorem isAttached (h : NoticesOnly s t) (q : Port) : t.isAttached q = s.isAttached q := by
  unfold State.isAttached
  rw [State.port_eq, h.ports q]
  rfl

theorem trans (a : NoticesOnly s t) (b : NoticesOnly t u) : NoticesOnly s u where
  ports q := by rw [b.ports q, a.ports q]
  untold q absent := (b.untold q ((a.isAttached q).trans absent)).trans (a.untold q absent)
  shares := b.shares.trans a.shares
  pool := b.pool.trans a.pool

/-- The end of a proposal behind its adoption, if it is adopted (R162). -/
theorem ending (s : State) (pr : Proposal) (o : ProposalOutcome) :
    NoticesOnly s ({ s with proposal := none }.pushDecided pr o allPorts) := by
  have removed : NoticesOnly s { s with proposal := none } := of_same rfl rfl rfl
  refine removed.trans (of_pushed (Pushed.pushDecided _ pr o) ?_ (sameTables_pushDecided _ pr o allPorts).pool)
  rw [pushDecided_eq, pushWhere_shares]

end NoticesOnly

theorem noticesOnly_endProposal (s : State) {pr : Proposal} {o : ProposalOutcome}
    (kept : o = .adopted → pr.action ≠ .clearAll) : NoticesOnly s (s.endProposal pr o) := by
  unfold State.endProposal
  dsimp only
  split
  · next adopted =>
    cases action : pr.action with
    | clearAll => exact absurd action (kept adopted)
    | settings r =>
      have installed : NoticesOnly s (s.adoptSettings r) := .of_same rfl rfl rfl
      exact installed.trans (.ending _ pr o)
  · exact .ending s pr o

theorem noticesOnly_endProposal_of_clearAll (s : State) {pr : Proposal} (action : pr.action = .clearAll) :
    NoticesOnly s.adoptClearAll (s.endProposal pr .adopted) := by
  unfold State.endProposal
  rw [if_pos rfl, action]
  exact .ending _ pr .adopted

/-! ## A voter's part at its DETACH (R161) -/

section Votes

variable (p : Port)

theorem isEmpty_set_false (v : PortSet) : PortSet.isEmpty (v.set p false) = allPorts.all fun q => q == p || !v[q] := by
  unfold PortSet.isEmpty
  refine congrArg allPorts.all (funext fun q => ?_)
  by_cases own : q = p
  · subst own
    simp
  · simp [own, Ne.symm (Fin.val_ne_of_ne own)]

theorem set_false_beq (v w : PortSet) :
    (v.set p false == w.set p false) = allPorts.all fun q => q == p || v[q] == w[q] := by
  rw [Bool.eq_iff_iff, beq_iff_eq, List.all_eq_true]
  constructor
  · intro same q _
    by_cases own : q = p
    · simp [own]
    · have entry := congrArg (fun x : PortSet => x[q]) same
      simp only [Fin.getElem_fin, Vector.getElem_set, Ne.symm (Fin.val_ne_of_ne own), if_false] at entry
      simp [entry]
  · intro same
    refine Vector.ext fun k hk => ?_
    have entry := same ⟨k, hk⟩ (mem_allPorts _)
    rw [Vector.getElem_set, Vector.getElem_set]
    split
    · rfl
    · next other =>
      simpa [Fin.ext_iff, Ne.symm other] using entry

/-- The proposal without the port that detaches. -/
def Proposal.without (pr : Proposal) : Proposal :=
  { pr with voters := pr.voters.set p false, accepted := pr.accepted.set p false }

/-- No voter is left, or every voter left has accepted. -/
def Proposal.decidedWithout (pr : Proposal) : Bool :=
  (pr.without p).voters.isEmpty || (pr.without p).accepted == (pr.without p).voters

/-- What a DETACH of port `p` does to a pending proposal (R161). -/
theorem agreementCleanup_detach {s : State} {pr : Proposal} (pending : s.proposal = some pr) : s.agreementCleanup p .detach
    = if pr.proposer = p then s.endProposal pr .withdrawn
      else if pr.voters[p] then
        if pr.decidedWithout p then s.endProposal (pr.without p) .adopted else { s with proposal := some (pr.without p) }
      else s := by
  unfold State.agreementCleanup
  rw [pending]
  rfl

theorem detachClears_iff {s : State} {pr : Proposal} (pending : s.proposal = some pr) : s.detachClears p = true
    ↔ pr.action = .clearAll ∧ pr.proposer ≠ p ∧ pr.voters[p] = true ∧ pr.decidedWithout p = true := by
  unfold State.detachClears Proposal.decidedWithout Proposal.without
  rw [pending, Option.any_some, isEmpty_set_false, set_false_beq, Bool.and_eq_true, Bool.and_eq_true, Bool.and_eq_true,
    beq_iff_eq, bne_iff_ne, and_assoc, and_assoc]

end Votes

section Agreement

variable {s : State} {p : Port}

/-- But for the adoption of a CLEAR_ALL the Agreement Unit's part of a DETACH changes no table. -/
theorem noticesOnly_agreementCleanup (kept : s.detachClears p = false) : NoticesOnly s (s.agreementCleanup p .detach) := by
  cases pending : s.proposal with
  | none =>
    unfold State.agreementCleanup
    rw [pending]
    exact .of_same rfl rfl rfl
  | some pr =>
    rw [agreementCleanup_detach p pending]
    split
    · exact noticesOnly_endProposal s nofun
    next proposer =>
    split
    · next votes =>
      split
      · next decided =>
        refine noticesOnly_endProposal s fun _ action => Bool.eq_false_iff.mp kept ?_
        exact (detachClears_iff p pending).mpr ⟨action, proposer, votes, decided⟩
      · exact .of_same rfl rfl rfl
    · exact .of_same rfl rfl rfl

theorem noticesOnly_agreementCleanup_of_clears (clears : s.detachClears p = true) :
    NoticesOnly s.adoptClearAll (s.agreementCleanup p .detach) := by
  cases pending : s.proposal with
  | none =>
    unfold State.detachClears at clears
    rw [pending] at clears
    cases clears
  | some pr =>
    obtain ⟨action, proposer, votes, decided⟩ := (detachClears_iff p pending).mp clears
    rw [agreementCleanup_detach p pending, if_neg proposer, if_pos votes, if_pos decided]
    exact noticesOnly_endProposal_of_clearAll s action

end Agreement

/-! ## The closing of every share (R26, R164) -/

/-- An entry at the adoption of CLEAR_ALL, with its claim record still there. -/
def Share.closedIfLive (sh : Share) : Share := if sh.live then sh.closed else sh

theorem closeLive_shares (s : State) (i j : ShareIdx) :
    (s.closeLive i).shares[j] = if j = i then s.shares[i].closedIfLive else s.shares[j] := by
  unfold State.closeLive Share.closedIfLive
  rw [State.share_eq]
  split
  · exact enterClosing_shares s i j
  · split
    · next e => rw [e]
    · rfl

theorem closeLive_ports (s : State) (i : ShareIdx) (q : Port) : (s.closeLive i).ports[q]
    = { s.ports[q] with handles := (s.closeLive i).ports[q].handles, stage := (s.closeLive i).ports[q].stage } := by
  unfold State.closeLive
  split
  · rw [enterClosing_ports]
    split <;> rfl
  · rfl

/-- The closings change of a port no more than what the retirements reach. -/
theorem closeLive_foldl_ports (l : List ShareIdx) (s : State) (q : Port) : (l.foldl State.closeLive s).ports[q]
    = { s.ports[q] with
      handles := (l.foldl State.closeLive s).ports[q].handles, stage := (l.foldl State.closeLive s).ports[q].stage } := by
  induction l generalizing s with
  | nil => rfl
  | cons i l ih => rw [List.foldl_cons, ih, closeLive_ports]

namespace Swept

variable {s t : State} {p : Port} {done : List HandleNo} {d : DataStage} {gone : List ShareIdx}

theorem closeLive (h : Swept s t p done d gone) {i : ShareIdx} (fresh : t.shares[i].live = true → i ∉ gone) :
    Swept s (t.closeLive i) p done d
      (gone ++ if (t.shares[i].live && t.shares[i].inUse == 0) = true then [i] else []) := by
  unfold State.closeLive
  rw [State.share_eq]
  by_cases live : t.shares[i].live = true
  · have closed := h.enterClosing (i := i) fun _ => fresh live
    rw [if_pos live, live, Bool.true_and, if_congr beq_iff_eq rfl rfl]
    exact closed
  · rw [if_neg live, Bool.eq_false_iff.mpr live, Bool.false_and, if_neg Bool.false_ne_true, List.append_nil]
    exact h

/-- The shares of a list close in its order; those without an operation in flight retire (R26, R11). -/
theorem closeLive_foldl (h : Swept s t p done d gone) {l : List ShareIdx} (nodup : l.Nodup)
    (fresh : ∀ i ∈ l, t.shares[i].live = true → i ∉ gone) : Swept s (l.foldl State.closeLive t) p done d
      (gone ++ l.filter fun i => t.shares[i].live && t.shares[i].inUse == 0) := by
  induction l generalizing t gone with
  | nil =>
    rw [List.filter_nil, List.append_nil]
    exact h
  | cons i l ih =>
    obtain ⟨apart, nodup⟩ := List.nodup_cons.mp nodup
    have later (j : ShareIdx) (hj : j ∈ l) : (t.closeLive i).shares[j] = t.shares[j] := by
      have other : j ≠ i := fun e => apart (e ▸ hj)
      rw [closeLive_shares, if_neg other]
    have rest := ih (h.closeLive (fresh i List.mem_cons_self)) nodup fun j hj live mem => by
      rw [later j hj] at live
      obtain earlier | last := List.mem_append.mp mem
      · exact fresh j (List.mem_cons_of_mem i hj) live earlier
      · split at last
        · exact apart (List.mem_singleton.mp last ▸ hj)
        · cases last
    have same : (l.filter fun j => (t.closeLive i).shares[j].live && (t.closeLive i).shares[j].inUse == 0)
        = l.filter fun j => t.shares[j].live && t.shares[j].inUse == 0 :=
      List.filter_congr fun j hj => by rw [later j hj]
    rw [same, List.append_assoc] at rest
    rw [List.foldl_cons, List.filter_cons]
    split
    · next closes =>
      rw [if_pos closes] at rest
      exact rest
    · next stays =>
      rw [if_neg stays, List.nil_append] at rest
      exact rest

end Swept

section ClearAll

variable (s : State)

theorem adoptClearAll_shares (i : ShareIdx) :
    s.adoptClearAll.shares[i] = { s.shares[i].closedIfLive with claim := none } := by
  have closed : (allShares.foldl State.closeLive s).shares[i] = s.shares[i].closedIfLive :=
    foldl_allShares_get (fun t j k _ => closeLive_shares t j k) (fun t j => (keeps_closeLive t j).settings) i
  rw [← closed]
  unfold State.adoptClearAll
  simp

theorem adoptClearAll_pool : s.adoptClearAll.pool = (allShares.foldl State.closeLive s).pool := by
  unfold State.adoptClearAll
  generalize allShares.foldl State.closeLive s = t
  rfl

/-- CLEAR_ALL empties every table and every Post Buffer, and stops the copies of the READs it retires the share of (R164, R2). -/
theorem adoptClearAll_ports (q : Port) : s.adoptClearAll.ports[q] = { s.ports[q] with
    handles := Vector.replicate 32 none
    stage := (allShares.foldl State.closeLive s).ports[q].stage
    posts := s.ports[q].posts.cleared } := by
  have port := closeLive_foldl_ports allShares s q
  have emptied : s.adoptClearAll.ports[q] = { (allShares.foldl State.closeLive s).ports[q] with
      handles := Vector.replicate 32 none, posts := (allShares.foldl State.closeLive s).ports[q].posts.cleared } := by
    unfold State.adoptClearAll
    generalize allShares.foldl State.closeLive s = t
    dsimp only
    rw [State.mapPorts_get]
  rw [emptied, port]

end ClearAll

end Sys2Proof.Machine
end

