-- ==== Sys2Proof/Proofs/Detaches.lean ====
section
/-! PROOFS. DETACH (R151): the cleanup that it causes, the departure of the port with its peer notice, and its answer. -/

namespace Sys2Proof.Machine

/-! ## The departure behind the cleanup (R151) -/

/-- A port's record as a DETACH's cleanup finds it: the request has left the queue, and the port is CLEANING. -/
def PortState.leaving (f : Frame) (q : PortState) : PortState :=
  { q with
    link := { q.link with
      requests := q.link.requests.drop 1
      responses := if f.kind = kindPost then q.link.responses else q.link.responses ++ [.reserved f.kind f.tag] }
    attach := { q.attach with state := .cleaning } }

/-- A port's record as the peer notice of its DETACH finds it. -/
def PortState.detached (q : PortState) : PortState :=
  { q with attach := { q.attach with state := .detached }, notices := q.notices.emptied }

/-- What a DETACH does behind its cleanup. -/
def State.depart (s : State) (p : Port) : State :=
  ((s.modPort p PortState.detached).pushPeers p (peerNotice .peerDetached p s.ports[p].attach.emptied) allPorts).modAttach p
    fun a => { a with emptied := 0 }

/-- The cleanup of a DETACH, and its end. -/
def State.detachCleaned (s : State) (p : Port) (f : Frame) : State :=
  (s.cleaned p (PortState.leaving f)).agreementCleanup p .detach

theorem detachPort_eq (s : State) (p : Port) (f : Frame) :
    (s.dequeue p f).detachPort p = (s.detachCleaned p f).depart p := by
  have entered : (s.dequeue p f).modAttach p (fun a => { a with state := .cleaning }) = s.modPort p (PortState.leaving f) := by
    rw [dequeue_eq, State.modAttach_eq, State.modPort_modPort]
    rfl
  have departed (t : State) : (t.modAttach p fun a => { a with state := .detached }).modNotices p NoticeQueue.emptied
      = t.modPort p PortState.detached := by
    rw [State.modAttach_eq, State.modNotices_eq, State.modPort_modPort]
    rfl
  have emptied (t : State) : ((t.modPort p PortState.detached).port p).attach.emptied = t.ports[p].attach.emptied := by
    rw [State.port_eq, State.modPort_same]
    rfl
  have cleaned : (s.modPort p (PortState.leaving f)).cleanup p .detach = s.detachCleaned p f := by
    unfold State.cleanup State.detachCleaned State.cleaned
    rfl
  unfold State.detachPort State.depart
  dsimp only
  rw [entered, cleaned, departed, emptied]

theorem entering_leaving (f : Frame) (q : PortState) : Entering q (q.leaving f) := ⟨rfl, rfl, rfl, rfl⟩

section Depart

variable (s : State) (p : Port)

theorem depart_own : (s.depart p).ports[p] = { s.ports[p] with
    attach := { s.ports[p].attach with state := .detached, emptied := 0 }, notices := s.ports[p].notices.emptied } := by
  have pushed := Pushed.pushPeers (s.modPort p PortState.detached) p (peerNotice .peerDetached p s.ports[p].attach.emptied)
  rw [State.depart, State.modAttach_eq, State.modPort_same, pushed.port_of_nil (if_pos rfl), State.modPort_same]
  rfl

variable {p} in
theorem depart_tells {q : Port} (other : q ≠ p) :
    Tells s (s.depart p) q [peerNotice .peerDetached p s.ports[p].attach.emptied] := by
  have pushed := Pushed.pushPeers (s.modPort p PortState.detached) p (peerNotice .peerDetached p s.ports[p].attach.emptied)
  have told := pushed.tells q
  rw [if_neg other] at told
  have detached : Tells s (s.modPort p PortState.detached) q [] := .modPort s _ other
  rw [State.depart, State.modAttach_eq]
  exact (detached.trans rfl told).silent pushed.settings (.modPort _ _ other)

variable {p} in
/-- Of another port the departure reaches the notices. -/
theorem depart_other {q : Port} (other : q ≠ p) :
    (s.depart p).ports[q] = { s.ports[q] with notices := (s.depart p).ports[q].notices } := by
  have pushed := Pushed.pushPeers (s.modPort p PortState.detached) p (peerNotice .peerDetached p s.ports[p].attach.emptied)
  rw [State.depart, State.modAttach_eq, State.modPort_other _ _ other, pushed.ports q, State.modPort_other _ _ other]

theorem depart_shares : (s.depart p).shares = s.shares := by
  unfold State.depart
  rw [pushPeers_eq]
  exact pushWhere_shares ..

theorem depart_pool : (s.depart p).pool = s.pool :=
  (sameTables_pushPeers (s := s.modPort p PortState.detached) p _ allPorts).pool

theorem keeps_depart : Keeps s (s.depart p) :=
  ((keeps_modPort s p _).trans (keeps_pushPeers _ p _ allPorts)).trans (keeps_modAttach _ p _)

end Depart

/-! ## The answer of a DETACH -/

/-- The state behind a DETACH that passes its checks. -/
def State.detachDone (s : State) (p : Port) (f : Frame) : State :=
  ((s.detachCleaned p f).depart p).answer p f (Reply.ok .empty)

theorem exec_detach {s : State} {p : Port} {f : Frame} (takes : Takes s p kindDetach f) (attached : s.isAttached p = true)
    (body : f.body = []) : exec (.detach p) s = .next (s.detachDone p f) := by
  have served : serveDetach p f.body (s.dequeue p f) = ((s.detachCleaned p f).depart p, Reply.ok .empty) := by
    unfold serveDetach
    rw [dequeue_isAttached, attached, body, detachPort_eq]
    rfl
  exact takeAndAnswer_takes (serve := serveDetach p) takes served

theorem keepsCore_detachCleaned (s : State) (p : Port) (f : Frame) : KeepsCore s (s.detachCleaned p f) :=
  (keeps_cleaned s p _).toKeepsCore.trans (keepsCore_agreementCleanup _ p .detach)

/-- The close of an event that a proposal may have ended in. -/
theorem settle_frame {s u : State} (core : KeepsCore s u) : u.settle = { s with
    ports := u.settle.ports, shares := u.settle.shares, pool := u.settle.pool, proposal := u.settle.proposal
    settings := u.settle.settings, arbiter := u.settle.arbiter, restCountdown := u.settle.restCountdown } := by
  rw [settle_eq]
  obtain ⟨hmem, -, hcounter, hpower, -, hwarm, hreset, hfree, hpending⟩ := core
  cases u
  simp only at hmem hcounter hpower hwarm hreset hfree hpending
  subst hmem hcounter hpower hwarm hreset hfree hpending
  rfl

theorem detachDone_frame (s : State) (p : Port) (f : Frame) : s.detachDone p f = { s with
    ports := (s.detachDone p f).ports, shares := (s.detachDone p f).shares, pool := (s.detachDone p f).pool
    proposal := (s.detachDone p f).proposal, settings := (s.detachDone p f).settings
    arbiter := (s.detachDone p f).arbiter, restCountdown := (s.detachDone p f).restCountdown } :=
  settle_frame (((keepsCore_detachCleaned s p f).trans (keeps_depart _ p).toKeepsCore).trans
    (keeps_placeResponse _ p f.kind (Reply.ok .empty)).toKeepsCore)

theorem detachDone_shares (s : State) (p : Port) (f : Frame) : (s.detachDone p f).shares = (s.detachCleaned p f).shares :=
  (answer_shares ..).trans (depart_shares ..)

theorem detachDone_pool (s : State) (p : Port) (f : Frame) : (s.detachDone p f).pool = (s.detachCleaned p f).pool :=
  (answer_pool ..).trans (depart_pool ..)

/-- Of another port the answer and the departure reach no more than notices and the attention line. -/
theorem detachDone_other (s : State) {p q : Port} (f : Frame) (other : q ≠ p) : (s.detachDone p f).ports[q]
    = { (s.detachCleaned p f).ports[q] with
      notices := (s.detachDone p f).ports[q].notices, attention := (s.detachDone p f).ports[q].attention } := by
  have answered := answer_port ((s.detachCleaned p f).depart p) p f (Reply.ok .empty) q
  rw [answer_link_other _ _ _ _ other, depart_other _ other] at answered
  rw [State.detachDone, answered]

/-! ## The cleanup of a DETACH -/

section Cleanup

variable {s : State} {p : Port} {f : Frame}

/-- The Agreement Unit's part sees the proposal as it was. -/
theorem detachClears_cleaned (g : PortState → PortState) : (s.cleaned p g).detachClears p = s.detachClears p := by
  unfold State.detachClears
  rw [(keeps_cleaned s p g).proposal]

theorem detachCleaned_of_kept (kept : s.detachClears p = false) :
    NoticesOnly (s.cleaned p (PortState.leaving f)) (s.detachCleaned p f) :=
  noticesOnly_agreementCleanup ((detachClears_cleaned _).trans kept)

theorem detachCleaned_of_clears (clears : s.detachClears p = true) :
    NoticesOnly (s.cleaned p (PortState.leaving f)).adoptClearAll (s.detachCleaned p f) :=
  noticesOnly_agreementCleanup_of_clears ((detachClears_cleaned _).trans clears)

theorem detachCleaned_of_none (none_pending : s.proposal = none) :
    s.detachCleaned p f = s.cleaned p (PortState.leaving f) := by
  unfold State.detachCleaned State.agreementCleanup
  rw [(keeps_cleaned s p _).proposal, none_pending]

/-- A retired entry is not live when the CLEAR_ALL closes the others. -/
theorem fresh_of_live (idle : s.ports[p].stage.stage = .empty) {i : ShareIdx} (live : (s.leftByCleanup p i).live = true) :
    i ∉ s.retiring p := by
  have kept : s.ports[p].stage.stage.keeps := fun op waiting => by rw [idle] at waiting; cases waiting
  rw [retiring_of_kept kept]
  intro retired
  rw [leftByCleanup_of_kept kept, Share.live, free_of_retired retired] at live
  cases live

/-- The entries that retire when the CLEAR_ALL closes every share (R26, R11). -/
def State.closingAtClear (s : State) (p : Port) : List ShareIdx :=
  allShares.filter fun i => (s.leftByCleanup p i).live && (s.leftByCleanup p i).inUse == 0

/-- The retirements of the cleanup and of the CLEAR_ALL, in their order. -/
theorem swept_closed (idle : s.ports[p].stage.stage = .empty) :
    Swept s (allShares.foldl State.closeLive (s.cleaned p (PortState.leaving f))) p allHandles s.ports[p].stage.leftByCleanup
      (s.retiring p ++ s.closingAtClear p) := by
  have entering := entering_leaving f s.ports[p]
  have closed := entering.swept.closeLive_foldl (List.nodup_finRange 64) fun i _ live => by
    rw [entering.shares] at live
    exact fresh_of_live idle live
  have same : (allShares.filter fun i : ShareIdx => (s.cleaned p (PortState.leaving f)).shares[i].live
      && (s.cleaned p (PortState.leaving f)).shares[i].inUse == 0) = s.closingAtClear p :=
    List.filter_congr fun (i : ShareIdx) _ => by rw [entering.shares]
  rw [← same]
  exact closed

/-- A DETACH is taken with an EMPTY data stage, which stays (R102). -/
theorem leftByCleanup_of_idle {d : DataStage} (idle : d.stage = .empty) (gone : List ShareIdx) :
    d.leftByCleanup.steppedBy s gone = d := by
  rw [leftByCleanup_steppedBy, idle]

/-- A port's record behind the cleanup of its DETACH, `n` being the emptied-handle count. -/
def PortState.vacated (f : Frame) (n : Nat) (q : PortState) : PortState :=
  { q.leaving f with
    attach := { (q.leaving f).attach with emptied := n }
    handles := Vector.replicate 32 none
    posts := { (q.leaving f).posts.cleared with faults := 0 } }

/-- A CLEAR_ALL finds nothing left to empty. -/
theorem vacated_cleared (f : Frame) (n : Nat) (q : PortState) : q.vacated f n = { q.vacated f n with
    handles := Vector.replicate 32 none, stage := q.stage, posts := (q.vacated f n).posts.cleared } := rfl

theorem not_attached_of_vacated {t : State} {n : Nat} {q : PortState} (own : t.ports[p] = q.vacated f n) :
    t.isAttached p = false := by
  rw [State.isAttached, State.port_eq, own]
  rfl

theorem cleaned_own (idle : s.ports[p].stage.stage = .empty) : (s.cleaned p (PortState.leaving f)).ports[p]
    = s.ports[p].vacated f (s.cleaned p (PortState.leaving f)).ports[p].attach.emptied := by
  have own := (entering_leaving f s.ports[p]).own
  rw [leftByCleanup_of_idle idle] at own
  generalize (s.cleaned p (PortState.leaving f)).ports[p].attach.emptied = n at own ⊢
  exact own

/-- The port's own record, whatever became of a proposal. -/
theorem detachCleaned_own (idle : s.ports[p].stage.stage = .empty) : (s.detachCleaned p f).ports[p]
    = s.ports[p].vacated f (s.cleaned p (PortState.leaving f)).ports[p].attach.emptied := by
  have own := cleaned_own (f := f) idle
  generalize (s.cleaned p (PortState.leaving f)).ports[p].attach.emptied = n at own ⊢
  cases clears : s.detachClears p with
  | false => rw [(detachCleaned_of_kept clears).untold p (not_attached_of_vacated own), own]
  | true =>
    have cleared := adoptClearAll_ports (s.cleaned p (PortState.leaving f)) p
    rw [(swept_closed idle).stage_own, leftByCleanup_of_idle idle, own, ← vacated_cleared] at cleared
    rw [(detachCleaned_of_clears clears).untold p (not_attached_of_vacated cleared), cleared]

end Cleanup

section Done

variable {s : State} {p : Port} {f : Frame}

theorem detachDone_own (takes : Takes s p kindDetach f) (idle : s.ports[p].stage.stage = .empty) :
    (s.detachDone p f).port p = {
      link := (s.port p).link.answered f (Reply.ok .empty)
      attach := { (s.port p).attach with state := .detached, emptied := 0 }
      handles := Vector.replicate 32 none, stage := (s.port p).stage
      posts := { (s.port p).posts with posts := [], mode := .holding, timer := none, faults := 0 }
      notices := { (s.port p).notices with records := [], overflow := false, timer := none, aged := false }
      attention := ((s.detachDone p f).port p).attention } := by
  obtain ⟨-, kind, completed⟩ := takes
  have own := depart_own (s.detachCleaned p f) p
  rw [detachCleaned_own idle] at own
  have link := answer_link (s := s) (u := (s.detachCleaned p f).depart p) (f := f) (Reply.ok .empty) completed
    (kind ▸ by decide) (by rw [own, dequeue_eq, State.modPort_same]; rfl)
  rw [State.detachDone, State.port_eq, answer_port, link, own]
  rfl

/-- With no proposal pending every other port is told of the handovers, then of the departure (R139, R151). -/
theorem detachDone_told {q : Port} (none_pending : s.proposal = none) (other : q ≠ p) : Told s (s.detachDone p f) q
    (s.handedTo p q ++ [peerNotice .peerDetached p (s.cleaned p (PortState.leaving f)).ports[p].attach.emptied]) := by
  have cleaned : Tells s (s.detachCleaned p f) q (s.handedTo p q) := by
    rw [detachCleaned_of_none none_pending]
    exact cleaned_tells other
  have settings : (s.detachCleaned p f).settings = s.settings := by
    rw [detachCleaned_of_none none_pending]
    exact (keeps_cleaned s p _).settings
  have departed := depart_tells (s.detachCleaned p f) other
  rw [detachCleaned_of_none none_pending] at departed cleaned settings
  have answered : Tells ((s.cleaned p (PortState.leaving f)).depart p) (s.detachDone p f) q [] := by
    rw [State.detachDone, detachCleaned_of_none none_pending]
    refine .of_port ?_
    rw [answer_port, answer_link_other _ _ _ _ other]
  exact ((cleaned.trans settings departed).silent ((keeps_depart _ p).settings.trans settings) answered).told

theorem detachDone_onlyPortsSharesPool (none_pending : s.proposal = none) : OnlyPortsSharesPool s (s.detachDone p f) := by
  have cleaned : Keeps s (s.detachCleaned p f) := by
    rw [detachCleaned_of_none none_pending]
    exact keeps_cleaned s p _
  exact onlyPortsSharesPool_settle ((cleaned.trans (keeps_depart _ p)).trans (keeps_placeResponse _ p f.kind _))

/-- Without the adoption of a CLEAR_ALL the other ports are as at a HELLO (R147). -/
theorem detachDone_otherPortKept {q : Port} (kept : s.detachClears p = false) (other : q ≠ p) :
    OtherPortKept s (s.detachDone p f) (s.retiring p) q := by
  have port := detachDone_other s f other
  rw [(detachCleaned_of_kept kept).ports q] at port
  obtain ⟨link, attach, posts, stage, handles⟩ := (entering_leaving f s.ports[p]).otherPortKept other
  refine ⟨?_, ?_, ?_, ?_, fun k => ?_⟩
  · rw [← link, State.port_eq, State.port_eq, port]
  · rw [← attach, State.port_eq, State.port_eq, port]
  · rw [← posts, State.port_eq, State.port_eq, port]
  · rw [← stage, State.port_eq, State.port_eq, port]
  · rw [← handles k, State.handle_eq, State.handle_eq, port]

/-- The adoption of a CLEAR_ALL empties the other ports' tables and Post Buffers (R164). -/
theorem detachDone_other_of_clears {q : Port} (clears : s.detachClears p = true) (idle : s.ports[p].stage.stage = .empty)
    (other : q ≠ p) : (s.detachDone p f).port q = { s.port q with
      handles := Vector.replicate 32 none
      stage := { (s.port q).stage with
        stage := (s.port q).stage.stage.steppedBy s (s.retiring p ++ s.closingAtClear p) }
      posts := { (s.port q).posts with posts := [], mode := .holding, timer := none }
      notices := ((s.detachDone p f).port q).notices, attention := ((s.detachDone p f).port q).attention } := by
  have told := (cleaned_tells (s := s) (g := PortState.leaving f) other).port
  have cleared := adoptClearAll_ports (s.cleaned p (PortState.leaving f)) q
  rw [← State.port_eq (allShares.foldl _ _) q, (swept_closed idle).stage_other other, told] at cleared
  have port := detachDone_other s f other
  rw [(detachCleaned_of_clears clears).ports q, cleared] at port
  exact port

theorem detachDone_share_of_kept (kept : s.detachClears p = false) (i : ShareIdx) :
    (s.detachDone p f).share i = s.leftByCleanup p i := by
  rw [State.share_eq, detachDone_shares, (detachCleaned_of_kept kept).shares]
  exact (entering_leaving f s.ports[p]).shares i

theorem detachDone_share_of_clears (clears : s.detachClears p = true) (i : ShareIdx) :
    (s.detachDone p f).share i = { (s.leftByCleanup p i).closedIfLive with claim := none } := by
  rw [State.share_eq, detachDone_shares, (detachCleaned_of_clears clears).shares, adoptClearAll_shares,
    (entering_leaving f s.ports[p]).shares]

theorem detachDone_pool_of_kept (kept : s.detachClears p = false) :
    (s.detachDone p f).pool = s.pool.takeBack s (s.retiring p) := by
  rw [detachDone_pool, (detachCleaned_of_kept kept).pool]
  exact (entering_leaving f s.ports[p]).swept.pool

theorem detachDone_pool_of_clears (clears : s.detachClears p = true) (idle : s.ports[p].stage.stage = .empty) :
    (s.detachDone p f).pool = s.pool.takeBack s (s.retiring p ++ s.closingAtClear p) := by
  rw [detachDone_pool, (detachCleaned_of_clears clears).pool, adoptClearAll_pool]
  exact (swept_closed idle).pool

/-- The port that detached has no place in a claim record (R139, R164). -/
theorem detachDone_no_place {i : ShareIdx} {c : Claim} (record : ((s.detachDone p f).share i).claim = some c) :
    p ∉ c.places.map Prod.fst := by
  cases clears : s.detachClears p with
  | false =>
    rw [detachDone_share_of_kept clears] at record
    exact no_place_left record
  | true =>
    rw [detachDone_share_of_clears clears] at record
    cases record

end Done

/-- Settles O43: the cleanup, the Agreement Unit's part by whether it adopts a CLEAR_ALL, the departure, and the answer. -/
theorem detachLeavesNothingBehind : Obligations.DetachLeavesNothingBehind := by
  intro s p f takes attached body gone
  have idle : s.ports[p].stage.stage = .empty := by
    obtain ⟨next, -, -⟩ := takes
    obtain ⟨-, may⟩ := (nextRequest_some_iff s p f).mp next
    obtain ⟨-, -, empty, -, -⟩ := (mayTake_iff s p f).mp may
    exact empty
  refine ⟨s.detachDone p f, (s.cleaned p (PortState.leaving f)).ports[p].attach.emptied, exec_detach takes attached body,
    (entering_leaving f s.ports[p]).counted, detachDone_own takes idle, fun i c => detachDone_no_place,
    fun none_pending => ?_, fun kept => ?_, fun clears => ?_, detachDone_frame s p f⟩
  · exact ⟨fun q other => detachDone_told none_pending other, detachDone_onlyPortsSharesPool none_pending⟩
  · exact ⟨fun q other => detachDone_otherPortKept kept other, detachDone_share_of_kept kept, detachDone_pool_of_kept kept⟩
  · refine ⟨fun q other => detachDone_other_of_clears clears idle other, fun i live => ?_, fun i dead => ?_,
      detachDone_pool_of_clears clears idle⟩
    · rw [detachDone_share_of_clears clears, Share.closedIfLive, if_pos live]
    · rw [detachDone_share_of_clears clears, Share.closedIfLive, if_neg (Bool.eq_false_iff.mp dead)]

end Sys2Proof.Machine
end


-- ==== Sys2Proof/Proofs/Proposals.lean ====
section
/-! PROOFS. PROPOSE, VOTE and VOTE_WINDOW_EXPIRY (R156 to R160, R162): what a proposal's opening, its votes and its end leave of
every port, and the close of the events they happen in. -/

namespace Sys2Proof.Machine

/-! ## Pushes that an agreement makes -/

theorem keeps_pushWhere (s : State) (hears : Port → Bool) (n : Notice) (l : List Port) : Keeps s (s.pushWhere hears n l) := by
  unfold State.pushWhere
  refine Keeps.foldl (fun t q => ?_) l s
  split
  · exact keeps_push t q n
  · exact .refl t

theorem push_pool (s : State) (q : Port) (n : Notice) : (s.push q n).pool = s.pool := by
  unfold State.push
  split <;> rfl

theorem pushWhere_pool (s : State) (hears : Port → Bool) (n : Notice) (l : List Port) :
    (s.pushWhere hears n l).pool = s.pool := by
  unfold State.pushWhere
  induction l generalizing s with
  | nil => rfl
  | cons q l ih =>
    rw [List.foldl_cons, ih]
    split
    · exact push_pool ..
    · rfl

/-- The proposal is set to `o`, and a notice is pushed to the ports that hear it. -/
theorem agreed_pushWhere (s : State) (o : Option Proposal) (hears : Port → Bool) (n : Notice) :
    Agreed s ({ s with proposal := o }.pushWhere hears n allPorts) o fun q => if hears q then [n] else [] := by
  have set := agreed_setProposal s o
  have keeps := keeps_pushWhere { s with proposal := o } hears n allPorts
  exact ⟨(set.pushed.trans (Pushed.pushWhere _ hears n)).congr fun q => List.nil_append _, pushWhere_shares ..,
    pushWhere_pool .., set.core.trans keeps.toKeepsCore, keeps.arbiter, keeps.proposal⟩

/-- The end of an adopted proposal behind its adoption (R162). -/
theorem agreed_adopted (s : State) (pr : Proposal) : Agreed (s.adopt pr.action) (s.endProposal pr .adopted) none fun q =>
    if pr.hears .adopted q then [proposalNotice .proposalDecided pr.proposer pr.id 1] else [] := by
  unfold State.endProposal
  rw [if_pos rfl, pushDecided_eq]
  exact agreed_pushWhere ..

theorem pushOpened_eq (s : State) (pr : Proposal) (l : List Port) : s.pushOpened pr l
    = s.pushWhere (fun q => pr.voters[q]) (proposalNotice .proposalOpened pr.proposer pr.id pr.action.code) l := by
  induction l generalizing s with
  | nil => rfl
  | cons q l ih =>
    unfold State.pushOpened
    rw [ih]
    rfl

/-- The voters of a proposal that opens are told PROPOSAL_OPENED (R158). -/
theorem agreed_pushOpened (s : State) (pr : Proposal) :
    Agreed s ({ s with proposal := some pr }.pushOpened pr allPorts) (some pr) fun q =>
      if pr.voters[q] then [proposalNotice .proposalOpened pr.proposer pr.id pr.action.code] else [] := by
  rw [pushOpened_eq]
  exact agreed_pushWhere ..

/-! ## The close of the event of a request -/

/-- `d` is what the take of request `f` hands its service, but for what an adoption changes (R162). -/
structure Handed (s : State) (p : Port) (f : Frame) (d : State) : Prop where
  ports : ∀ q : Port, d.ports[q] = { (s.dequeue p f).ports[q] with
    handles := d.ports[q].handles, stage := d.ports[q].stage, posts := d.ports[q].posts }
  core : KeepsCore s d

theorem handed_dequeue (s : State) (p : Port) (f : Frame) : Handed s p f (s.dequeue p f) :=
  ⟨fun _ => rfl, (keeps_dequeue s p f).toKeepsCore⟩

/-- An adoption changes of a port no more than handles, data stage and posts (R163, R164). -/
theorem adopt_ports (s : State) (action : ProposalAction) (q : Port) : (s.adopt action).ports[q] = { s.ports[q] with
    handles := (s.adopt action).ports[q].handles
    stage := (s.adopt action).ports[q].stage
    posts := (s.adopt action).ports[q].posts } := by
  cases action with
  | settings r => rfl
  | clearAll => rw [State.adopt, adoptClearAll_ports]

theorem handed_adopt (s : State) (p : Port) (f : Frame) (action : ProposalAction) :
    Handed s p f ((s.dequeue p f).adopt action) :=
  ⟨adopt_ports _ action, (keeps_dequeue s p f).toKeepsCore.trans (keepsCore_adopt _ action)⟩

/-- The state `t` at the close of the event of port `p`'s request `f`, answered with `r`, whose agreement left the proposal `o`
and pushed these notices in the state `d`. -/
structure Concluded (s d t : State) (p : Port) (f : Frame) (r : Reply) (o : Option Proposal) (ns : Port → List Notice) :
    Prop where
  settings : t.settings = d.settings
  arbiter : t.arbiter = d.arbiter
  proposal : t.proposal = o
  shares : t.shares = d.shares
  pool : t.pool = d.pool
  link : (t.port p).link = (s.port p).link.answered f r
  link_other : ∀ q : Port, q ≠ p → (t.port q).link = (s.port q).link
  notices : ∀ q : Port, (t.port q).notices
    = if s.isAttached q then (s.port q).notices.pushAll d.settings (ns q) else (s.port q).notices
  port : ∀ q : Port, t.port q = { s.port q with
    link := (t.port q).link
    handles := (d.port q).handles, stage := (d.port q).stage, posts := (d.port q).posts
    notices := (t.port q).notices, attention := (t.port q).attention }
  frame : t = { s with
    ports := t.ports, shares := t.shares, pool := t.pool, proposal := t.proposal, settings := t.settings
    arbiter := t.arbiter, restCountdown := t.restCountdown }

theorem Handed.isAttached {s d : State} {p : Port} {f : Frame} (h : Handed s p f d) (q : Port) :
    d.isAttached q = s.isAttached q := by
  rw [← dequeue_isAttached s p f q, State.isAttached, State.port_eq, h.ports q]
  rfl

/-- What an agreement makes of the state its service is handed, at the close of the event (R162, R102). -/
theorem Handed.concluded {s d u : State} {p : Port} {kind : Byte} {f : Frame} {o : Option Proposal} {ns : Port → List Notice}
    (handed : Handed s p f d) (agreed : Agreed d u o ns) (takes : Takes s p kind f) (post : kind ≠ kindPost) (r : Reply) :
    Concluded s d (u.answer p f r) p f r o ns := by
  obtain ⟨-, rfl, completed⟩ := takes
  refine ⟨(State.settle_settings _).trans agreed.pushed.settings, (State.settle_arbiter _).trans agreed.arbiter,
    (State.settle_proposal _).trans agreed.proposal, (answer_shares ..).trans agreed.shares,
    (answer_pool ..).trans agreed.pool, answer_link r completed post (by rw [agreed.pushed.ports p, handed.ports p]),
    fun q other => ?_, fun q => ?_, fun q => ?_,
    settle_frame ((handed.core.trans agreed.core).trans (keeps_placeResponse _ p f.kind r).toKeepsCore)⟩
  · rw [State.port_eq, answer_link_other _ _ _ _ other, agreed.pushed.ports q, handed.ports q]
    exact dequeue_link_other s p f other
  · have told := agreed.pushed.told q
    have before : (d.port q).notices = (s.port q).notices := by
      rw [State.port_eq, handed.ports q, dequeue_port]
      rfl
    unfold Told at told
    rw [handed.isAttached, before] at told
    rw [← told, State.port_eq, answer_port]
    rfl
  · rw [State.port_eq, answer_port, agreed.pushed.ports q, handed.ports q, dequeue_port]
    rfl

namespace Concluded

variable {s d t : State} {p : Port} {f : Frame} {r : Reply} {o : Option Proposal} {ns : Port → List Notice}
  (h : Concluded s d t p f r o ns)

include h

/-- The ports are told under the settings that stay. -/
theorem told (settings : d.settings = s.settings) (q : Port) : Told s t q (ns q) := by
  unfold Told
  rw [h.notices q, settings]

/-- A port that is told nothing keeps its queue. -/
theorem notices_of_untold {q : Port} (untold : ns q = []) : (t.port q).notices = (s.port q).notices := by
  rw [h.notices q, untold]
  exact ite_self _

theorem notices_of_absent {q : Port} (absent : s.isAttached q = false) : (t.port q).notices = (s.port q).notices := by
  rw [h.notices q, absent]
  rfl

/-- A take that adopts no CLEAR_ALL changes of a port no more than link, notices and attention line. -/
theorem port_of_kept (ports : d.ports = (s.dequeue p f).ports) (q : Port) : t.port q = { s.port q with
    link := (t.port q).link, notices := (t.port q).notices, attention := (t.port q).attention } := by
  have port := h.port q
  rw [State.port_eq d, ports, dequeue_port] at port
  exact port

end Concluded

/-! ## PROPOSE (R157, R158) -/

/-- The body of a PROPOSE spells this action (R157). -/
def Proposes (body : List Byte) (action : ProposalAction) : Prop :=
  body = [1] ∧ action = .clearAll
    ∨ ∃ bytes r, body = 0 :: bytes ∧ bytes.length = 28 ∧ proposedSettings bytes = some r ∧ action = .settings r

theorem servePropose_of_proposes {s : State} {p : Port} {body : List Byte} {action : ProposalAction}
    (attached : s.isAttached p = true) (none_pending : s.proposal = none) (proposes : Proposes body action) :
    servePropose p body s = s.openProposal p action := by
  unfold servePropose
  rw [attached, none_pending]
  obtain ⟨rfl, rfl⟩ | ⟨bytes, r, rfl, length, record, rfl⟩ := proposes
  · rfl
  · have fields : proposeFields (0 :: bytes) = some (.settings bytes) := by simp [proposeFields, length]
    simp only [fields, record, Bool.true_eq_false, Bool.false_eq_true, Option.isSome_none, if_false]

/-- The id counter has stepped (R156). -/
def State.counted (s : State) : State := { s with proposalCounter := nextProposalId s.proposalCounter }

theorem votersFor_get (s : State) (p q : Port) : (s.votersFor p)[q] = (q != p && s.isAttached q) := by
  simp [State.votersFor]

theorem dequeue_newProposal (s : State) (p : Port) (f : Frame) (action : ProposalAction) :
    (s.dequeue p f).newProposal p action = s.newProposal p action := by
  have voters : (s.dequeue p f).votersFor p = s.votersFor p := Vector.ext fun k hk => by
    have entry := votersFor_get (s.dequeue p f) p ⟨k, hk⟩
    rw [dequeue_isAttached, ← votersFor_get] at entry
    exact entry
  unfold State.newProposal
  rw [voters]
  rfl

/-- There is no voter just when no other port is ATTACHED (R158). -/
theorem votersFor_isEmpty_iff (s : State) (p : Port) :
    (s.votersFor p).isEmpty = true ↔ ∀ q : Port, q ≠ p → s.isAttached q = false := by
  unfold PortSet.isEmpty
  rw [List.all_eq_true]
  refine forall_congr' fun q => ?_
  rw [votersFor_get]
  simp only [mem_allPorts, true_imp_iff, Bool.not_and, Bool.or_eq_true, Bool.not_eq_true', bne_eq_false_iff_eq]
  exact or_iff_not_imp_left

/-- The notices of a proposal that is adopted (R162). -/
def Proposal.adoptedTo (pr : Proposal) (q : Port) : List Notice :=
  if pr.hears .adopted q then [proposalNotice .proposalDecided pr.proposer pr.id 1] else []

section Propose

variable {s : State} {p : Port} {f : Frame} {action : ProposalAction} (takes : Takes s p 0x60 f)
  (attached : s.isAttached p = true) (none_pending : s.proposal = none) (proposes : Proposes f.body action)

include takes attached none_pending proposes

/-- A PROPOSE that passes its checks opens its proposal, or adopts it at once, and is answered (R158). -/
theorem exec_propose {u : State} {r : Reply} (opened : (s.dequeue p f).openProposal p action = (u, r)) :
    exec (.propose p) s = .next (u.answer p f r) :=
  takeAndAnswer_takes (serve := servePropose p) takes
    ((servePropose_of_proposes ((dequeue_isAttached s p f p).trans attached) none_pending proposes).trans opened)

/-- A PROPOSE with another port ATTACHED opens its proposal. -/
theorem exec_propose_of_voters {q0 : Port} (other : q0 ≠ p) (voter : s.isAttached q0 = true) :
    ∃ t, exec (.propose p) s = .next t ∧ Concluded s.counted (s.counted.dequeue p f) t p f
      (proposalReply .queued (s.newProposal p action) .pending) (some (s.newProposal p action)) fun q =>
        if (s.newProposal p action).voters[q] then
          [proposalNotice .proposalOpened p (s.newProposal p action).id action.code]
        else [] := by
  have some_voter : ¬ (s.newProposal p action).voters.isEmpty = true := fun empty =>
    Bool.noConfusion (((votersFor_isEmpty_iff s p).mp empty q0 other).symm.trans voter)
  refine ⟨_, exec_propose takes attached none_pending proposes ?_,
    (handed_dequeue s.counted p f).concluded (agreed_pushOpened _ (s.newProposal p action)) takes (by decide) _⟩
  unfold State.openProposal
  rw [dequeue_newProposal]
  exact if_neg some_voter

/-- A PROPOSE with no other port ATTACHED is adopted at once. -/
theorem exec_propose_of_alone (alone : ∀ q : Port, q ≠ p → s.isAttached q = false) :
    ∃ t, exec (.propose p) s = .next t ∧ Concluded s.counted ((s.counted.dequeue p f).adopt action) t p f
      (proposalReply .ok (s.newProposal p action) .adopted) none (s.newProposal p action).adoptedTo := by
  have no_voter : (s.newProposal p action).voters.isEmpty = true := (votersFor_isEmpty_iff s p).mpr alone
  refine ⟨_, exec_propose takes attached none_pending proposes ?_, (handed_adopt s.counted p f action).concluded
    (agreed_adopted (s.counted.dequeue p f) (s.newProposal p action)) takes (by decide) _⟩
  unfold State.openProposal
  rw [dequeue_newProposal]
  exact if_pos no_voter

end Propose

theorem ProposalAction.code_eq (action : ProposalAction) : action.code = if action = .clearAll then 1 else 0 := by
  cases action with
  | settings r => exact (if_neg nofun).symm
  | clearAll => rfl

/-- Settles O45: the notices are those of `agreed_pushOpened`, in the state whose id counter has stepped. -/
theorem proposeOpensAProposal : Obligations.ProposeOpensAProposal := by
  intro s p q0 f action takes attached none_pending other voter proposes id
  obtain ⟨t, executed, c⟩ := exec_propose_of_voters takes attached none_pending proposes other voter
  have voters := votersFor_get s p
  have port := c.port_of_kept rfl
  have frame := c.frame
  rw [c.shares, c.pool, c.settings, c.arbiter] at frame
  have counter : t.proposalCounter = id := (congrArg State.proposalCounter frame :)
  refine ⟨t, s.votersFor p, executed, voters, c.proposal, counter, ?_, fun q other => ⟨?_, ?_⟩, ?_⟩
  · have untold : (s.newProposal p action).voters[p] = false :=
      (voters p).trans (by rw [bne_self_eq_false, Bool.false_and])
    have same := port p
    rw [c.link, c.notices_of_untold (q := p) (if_neg (Bool.eq_false_iff.mp untold))] at same
    exact same
  · refine (c.notices q).trans (if_ctx_congr Iff.rfl (fun attached => ?_) fun _ => rfl)
    have votes : (s.newProposal p action).voters[q] = true := (voters q).trans (by rw [attached, bne_iff_ne.mpr other]; rfl)
    rw [if_pos votes, ProposalAction.code_eq]
    rfl
  · have same := port q
    rw [c.link_other q other] at same
    exact same
  · rw [counter]
    exact frame

/-! ## VOTE (R159) -/

theorem set_true_eq_iff (v w : PortSet) (p : Port) :
    v.set p true = w ↔ w[p] = true ∧ ∀ q : Port, q ≠ p → v[q] = w[q] := by
  constructor
  · rintro rfl
    refine ⟨by simp, fun q other => ?_⟩
    simp [Ne.symm (Fin.val_ne_of_ne other)]
  · rintro ⟨own, others⟩
    refine Vector.ext fun k hk => ?_
    rw [Vector.getElem_set]
    split
    · next here =>
      subst here
      exact own.symm
    · next other => exact others ⟨k, hk⟩ fun e => other (congrArg Fin.val e).symm

/-- The proposal with the accept of port `p`. -/
def Proposal.acceptedBy (pr : Proposal) (p : Port) : Proposal := { pr with accepted := pr.accepted.set p true }

theorem serveVote_of_voter {s : State} {p : Port} {b choice : Byte} {accept : Bool} {pr : Proposal}
    (attached : s.isAttached p = true) (flag : flagOfByte choice = some accept) (pending : s.proposal = some pr)
    (id : pr.id = b.toNat) (voter : pr.voters[p] = true) (fresh : pr.accepted[p] = false) :
    serveVote p [b, choice] s = s.castVote p pr accept := by
  unfold serveVote
  rw [attached, pending, voteFields, flag]
  simp only [Option.map_some, id, voter, fresh, Bool.true_eq_false, Bool.false_eq_true, ne_eq, not_true_eq_false, if_false]

section Vote

variable {s : State} {p : Port} {f : Frame} {b : Byte} {pr : Proposal} (takes : Takes s p 0x61 f)
  (attached : s.isAttached p = true) (pending : s.proposal = some pr) (id : pr.id = b.toNat)
  (voter : pr.voters[p] = true) (fresh : pr.accepted[p] = false)

include takes attached pending id voter fresh

theorem exec_vote {choice : Byte} {accept : Bool} (body : f.body = [b, choice]) (flag : flagOfByte choice = some accept)
    {u : State} {r : Reply} (cast : (s.dequeue p f).castVote p pr accept = (u, r)) :
    exec (.vote p) s = .next (u.answer p f r) := by
  refine takeAndAnswer_takes (serve := serveVote p) takes ?_
  rw [body, serveVote_of_voter ((dequeue_isAttached s p f p).trans attached) flag pending id voter fresh, cast]

/-- A reject ends the proposal. -/
theorem exec_vote_of_reject (body : f.body = [b, 0]) : ∃ t, exec (.vote p) s = .next t
    ∧ Concluded s (s.dequeue p f) t p f (proposalReply .ok pr .rejected) none fun q =>
      if q = pr.proposer ∨ pr.voters[q] = true then [proposalNotice .proposalDecided pr.proposer pr.id 2] else [] :=
  ⟨_, exec_vote takes attached pending id voter fresh body rfl rfl,
    (handed_dequeue s p f).concluded (agreed_endProposal _ pr (by decide)) takes (by decide) _⟩

/-- An accept that leaves a vote missing is recorded. -/
theorem exec_vote_of_missing (body : f.body = [b, 1]) {q0 : Port} (other : q0 ≠ p)
    (missing : pr.accepted[q0] ≠ pr.voters[q0]) : ∃ t, exec (.vote p) s = .next t
      ∧ Concluded s (s.dequeue p f) t p f (proposalReply .ok pr .pending) (some (pr.acceptedBy p)) fun _ => [] := by
  have incomplete : ¬ ((pr.acceptedBy p).accepted == (pr.acceptedBy p).voters) = true := fun complete =>
    missing (((set_true_eq_iff _ _ p).mp (beq_iff_eq.mp complete)).2 q0 other)
  exact ⟨_, exec_vote takes attached pending id voter fresh body rfl (if_neg incomplete),
    (handed_dequeue s p f).concluded (agreed_setProposal _ _) takes (by decide) _⟩

/-- The accept that completes the set adopts the proposal. -/
theorem exec_vote_of_complete (body : f.body = [b, 1]) (others : ∀ q : Port, q ≠ p → pr.accepted[q] = pr.voters[q]) :
    ∃ t, exec (.vote p) s = .next t ∧ Concluded s ((s.dequeue p f).adopt pr.action) t p f
      (proposalReply .ok pr .adopted) none pr.adoptedTo := by
  have complete : ((pr.acceptedBy p).accepted == (pr.acceptedBy p).voters) = true :=
    beq_iff_eq.mpr ((set_true_eq_iff _ _ p).mpr ⟨voter, others⟩)
  exact ⟨_, exec_vote takes attached pending id voter fresh body rfl (if_pos complete),
    (handed_adopt s p f pr.action).concluded (agreed_adopted _ (pr.acceptedBy p)) takes (by decide) _⟩

end Vote

/-! ## A proposal that is not adopted (R159, R160) -/

theorem execVoteWindowExpiry_of_running {s : State} {pr : Proposal} (running : s.running = true)
    (pending : s.proposal = some pr) (timer : pr.timer.isSome = true) :
    exec .voteWindowExpiry s = .next (s.endProposal pr .lapsed).settle := by
  show execVoteWindowExpiry s = _
  unfold execVoteWindowExpiry
  rw [pending]
  exact if_pos (Bool.and_eq_true_iff.mpr ⟨running, timer⟩)

/-- Settles O48: no table of a port changes, and nobody is told but at an end. -/
theorem proposalEndsWithoutAdoption : Obligations.ProposalEndsWithoutAdoption := by
  refine ⟨fun s p f b pr takes attached pending id voter fresh => ⟨fun body ⟨q0, other, missing⟩ => ?_, fun body => ?_⟩,
    fun s pr running pending timer => ?_⟩
  · obtain ⟨t, executed, c⟩ := exec_vote_of_missing takes attached pending id voter fresh body other missing
    have port := c.port_of_kept rfl
    have frame := c.frame
    rw [c.shares, c.pool, c.settings, c.arbiter] at frame
    refine ⟨t, executed, c.proposal, ?_, fun q hq => ?_, frame⟩
    · have same := port p
      rw [c.link, c.notices_of_untold (q := p) rfl] at same
      exact same
    · have same := port q
      rw [c.link_other q fun e => hq (List.mem_singleton.mpr e), c.notices_of_untold (q := q) rfl] at same
      exact same
  · obtain ⟨t, executed, c⟩ := exec_vote_of_reject takes attached pending id voter fresh body
    have frame := c.frame
    rw [c.shares, c.pool, c.settings, c.arbiter, c.proposal] at frame
    exact ⟨t, executed, c.proposal, c.link, fun q => ⟨c.told rfl q, c.port_of_kept rfl q, c.link_other q⟩, frame⟩
  · have ends := agreed_endProposal s pr (o := .lapsed) (by decide)
    have frame := settle_frame ends.core
    rw [State.settle_shares, State.settle_pool, State.settle_settings, State.settle_arbiter, State.settle_proposal,
      ends.shares, ends.pool, ends.pushed.settings, ends.arbiter, ends.proposal] at frame
    refine ⟨_, execVoteWindowExpiry_of_running running pending timer, (State.settle_proposal _).trans ends.proposal,
      fun q => ⟨?_, ?_⟩, frame⟩
    · exact (ends.pushed.told q).of_notices rfl rfl rfl (by rw [State.settle_get])
    · rw [State.port_eq, State.settle_get, ends.pushed.ports q]
      rfl

end Sys2Proof.Machine
end

