-- ==== Sys2Proof/Proofs/Adoptions.lean ====
section
/-! PROOFS. The adoption of a proposal at a PROPOSE or a VOTE (R158, R159, R162): of a settings record, which is installed whole
(R163), and of CLEAR_ALL, which closes every share and empties every table, claim record and Post Buffer (R164). -/

namespace Sys2Proof.Machine

/-! ## The adoption of a settings record (R163) -/

theorem adoptedTo_of_settings {pr : Proposal} {r : Settings} (action : pr.action = .settings r) (q : Port) :
    pr.adoptedTo q = if q == pr.proposer || pr.voters[q] then
      [proposalNotice .proposalDecided pr.proposer pr.id 1] else [] := by
  unfold Proposal.adoptedTo Proposal.hears
  rw [action, show (ProposalAction.settings r == .clearAll) = false from rfl, Bool.and_false, Bool.or_false]

theorem Concluded.notices_of_settings {s d t : State} {p : Port} {f : Frame} {a : Reply} {o : Option Proposal}
    {pr : Proposal} {r : Settings} (c : Concluded s d t p f a o pr.adoptedTo) (action : pr.action = .settings r) (q : Port) :
    (t.port q).notices = if s.isAttached q && (q == pr.proposer || pr.voters[q]) then
        (s.port q).notices.pushAll d.settings [proposalNotice .proposalDecided pr.proposer pr.id 1]
      else (s.port q).notices := by
  rw [c.notices q, adoptedTo_of_settings action]
  cases s.isAttached q <;> cases q == pr.proposer || pr.voters[q] <;> rfl

/-- Settles O46: `Concluded` in the state in which the record is installed. -/
theorem settingsAreAdoptedWhole : Obligations.SettingsAreAdoptedWhole := by
  constructor
  · intro s p f bytes r takes attached none_pending alone body length record id
    obtain ⟨t, executed, c⟩ := exec_propose_of_alone takes attached none_pending
      (.inr ⟨bytes, r, body, length, record, rfl⟩) alone
    have port := c.port_of_kept rfl
    have frame := c.frame
    rw [c.shares, c.pool] at frame
    have counter : t.proposalCounter = id := (congrArg State.proposalCounter frame :)
    refine ⟨t, executed, c.settings, c.arbiter, c.proposal, counter, ?_, fun q hq => ?_, ?_⟩
    · have same := port p
      have hears : (s.counted.isAttached p && (p == p || (s.newProposal p (.settings r)).voters[p])) = true := by
        rw [show s.counted.isAttached p = true from attached, beq_self_eq_true]
        rfl
      rw [c.link, (c.notices_of_settings rfl p).trans (if_pos hears)] at same
      exact same
    · have other : q ≠ p := fun e => hq (List.mem_singleton.mpr e)
      have same := port q
      rw [c.link_other q other, c.notices_of_absent (alone q other)] at same
      exact same
    · rw [counter]
      exact frame
  · intro s p f b pr r takes attached body pending id voter fresh complete action
    obtain ⟨t, executed, c⟩ := exec_vote_of_complete takes attached pending id voter fresh body complete
    rw [action] at c
    have frame := c.frame
    rw [c.shares, c.pool] at frame
    refine ⟨t, executed, c.settings, c.arbiter, c.proposal, c.link, fun q => ⟨?_, c.link_other q⟩, frame⟩
    have same := c.port_of_kept rfl q
    rw [c.notices_of_settings action q] at same
    exact same

/-! ## The adoption of CLEAR_ALL (R164) -/

theorem adoptedTo_of_clearAll {pr : Proposal} (action : pr.action = .clearAll) (q : Port) :
    pr.adoptedTo q = [proposalNotice .proposalDecided pr.proposer pr.id 1] := by
  unfold Proposal.adoptedTo Proposal.hears
  rw [action, beq_self_eq_true, beq_self_eq_true, Bool.and_self, Bool.or_true]
  rfl

/-- The entries that retire when a CLEAR_ALL closes every share of `s` (R26, R11). -/
def State.closingNow (s : State) : List ShareIdx := allShares.filter fun i => (s.share i).live && (s.share i).inUse == 0

/-- The retirements of a CLEAR_ALL, in their order. -/
theorem swept_closeLive (s : State) (p : Port) :
    Swept s (allShares.foldl State.closeLive s) p [] s.ports[p].stage s.closingNow := by
  have closed := (Swept.refl s p).closeLive_foldl (l := allShares) (List.nodup_finRange 64) fun _ _ _ => List.not_mem_nil
  unfold State.closingNow
  simpa only [State.share_eq, List.nil_append] using closed

theorem adoptClearAll_stage (s : State) (q : Port) : s.adoptClearAll.ports[q].stage
    = s.ports[q].stage.steppedBy s s.closingNow := by
  have port := adoptClearAll_ports s q
  have stepped := (swept_closeLive s q).stage_own
  generalize allShares.foldl State.closeLive s = t at port stepped
  rw [port]
  exact stepped

/-- What the adoption of a CLEAR_ALL makes of the tables, at the close of the event of the request that completed its set. -/
structure Cleared (s t : State) (p : Port) (f : Frame) (pr : Proposal) : Prop where
  live : ∀ i : ShareIdx, (s.share i).live = true → t.share i = { (s.share i).closed with claim := none }
  dead : ∀ i : ShareIdx, (s.share i).live = false → t.share i = { s.share i with claim := none }
  handles : ∀ (q : Port) (h : HandleNo), t.handle q h = none
  ports : ∀ q : Port, (t.port q).posts = { (s.port q).posts with posts := [], mode := .holding, timer := none }
    ∧ (t.port q).attach = (s.port q).attach
    ∧ (t.port q).stage = { (s.port q).stage with stage := (s.port q).stage.stage.steppedBy s s.closingNow }
    ∧ Told s t q [proposalNotice .proposalDecided pr.proposer pr.id 1]
    ∧ (q ≠ p → (t.port q).link = (s.port q).link)
  link : (t.port p).link = (s.port p).link.answered f (Reply.ok (.vote pr.id .adopted))
  pool : t.pool = s.pool.takeBack s s.closingNow
  frame : t = { s with ports := t.ports, shares := t.shares, pool := t.pool, proposal := none
                       restCountdown := t.restCountdown }

theorem Concluded.cleared {s t : State} {p : Port} {f : Frame} {pr : Proposal} (action : pr.action = .clearAll)
    (c : Concluded s (s.dequeue p f).adoptClearAll t p f (proposalReply .ok pr .adopted) none pr.adoptedTo) :
    Cleared s t p f pr := by
  have keeps := keeps_adoptClearAll (s.dequeue p f)
  have frame := c.frame
  rw [c.settings, c.arbiter, keeps.settings, keeps.arbiter, c.proposal] at frame
  have share (i : ShareIdx) : t.share i = { (s.share i).closedIfLive with claim := none } := by
    rw [State.share_eq, c.shares, adoptClearAll_shares]
    rfl
  have port (q : Port) : (s.dequeue p f).adoptClearAll.port q = { (s.dequeue p f).ports[q] with
      handles := Vector.replicate 32 none
      stage := { s.ports[q].stage with stage := s.ports[q].stage.stage.steppedBy s s.closingNow }
      posts := s.ports[q].posts.cleared } := by
    have stage := adoptClearAll_stage (s.dequeue p f) q
    rw [adoptClearAll_ports] at stage
    rw [State.port_eq, adoptClearAll_ports, stage, dequeue_port]
    rfl
  refine ⟨fun i live => ?_, fun i dead => ?_, fun q h => ?_, fun q => ⟨?_, ?_, ?_, ?_, c.link_other q⟩, c.link, ?_, frame⟩
  · rw [share, Share.closedIfLive, if_pos live]
  · rw [share, Share.closedIfLive, if_neg (Bool.eq_false_iff.mp dead)]
  · have handles : (t.port q).handles = Vector.replicate 32 none := by rw [c.port q, port]
    rw [State.handle, handles]
    exact Vector.getElem_replicate h.isLt
  · rw [c.port q, port]
    rfl
  · rw [c.port q]
  · rw [c.port q, port]
    rfl
  · have told := c.told keeps.settings q
    rw [adoptedTo_of_clearAll action] at told
    exact told
  · rw [c.pool, adoptClearAll_pool, (swept_closeLive (s.dequeue p f) p).pool]
    rfl

/-- Settles O47: both ways of adoption leave what `Cleared` says, the PROPOSE with the id counter stepped. -/
theorem clearAllClosesEverything : Obligations.ClearAllClosesEverything := by
  intro s p f c proposer id attached adopts closing
  obtain ⟨rfl, takes, body, none_pending, alone, rfl, rfl⟩ | ⟨b, pr, rfl, takes, body, pending, same, voter, fresh, complete,
    action, rfl, rfl⟩ := adopts
  · obtain ⟨t, executed, concluded⟩ := exec_propose_of_alone takes attached none_pending (.inl ⟨body, rfl⟩) alone
    obtain ⟨live, dead, handles, ports, link, pool, frame⟩ := concluded.cleared rfl
    have counter : t.proposalCounter = nextProposalId s.proposalCounter := (congrArg State.proposalCounter frame :)
    refine ⟨t, executed, live, dead, handles, ports, link, pool, concluded.proposal, counter.trans (if_pos rfl).symm, ?_⟩
    rw [counter]
    exact frame
  · obtain ⟨t, executed, concluded⟩ := exec_vote_of_complete takes attached pending same voter fresh body complete
    rw [action] at concluded
    obtain ⟨live, dead, handles, ports, link, pool, frame⟩ := concluded.cleared action
    have counter : t.proposalCounter = s.proposalCounter := (congrArg State.proposalCounter frame :)
    refine ⟨t, executed, live, dead, handles, ports, link, pool, concluded.proposal, counter.trans (if_neg nofun).symm, ?_⟩
    rw [counter]
    exact frame

end Sys2Proof.Machine
end

