-- ==== Sys2Proof/Proofs/CleanupAgreement.lean ====
section
/-! PROOFS. What the cleanup of a port makes of a pending proposal (R161), at a HELLO and at a DETACH, and what the other ports
are told, in which order (R162, R139, R151). -/

namespace Sys2Proof.Machine

/-! ## At a HELLO -/

/-- The notices of the end that a HELLO of port `p` brings about, for another port. -/
theorem decidedAtHello_of_pending {s : State} {p q : Port} {pr : Proposal} (pending : s.proposal = some pr) (other : q ≠ p) :
    s.decidedAtHello p q =
      if pr.proposer = p ∧ pr.voters[q] = true then [proposalNotice .proposalDecided p pr.id 4]
      else if pr.proposer ≠ p ∧ pr.voters[p] = true ∧ (q = pr.proposer ∨ pr.voters[q] = true) then
        [proposalNotice .proposalDecided pr.proposer pr.id 5]
      else [] := by
  unfold State.decidedAtHello
  rw [pending]
  by_cases own : pr.proposer = p
  · simp [own, other]
  · simp [own]

/-- The count depends on the port's own record and on generations alone. -/
theorem EmptiedCount.congr {s s' : State} {p : Port} {n : Nat} (h : EmptiedCount s p n)
    (emptied : (s'.port p).attach.emptied = (s.port p).attach.emptied)
    (handles : (s'.port p).handles = (s.port p).handles) (shares : s'.shares = s.shares) : EmptiedCount s' p n := by
  unfold EmptiedCount State.handle State.share at h ⊢
  rw [emptied, handles, shares]
  exact h

/-- The close of its transaction changes nothing of what a HELLO tells another port. -/
theorem toldAtHello_afterHello (s : State) (p q : Port) (status : Byte) (n : Nat) :
    (s.modLink p (Link.afterHello status)).toldAtHello p q n = s.toldAtHello p q n := by
  have own : (s.modLink p (Link.afterHello status)).port p = { s.port p with link := (s.port p).link.afterHello status } :=
    State.modPort_same ..
  unfold State.toldAtHello
  rw [own]
  rfl

/-- A HELLO with a proposal pending: `helloCleansThePort`, said of the state before the rise of select. -/
theorem hello_ends_proposal {s : State} {p : Port} {status tag : Byte} {pr : Proposal} (reset : s.resetLow = false)
    (power : s.power = .run) (transaction : (s.port p).link.transaction = some { status := status, phase := .request 0x01 })
    (state : (s.port p).attach.state ≠ .cleaning) (pending : s.proposal = some pr) :
    ∃ (t : State) (n : Nat), exec (.hello p tag) s = .next t
      ∧ t.proposal = (if pr.proposer = p ∨ pr.voters[p] = true then none else some pr)
      ∧ t.settings = s.settings ∧ t.arbiter = s.arbiter ∧ t.proposalCounter = s.proposalCounter
      ∧ EmptiedCount s p n ∧ ∀ q : Port, q ≠ p → Told s t q (s.toldAtHello p q n) := by
  obtain ⟨-, t, executed, taken, -, -⟩ := helloCleansThePort s p status tag reset power transaction state
  have taken : HelloTaken (s.modLink p (Link.afterHello status)) t p tag [] := taken
  obtain ⟨n, counted, -, others, -, -, proposal, frame⟩ := taken
  have own : (s.modLink p (Link.afterHello status)).port p = { s.port p with link := (s.port p).link.afterHello status } :=
    State.modPort_same ..
  refine ⟨t, n, executed, ?_, (congrArg State.settings frame :), (congrArg State.arbiter frame :),
    (congrArg State.proposalCounter frame :), counted.congr ?_ ?_ rfl, fun q other => ?_⟩
  · rw [proposal]
    refine (congrArg (fun x : Option Proposal => if x.any _ then none else x) pending).trans (if_congr ?_ rfl rfl)
    rw [Option.any_some, Bool.or_eq_true, beq_iff_eq]
  · rw [own]
  · rw [own]
  · have told := (others q other).1
    rw [toldAtHello_afterHello] at told
    have same : (s.modLink p (Link.afterHello status)).ports[q] = s.ports[q] := State.modPort_other s _ other
    exact told.of_notices (by rw [same]) (by rw [same]) rfl rfl

/-! ## At a DETACH -/

/-- No voter is left without port `p`, or every one left has accepted. -/
theorem decidedWithout_iff (pr : Proposal) (p : Port) : pr.decidedWithout p = true
    ↔ (∀ q : Port, q ≠ p → pr.voters[q] = false) ∨ (∀ q : Port, q ≠ p → pr.accepted[q] = pr.voters[q]) := by
  unfold Proposal.decidedWithout Proposal.without
  rw [isEmpty_set_false, set_false_beq, Bool.or_eq_true, List.all_eq_true, List.all_eq_true]
  simp only [mem_allPorts, true_imp_iff, Bool.or_eq_true, beq_iff_eq, Bool.not_eq_true', or_iff_not_imp_left]

/-- The notices of a proposal that ends with the outcome of this code, which is 1 at an adoption (R162). -/
def Proposal.decidedTo (pr : Proposal) (code : Nat) (q : Port) : List Notice :=
  if q = pr.proposer ∨ pr.voters[q] = true ∨ (code = 1 ∧ pr.action = .clearAll) then
    [proposalNotice .proposalDecided pr.proposer pr.id code]
  else []

theorem decidedTo_of_dropped (pr : Proposal) {code : Nat} (dropped : code ≠ 1) (q : Port) : pr.decidedTo code q =
    if q = pr.proposer ∨ pr.voters[q] = true then [proposalNotice .proposalDecided pr.proposer pr.id code] else [] :=
  if_congr (or_congr_right (or_iff_left fun adopted => dropped adopted.1)) rfl rfl

/-- Of an adoption the ports other than the voter that detached hear as if it had stayed. -/
theorem adoptedTo_without (pr : Proposal) {p q : Port} (other : q ≠ p) :
    (pr.without p).adoptedTo q = pr.decidedTo 1 q := by
  have voter : (pr.without p).voters[q] = pr.voters[q] := by
    simp [Proposal.without, Ne.symm (Fin.val_ne_of_ne other)]
  unfold Proposal.adoptedTo Proposal.hears Proposal.decidedTo
  rw [voter]
  refine if_congr ?_ rfl rfl
  simp [Proposal.without, or_assoc]

/-- The state `t` at the close of a DETACH of port `p` with the emptied-handle count `n`: its cleanup, up to the adoption of a
proposal, led to `d`, and the Agreement Unit pushed these notices there and left the proposal `o`. -/
structure Departed (s d t : State) (p : Port) (n : Nat) (o : Option Proposal) (ns : Port → List Notice) : Prop where
  proposal : t.proposal = o
  settings : t.settings = d.settings
  arbiter : t.arbiter = d.arbiter
  notices : ∀ q : Port, q ≠ p → (t.port q).notices = if s.isAttached q then
      ((s.port q).notices.pushAll s.settings (s.handedTo p q)).pushAll t.settings
        (ns q ++ [peerNotice .peerDetached p n])
    else (s.port q).notices

theorem adopt_attach (s : State) (action : ProposalAction) (q : Port) :
    (s.adopt action).ports[q].attach = s.ports[q].attach := by rw [adopt_ports]

theorem adopt_notices (s : State) (action : ProposalAction) (q : Port) :
    (s.adopt action).ports[q].notices = s.ports[q].notices := by rw [adopt_ports]

/-- The notices of a DETACH, in their order: the handovers under the settings as they were, then, under those that stand behind
an adoption, the decision and the departure (R139, R162, R151, R175). -/
theorem detachDone_departed (s : State) (p : Port) (f : Frame) : ∃ n, EmptiedCount s p n
    ∧ ∀ {d : State} {o : Option Proposal} {ns : Port → List Notice}, Agreed d (s.detachCleaned p f) o ns →
      (∀ q : Port, d.ports[q].attach = (s.cleaned p (PortState.leaving f)).ports[q].attach) →
      (∀ q : Port, d.ports[q].notices = (s.cleaned p (PortState.leaving f)).ports[q].notices) →
      Departed s d (s.detachDone p f) p n o ns := by
  refine ⟨(s.cleaned p (PortState.leaving f)).ports[p].attach.emptied, (entering_leaving f s.ports[p]).counted,
    fun {d o ns} agreed attach notices => ?_⟩
  have keeps := keeps_depart (s.detachCleaned p f) p
  have settings : (s.detachDone p f).settings = d.settings :=
    (State.settle_settings _).trans (keeps.settings.trans agreed.pushed.settings)
  refine ⟨(State.settle_proposal _).trans (keeps.proposal.trans agreed.proposal), settings,
    (State.settle_arbiter _).trans (keeps.arbiter.trans agreed.arbiter), fun q other => ?_⟩
  have emptied : (s.detachCleaned p f).ports[p].attach.emptied
      = (s.cleaned p (PortState.leaving f)).ports[p].attach.emptied := by
    rw [agreed.pushed.ports p, attach p]
  have handed := cleaned_tells (s := s) (g := PortState.leaving f) other
  have attached : d.isAttached q = s.isAttached q := by
    rw [← handed.isAttached, State.isAttached, State.isAttached, State.port_eq, State.port_eq, attach q]
  have before : (d.port q).notices = ((s.cleaned p (PortState.leaving f)).port q).notices := notices q
  have answered : Tells ((s.detachCleaned p f).depart p) (s.detachDone p f) q [] := by
    refine .of_port ?_
    rw [State.detachDone, answer_port, answer_link_other _ _ _ _ other]
  have told := (((agreed.pushed.tells q).trans agreed.pushed.settings (depart_tells _ other)).silent
    (keeps.settings.trans agreed.pushed.settings) answered).told
  have first := handed.told
  unfold Told at told first
  rw [told, attached, before, first, settings, emptied]
  split <;> rfl

theorem closedIfLive_live (sh : Share) : sh.closedIfLive.live = false := by
  unfold Share.closedIfLive
  split
  · unfold Share.closed
    split <;> rfl
  · next dead => exact Bool.eq_false_iff.mpr dead

section Detach

variable {s : State} {p : Port} {f : Frame} {pr : Proposal}

/-- What a CLEAR_ALL leaves of every table when a DETACH completes its set (R164). -/
theorem detachDone_cleared (takes : Takes s p kindDetach f) (idle : s.ports[p].stage.stage = .empty)
    (clears : s.detachClears p = true) : (∀ i : ShareIdx, ((s.detachDone p f).share i).live = false
      ∧ ((s.detachDone p f).share i).claim = none)
    ∧ ∀ q : Port, (∀ k : HandleNo, (s.detachDone p f).handle q k = none) ∧ ((s.detachDone p f).port q).posts.posts = [] := by
  refine ⟨fun i => ?_, fun q => ?_⟩
  · rw [detachDone_share_of_clears clears]
    exact ⟨closedIfLive_live _, rfl⟩
  · unfold State.handle
    by_cases own : q = p
    · subst own
      rw [detachDone_own takes idle]
      exact ⟨fun k => Vector.getElem_replicate k.isLt, rfl⟩
    · rw [detachDone_other_of_clears clears idle own]
      exact ⟨fun k => Vector.getElem_replicate k.isLt, rfl⟩

variable (pending : s.proposal = some pr)
include pending

theorem detachCleaned_of_pending : s.detachCleaned p f
    = if pr.proposer = p then (s.cleaned p (PortState.leaving f)).endProposal pr .withdrawn
      else if pr.voters[p] then
        if pr.decidedWithout p then (s.cleaned p (PortState.leaving f)).endProposal (pr.without p) .adopted
        else { s.cleaned p (PortState.leaving f) with proposal := some (pr.without p) }
      else s.cleaned p (PortState.leaving f) :=
  agreementCleanup_detach p ((keeps_cleaned s p _).proposal.trans pending)

/-- The DETACH of the proposer withdraws the proposal. -/
theorem agreed_detach_of_proposer (proposer : pr.proposer = p) :
    Agreed (s.cleaned p (PortState.leaving f)) (s.detachCleaned p f) none fun q =>
      if q = pr.proposer ∨ pr.voters[q] = true then [proposalNotice .proposalDecided pr.proposer pr.id 4] else [] := by
  rw [detachCleaned_of_pending pending, if_pos proposer]
  exact agreed_endProposal _ pr (by decide)

variable (proposer : pr.proposer ≠ p)
include proposer

/-- The DETACH of a port that is neither proposer nor voter leaves the proposal. -/
theorem agreed_detach_of_neither (voter : pr.voters[p] = false) :
    Agreed (s.cleaned p (PortState.leaving f)) (s.detachCleaned p f) (some pr) fun _ => [] := by
  rw [detachCleaned_of_pending pending, if_neg proposer, if_neg (Bool.eq_false_iff.mp voter), ← pending,
    ← (keeps_cleaned s p (PortState.leaving f)).proposal]
  exact agreed_same _

variable (voter : pr.voters[p] = true)
include voter

/-- The DETACH of a voter that completes the set adopts the proposal. -/
theorem agreed_detach_of_decided (decided : pr.decidedWithout p = true) :
    Agreed ((s.cleaned p (PortState.leaving f)).adopt pr.action) (s.detachCleaned p f) none (pr.without p).adoptedTo := by
  rw [detachCleaned_of_pending pending, if_neg proposer, if_pos voter, if_pos decided]
  exact agreed_adopted _ (pr.without p)

/-- The DETACH of a voter that leaves a vote missing reduces the proposal. -/
theorem agreed_detach_of_missing (missing : ¬ pr.decidedWithout p = true) :
    Agreed (s.cleaned p (PortState.leaving f)) (s.detachCleaned p f) (some (pr.without p)) fun _ => [] := by
  rw [detachCleaned_of_pending pending, if_neg proposer, if_pos voter, if_neg missing]
  exact agreed_setProposal _ _

end Detach

/-- Settles O44: a HELLO by `hello_ends_proposal`; a DETACH by its port's place in the proposal, as `Departed` says. -/
theorem cleanupEndsOrReducesTheProposal : Obligations.CleanupEndsOrReducesTheProposal := by
  constructor
  · intro s p status tag pr reset power transaction state pending decided
    obtain ⟨t, n, executed, proposal, settings, arbiter, counter, counted, told⟩ :=
      hello_ends_proposal (tag := tag) reset power transaction state pending
    refine ⟨t, n, executed, proposal, settings, arbiter, counter, counted, fun q other => ?_⟩
    have notices := told q other
    rw [State.toldAtHello, decidedAtHello_of_pending pending other] at notices
    exact notices
  · intro s p f pr takes attached body pending settingsStay told
    have idle := StepInvariant.stage_empty_of_next takes.1
    have keeps := keeps_cleaned s p (PortState.leaving f)
    have counter : (s.detachDone p f).proposalCounter = s.proposalCounter :=
      (congrArg State.proposalCounter (detachDone_frame s p f) :)
    have detached : ((s.detachDone p f).port p).attach.state = .detached := by rw [detachDone_own takes idle]
    have stays {o : Option Proposal} {ns : Port → List Notice} {n : Nat}
        (c : Departed s (s.cleaned p (PortState.leaving f)) (s.detachDone p f) p n o ns) :
        settingsStay (s.detachDone p f) := ⟨c.settings.trans keeps.settings, c.arbiter.trans keeps.arbiter⟩
    obtain ⟨n, counted, departed⟩ := detachDone_departed s p f
    refine ⟨s.detachDone p f, n, exec_detach takes attached body, counted, detached, counter, fun proposer => ?_,
      fun proposer voter => ?_, fun proposer voter => ⟨fun decided => ?_, fun ⟨q0, other0, votes⟩ ⟨q1, other1, missing⟩ => ?_⟩⟩
    · have c := departed (agreed_detach_of_proposer (f := f) pending proposer) (fun _ => rfl) fun _ => rfl
      refine ⟨c.proposal, stays c, fun q other => ?_⟩
      have notices := c.notices q other
      rw [← decidedTo_of_dropped pr (by decide)] at notices
      exact notices
    · have c := departed (agreed_detach_of_neither (f := f) pending proposer voter) (fun _ => rfl) fun _ => rfl
      exact ⟨c.proposal, stays c, c.notices⟩
    · have decided := (decidedWithout_iff pr p).mpr decided
      have c := departed (agreed_detach_of_decided (f := f) pending proposer voter decided) (adopt_attach _ _)
        (adopt_notices _ _)
      refine ⟨c.proposal, fun q other => ?_, fun r action => ?_, fun action => ?_⟩
      · have notices := c.notices q other
        rw [adoptedTo_without pr other] at notices
        exact notices
      · rw [action] at c
        exact ⟨c.settings, c.arbiter.trans
          (congrArg (fun a : Arbiter => { a with table := r.phaseTable, pointer := 0 }) keeps.arbiter)⟩
      · rw [action] at c
        have clears := (detachClears_iff p pending).mpr ⟨action, proposer, voter, decided⟩
        have cleared := keeps.trans (keeps_adoptClearAll _)
        obtain ⟨shares, ports⟩ := detachDone_cleared takes idle clears
        exact ⟨⟨c.settings.trans cleared.settings, c.arbiter.trans cleared.arbiter⟩, shares, ports⟩
    · have undecided : ¬ pr.decidedWithout p = true := fun decided => by
        obtain none_left | all_accept := (decidedWithout_iff pr p).mp decided
        · exact Bool.noConfusion ((none_left q0 other0).symm.trans votes)
        · exact missing (all_accept q1 other1)
      have c := departed (agreed_detach_of_missing (f := f) pending proposer voter undecided) (fun _ => rfl) fun _ => rfl
      exact ⟨c.proposal, stays c, c.notices⟩

end Sys2Proof.Machine
end

