-- ==== Sys2Proof/Proofs/LinesAndCountdown.lean ====
section
/-! PROOFS. The attention lines and the rest countdown (R176, R188): what the close of an event makes of both, and that every
command either does nothing, closes its event with the countdown as it stood, or stops the countdown. -/

namespace Sys2Proof.Machine

/-! ## The close of an event -/

/-- The condition of the rest countdown (R188). -/
def State.countsDown (s : State) : Bool := s.running && s.settings.restDelay != 0 && s.idle

theorem countdownDriven_iff (s : State) : CountdownDriven s ↔ s.restCountdown.isSome = s.countsDown := Iff.rfl

/-- Idleness of the ports' records, claims, proposal and pool is all that the condition asks of them. -/
theorem countsDown_congr {s t : State} (running : t.running = s.running) (settings : t.settings = s.settings)
    (ports : ∀ p : Port, (t.port p).idle = (s.port p).idle) (shares : t.shares = s.shares)
    (proposal : t.proposal = s.proposal) (pool : t.pool = s.pool) : t.countsDown = s.countsDown := by
  simp only [State.countsDown, State.idle, State.share_eq, running, settings, ports, shares, proposal, pool]

theorem settle_running (s : State) : s.settle.running = s.running := by
  simp only [State.running, State.settle_resetLow, State.settle_power]

/-- An attention line takes no part in its port's conditions (R176). -/
theorem settle_calls (s : State) (p : Port) : (s.settle.port p).calls = (s.port p).calls := by
  rw [State.port_eq, State.settle_get]
  rfl

theorem settle_countsDown (s : State) : s.settle.countsDown = s.countsDown :=
  countsDown_congr (settle_running s) (State.settle_settings s) (fun p => by rw [State.port_eq, State.settle_get]; rfl)
    (State.settle_shares s) (State.settle_proposal s) (State.settle_pool s)

theorem attentionDriven_settle (s : State) : AttentionDriven s.settle := by
  intro running p
  rw [settle_running] at running
  rw [settle_calls, State.port_eq, State.settle_get, if_pos running]
  rfl

theorem driveAttention_restCountdown (s : State) : s.driveAttention.restCountdown = s.restCountdown := by
  unfold State.driveAttention
  split <;> rfl

theorem driveAttention_settings (s : State) : s.driveAttention.settings = s.settings := by
  unfold State.driveAttention
  split <;> rfl

theorem driveAttention_countsDown (s : State) : s.driveAttention.countsDown = s.countsDown := by
  unfold State.driveAttention
  split
  · refine countsDown_congr rfl rfl (fun p => ?_) rfl rfl rfl
    rw [State.port_eq, State.mapPorts_get]
    rfl
  · rfl

theorem driveCountdown_restCountdown (s : State) : s.driveCountdown.restCountdown
    = if s.countsDown then some (s.restCountdown.getD (s.settings.restDelay * 1000)) else none := by
  unfold State.driveCountdown State.countsDown
  split <;> rfl

/-- While its condition holds the countdown keeps its deadline or starts in full; else it is stopped (R188). -/
theorem settle_restCountdown (s : State) : s.settle.restCountdown
    = if s.countsDown then some (s.restCountdown.getD (s.settings.restDelay * 1000)) else none := by
  rw [State.settle, driveCountdown_restCountdown, driveAttention_countsDown, driveAttention_restCountdown,
    driveAttention_settings]

theorem countdownDriven_settle (s : State) : CountdownDriven s.settle := by
  rw [countdownDriven_iff, settle_restCountdown, settle_countsDown]
  cases s.countsDown <;> rfl

/-- Where the countdown runs at the close of an event, it kept its deadline or started in full (R188). -/
theorem settle_restCountdown_of_runs {s : State} (runs : s.settle.restCountdown.isSome = true) : s.settle.restCountdown
    = if s.restCountdown.isSome then s.restCountdown else some (s.settle.settings.restDelay * 1000) := by
  rw [settle_restCountdown] at runs ⊢
  rw [State.settle_settings]
  split at runs
  · next counts =>
    rw [if_pos counts]
    cases s.restCountdown <;> rfl
  · cases runs

/-! ## What a step can do to the lines and the countdown -/

/-- `t` is `s`, or the close of an event that had left the countdown to it, or a state in which the countdown is stopped. -/
inductive Closed (s : State) : State → Prop
  | unchanged : Closed s s
  | event {u : State} (left : u.restCountdown = s.restCountdown) : Closed s u.settle
  | stopped {t : State} (lines : AttentionDriven t) (driven : CountdownDriven t) (stopped : t.restCountdown = none) : Closed s t

namespace Closed

variable {s t : State} (h : Closed s t)
include h

theorem attentionDriven (before : AttentionDriven s) : AttentionDriven t := by
  cases h with
  | unchanged => exact before
  | event _ => exact attentionDriven_settle _
  | stopped lines _ _ => exact lines

theorem countdownDriven (before : CountdownDriven s) : CountdownDriven t := by
  cases h with
  | unchanged => exact before
  | event _ => exact countdownDriven_settle _
  | stopped _ driven _ => exact driven

theorem restCountdown (runs : t.restCountdown.isSome = true) : t.restCountdown
    = if s.restCountdown.isSome then s.restCountdown else some (t.settings.restDelay * 1000) := by
  cases h with
  | unchanged => rw [if_pos runs]
  | event left =>
    rw [← left]
    exact settle_restCountdown_of_runs runs
  | stopped _ _ stopped =>
    rw [stopped] at runs
    cases runs

end Closed

/-! ## Operations that leave the countdown to the close of their event -/

section Left

variable (s : State)

theorem keeps_claimShare (p : Port) (h : HandleNo) (i : ShareIdx) (wait : Bool) :
    Keeps s (s.claimShare p h i wait).1 := by
  unfold State.claimShare
  split
  · exact keeps_setClaim s i _
  split
  · exact .refl s
  split
  · exact .refl s
  split
  · exact keeps_setClaim s i _
  · exact .refl s

theorem keeps_releaseClaim (p : Port) (i : ShareIdx) : Keeps s (s.releaseClaim p i).1 := by
  unfold State.releaseClaim
  split
  · exact .refl s
  split
  · exact keeps_handover s i _
  split
  · exact keeps_setClaim s i _
  · exact .refl s

theorem keeps_renewClaim (p : Port) (i : ShareIdx) : Keeps s (s.renewClaim p i).1 := by
  unfold State.renewClaim
  split
  · exact .refl s
  split
  · exact keeps_setClaim s i _
  · exact .refl s

theorem keepsCore_detachPort (p : Port) : KeepsCore s (s.detachPort p) := by
  have cleaned := (keeps_modAttach s p fun a => { a with state := .cleaning }).toKeepsCore.trans
    (keepsCore_cleanup _ p .detach)
  unfold State.detachPort
  dsimp only
  refine .trans (.trans (cleaned.trans ?_) (keeps_pushPeers _ p _ allPorts).toKeepsCore) (keeps_modAttach _ p _).toKeepsCore
  exact ((keeps_modAttach _ p _).trans (keeps_modNotices _ p _)).toKeepsCore

theorem keeps_pushOpened (pr : Proposal) (l : List Port) : Keeps s (s.pushOpened pr l) := by
  induction l generalizing s with
  | nil => exact .refl s
  | cons q l ih =>
    unfold State.pushOpened
    split
    · exact (keeps_push _ _ _).trans (ih _)
    · exact ih s

theorem keeps_drainForHead (p : Port) : Keeps s (s.drainForHead p) := by
  unfold State.drainForHead
  split
  · exact .refl s
  split
  · exact .refl s
  · exact keeps_modPosts s p _

theorem keeps_takePost (p : Port) (body : List Byte) : Keeps s (s.takePost p body) := by
  unfold State.takePost
  split
  · exact keeps_modPosts s p _
  · exact .refl s

theorem keepsCore_judge (p : Port) (kind : Byte) (bytes : List Byte) (bits : Nat) :
    KeepsCore s (s.judge p kind bytes bits) := by
  unfold State.judge
  split
  · exact (keeps_modLink s p _).toKeepsCore
  split
  · exact keepsCore_arriveHello s p _
  split
  · exact (keeps_modLink s p _).toKeepsCore
  unfold State.admitFrame
  dsimp only
  split
  · exact ((keeps_modLink s p _).trans (keeps_drainForHead _ p)).toKeepsCore
  · exact (keeps_modLink s p _).toKeepsCore

theorem keepsCore_takePending_foldl (l : List Port) : KeepsCore s (l.foldl State.takePending s) := by
  induction l generalizing s with
  | nil => exact .refl s
  | cons p l ih => exact (keepsCore_takePending s p).trans (ih _)

theorem restCountdown_wake : s.wake.restCountdown = s.restCountdown := by
  unfold State.wake
  split <;> rfl

theorem restCountdown_openProposal (p : Port) (a : ProposalAction) :
    (s.openProposal p a).1.restCountdown = s.restCountdown := by
  unfold State.openProposal
  dsimp only
  split
  · exact (keepsCore_endProposal _ _ _).restCountdown
  · exact (keeps_pushOpened _ _ _).restCountdown

theorem restCountdown_castVote (p : Port) (pr : Proposal) (accept : Bool) :
    (s.castVote p pr accept).1.restCountdown = s.restCountdown := by
  unfold State.castVote
  split
  · dsimp only
    split
    · exact (keepsCore_endProposal s _ _).restCountdown
    · rfl
  · exact (keepsCore_endProposal s _ _).restCountdown

theorem restCountdown_completeBurst (p : Port) (op : Operation) (f : FrameNo) (captured : List Byte) :
    (s.completeBurst p op f captured).restCountdown = s.restCountdown := by
  unfold State.completeBurst
  dsimp only
  split
  · exact (keeps_endOperation s p op none).restCountdown
  split
  · exact (keeps_endOperation _ p op _).restCountdown
  all_goals exact (keeps_advance _ p _).restCountdown

/-! ## The services of requests: a check that fails leaves the state as it is -/

variable (p : Port) (body : List Byte)

theorem restCountdown_serveCreate : (serveCreate p body s).1.restCountdown = s.restCountdown := by
  unfold serveCreate
  iterate 8 (split; rfl)
  exact (keeps_makeShare s p _ _ _).restCountdown

theorem restCountdown_serveAttach : (serveAttach p body s).1.restCountdown = s.restCountdown := by
  unfold serveAttach
  iterate 7 (split; rfl)
  exact (keeps_makeHandle s p _ _).restCountdown

theorem restCountdown_serveGrant : (serveGrant p body s).1.restCountdown = s.restCountdown := by
  unfold serveGrant
  iterate 10 (split; rfl)
  exact ((keeps_makeHandle s _ _ _).trans (keeps_push _ _ _)).restCountdown

theorem restCountdown_serveClose : (serveClose p body s).1.restCountdown = s.restCountdown := by
  unfold serveClose
  split
  · rfl
  · exact (keeps_closeShare s p _).restCountdown

theorem restCountdown_serveRevoke : (serveRevoke p body s).1.restCountdown = s.restCountdown := by
  unfold serveRevoke
  split
  · rfl
  · exact (keeps_revokeShare s p _ _).restCountdown

theorem restCountdown_serveInfo : (serveInfo p body s).1.restCountdown = s.restCountdown :=
  StepInvariant.serveInfo (P := fun t => t.restCountdown = s.restCountdown) p body rfl

theorem restCountdown_serveDrop : (serveDrop p body s).1.restCountdown = s.restCountdown := by
  unfold serveDrop
  iterate 2 (split; rfl)
  split
  · split
    · rfl
    · exact ((keeps_claimDrop s p _ _).trans (keeps_emptyHandle _ p _)).restCountdown
  · rfl

theorem restCountdown_serveClaim : (serveClaim p body s).1.restCountdown = s.restCountdown := by
  unfold serveClaim
  split
  · rfl
  · exact (keeps_claimShare s p _ _ _).restCountdown

theorem restCountdown_serveRelease : (serveRelease p body s).1.restCountdown = s.restCountdown := by
  unfold serveRelease
  split
  · rfl
  · exact (keeps_releaseClaim s p _).restCountdown

theorem restCountdown_serveRenew : (serveRenew p body s).1.restCountdown = s.restCountdown := by
  unfold serveRenew
  split
  · rfl
  · exact (keeps_renewClaim s p _).restCountdown

theorem restCountdown_servePropose : (servePropose p body s).1.restCountdown = s.restCountdown := by
  unfold servePropose
  iterate 3 (split; rfl)
  split
  · exact restCountdown_openProposal s p _
  split
  · rfl
  · exact restCountdown_openProposal s p _

theorem restCountdown_serveVote : (serveVote p body s).1.restCountdown = s.restCountdown := by
  unfold serveVote
  iterate 6 (split; rfl)
  exact restCountdown_castVote s p _ _

/-- A service of an empty body whose act leaves the countdown. -/
theorem restCountdown_emptyBody {act : State × Reply} (left : act.1.restCountdown = s.restCountdown) :
    (if s.isAttached p = false then refuse .notAttached s
      else if body ≠ [] then refuse .badFrame s else act).1.restCountdown = s.restCountdown :=
  StepInvariant.emptyBody (P := fun t => t.restCountdown = s.restCountdown) left rfl

theorem restCountdown_serveDetach : (serveDetach p body s).1.restCountdown = s.restCountdown :=
  restCountdown_emptyBody s p body (keepsCore_detachPort s p).restCountdown

theorem restCountdown_serveList : (serveList p body s).1.restCountdown = s.restCountdown := restCountdown_emptyBody s p body rfl

theorem restCountdown_serveSettings : (serveSettings p body s).1.restCountdown = s.restCountdown :=
  restCountdown_emptyBody s p body rfl

theorem restCountdown_serveFlush : (serveFlush p body s).1.restCountdown = s.restCountdown :=
  restCountdown_emptyBody s p body (keeps_modPosts s p _).restCountdown

theorem restCountdown_serveNotices : (serveNotices p body s).1.restCountdown = s.restCountdown :=
  restCountdown_emptyBody s p body (keeps_modNotices s p _).restCountdown

end Left

/-! ## Commands -/

section Commands

variable {s : State}

theorem closed_took {u : State} (left : u.restCountdown = s.restCountdown) : Leads (Closed s) True (took u) := .event left

theorem closed_takeBy {p : Port} {isKind : Byte → Bool} {act : Frame → State → State}
    (left : ∀ f t, (act f t).restCountdown = t.restCountdown) : Leads (Closed s) True (s.takeBy p isKind act) := by
  unfold State.takeBy
  split
  · next f _ =>
    split
    · exact closed_took ((left f _).trans (keeps_dequeue s p f).restCountdown)
    · exact .unchanged
  · exact .unchanged

theorem closed_serve {p : Port} {kind : Byte} {serve : Service}
    (left : ∀ t body, (serve body t).1.restCountdown = t.restCountdown) :
    Leads (Closed s) True (s.takeAndAnswer p kind serve) :=
  closed_takeBy fun f t => (keeps_placeResponse _ p kind _).restCountdown.trans (left t f.body)

theorem closed_takeData {p : Port} {kind : Byte} {k : DataKind} : Leads (Closed s) True (s.takeData p kind k) := by
  refine closed_takeBy fun f t => ?_
  split
  · exact (keeps_placeResponse t p kind _).restCountdown
  · exact (keeps_admit t p k _).restCountdown

theorem closed_execPost (p : Port) : Leads (Closed s) True (execPost p s) :=
  closed_takeBy fun f t => ((keeps_takePost t p f.body).trans (keeps_drainForHead _ p)).restCountdown

theorem closed_execUnknownRequest (p : Port) : Leads (Closed s) True (execUnknownRequest p s) :=
  closed_takeBy fun f t => (keeps_placeResponse t p f.kind _).restCountdown

theorem closed_execPostRelease (p : Port) : Leads (Closed s) True (execPostRelease p s) := by
  have released := keeps_modPosts s p PostBuffer.release
  unfold execPostRelease
  split
  · exact .unchanged
  dsimp only
  split
  · exact closed_took ((released.trans (keeps_push _ _ _)).trans (keeps_modPosts _ p _)).restCountdown
  · exact closed_took (released.trans (keeps_admit _ p _ _)).restCountdown

theorem closed_execBurstCompletion (p : Port) : Leads (Closed s) True (execBurstCompletion p s) := by
  unfold execBurstCompletion
  split
  · split
    · exact closed_took ((keeps_finishCleanup _ p).restCountdown.trans (restCountdown_completeBurst s.freePath p _ _ _))
    · exact .unchanged
  · exact .unchanged

theorem closed_grantPort {d : State} (left : d.restCountdown = s.restCountdown) (p : Port) (op : Operation) :
    Leads (Closed s) True (d.grantPort p op) := by
  unfold State.grantPort
  split
  · exact closed_took (((keeps_endOperation d p op _).trans (keeps_finishCleanup _ p)).restCountdown.trans left)
  split
  · trivial
  · exact closed_took ((keeps_setStage _ p _).restCountdown.trans left)

/-- What the decision grants the path to waits for it (R116, R117). -/
theorem waits_of_decision {r : Requester} {pointer : Fin 16} (decided : s.decision = some (r, pointer)) : s.waits r = true := by
  unfold State.decision at decided
  split at decided
  · next found =>
    cases decided
    exact List.find?_some (p := fun k => s.waits s.arbiter.table[k]) found
  · split at decided
    · next scrub =>
      cases decided
      exact scrub
    · cases decided

theorem waiting_of_waits {p : Port} (waits : s.waits (.port p) = true) : ∃ op, (s.port p).stage.stage = .waiting op := by
  unfold State.waits at waits
  dsimp only at waits
  split at waits
  · next op stage => exact ⟨op, stage⟩
  all_goals cases waits

theorem closed_grantTo {d : State} (left : d.restCountdown = s.restCountdown) {r : Requester} (waits : d.waits r = true) :
    Leads (Closed s) True (d.grantTo r) := by
  cases r with
  | scrub => exact closed_took left
  | port p =>
    obtain ⟨op, stage⟩ := waiting_of_waits waits
    unfold State.grantTo
    dsimp only
    rw [stage]
    exact closed_grantPort left p op

theorem closed_execGrantDecision : Leads (Closed s) True (execGrantDecision s) := by
  unfold execGrantDecision
  split
  · split
    · next r pointer decided =>
      exact closed_grantTo (s := s) (d := { s with arbiter := { s.arbiter with pointer := pointer } }) rfl
        (waits_of_decision decided :)
    · exact .unchanged
  · exact .unchanged

theorem closed_execScrubBurstCompletion : Leads (Closed s) True (execScrubBurstCompletion s) := by
  unfold execScrubBurstCompletion
  split
  · split
    · exact closed_took rfl
    · exact closed_took rfl
  · exact .unchanged

theorem closed_execLeaseExpiry (i : ShareIdx) : Leads (Closed s) True (execLeaseExpiry i s) := by
  unfold execLeaseExpiry
  split
  · split
    · exact closed_took ((keeps_push s _ _).trans (keeps_handover _ i _)).restCountdown
    · exact .unchanged
  · exact .unchanged

theorem closed_execVoteWindowExpiry : Leads (Closed s) True (execVoteWindowExpiry s) := by
  unfold execVoteWindowExpiry
  split
  · split
    · exact closed_took (keepsCore_endProposal s _ _).restCountdown
    · exact .unchanged
  · exact .unchanged

theorem closed_execRequestFrame (p : Port) (bytes : List Byte) (bits : Nat) :
    Leads (Closed s) True (execRequestFrame p bytes bits s) := by
  unfold execRequestFrame
  split
  · exact closed_took (keeps_modLink s p _).restCountdown
  · exact closed_took ((keeps_modLink s p _).toKeepsCore.trans (keepsCore_judge _ p _ bytes bits)).restCountdown
  · exact .unchanged

theorem closed_execHello (p : Port) (tag : Byte) : Leads (Closed s) True (execHello p tag s) := by
  unfold execHello
  split
  · exact closed_took (keeps_modLink s p _).restCountdown
  · split
    · exact closed_took ((keeps_modLink s p _).toKeepsCore.trans (keepsCore_arriveHello _ p tag)).restCountdown
    · exact .unchanged
  · exact .unchanged

theorem closed_execSelectFallingEdge (p : Port) : Leads (Closed s) True (execSelectFallingEdge p s) := by
  unfold execSelectFallingEdge
  split
  · exact .unchanged
  · exact closed_took ((restCountdown_wake _).trans (keeps_modLink s p _).restCountdown)

theorem closed_execFirstByteEnd (p : Port) (first : Byte) : Leads (Closed s) True (execFirstByteEnd p first s) := by
  unfold execFirstByteEnd
  split
  · exact closed_took (keeps_modLink s p _).restCountdown
  · exact .unchanged

theorem closed_execPoll (p : Port) (clocks : Nat) : Leads (Closed s) True (execPoll p clocks s) := by
  unfold execPoll
  split
  · exact closed_took (keeps_modLink s p _).restCountdown
  · exact closed_took (keeps_modLink s p _).restCountdown
  · exact .unchanged

theorem closed_execFetch (p : Port) (clocks : Nat) : Leads (Closed s) True (execFetch p clocks s) := by
  unfold execFetch
  split
  · exact closed_took (keeps_modLink s p _).restCountdown
  · exact closed_took ((keeps_modLink s p _).trans (keeps_modLink _ p _)).restCountdown
  · exact .unchanged

theorem closed_execPostDelayExpiry (p : Port) : Leads (Closed s) True (execPostDelayExpiry p s) := by
  unfold execPostDelayExpiry
  split
  · exact closed_took (keeps_modPosts s p _).restCountdown
  · exact .unchanged

theorem closed_execNoticeDelayExpiry (p : Port) : Leads (Closed s) True (execNoticeDelayExpiry p s) := by
  unfold execNoticeDelayExpiry
  split
  · exact closed_took (keeps_modNotices s p _).restCountdown
  · exact .unchanged

theorem closed_execWarmUpExpiry : Leads (Closed s) True (execWarmUpExpiry s) := by
  unfold execWarmUpExpiry
  split
  · exact closed_took (keepsCore_takePending_foldl { s with power := .run, warmUpTimer := none } allPorts).restCountdown
  · exact .unchanged

/-! ### The events that stop the countdown themselves -/

theorem countsDown_of_not_running {t : State} (out : t.running = false) : t.countsDown = false := by
  rw [State.countsDown, out, Bool.false_and, Bool.false_and]

/-- Out of RUN no line follows its conditions and no countdown runs (R176, R188). -/
theorem closed_of_not_running {t : State} (out : t.running = false) (stopped : t.restCountdown = none) : Closed s t := by
  refine .stopped (fun running => ?_) ?_ stopped
  · cases out.symm.trans running
  · rw [countdownDriven_iff, stopped, countsDown_of_not_running out]
    rfl

theorem not_running_of_resting {t : State} (power : t.power = .resting) : t.running = false := by
  rw [State.running, power, show (Power.resting == .run) = false from rfl, Bool.and_false]

theorem not_running_of_resetLow {t : State} (low : t.resetLow = true) : t.running = false := by
  rw [State.running, low]
  rfl

/-- The broker rests, and does not run when its event closes (R189). -/
theorem closed_execRestCountdownExpiry : Leads (Closed s) True (execRestCountdownExpiry s) := by
  unfold execRestCountdownExpiry
  split
  · have out : { s with power := .resting, restCountdown := none }.running = false := not_running_of_resting rfl
    refine closed_of_not_running ((settle_running _).trans out) ?_
    rw [settle_restCountdown, countsDown_of_not_running out]
    rfl
  · exact .unchanged

theorem closed_execResetAssert : Leads (Closed s) True (execResetAssert s) := by
  unfold execResetAssert
  split
  · exact .unchanged
  · exact closed_of_not_running (not_running_of_resetLow rfl) rfl

/-- At power-on no response is ready and no notice waits, and the rest delay is 0 (R192, R155). -/
theorem closed_execPowerOn : Leads (Closed s) True (execPowerOn s) := by
  refine .stopped (fun _ p => ?_) rfl rfl
  rw [State.port_eq, show _ = PortState.reset from reset_ports p]
  rfl

/-- What each command can do to the lines and the countdown. -/
theorem closed_exec (c : Instr) : Leads (Closed s) True (exec c s) := by
  cases c with
  | selectFallingEdge p => exact closed_execSelectFallingEdge p
  | poll p clocks => exact closed_execPoll p clocks
  | fetch p clocks => exact closed_execFetch p clocks
  | requestFrame p bytes bits => exact closed_execRequestFrame p bytes bits
  | hello p tag => exact closed_execHello p tag
  | detach p => exact closed_serve (serve := serveDetach p) fun t => restCountdown_serveDetach t p
  | create p => exact closed_serve (serve := serveCreate p) fun t => restCountdown_serveCreate t p
  | attach p => exact closed_serve (serve := serveAttach p) fun t => restCountdown_serveAttach t p
  | close p => exact closed_serve (serve := serveClose p) fun t => restCountdown_serveClose t p
  | revoke p => exact closed_serve (serve := serveRevoke p) fun t => restCountdown_serveRevoke t p
  | info p => exact closed_serve (serve := serveInfo p) fun t => restCountdown_serveInfo t p
  | grant p => exact closed_serve (serve := serveGrant p) fun t => restCountdown_serveGrant t p
  | drop p => exact closed_serve (serve := serveDrop p) fun t => restCountdown_serveDrop t p
  | list p => exact closed_serve (serve := serveList p) fun t => restCountdown_serveList t p
  | read p => exact closed_takeData
  | write p => exact closed_takeData
  | cas p => exact closed_takeData
  | post p => exact closed_execPost p
  | postRelease p => exact closed_execPostRelease p
  | flush p => exact closed_serve (serve := serveFlush p) fun t => restCountdown_serveFlush t p
  | claim p => exact closed_serve (serve := serveClaim p) fun t => restCountdown_serveClaim t p
  | release p => exact closed_serve (serve := serveRelease p) fun t => restCountdown_serveRelease t p
  | renew p => exact closed_serve (serve := serveRenew p) fun t => restCountdown_serveRenew t p
  | notices p => exact closed_serve (serve := serveNotices p) fun t => restCountdown_serveNotices t p
  | propose p => exact closed_serve (serve := servePropose p) fun t => restCountdown_servePropose t p
  | vote p => exact closed_serve (serve := serveVote p) fun t => restCountdown_serveVote t p
  | settings p => exact closed_serve (serve := serveSettings p) fun t => restCountdown_serveSettings t p
  | unknownRequest p => exact closed_execUnknownRequest p
  | grantDecision => exact closed_execGrantDecision
  | burstCompletion p => exact closed_execBurstCompletion p
  | scrubBurstCompletion => exact closed_execScrubBurstCompletion
  | leaseExpiry i => exact closed_execLeaseExpiry i
  | postDelayExpiry p => exact closed_execPostDelayExpiry p
  | noticeDelayExpiry p => exact closed_execNoticeDelayExpiry p
  | voteWindowExpiry => exact closed_execVoteWindowExpiry
  | restCountdownExpiry => exact closed_execRestCountdownExpiry
  | warmUpExpiry => exact closed_execWarmUpExpiry
  | resetAssert => exact closed_execResetAssert
  | powerOn => exact closed_execPowerOn
  | firstByteEnd p first => exact closed_execFirstByteEnd p first

end Commands

/-- A step leaves the queue's rest, and its command does what `Closed` says. -/
theorem closed_of_step {s t : State} (stepped : step s = .next t) : ∃ rest, Closed { s with pending := rest } t := by
  unfold step at stepped
  split at stepped
  · cases stepped
    exact ⟨s.pending, .unchanged⟩
  · next c rest _ =>
    have closed := closed_exec (s := { s with pending := rest }) c
    rw [stepped] at closed
    exact ⟨rest, closed⟩

/-- Settles O59: by `closed_of_step`; the queue takes no part in the lines and the countdown. -/
theorem stepKeepsLinesAndCountdownDriven : Obligations.StepKeepsLinesAndCountdownDriven := by
  refine ⟨fun s t before stepped => ?_, fun s t before stepped => ?_, fun s t stepped runs => ?_⟩
  · obtain ⟨rest, closed⟩ := closed_of_step stepped
    exact closed.attentionDriven before
  · obtain ⟨rest, closed⟩ := closed_of_step stepped
    exact closed.countdownDriven before
  · obtain ⟨rest, closed⟩ := closed_of_step stepped
    exact closed.restCountdown runs

end Sys2Proof.Machine
end

