-- ==== Sys2Proof/Proofs/Links.lean ====
section
/-! PROOFS. The events of a link (R178 to R184, R190): the falling edge of select, the eighth clock and the four rises of select.
Each changes the record of its port alone; what it makes of that record is said once. -/

namespace Sys2Proof.Machine

/-! ## The falling edge of select (R179, R190) -/

/-- Each bit of a byte that is summed up from eight flags is its flag. -/
theorem flags_bits (b7 b6 b5 b4 b3 b2 b1 b0 : Bool) :
    let v := BitVec.ofNat 8 (b7.toNat * 128 + b6.toNat * 64 + b5.toNat * 32 + b4.toNat * 16 + b3.toNat * 8 + b2.toNat * 4
      + b1.toNat * 2 + b0.toNat)
    v.getLsbD 7 = b7 ∧ v.getLsbD 6 = b6 ∧ v.getLsbD 5 = b5 ∧ v.getLsbD 4 = b4 ∧ v.getLsbD 3 = b3 ∧ v.getLsbD 2 = b2
      ∧ v.getLsbD 1 = b1 ∧ v.getLsbD 0 = b0 := by
  revert b7 b6 b5 b4 b3 b2 b1 b0
  decide

theorem responseReady_iff (l : Link) : l.responseReady = true ↔ ∃ r, Entry.completed r ∈ l.responses := by
  have ready : l.responseReady = l.responses.any Entry.isCompleted := rfl
  rw [ready, List.any_eq_true]
  constructor
  · rintro ⟨e, held, completed⟩
    obtain ⟨r, rfl⟩ := (isCompleted_iff e).mp completed
    exact ⟨r, held⟩
  · exact fun ⟨r, held⟩ => ⟨_, held, rfl⟩

/-- Port `p` with a transaction that has just opened (R179). -/
def PortState.opened (status : Byte) (q : PortState) : PortState :=
  { q with link := { q.link with transaction := some { status := status, phase := .firstByte }, dataOut := [] } }

theorem WarmUp.micros_eq (w : WarmUp) : w.micros = if w = .short then 250 else 1000 := by
  cases w <;> rfl

/-- A falling edge wakes a RESTING broker and no other (R190). -/
theorem wake_eq (s : State) : s.wake = { s with
    power := if s.power = .resting then .warming else s.power
    warmUpTimer := if s.power = .resting then some (if s.settings.warmUp = .short then 250 else 1000) else s.warmUpTimer } := by
  unfold State.wake
  split
  · rw [WarmUp.micros_eq]
  · rfl

theorem exec_selectFallingEdge {s : State} {p : Port} (reset : s.resetLow = false)
    (idle : (s.port p).link.transaction = none) :
    exec (.selectFallingEdge p) s = .next (s.modPort p (PortState.opened (s.statusByte p))).wake.settle := by
  show execSelectFallingEdge p s = _
  unfold execSelectFallingEdge
  rw [reset, idle, if_neg (by simp)]
  rfl

/-- With a transaction open on one of its ports the broker is not idle, so no rest countdown runs (R188). -/
theorem settle_stopped_of_transaction {s : State} {p : Port} (opened : s.ports[p].link.transaction.isSome = true) :
    s.settle.restCountdown = none := by
  have busy : s.idle = false := by
    have port : (s.port p).idle = false := by
      rw [PortState.idle, State.port_eq, ← Option.not_isSome, opened, Bool.not_true, Bool.and_false]
    have ports : allPorts.all (fun p => (s.port p).idle) = false :=
      List.all_eq_false.mpr ⟨p, mem_allPorts p, by rw [port]; exact Bool.false_ne_true⟩
    rw [State.idle, ports]
    rfl
  rw [settle_restCountdown, State.countsDown, busy, Bool.and_false]
  rfl

/-- Settles O4: `flags_bits` on the status byte, and the wake of `wake_eq`. -/
theorem selectFallCapturesStatusAndWakes : Obligations.SelectFallCapturesStatusAndWakes := by
  intro s p reset idle
  obtain ⟨b7, b6, b5, b4, b3, b2, b1, b0⟩ := flags_bits (s.isAttached p) (s.port p).link.responseReady
    (!(s.port p).notices.records.isEmpty) (s.port p).notices.overflow
    (decide (Config.requestEntries ≤ (s.port p).link.requests.length)) (s.port p).link.refused (s.port p).link.frameError
    (s.power != .run)
  have woken := wake_eq (s.modPort p (PortState.opened (s.statusByte p)))
  have port : (s.modPort p (PortState.opened (s.statusByte p))).wake.settle.port p
      = { s.port p with
        link := ((s.port p).opened (s.statusByte p)).link
        attention := ((s.modPort p (PortState.opened (s.statusByte p))).wake.settle.port p).attention } := by
    rw [State.port_eq, State.settle_get, woken, State.modPort_same]
    rfl
  have shifted : ((s.modPort p (PortState.opened (s.statusByte p))).wake.settle.port p).link.dataOut = [] :=
    congrArg (fun q : PortState => q.link.dataOut) port
  refine ⟨_, s.statusByte p, exec_selectFallingEdge reset idle, b7, ?_, b5, b4, b3, b2, b1, b0, ?_, ?_, ?_, ?_, ?_⟩
  · rw [← responseReady_iff]
    exact Bool.eq_iff_iff.mp b6
  · rw [shifted]
    exact port
  · refine otherPortsSame_settle s p fun q other => ?_
    rw [woken]
    exact State.modPort_other s _ other
  · rw [State.settle_power, woken]
    rfl
  · rw [State.settle_warmUpTimer, woken]
    rfl
  · have stopped := settle_stopped_of_transaction (s := (s.modPort p (PortState.opened (s.statusByte p))).wake) (p := p)
      (by rw [woken, State.modPort_same]; rfl)
    have closed := settle_eq (s.modPort p (PortState.opened (s.statusByte p))).wake
    rw [stopped] at closed
    rw [State.settle_power, State.settle_warmUpTimer]
    refine closed.trans ?_
    rw [woken]
    rfl

/-! ## The eighth clock (R178, R179, R184) -/

theorem openTransaction_of_up {s : State} (reset : s.resetLow = false) (p : Port) :
    s.openTransaction p = (s.port p).link.transaction := by
  rw [State.openTransaction, reset]
  exact if_neg Bool.false_ne_true

/-- A link once its first byte is complete (R178, R179). -/
def Link.started (status first : Byte) (l : Link) : Link :=
  { l.clearShown status with transaction := some { status := status, phase := l.phaseOf first }, dataOut := [status] }

theorem exec_firstByteEnd {s : State} {p : Port} {status : Byte} (reset : s.resetLow = false)
    (transaction : (s.port p).link.transaction = some { status := status, phase := .firstByte }) (first : Byte) :
    exec (.firstByteEnd p first) s = .next (s.modLink p (Link.started status first)).settle := by
  show execFirstByteEnd p first s = _
  unfold execFirstByteEnd
  rw [openTransaction_of_up reset, transaction]
  rfl

section Phase

variable (l : Link) {first : Byte}

theorem phaseOf_fetch : l.phaseOf 0xF5 = .fetch l.oldestCompleted := by
  unfold Link.phaseOf
  rw [if_neg (by decide)]
  exact if_pos rfl

theorem phaseOf_request (poll : first ≠ 0x00) (fetch : first ≠ 0xF5) : l.phaseOf first = .request first := by
  unfold Link.phaseOf
  exact (if_neg poll).trans (if_neg fetch)

theorem oldestCompleted_eq_some_iff (r : Response) : l.oldestCompleted = some r ↔ l.responses.head? = some (.completed r) := by
  unfold Link.oldestCompleted
  split
  · next responses => rw [responses, List.head?_cons, Option.some_inj, Option.some_inj, Entry.completed.injEq]
  · next other =>
    refine iff_of_false nofun fun oldest => ?_
    obtain ⟨rest, responses⟩ := List.head?_eq_some_iff.mp oldest
    exact other r rest responses

end Phase

/-- Settles O5: the event changes the link of its port as `Link.started` says. -/
theorem firstByteClearsShownFlagsAndFixesTheKind : Obligations.FirstByteClearsShownFlagsAndFixesTheKind := by
  intro s p first status reset transaction
  refine ⟨_, (s.port p).link.phaseOf first, exec_firstByteEnd reset transaction first, ?_, ?_, ?_,
    phaseOf_request (s.port p).link, settle_modPort s p _⟩
  · rintro rfl
    rfl
  · rintro rfl r es responses
    rw [phaseOf_fetch, (oldestCompleted_eq_some_iff _ r).mpr (by rw [responses, List.head?_cons])]
  · rintro rfl none_ready
    rw [phaseOf_fetch]
    cases oldest : (s.port p).link.oldestCompleted with
    | none => rfl
    | some r =>
      obtain ⟨es, responses⟩ := List.head?_eq_some_iff.mp ((oldestCompleted_eq_some_iff _ r).mp oldest)
      exact absurd responses (none_ready r es)

/-! ## The rise of select that closes a short transaction, a POLL or a FETCH (R178, R184) -/

section Rises

variable {s : State} {p : Port} {status : Byte} (reset : s.resetLow = false)

/-- A link whose transaction has closed with these bytes shifted out. -/
def Link.closed (out : List Byte) (l : Link) : Link := { l with transaction := none, dataOut := out }

include reset

/-- Whichever command the rise of select is, a transaction short of its first byte is ignored (R178, log 11). -/
theorem exec_rise_of_short
    (transaction : (s.port p).link.transaction = some { status := status, phase := .firstByte }) {c : Instr}
    {clocks bits : Nat} {tag : Byte} {bytes : List Byte}
    (rise : c ∈ [Instr.poll p clocks, .fetch p clocks, .requestFrame p bytes bits, .hello p tag]) :
    exec c s = .next (s.modLink p (Link.closed [])).settle := by
  have short : s.openTransaction p = some { status := status, phase := .firstByte } :=
    (openTransaction_of_up reset p).trans transaction
  simp only [List.mem_cons, List.not_mem_nil, or_false] at rise
  obtain rfl | rfl | rfl | rfl := rise
  · show execPoll p clocks s = _
    unfold execPoll
    rw [short]
    rfl
  · show execFetch p clocks s = _
    unfold execFetch
    rw [short]
    rfl
  · show execRequestFrame p bytes bits s = _
    unfold execRequestFrame
    rw [short]
    rfl
  · show execHello p tag s = _
    unfold execHello
    rw [short]
    rfl

theorem exec_poll (transaction : (s.port p).link.transaction = some { status := status, phase := .poll }) (clocks : Nat) :
    exec (.poll p clocks) s
      = .next (s.modLink p (Link.closed (status :: List.replicate (clocks / 8) 0))).settle := by
  show execPoll p clocks s = _
  unfold execPoll
  rw [openTransaction_of_up reset, transaction]
  rfl

/-- A link at the end of a FETCH that shifted out `chosen` (R184). -/
def Link.fetched (status : Byte) (chosen : Option Response) (clocks : Nat) (l : Link) : Link :=
  (l.removeFetched chosen clocks).closed (status :: fetchBytes chosen (clocks / 8))

theorem exec_fetch {chosen : Option Response}
    (transaction : (s.port p).link.transaction = some { status := status, phase := .fetch chosen }) (clocks : Nat) :
    exec (.fetch p clocks) s = .next (s.modLink p (Link.fetched status chosen clocks)).settle := by
  show execFetch p clocks s = _
  unfold execFetch
  rw [openTransaction_of_up reset, transaction]
  refine congrArg (fun u : State => Host.Outcome.next u.settle) ?_
  rw [State.closeTransaction, State.modLink_eq, State.modLink_eq, State.modPort_modPort]
  rfl

end Rises

/-- The chosen response leaves exactly when all its bytes were shifted out and it is the oldest entry (R184). -/
theorem removeFetched_some (l : Link) (r : Response) (clocks : Nat) : l.removeFetched (some r) clocks = { l with
    responses := if 8 * r.bytes.length ≤ clocks ∧ l.responses.head? = some (.completed r) then l.responses.drop 1
      else l.responses } := by
  unfold Link.removeFetched
  simp only [oldestCompleted_eq_some_iff, Nat.mul_comm]
  split <;> rfl

theorem length_fetchBytes (chosen : Option Response) (n : Nat) : (fetchBytes chosen n).length = n := by
  cases chosen <;> simp [fetchBytes]

/-- A FETCH shifts its response out from the first byte, over and over (R184). -/
theorem getD_fetchBytes (r : Response) {n k : Nat} (within : k < n) :
    (fetchBytes (some r) n).getD k 0 = r.bytes.getD (k % r.bytes.length) 0 := by
  simp [fetchBytes, within]

/-- A FETCH changes nothing of a link but its transaction, its responses and its output (R184). -/
theorem fetched_eq (status : Byte) (chosen : Option Response) (clocks : Nat) (l : Link) :
    l.fetched status chosen clocks = { l with
      transaction := none
      responses := (l.fetched status chosen clocks).responses, dataOut := (l.fetched status chosen clocks).dataOut } := by
  cases chosen with
  | none => rfl
  | some r =>
    rw [Link.fetched, removeFetched_some]
    rfl

/-- Settles O6: each rise of select changes the link of its port alone. -/
theorem pollHasNoEffectAndFetchRemovesItsResponse : Obligations.PollHasNoEffectAndFetchRemovesItsResponse := by
  refine ⟨fun s p clocks bits status tag bytes c reset transaction rise => ?_,
    fun s p clocks status reset transaction => ?_, fun s p clocks status chosen reset transaction => ?_⟩
  · exact ⟨_, exec_rise_of_short reset transaction rise, settle_modPort s p _⟩
  · exact ⟨_, exec_poll reset transaction clocks, settle_modPort s p _⟩
  · obtain ⟨port, rest⟩ := settle_modPort s p fun q => { q with link := q.link.fetched status chosen clocks }
    refine ⟨_, exec_fetch reset transaction clocks, ?_⟩
    have link : ((s.modLink p (Link.fetched status chosen clocks)).settle.port p).link
        = (s.port p).link.fetched status chosen clocks := congrArg PortState.link port
    rw [link]
    refine ⟨?_, ?_, ?_, rest⟩
    · rw [← fetched_eq]
      exact port
    · rintro rfl
      exact ⟨rfl, rfl⟩
    · rintro r rfl
      refine ⟨?_, ?_, rfl, fun k within => ?_⟩
      · rw [Link.fetched, removeFetched_some]
        rfl
      · exact congrArg (· + 1) (length_fetchBytes _ _)
      · exact getD_fetchBytes r within

/-! ## The rise of select that ends a request frame (R180, R181, R95) -/

theorem exec_requestFrame {s : State} {p : Port} {kind status : Byte} (reset : s.resetLow = false)
    (transaction : (s.port p).link.transaction = some { status := status, phase := .request kind }) (bytes : List Byte)
    (bits : Nat) : exec (.requestFrame p bytes bits) s
      = .next ((s.modLink p (Link.closed (status :: List.replicate bytes.length 0))).judge p kind bytes bits).settle := by
  show execRequestFrame p bytes bits s = _
  unfold execRequestFrame
  rw [openTransaction_of_up reset, transaction]
  rfl

/-- R181's five tests; each makes a frame malformed. -/
theorem receivedFrame_of_malformed {kind : Byte} {bytes : List Byte} {bits : Nat}
    (malformed : bits ≠ 0 ∨ bytes.length + 1 < 4 ∨ 264 < be16 (bytes.getD 1 0) (bytes.getD 2 0)
      ∨ bytes.length + 1 ≠ 4 + be16 (bytes.getD 1 0) (bytes.getD 2 0)
      ∨ (kind = 0x01 ∧ be16 (bytes.getD 1 0) (bytes.getD 2 0) ≠ 0)) : receivedFrame kind bytes bits = none := by
  unfold receivedFrame
  split
  · next tag l1 l0 body =>
    simp only [List.length_cons, List.getD_cons_succ, List.getD_cons_zero] at malformed
    refine if_neg fun ⟨whole, short, stated, hello⟩ => ?_
    unfold Config.maxBody at short
    obtain cut | few | long | other | ⟨isHello, body⟩ := malformed
    · exact cut whole
    · omega
    · omega
    · omega
    · rw [hello isHello] at stated
      exact body stated.symm
  · rfl

theorem receivedFrame_of_wellFormed {kind tag l1 l0 : Byte} {body : List Byte} (other : kind ≠ 0x01)
    (stated : body.length = be16 l1 l0) (short : body.length ≤ 264) :
    receivedFrame kind (tag :: l1 :: l0 :: body) 0 = some { kind := kind, tag := tag, body := body } :=
  if_pos ⟨rfl, stated ▸ short, stated, fun hello => absurd hello other⟩

/-- Settles O7: a frame that reads as none sets FRAME_ERROR on the link whose transaction has closed. -/
theorem malformedFrameSetsFrameError : Obligations.MalformedFrameSetsFrameError := by
  intro s p kind status bytes bits reset transaction malformed
  have judged : (s.modLink p (Link.closed (status :: List.replicate bytes.length 0))).judge p kind bytes bits
      = s.modPort p fun q => { q with
        link := { q.link.closed (status :: List.replicate bytes.length 0) with frameError := true } } := by
    unfold State.judge
    rw [receivedFrame_of_malformed malformed]
    exact State.modPort_modPort ..
  have executed := exec_requestFrame reset transaction bytes bits
  rw [judged] at executed
  exact ⟨_, executed, (settle_modPort s p _).shifted⟩

/-- A port to which the frame `f`, not a HELLO's, was offered: refused when 4 frames are held, else admitted (R180), with the
switch to DRAINING of a request that stands at the head (R95). -/
def PortState.offered (f : Frame) (q : PortState) : PortState :=
  { q with
    link := { q.link with
      refused := q.link.refused || decide (4 ≤ q.link.requests.length)
      requests := if 4 ≤ q.link.requests.length then q.link.requests else q.link.requests ++ [f] }
    posts := if q.link.requests = [] ∧ f.kind ≠ kindPost then q.posts.drainHeld else q.posts }

theorem offered_of_full {f : Frame} {q : PortState} (full : 4 ≤ q.link.requests.length) :
    q.offered f = { q with link := { q.link with refused := true } } := by
  have held : q.link.requests ≠ [] := fun none => by rw [none] at full; cases full
  rw [PortState.offered, if_pos full, decide_eq_true full, Bool.or_true, if_neg fun both => held both.1]

theorem offered_of_room {f : Frame} {q : PortState} (room : ¬ 4 ≤ q.link.requests.length) :
    q.offered f = { q with
      link := { q.link with requests := q.link.requests ++ [f] }
      posts := if q.link.requests = [] ∧ f.kind ≠ kindPost then q.posts.drainHeld else q.posts } := by
  rw [PortState.offered, if_neg room, decide_eq_false room, Bool.or_false]

/-- The buffer of a port that is offered a frame drains when the frame stands at the head and posts are held (R95). -/
theorem offered_posts (f : Frame) (q : PortState) : (q.offered f).posts
    = if q.link.requests = [] ∧ f.kind ≠ kindPost ∧ q.posts.mode = .holding ∧ q.posts.posts ≠ [] then q.posts.drain
      else q.posts := by
  simp only [PortState.offered, PostBuffer.drainHeld, ← ite_and, and_assoc]

/-- An admission to an empty queue puts the frame at the head, where it drains what is held unless it is a POST (R95). -/
theorem admitFrame_eq {s : State} {p : Port} (f : Frame) (room : ¬ 4 ≤ (s.port p).link.requests.length) :
    s.admitFrame p f = s.modPort p (PortState.offered f) := by
  have queued : (s.modLink p fun l => { l with requests := l.requests ++ [f] }).port p
      = { s.port p with link := { (s.port p).link with requests := (s.port p).link.requests ++ [f] } } :=
    State.modPort_same ..
  unfold State.admitFrame
  dsimp only
  rw [drainForHead_eq, queued, State.modPosts_eq, State.modLink_eq, State.modPort_modPort]
  by_cases empty : (s.port p).link.requests = []
  · rw [if_pos (List.isEmpty_iff.mpr empty)]
    refine State.modPort_congr s ?_
    have head : otherAtHead ((s.port p).link.requests ++ [f]) = (f.kind != kindPost) := by rw [empty]; rfl
    rw [offered_of_room room, head]
    simp only [empty, true_and, bne_iff_ne]
  · rw [if_neg (mt List.isEmpty_iff.mp empty)]
    refine State.modPort_congr s ?_
    rw [offered_of_room room, if_neg fun both => empty both.1]

/-- The judgement on a frame that is not malformed and not a HELLO's (R180). -/
theorem judge_of_received {s : State} {p : Port} {kind : Byte} {bytes : List Byte} {bits : Nat} {f : Frame}
    (received : receivedFrame kind bytes bits = some f) (other : f.kind ≠ kindHello) :
    s.judge p kind bytes bits = s.modPort p (PortState.offered f) := by
  unfold State.judge
  rw [received]
  dsimp only
  rw [if_neg other]
  by_cases full : 4 ≤ (s.port p).link.requests.length
  · exact (if_pos full).trans (State.modPort_congr s (offered_of_full full).symm)
  · exact (if_neg full).trans (admitFrame_eq f full)

/-- Settles O8: the port is offered the frame once its transaction has closed. -/
theorem frameIsAdmittedOrRefused : Obligations.FrameIsAdmittedOrRefused := by
  intro s p kind status tag l1 l0 body reset transaction other stated short
  have executed := exec_requestFrame reset transaction (tag :: l1 :: l0 :: body) 0
  rw [judge_of_received (receivedFrame_of_wellFormed other stated short) other, State.modLink_eq,
    State.modPort_modPort] at executed
  obtain ⟨port, rest⟩ := (settle_modPort s p _).shifted
  refine ⟨_, executed, port.trans ?_, rest⟩
  rw [offered_posts]
  rfl

end Sys2Proof.Machine
end

