-- ==== Sys2Proof/Proofs/RequestLayouts.lean ====
section
/-! PROOFS. The bodies of requests and the settings record read as section 11.6 lays them out (R155, R157, R186). -/

namespace Sys2Proof.Machine

/-! ## The bodies of requests -/

section Bodies

variable (sc h n3 n2 n1 n0 sz bk tg rt b1 b0 l1 l0 : Byte)

/-- The rights of a byte whose upper bits are clear. -/
def rightsBits : Rights := ⟨rt.getLsbD 0, rt.getLsbD 1, rt.getLsbD 2, rt.getLsbD 3⟩

theorem createFields_eq : createFields [sc, n3, n2, n1, n0, sz, bk, rt] =
    if sc.toNat ≤ 1 ∧ bk.toNat ≤ 1 ∧ rt.toNat < 16 then
      some { scope := if sc = 0 then .privateScope else .common, name := n3 ++ n2 ++ n1 ++ n0, size := sz.toNat
             onDemand := bk == 1, rights := rightsBits rt }
    else none := by
  dsimp only [createFields]
  rw [scopeOfByte_eq, flagOfByte_eq, rightsOfByte_eq, be32_eq_append]
  by_cases scope : sc.toNat ≤ 1
  · by_cases backing : bk.toNat ≤ 1
    · by_cases rights : rt.toNat < 16
      · simp only [scope, backing, rights, and_self, if_true]
        rfl
      · simp only [scope, backing, rights, and_false, if_true, if_false]
    · simp only [scope, backing, false_and, and_false, if_true, if_false]
  · simp only [scope, false_and, if_false]

theorem attachFields_eq : attachFields [n3, n2, n1, n0, rt] =
    if rt.toNat < 16 then some (n3 ++ n2 ++ n1 ++ n0, rightsBits rt) else none := by
  dsimp only [attachFields]
  rw [rightsOfByte_eq, be32_eq_append]
  split <;> rfl

theorem grantFields_eq : grantFields [h, tg, rt, b1, b0, l1, l0] =
    if hp : tg.toNat < 4 then
      if rt.toNat < 16 then
        some { source := h, target := ⟨tg.toNat, hp⟩, rights := rightsBits rt, base := b1.toNat * 256 + b0.toNat
               length := l1.toNat * 256 + l0.toNat }
      else none
    else none := by
  dsimp only [grantFields]
  rw [rightsOfByte_eq, portOfByte]
  by_cases target : tg.toNat < 4
  · rw [dif_pos target, dif_pos target]
    by_cases rights : rt.toNat < 16
    · rw [if_pos rights, if_pos rights]
      rfl
    · rw [if_neg rights, if_neg rights]
  · rw [dif_neg target, dif_neg target]

end Bodies

section Lengths

variable {body : List Byte}

theorem createFields_of_length (other : body.length ≠ 8) : createFields body = none := by
  unfold createFields
  split
  · exact absurd rfl other
  · rfl

theorem attachFields_of_length (other : body.length ≠ 5) : attachFields body = none := by
  unfold attachFields
  split
  · exact absurd rfl other
  · rfl

theorem grantFields_of_length (other : body.length ≠ 7) : grantFields body = none := by
  unfold grantFields
  split
  · exact absurd rfl other
  · rfl

theorem dataFields_of_length (short : body.length < 5) : dataFields body = none := by
  unfold dataFields
  split
  · simp only [List.length_cons] at short
    omega
  · rfl

theorem proposeFields_settings {record : List Byte} (length : record.length = 28) :
    proposeFields (0 :: record) = some (.settings record) := by
  dsimp only [proposeFields]
  rw [length]
  rfl

/-- A PROPOSE is CLEAR_ALL's one byte, or SETTINGS' code and 28 bytes more. -/
theorem proposeFields_of_other (clearAll : body ≠ [1]) (settings : body.length ≠ 29 ∨ body.head? ≠ some 0) :
    proposeFields body = none := by
  unfold proposeFields
  split
  · next k rest =>
    have not_settings : ¬ (decide (k = 0) && rest.length == 28) = true := fun both => by
      obtain ⟨code, length⟩ := Bool.and_eq_true_iff.mp both
      have code : k = 0 := of_decide_eq_true code
      have length : rest.length = 28 := beq_iff_eq.mp length
      exact settings.elim (fun other => other (congrArg (· + 1) length)) fun other => other (congrArg some code)
    have not_clearAll : ¬ (decide (k = 1) && rest.isEmpty) = true := fun both => by
      obtain ⟨code, empty⟩ := Bool.and_eq_true_iff.mp both
      exact clearAll (congrArg₂ List.cons (of_decide_eq_true code) (List.isEmpty_iff.mp empty))
    rw [if_neg not_settings, if_neg not_clearAll]
  · rfl

end Lengths

theorem Rights.isEmpty_iff (a : Rights) : a.isEmpty = true ↔ a = ⟨false, false, false, false⟩ := by
  obtain ⟨r, w, g, d⟩ := a
  revert r w g d
  decide

theorem Rights.subset_iff (a b : Rights) : a.subset b = true ↔ (a.read = true → b.read = true)
    ∧ (a.write = true → b.write = true) ∧ (a.grant = true → b.grant = true) ∧ (a.admin = true → b.admin = true) := by
  have implies (x y : Bool) : (!x || y) = true ↔ (x = true → y = true) := by cases x <;> simp
  rw [Rights.subset, Bool.and_eq_true, Bool.and_eq_true, Bool.and_eq_true, implies, implies, implies, implies, and_assoc,
    and_assoc]

/-- Settles O12: one equation per body, with what each asks of a body's length. -/
theorem requestBodiesReadAsLaidOut : Obligations.RequestBodiesReadAsLaidOut :=
  ⟨createFields_eq, attachFields_eq, grantFields_eq, fun _ _ _ _ _ _ => rfl, fun _ => proposeFields_settings, rfl,
    fun _ => ⟨createFields_of_length, attachFields_of_length, grantFields_of_length, dataFields_of_length,
      proposeFields_of_other⟩,
    fun a b => ⟨a.isEmpty_iff, a.subset_iff b⟩⟩

/-! ## The settings record: ranges (R155) -/

theorem tableNames_iff (t : Vector Requester 16) (p : Port) : tableNames t p = true ↔ ∃ k : Fin 16, t[k] = .port p := by
  rw [tableNames, List.contains_iff_mem, Vector.mem_toList_iff, Vector.mem_iff_getElem]
  exact ⟨fun ⟨k, lt, names⟩ => ⟨⟨k, lt⟩, names⟩, fun ⟨k, names⟩ => ⟨k.val, k.isLt, names⟩⟩

theorem legal_iff (r : Settings) : r.legal = true ↔ SettingsInRange r := by
  simp only [Settings.legal, SettingsInRange, Bool.and_eq_true, decide_eq_true_eq, and_assoc, List.all_eq_true, mem_allPorts,
    true_imp_iff, tableNames_iff]

/-! ## The settings record: bytes (R186) -/

/-- The fields of `r` stand in the 28 bytes at the offsets of section 11.6, and each code has a meaning. -/
structure Settings.LaidOut (r : Settings) (bytes : List Byte) : Prop where
  phases : ∀ k : Fin 16, (∃ p : Port, (byteAt bytes k.val).toNat = p.val ∧ r.phaseTable[k] = .port p)
    ∨ (byteAt bytes k.val).toNat = 4 ∧ r.phaseTable[k] = .scrub
  leaseDuration : r.leaseDuration = fieldAt bytes 16
  postThreshold : r.postThreshold = (byteAt bytes 18).toNat
  postDelay : r.postDelay = fieldAt bytes 19
  noticeThreshold : r.noticeThreshold = (byteAt bytes 21).toNat
  noticeDelay : r.noticeDelay = fieldAt bytes 22
  voteWindow : r.voteWindow = (byteAt bytes 24).toNat
  restDelay : r.restDelay = (byteAt bytes 25).toNat
  warmUp : (byteAt bytes 26).toNat = 0 ∧ r.warmUp = .short ∨ (byteAt bytes 26).toNat = 1 ∧ r.warmUp = .long
  isolated : (byteAt bytes 27).toNat < 16
  isolation : ∀ p : Port, r.isolation[p] = (byteAt bytes 27).getLsbD p.val

theorem phases_ok_iff {bytes : List Byte} (length : bytes.length = 28) :
    (bytes.take 16).all (fun c => decide (c.toNat ≤ 4)) = true ↔ ∀ k : Fin 16, (byteAt bytes k.val).toNat ≤ 4 := by
  have at_phase (k : Nat) (lt : k < (bytes.take 16).length) : byteAt bytes k = (bytes.take 16)[k] := by
    rw [List.length_take] at lt
    rw [List.getElem_take, byteAt, List.getD_eq_getElem _ _ (by omega)]
  rw [List.all_eq_true]
  constructor
  · intro ok k
    rw [at_phase k.val (by rw [List.length_take]; omega)]
    exact of_decide_eq_true (ok _ (List.getElem_mem _))
  · intro ok c held
    obtain ⟨k, lt, rfl⟩ := List.mem_iff_getElem.mp held
    rw [← at_phase k lt]
    rw [List.length_take] at lt
    exact decide_eq_true (ok ⟨k, by omega⟩)

theorem settingsCodesOk_iff {bytes : List Byte} (length : bytes.length = 28) : settingsCodesOk bytes = true
    ↔ (∀ k : Fin 16, (byteAt bytes k.val).toNat ≤ 4) ∧ (byteAt bytes 26).toNat ≤ 1 ∧ (byteAt bytes 27).toNat < 16 := by
  rw [settingsCodesOk, Bool.and_eq_true, Bool.and_eq_true, decide_eq_true_eq, decide_eq_true_eq, and_assoc,
    phases_ok_iff length]

/-- The warm-up's code (R186). -/
theorem warmUp_iff (b : Byte) (w : WarmUp) : b.toNat = 0 ∧ w = .short ∨ b.toNat = 1 ∧ w = .long
    ↔ b.toNat ≤ 1 ∧ (if b = 0 then WarmUp.short else .long) = w := by
  have zero : b = 0 ↔ b.toNat = 0 := BitVec.toNat_eq
  simp only [zero]
  cases w <;> by_cases e : b.toNat = 0 <;> simp [e]
  omega

/-- The bytes spell the record exactly when its fields stand in them and each code has a meaning. -/
theorem laidOut_iff {bytes : List Byte} (length : bytes.length = 28) (r : Settings) :
    r.LaidOut bytes ↔ settingsCodesOk bytes = true ∧ settingsOfBytes bytes = r := by
  rw [settingsCodesOk_iff length]
  constructor
  · rintro ⟨phases, lease, postThreshold, postDelay, noticeThreshold, noticeDelay, window, rest, longOrShort, isolated,
      flags⟩
    obtain ⟨warmUpCode, warmUp⟩ := (warmUp_iff _ _).mp longOrShort
    have code (k : Fin 16) : (byteAt bytes k.val).toNat ≤ 4 := by
      obtain ⟨p, code, -⟩ | ⟨code, -⟩ := phases k <;> omega
    refine ⟨⟨code, warmUpCode, isolated⟩, ?_⟩
    have table : (settingsOfBytes bytes).phaseTable = r.phaseTable := Vector.ext fun k lt => by
      rw [settingsOfBytes, Vector.getElem_ofFn]
      exact (requesterOfCode_eq_iff _ (code ⟨k, lt⟩) _).mpr (phases ⟨k, lt⟩)
    have isolation : (settingsOfBytes bytes).isolation = r.isolation := Vector.ext fun p lt => by
      rw [settingsOfBytes, Vector.getElem_ofFn]
      exact (flags ⟨p, lt⟩).symm
    clear phases longOrShort flags
    cases r
    simp only at lease postThreshold postDelay noticeThreshold noticeDelay window rest warmUp table isolation
    subst lease postThreshold postDelay noticeThreshold noticeDelay window rest warmUp table isolation
    rfl
  · rintro ⟨⟨code, warmUpCode, isolated⟩, rfl⟩
    refine ⟨fun k => ?_, rfl, rfl, rfl, rfl, rfl, rfl, rfl, (warmUp_iff _ _).mpr ⟨warmUpCode, rfl⟩, isolated, fun p => ?_⟩
    · refine (requesterOfCode_eq_iff _ (code k) _).mp ?_
      simp [settingsOfBytes]
    · simp [settingsOfBytes]

/-- R157: a PROPOSE carries the record that its bytes spell, when it is in range. -/
theorem proposedSettings_iff {bytes : List Byte} (length : bytes.length = 28) (r : Settings) :
    proposedSettings bytes = some r ↔ r.LaidOut bytes ∧ SettingsInRange r := by
  rw [laidOut_iff length, ← legal_iff, proposedSettings]
  split
  · next both =>
    obtain ⟨codes, legal⟩ := Bool.and_eq_true_iff.mp both
    rw [Option.some_inj]
    exact ⟨fun e => ⟨⟨codes, e⟩, e ▸ legal⟩, fun h => h.1.2⟩
  · next failed =>
    refine iff_of_false nofun fun ⟨⟨codes, spelled⟩, legal⟩ => failed ?_
    rw [spelled, codes, legal]
    rfl

/-! ## A record in range reads back -/

section ReadsBack

variable (r : Settings)

/-- The byte that stands for a warm-up (R186). -/
def WarmUp.code : WarmUp → Byte
  | .short => 0
  | .long => 1

/-- The bytes of a record behind its phase table. -/
def Settings.tailBytes : List Byte :=
  bytes16 r.leaseDuration ++ [byte r.postThreshold] ++ bytes16 r.postDelay ++ [byte r.noticeThreshold]
    ++ bytes16 r.noticeDelay
    ++ [byte r.voteWindow, byte r.restDelay, r.warmUp.code, portSetByte r.isolation]

theorem Settings.bytes_eq : r.bytes = r.phaseTable.toList.map Requester.code ++ r.tailBytes := by
  simp only [Settings.bytes, Settings.tailBytes, List.append_assoc]
  rfl

theorem Settings.length_phases : (r.phaseTable.toList.map Requester.code).length = 16 := by
  rw [List.length_map, Vector.length_toList]

theorem Settings.length_bytes : r.bytes.length = 28 := by
  rw [Settings.bytes_eq, List.length_append, Settings.length_phases]
  rfl

theorem Settings.byteAt_phase (k : Fin 16) : byteAt r.bytes k.val = (r.phaseTable[k]).code := by
  have lt : k.val < (r.phaseTable.toList.map Requester.code).length := by rw [Settings.length_phases]; exact k.isLt
  rw [byteAt, Settings.bytes_eq, List.getD_append _ _ _ _ lt, List.getD_eq_getElem _ _ lt, List.getElem_map]
  rfl

theorem Settings.byteAt_tail (k : Nat) : byteAt r.bytes (16 + k) = byteAt r.tailBytes k := by
  rw [byteAt, Settings.bytes_eq, List.getD_append_right _ _ _ _ (by rw [Settings.length_phases]; omega),
    Settings.length_phases, Nat.add_sub_cancel_left]
  rfl

/-- A phase's code names its requester. -/
theorem Requester.code_spells (q : Requester) :
    (∃ p : Port, q.code.toNat = p.val ∧ q = .port p) ∨ q.code.toNat = 4 ∧ q = .scrub := by
  cases q with
  | scrub => exact .inr ⟨rfl, rfl⟩
  | port p => exact .inl ⟨p, by revert p; decide, rfl⟩

/-- Bit p of a port set's byte is port p's flag, and the upper bits are clear. -/
theorem portSetByte_bits (v : PortSet) :
    (portSetByte v).toNat < 16 ∧ ∀ p : Port, (portSetByte v).getLsbD p.val = v[p] := by
  have bits (b0 b1 b2 b3 : Bool) : (byte (b0.toNat + b1.toNat * 2 + b2.toNat * 4 + b3.toNat * 8)).toNat < 16
      ∧ ∀ p : Port, (byte (b0.toNat + b1.toNat * 2 + b2.toNat * 4 + b3.toNat * 8)).getLsbD p.val
        = (#v[b0, b1, b2, b3] : PortSet)[p] := by
    revert b0 b1 b2 b3
    decide
  have whole : v = #v[v[0], v[1], v[2], v[3]] := Vector.ext fun k lt => by
    interval_cases k <;> rfl
  have := bits v[0] v[1] v[2] v[3]
  rw [← whole] at this
  exact this

variable {r} in
/-- The bytes of a record whose fields fit in them spell it. -/
theorem Settings.laidOut_bytes (range : SettingsInRange r) : r.LaidOut r.bytes := by
  obtain ⟨-, -, lease, -, postThreshold, -, postDelay, -, -, noticeThreshold, -, noticeDelay, -, -, window, rest⟩ := range
  have single (n k : Nat) (at_k : byteAt r.tailBytes k = byte n) (lt : n < 256) : n = (byteAt r.bytes (16 + k)).toNat := by
    rw [Settings.byteAt_tail, at_k, byte_toNat, Nat.mod_eq_of_lt lt]
  have double (n k : Nat) (high : byteAt r.tailBytes k = byte (n / 256)) (low : byteAt r.tailBytes (k + 1) = byte n)
      (lt : n < 65536) : n = fieldAt r.bytes (16 + k) := by
    rw [fieldAt, Nat.add_assoc, Settings.byteAt_tail, Settings.byteAt_tail, high, low, be16_byte n lt]
  obtain ⟨few, bits⟩ := portSetByte_bits r.isolation
  refine ⟨fun k => ?_, double _ 0 rfl rfl (by omega), single _ 2 rfl (by omega), double _ 3 rfl rfl (by omega),
    single _ 5 rfl (by omega), double _ 6 rfl rfl (by omega), single _ 8 rfl (by omega), single _ 9 rfl (by omega), ?_,
    (congrArg (fun b : Byte => b.toNat < 16) (r.byteAt_tail 11)).mpr few,
    fun p => (bits p).symm.trans (congrArg (fun b : Byte => b.getLsbD p.val) (r.byteAt_tail 11)).symm⟩
  · rw [Settings.byteAt_phase]
    exact Requester.code_spells _
  · have at_10 : byteAt r.bytes 26 = r.warmUp.code := r.byteAt_tail 10
    cases warmUp : r.warmUp with
    | short => exact .inl ⟨by rw [at_10, warmUp]; rfl, rfl⟩
    | long => exact .inr ⟨by rw [at_10, warmUp]; rfl, rfl⟩

end ReadsBack

/-- Settles O13: `proposedSettings_iff`, and `Settings.laidOut_bytes` for the way back. -/
theorem settingsRecordReadsAsLaidOut : Obligations.SettingsRecordReadsAsLaidOut := by
  refine ⟨fun bytes r length => ?_, legal_iff, fun r range => ⟨r.length_bytes, ?_⟩⟩
  · refine (proposedSettings_iff length r).trans ⟨?_, ?_⟩
    · rintro ⟨⟨phases, lease, postThreshold, postDelay, noticeThreshold, noticeDelay, window, rest, warmUp, isolated,
        isolation⟩, range⟩
      exact ⟨phases, lease, postThreshold, postDelay, noticeThreshold, noticeDelay, window, rest, warmUp, isolated, isolation,
        range⟩
    · rintro ⟨phases, lease, postThreshold, postDelay, noticeThreshold, noticeDelay, window, rest, warmUp, isolated,
        isolation, range⟩
      exact ⟨⟨phases, lease, postThreshold, postDelay, noticeThreshold, noticeDelay, window, rest, warmUp, isolated,
        isolation⟩, range⟩
  · exact (proposedSettings_iff r.length_bytes r).mpr ⟨Settings.laidOut_bytes range, range⟩

end Sys2Proof.Machine
end

