-- ==== Sys2Proof/Proofs/StoreAndGenerations.lean ====
section
/-! PROOFS. The store stays in canonical form, with no byte outside it, and every generation in 1..4095 (R2). A step writes in one
place at most: the block that a burst completes, scrubs or loses. -/

namespace Sys2Proof.Machine

/-! ## Generations (R2) -/

theorem nextGeneration_inRange {g : Nat} (h : 1 ≤ g ∧ g ≤ 4095) : 1 ≤ nextGeneration g ∧ nextGeneration g ≤ 4095 := by
  unfold nextGeneration
  split <;> omega

namespace GenerationsInRange

variable {s t : State}

/-- Each generation stays or steps. -/
theorem moves (h : GenerationsInRange s) (each : ∀ i : ShareIdx, t.shares[i].generation = s.shares[i].generation
    ∨ t.shares[i].generation = nextGeneration s.shares[i].generation) : GenerationsInRange t := by
  intro i
  rw [State.share_eq]
  obtain stays | steps := each i
  · rw [stays]
    exact h i
  · rw [steps]
    exact nextGeneration_inRange (h i)

theorem still (h : GenerationsInRange s) (each : ∀ i : ShareIdx, t.shares[i].generation = s.shares[i].generation) :
    GenerationsInRange t := h.moves fun i => .inl (each i)

theorem modShare (h : GenerationsInRange s) (i : ShareIdx) {f : Share → Share}
    (kept : (f s.shares[i]).generation = s.shares[i].generation) : GenerationsInRange (s.modShare i f) :=
  h.still fun j => by
    rw [State.modShare_get]
    split
    · next e => rw [e, kept]
    · rfl

theorem makeHandle (h : GenerationsInRange s) (p : Port) (k : HandleNo) (v : Handle) :
    GenerationsInRange (s.makeHandle p k v) :=
  GenerationsInRange.modShare (s := s.setHandle p k (some v)) h v.share rfl

theorem makeShare (h : GenerationsInRange s) (p : Port) (f : CreateFields) (i : ShareIdx) (k : HandleNo) :
    GenerationsInRange (s.makeShare p f i k) := by
  rw [makeShare_eq]
  have opened : GenerationsInRange (s.openShare p f i) := h.still fun j => by
    rw [openShare_shares]
    split
    · next e => rw [e]; rfl
    · rfl
  exact opened.makeHandle p k _

/-- A retirement steps the entry's generation (R11). -/
theorem retireIfDone (h : GenerationsInRange s) (i : ShareIdx) : GenerationsInRange (s.retireIfDone i) := by
  unfold State.retireIfDone
  split
  · refine h.moves fun j => ?_
    rw [retire_shares]
    split
    · next e => rw [e]; exact .inr rfl
    · exact .inl rfl
  · exact h

theorem enterClosing (h : GenerationsInRange s) (i : ShareIdx) : GenerationsInRange (s.enterClosing i) :=
  (h.modShare i (f := fun sh => { sh with state := .closing, name := none, handleCount := 0 }) rfl).retireIfDone i

theorem revoked (h : GenerationsInRange s) (p : Port) (k : HandleNo) (i : ShareIdx) :
    GenerationsInRange (s.revoked p k i) :=
  h.moves fun j => by
    rw [revoked_shares]
    split
    · next e => rw [e]; exact .inr rfl
    · exact .inl rfl

theorem emptyHandle (h : GenerationsInRange s) (p : Port) (k : HandleNo) : GenerationsInRange (s.emptyHandle p k) := by
  unfold State.emptyHandle
  split
  · exact h
  next v _ =>
  dsimp only
  split
  · have lost : GenerationsInRange ((s.setHandle p k none).modShare v.share fun sh => sh.loseHandle v.rights.admin) :=
      GenerationsInRange.modShare (s := s.setHandle p k none) h v.share rfl
    unfold State.closeIfUnused
    split
    · exact lost.enterClosing v.share
    · exact lost
  · exact h

theorem endOperation (h : GenerationsInRange s) (p : Port) (op : Operation) (answer : Option Reply) :
    GenerationsInRange (s.endOperation p op answer) := by
  have used : GenerationsInRange (s.releaseUse op.share) :=
    (h.modShare op.share (f := fun sh => { sh with inUse := sh.inUse - 1 }) rfl).retireIfDone op.share
  rw [endOperation_eq]
  exact used.still (sameTables_released s p op answer).generation

theorem advance (h : GenerationsInRange s) (p : Port) (op : Operation) : GenerationsInRange (s.advance p op) := by
  unfold State.advance
  split
  · exact h
  · exact h.endOperation p _ _
  · exact h.endOperation p _ _

theorem startOperation (h : GenerationsInRange s) (p : Port) (k : DataKind) (a : Admit) :
    GenerationsInRange (s.startOperation p k a) := by
  have admitted : GenerationsInRange (s.admitting a) := h.still fun j => by
    rw [admitting_shares]
    split
    · next e => rw [e]; rfl
    · rfl
  exact admitted.advance p _

end GenerationsInRange

/-- Every operation on the tables keeps the generations in range. -/
theorem generationsInRange_invariant : StepInvariant GenerationsInRange True where
  same e h := h.still e.generation
  reset i := by rw [State.share_eq, reset_shares]; decide
  scrubbed _ h := h
  makeShare _ _ _ _ h := h.makeShare _ _ _ _
  attach _ _ _ h := h.makeHandle _ _ _
  grant _ _ _ _ h := h.makeHandle _ _ _
  enterClosing _ h := h.enterClosing _
  revoked _ _ h := h.revoked _ _ _
  emptyHandle p k h := h.emptyHandle p k
  clearTables _ h := h
  startOperation _ _ h := h.startOperation _ _ _
  endOperation answer _ h := h.endOperation _ _ answer
  advance _ _ h := h.advance _ _
  unbacked _ _ _ := trivial

theorem generationsInRange_step {s t : State} (h : GenerationsInRange s) (stepped : step s = .next t) :
    GenerationsInRange t := by
  have led := generationsInRange_invariant.step h
  rw [stepped] at led
  exact led

/-! ## The store -/

section Store

variable {s t : State}

theorem MemoryCanonical.same (h : MemoryCanonical s) (mem : t.mem = s.mem) : MemoryCanonical t := by
  rw [MemoryCanonical, mem]
  exact h

/-- A burst writes within its frame, and so within the store (R84). -/
theorem MemoryCanonical.written (h : MemoryCanonical s) (op : Operation) (f : FrameNo) (captured : List Byte) :
    (s.mem.writeBytes (op.address f) (op.written captured)).wf = true := by
  have inFrame := written_inFrame op captured
  have lt := f.isLt
  refine Memory.wf_writeBytes h _ ?_
  unfold Operation.address frameAddress Config.storeBytes Config.frameBytes
  unfold Config.frameBytes at inFrame
  omega

theorem MemoryCanonical.scrubbed (h : MemoryCanonical s) (sf : ScrubFrame) : (scrubBlock s.mem sf).wf = true := by
  refine Memory.wf_writeBytes h _ ?_
  rw [List.length_replicate]
  refine frameAddress_block_le sf.frame ?_
  unfold Config.blockBytes
  omega

theorem MemoryCanonical.freeBlock (h : MemoryCanonical s) (f : FrameNo) (offset : Nat) :
    MemoryCanonical (s.freeBlock f offset) := by
  obtain ⟨vs, length, freed⟩ := freeBlock_eq s f offset
  rw [freed]
  refine Memory.wf_writeBytes h vs ?_
  rw [length]
  exact frameAddress_block_le f (by omega)

theorem MemoryCanonical.loseBurst (h : MemoryCanonical s) : MemoryCanonical s.loseBurst := by
  unfold State.loseBurst
  split
  · exact h
  · split
    · exact h.freeBlock _ _
    · exact h
  · split
    · split
      · exact h
      · exact h.freeBlock _ _
    · exact h
    · exact h

theorem MemoryCanonical.took (h : MemoryCanonical s) : Leads MemoryCanonical True (took s) := h.same (State.settle_mem s)

theorem MemoryCanonical.grantPort (h : MemoryCanonical s) (p : Port) (op : Operation) :
    Leads MemoryCanonical True (s.grantPort p op) := by
  unfold State.grantPort
  split
  · exact (h.same ((keeps_endOperation s p op _).trans (keeps_finishCleanup _ p)).mem).took
  split
  · trivial
  · exact (h.same (keeps_setStage { s with arbiter := { s.arbiter with path := .busy (.port p) } } p _).mem).took

theorem MemoryCanonical.execGrantDecision (h : MemoryCanonical s) : Leads MemoryCanonical True (execGrantDecision s) := by
  unfold Machine.execGrantDecision
  split
  · split
    · next r pointer _ =>
      have pointed : MemoryCanonical { s with arbiter := { s.arbiter with pointer := pointer } } := h
      unfold State.grantTo
      split
      · exact MemoryCanonical.took h
      · split
        · exact pointed.grantPort _ _
        · exact pointed
        · exact pointed
    · exact h
  · exact h

theorem MemoryCanonical.execBurstCompletion (h : MemoryCanonical s) (p : Port) :
    Leads MemoryCanonical True (execBurstCompletion p s) := by
  unfold Machine.execBurstCompletion
  split
  · next op f captured stage =>
    split
    · have completed : MemoryCanonical (s.freePath.completeBurst p op f captured) := by
        obtain nothing | stored := follows_completeBurst stage
        · exact h.same nothing.mem
        · have written : MemoryCanonical (s.stored (s.mem.writeBytes (op.address f) (op.written captured))) :=
            h.written op f captured
          exact written.same stored.mem
      exact (completed.same (keeps_finishCleanup _ p).mem).took
    · exact h
  · exact h

theorem MemoryCanonical.execScrubBurstCompletion (h : MemoryCanonical s) :
    Leads MemoryCanonical True (execScrubBurstCompletion s) := by
  unfold Machine.execScrubBurstCompletion
  split
  · split
    · next sf _ =>
      have zeroed := h.scrubbed sf
      generalize scrubBlock s.mem sf = m at zeroed ⊢
      exact MemoryCanonical.took (s := { s.freePath with mem := m, pool := s.pool.scrubbed sf }) zeroed
    · exact MemoryCanonical.took (s := s.freePath) h
  · exact h

theorem MemoryCanonical.execResetAssert (h : MemoryCanonical s) : Leads MemoryCanonical True (execResetAssert s) := by
  unfold Machine.execResetAssert
  split
  · exact h
  · exact h.loseBurst

/-- Every command keeps the store canonical. -/
theorem MemoryCanonical.exec (h : MemoryCanonical s) (c : Instr) : Leads MemoryCanonical True (exec c s) := by
  cases on_path : onPath c with
  | false => exact (follows_exec c on_path).mono fun _ follows => h.same follows.mem
  | true =>
    cases c with
    | grantDecision => exact h.execGrantDecision
    | burstCompletion p => exact h.execBurstCompletion p
    | scrubBurstCompletion => exact h.execScrubBurstCompletion
    | resetAssert => exact h.execResetAssert
    | powerOn => exact h.loseBurst
    | _ => cases on_path

theorem memoryCanonical_step (h : MemoryCanonical s) (stepped : step s = .next t) : MemoryCanonical t := by
  have led : Leads MemoryCanonical True (step s) := by
    unfold step
    split
    · exact h
    · next c rest _ => exact MemoryCanonical.exec (s := { s with pending := rest }) h c
  rw [stepped] at led
  exact led

end Store

end Sys2Proof.Machine
end

