-- ==== Sys2Proof/Proofs/QueuesAndBursts.lean ====
section
/-! PROOFS. The queues within their places (R182, R183, R93, R169), the settings legal (R155, R113, R114) and the path BUSY exactly
with the burst in flight (R111, R83). `Holds` says what an operation leaves of the three, but for the bursts; `Stays` says that it
leaves the bursts as well. -/

namespace Sys2Proof.Machine

/-! ## Queues, settings and bursts -/

/-- The queues of a port are within the places they have. -/
def PortState.WithinPlaces (q : PortState) : Prop :=
  q.link.requests.length ≤ 4 ∧ q.link.responses.length ≤ 4 ∧ q.posts.posts.length ≤ 8 ∧ q.notices.records.length ≤ 16

theorem queuesBounded_iff (s : State) : QueuesBounded s ↔ ∀ p : Port, s.ports[p].WithinPlaces := Iff.rfl

/-- The settings record that a proposal carries, if it does, is legal (R155). -/
def Proposal.Legal (pr : Proposal) : Prop := ∀ r, pr.action = .settings r → r.legal = true

theorem SettingsLegal.pending {s : State} (h : SettingsLegal s) {pr : Proposal} (pending : s.proposal = some pr) : pr.Legal :=
  fun r action => h.2.2 pr r pending action

/-- The ports with a burst in flight. -/
def State.bursting (s : State) : Port → Bool := fun p => s.ports[p].stage.stage.isBursting

theorem Stage.isBursting_of_span {st st' : Stage} (h : st'.span = st.span) : st'.isBursting = st.isBursting := by
  have through (st : Stage) : st.span.isBursting = st.isBursting := by cases st <;> rfl
  rw [← through, h, through]

/-- From `s` to `t` the path stays, and no scrub frame is lost, no queue overfilled and no illegal record taken up. -/
structure Holds (s t : State) : Prop where
  path : t.arbiter.path = s.arbiter.path
  scrub : s.pool.scrub.isSome = true → t.pool.scrub.isSome = true
  queues : QueuesBounded s → QueuesBounded t
  legal : SettingsLegal s → SettingsLegal t

/-- `Holds`, and no burst begins or ends. -/
structure Stays (s t : State) : Prop extends Holds s t where
  bursting : t.bursting = s.bursting

section Relations

variable {s t u : State}

theorem Holds.trans (a : Holds s t) (b : Holds t u) : Holds s u where
  path := b.path.trans a.path
  scrub := b.scrub ∘ a.scrub
  queues := b.queues ∘ a.queues
  legal := b.legal ∘ a.legal

namespace Stays

theorem refl (s : State) : Stays s s := ⟨⟨rfl, id, id, id⟩, rfl⟩

theorem trans (a : Stays s t) (b : Stays t u) : Stays s u := ⟨a.toHolds.trans b.toHolds, b.bursting.trans a.bursting⟩

theorem foldl {α : Type} {f : State → α → State} (h : ∀ s a, Stays s (f s a)) (l : List α) (s : State) :
    Stays s (l.foldl f s) := by
  induction l generalizing s with
  | nil => exact refl s
  | cons a l ih => exact (h s a).trans (ih (f s a))

end Stays

/-- Nothing but these of the settings matters. -/
theorem SettingsLegal.same (h : SettingsLegal s) (settings : t.settings = s.settings)
    (table : t.arbiter.table = s.arbiter.table) (proposal : t.proposal = s.proposal) : SettingsLegal t := by
  rw [SettingsLegal, settings, table, proposal]
  exact h

/-- An operation that keeps the settings, the path and the proposal. -/
theorem Holds.of_keeps (keeps : Keeps s t) (scrub : s.pool.scrub.isSome = true → t.pool.scrub.isSome = true)
    (queues : ∀ p : Port, s.ports[p].WithinPlaces → t.ports[p].WithinPlaces) : Holds s t where
  path := keeps.path
  scrub := scrub
  queues h p := queues p (h p)
  legal h := h.same keeps.settings (congrArg Arbiter.table keeps.arbiter) keeps.proposal

theorem Stays.of_keeps (keeps : Keeps s t) (scrub : s.pool.scrub.isSome = true → t.pool.scrub.isSome = true)
    (ports : ∀ p : Port, t.ports[p].stage.stage.isBursting = s.ports[p].stage.stage.isBursting
      ∧ (s.ports[p].WithinPlaces → t.ports[p].WithinPlaces)) : Stays s t :=
  ⟨.of_keeps keeps scrub fun p => (ports p).2, funext fun p => (ports p).1⟩

/-- Nothing but the path, the scrub frame, the ports and the settings matters. -/
theorem Stays.elsewhere (path : t.arbiter.path = s.arbiter.path := by rfl) (pool : t.pool = s.pool := by rfl)
    (ports : t.ports = s.ports := by rfl) (settings : t.settings = s.settings := by rfl)
    (table : t.arbiter.table = s.arbiter.table := by rfl) (proposal : t.proposal = s.proposal := by rfl) : Stays s t :=
  ⟨⟨path, fun h => pool ▸ h, fun h p => by rw [State.port_eq, ports]; exact h p, fun h => h.same settings table proposal⟩,
    funext fun p => by unfold State.bursting; rw [ports]⟩

/-- Pushes leave every Notice Queue within its places (R171). -/
theorem Pushed.stays {ns : Port → List Notice} (h : Pushed s t ns) (keeps : Keeps s t) (tables : SameTables s t) :
    Stays s t := by
  refine .of_keeps keeps (fun scrub => tables.pool ▸ scrub) fun q => ?_
  have told : t.ports[q].notices = _ := h.told q
  rw [h.ports q]
  refine ⟨rfl, fun ⟨requests, responses, posts, notices⟩ => ⟨requests, responses, posts, ?_⟩⟩
  rw [told]
  split
  · exact pushAll_length _ _ _ notices
  · exact notices

end Relations

/-! ## Records, notices and claims -/

section Still

variable (s : State)

theorem stays_modPort (p : Port) (f : PortState → PortState)
    (stage : (f s.ports[p]).stage.stage.isBursting = s.ports[p].stage.stage.isBursting)
    (within : s.ports[p].WithinPlaces → (f s.ports[p]).WithinPlaces) : Stays s (s.modPort p f) :=
  .of_keeps (keeps_modPort s p f) id fun q => by
    rw [State.modPort_get]
    split
    · next e => rw [e]; exact ⟨stage, within⟩
    · exact ⟨rfl, id⟩

/-- A link whose queues do not grow. -/
theorem stays_modLink (p : Port) (f : Link → Link)
    (requests : (f s.ports[p].link).requests.length ≤ s.ports[p].link.requests.length)
    (responses : (f s.ports[p].link).responses.length ≤ s.ports[p].link.responses.length) : Stays s (s.modLink p f) :=
  stays_modPort s p _ rfl fun ⟨fewRequests, fewResponses, rest⟩ =>
    ⟨requests.trans fewRequests, responses.trans fewResponses, rest⟩

theorem stays_modAttach (p : Port) (f : Attachment → Attachment) : Stays s (s.modAttach p f) := stays_modPort s p _ rfl id

theorem stays_modPosts (p : Port) (f : PostBuffer → PostBuffer)
    (posts : (f s.ports[p].posts).posts.length ≤ s.ports[p].posts.posts.length) : Stays s (s.modPosts p f) :=
  stays_modPort s p _ rfl fun ⟨requests, responses, few, notices⟩ => ⟨requests, responses, posts.trans few, notices⟩

theorem stays_modNotices (p : Port) (f : NoticeQueue → NoticeQueue)
    (records : (f s.ports[p].notices).records.length ≤ s.ports[p].notices.records.length) : Stays s (s.modNotices p f) :=
  stays_modPort s p _ rfl fun ⟨requests, responses, posts, few⟩ => ⟨requests, responses, posts, records.trans few⟩

theorem stays_placeResponse (p : Port) (k : Byte) (r : Reply) : Stays s (s.placeResponse p k r) :=
  stays_modLink s p _ le_rfl (length_completeReserved ..).le

theorem stays_setHandle (p : Port) (h : HandleNo) (v : Option Handle) : Stays s (s.setHandle p h v) :=
  stays_modPort s p _ rfl id

theorem stays_modShare (i : ShareIdx) (f : Share → Share) : Stays s (s.modShare i f) := .elsewhere

theorem stays_setClaim (i : ShareIdx) (c : Option Claim) : Stays s (s.setClaim i c) := .elsewhere

theorem stays_settle : Stays s s.settle where
  path := congrArg Arbiter.path (State.settle_arbiter s)
  scrub h := by rw [State.settle_pool]; exact h
  queues h p := by rw [State.port_eq, State.settle_get]; exact h p
  legal h := h.same (State.settle_settings s) (congrArg Arbiter.table (State.settle_arbiter s)) (State.settle_proposal s)
  bursting := funext fun p => by rw [State.bursting, State.settle_get]; rfl

theorem stays_push (q : Port) (n : Notice) : Stays s (s.push q n) :=
  (Pushed.push s q n).stays (keeps_push s q n) (sameTables_push s q n)

theorem stays_pushTold (k : NoticeKind) (p : Port) (i : ShareIdx) (value : Nat) (l : List (Port × HandleNo)) :
    Stays s (s.pushTold k p i value l) :=
  (Pushed.pushTold s k p i value l).stays (keeps_pushTold s k p i value l) (sameTables_pushTold s k p i value l)

theorem stays_endClaim (p : Port) (i : ShareIdx) (cause : Nat) : Stays s (s.endClaim p i cause) :=
  (Pushed.endClaim s p i cause).stays (keeps_endClaim s p i cause) (sameTables_endClaim s p i cause)

theorem stays_handover (i : ShareIdx) (c : Claim) : Stays s (s.handover i c) :=
  (Pushed.handover s i c).stays (keeps_handover s i c) (sameTables_handover s i c)

theorem stays_claimDrop (p : Port) (h : HandleNo) (i : ShareIdx) : Stays s (s.claimDrop p h i) :=
  (Pushed.claimDrop s p h i).stays (keeps_claimDrop s p h i) (sameTables_claimDrop s p h i)

theorem stays_claimCleanup (p : Port) : Stays s (s.claimCleanup p) :=
  (Pushed.claimCleanup s p).stays (keeps_claimCleanup s p) (sameTables_claimCleanup s p)

theorem stays_pushDecided (pr : Proposal) (o : ProposalOutcome) : Stays s (s.pushDecided pr o allPorts) :=
  (Pushed.pushDecided s pr o).stays (keeps_pushDecided s pr o _) (sameTables_pushDecided s pr o _)

theorem stays_pushPeers (p : Port) (n : Notice) : Stays s (s.pushPeers p n allPorts) :=
  (Pushed.pushPeers s p n).stays (keeps_pushPeers s p n _) (sameTables_pushPeers s p n _)

theorem stays_pushOpened (pr : Proposal) : Stays s (s.pushOpened pr allPorts) := by
  have pushed := Pushed.pushWhere s (fun q => pr.voters[q]) (proposalNotice .proposalOpened pr.proposer pr.id pr.action.code)
  rw [← pushOpened_eq] at pushed
  exact pushed.stays (keeps_pushOpened s pr _) (sameTables_pushOpened s pr _)

theorem stays_claimShare (p : Port) (h : HandleNo) (i : ShareIdx) (wait : Bool) :
    Stays s (s.claimShare p h i wait).1 := by
  unfold State.claimShare
  split
  · exact stays_setClaim s i _
  split
  · exact .refl s
  split
  · exact .refl s
  split
  · exact stays_setClaim s i _
  · exact .refl s

theorem stays_releaseClaim (p : Port) (i : ShareIdx) : Stays s (s.releaseClaim p i).1 := by
  unfold State.releaseClaim
  split
  · exact .refl s
  split
  · exact stays_handover s i _
  split
  · exact stays_setClaim s i _
  · exact .refl s

theorem stays_renewClaim (p : Port) (i : ShareIdx) : Stays s (s.renewClaim p i).1 := by
  unfold State.renewClaim
  split
  · exact .refl s
  split
  · exact stays_setClaim s i _
  · exact .refl s

theorem stays_drainForHead (p : Port) : Stays s (s.drainForHead p) := by
  rw [drainForHead_eq]
  refine stays_modPosts s p _ ?_
  split
  · rw [(drainHeld_kept _).1]
  · exact le_rfl

theorem stays_becomeAttached (p : Port) : Stays s (s.becomeAttached p) := by
  have placed : Stays s (((s.modAttach p fun a => { a with state := .attached }).modPosts p fun b =>
      { b with ordinal := 0 }).placeResponse p kindHello (Reply.ok (.hello s.pool.clean.length))) :=
    ((stays_modAttach s p _).trans (stays_modPosts _ p _ le_rfl)).trans (stays_placeResponse _ p _ _)
  unfold State.becomeAttached
  dsimp only
  refine Stays.trans ?_ (stays_modAttach _ p _)
  split
  · exact placed.trans (stays_pushPeers _ p _)
  · exact placed

theorem stays_finishCleanup (p : Port) : Stays s (s.finishCleanup p) := by
  unfold State.finishCleanup
  split
  · exact stays_becomeAttached s p
  · exact .refl s

/-! ## Shares and handles -/

/-- A scrub frame stays when frames are given back (R57). -/
theorem giveBack_scrub {q : Pool} (present : q.scrub.isSome = true) (fs : List FrameNo) :
    (q.giveBack fs).scrub.isSome = true := by
  rw [Pool.giveBack_of_some q present]
  exact present

theorem stays_retireIfDone (i : ShareIdx) : Stays s (s.retireIfDone i) := by
  have spans := retireIfDone_span s i
  refine .of_keeps (keeps_retireIfDone s i) ?_ fun p => ⟨Stage.isBursting_of_span (spans p), ?_⟩
  · unfold State.retireIfDone
    split
    · rw [retire_pool]
      exact fun present => giveBack_scrub present _
    · exact id
  · unfold State.retireIfDone
    split
    · rw [retire_ports]
      exact fun ⟨requests, responses, posts, notices⟩ => ⟨requests, responses, posts, notices⟩
    · exact id

theorem stays_enterClosing (i : ShareIdx) : Stays s (s.enterClosing i) :=
  Stays.trans (t := s.markClosing i) (stays_modShare s i _) (stays_retireIfDone _ i)

theorem stays_makeHandle (p : Port) (h : HandleNo) (v : Handle) : Stays s (s.makeHandle p h v) :=
  (stays_setHandle s p h _).trans (stays_modShare _ v.share _)

theorem stays_makeShare (p : Port) (f : CreateFields) (i : ShareIdx) (h : HandleNo) : Stays s (s.makeShare p f i h) := by
  have opened : Stays s (s.openShare p f i) := ⟨⟨rfl, id, id, id⟩, rfl⟩
  rw [makeShare_eq]
  exact opened.trans (stays_makeHandle _ p h _)

theorem stays_closeIfUnused (i : ShareIdx) : Stays s (s.closeIfUnused i) := by
  unfold State.closeIfUnused
  split
  · exact stays_enterClosing s i
  · exact .refl s

theorem stays_emptyHandle (p : Port) (h : HandleNo) : Stays s (s.emptyHandle p h) := by
  unfold State.emptyHandle
  split
  · exact .refl s
  next v _ =>
  dsimp only
  split
  · exact ((stays_setHandle s p h none).trans (stays_modShare _ v.share _)).trans (stays_closeIfUnused _ _)
  · exact stays_setHandle s p h none

theorem stays_emptyTable (p : Port) : Stays s (s.emptyTable p) := by
  refine Stays.foldl (fun s h => ?_) allHandles s
  split
  · exact (stays_emptyHandle s p h).trans (stays_modAttach _ p _)
  · exact .refl s

theorem stays_closeShare (p : Port) (i : ShareIdx) : Stays s (s.closeShare p i) := by
  unfold State.closeShare
  exact (((stays_modShare s i _).trans (stays_pushTold _ _ _ _ _ _)).trans (stays_endClaim _ p i 2)).trans
    (stays_retireIfDone _ i)

theorem stays_revokeShare (p : Port) (h : HandleNo) (i : ShareIdx) : Stays s (s.revokeShare p h i) := by
  have stepped : Stays s (s.stepGeneration i) := .of_keeps (keeps_stepGeneration s i) id fun q => by
    rw [stepGeneration_ports]
    exact ⟨Stage.isBursting_of_span (Stage.span_afterStep i _ _),
      fun ⟨requests, responses, posts, notices⟩ => ⟨requests, responses, posts, notices⟩⟩
  have revoked : Stays s (s.revoked p h i) := (stepped.trans (stays_setHandle _ p h _)).trans (stays_modShare _ i _)
  exact (revoked.trans (stays_pushTold _ _ _ _ _ _)).trans (stays_endClaim _ p i 1)

end Still

/-! ## Operations in the data stage -/

section Operations

variable (s : State)

theorem bursting_setStage (p : Port) (d : DataStage) :
    (s.setStage p d).bursting = Function.update s.bursting p d.stage.isBursting := by
  funext q
  rw [State.bursting, setStage_get, Function.update_apply]
  split <;> rfl

theorem holds_setStage (p : Port) (d : DataStage) : Holds s (s.setStage p d) :=
  .of_keeps (keeps_setStage s p d) id fun q => by
    rw [State.setStage_eq, State.modPort_get]
    split
    · next e => rw [e]; exact id
    · exact id

/-- The end of an operation empties the data stage of its port, and no other (R86). -/
theorem holds_endOperation (p : Port) (op : Operation) (answer : Option Reply) :
    Holds s (s.endOperation p op answer) ∧ (s.endOperation p op answer).bursting = Function.update s.bursting p false := by
  have released : Stays s (s.released p op answer) := by
    have used : Stays s (s.releaseUse op.share) := (stays_modShare s op.share _).trans (stays_retireIfDone _ op.share)
    cases answer with
    | none => exact used
    | some r => exact used.trans (stays_placeResponse _ p _ r)
  rw [endOperation_eq, bursting_setStage, released.bursting]
  exact ⟨released.toHolds.trans (holds_setStage _ p _), rfl⟩

/-- An operation that goes on without a burst (R85). -/
theorem holds_advance (p : Port) (op : Operation) :
    Holds s (s.advance p op) ∧ (s.advance p op).bursting = Function.update s.bursting p false := by
  unfold State.advance
  split
  · exact ⟨holds_setStage s p _, bursting_setStage s p _⟩
  · exact holds_endOperation s p _ _
  · exact holds_endOperation s p _ _

variable {s}

/-- What goes on without a burst, from a data stage without one. -/
theorem Stays.of_idle {t : State} {p : Port} (idle : s.ports[p].stage.stage.isBursting = false)
    (h : Holds s t ∧ t.bursting = Function.update s.bursting p false) : Stays s t :=
  ⟨h.1, h.2.trans (Function.update_eq_self_iff.mpr idle.symm)⟩

theorem stays_startOperation {p : Port} (k : DataKind) (a : Admit) (empty : s.ports[p].stage.stage = .empty) :
    Stays s (s.startOperation p k a) := by
  have admitted : Stays s (s.admitting a) := ⟨⟨rfl, id, id, id⟩, rfl⟩
  rw [startOperation_eq]
  exact admitted.trans (.of_idle (congrArg Stage.isBursting empty) (holds_advance _ p _))

theorem stays_dataCleanup (s : State) (p : Port) : Stays s (s.dataCleanup p) := by
  have cleared := stays_modPosts s p (fun b => { b.cleared with faults := 0 }) (Nat.zero_le _)
  unfold State.dataCleanup
  dsimp only
  split
  · exact cleared
  · next op stage =>
    split
    · exact cleared.trans (.of_idle (congrArg Stage.isBursting stage) (holds_endOperation _ p op none))
    · exact cleared
  · next op f bs stage =>
    split
    · exact cleared.trans (stays_modPort _ p _ (congrArg Stage.isBursting stage).symm id)
    · exact cleared

end Operations

/-! ## Agreement, cleanup and attachment -/

section Agreement

variable (s : State)

theorem stays_closeLive (i : ShareIdx) : Stays s (s.closeLive i) := by
  unfold State.closeLive
  split
  · exact stays_enterClosing s i
  · exact .refl s

theorem stays_adoptClearAll : Stays s s.adoptClearAll := by
  refine (Stays.foldl stays_closeLive allShares s).trans ?_
  unfold State.adoptClearAll
  generalize allShares.foldl State.closeLive s = t
  refine ⟨⟨rfl, id, fun h p => ?_, id⟩, funext fun p => ?_⟩
  · obtain ⟨requests, responses, -, notices⟩ := h p
    rw [State.port_eq, State.mapPorts_get]
    exact ⟨requests, responses, Nat.zero_le _, notices⟩
  · dsimp only [State.bursting]
    rw [State.mapPorts_get]

/-- An adopted record is installed whole, with its table (R162, R114). -/
theorem stays_adopt (a : ProposalAction) (legal : SettingsLegal s → ∀ r, a = .settings r → r.legal = true) :
    Stays s (s.adopt a) := by
  cases a with
  | settings r => exact ⟨⟨rfl, id, id, fun h => ⟨legal h r rfl, rfl, h.2.2⟩⟩, rfl⟩
  | clearAll => exact stays_adoptClearAll s

theorem stays_setProposal (o : Option Proposal) (legal : SettingsLegal s → ∀ pr, o = some pr → pr.Legal) :
    Stays s { s with proposal := o } :=
  ⟨⟨rfl, id, id, fun h => ⟨h.1, h.2.1, fun pr r pending => legal h pr pending r⟩⟩, rfl⟩

theorem stays_endProposal (pr : Proposal) (o : ProposalOutcome) (legal : SettingsLegal s → pr.Legal) :
    Stays s (s.endProposal pr o) := by
  unfold State.endProposal
  dsimp only
  split
  · exact ((stays_adopt s _ legal).trans (stays_setProposal _ none fun _ => nofun)).trans (stays_pushDecided _ pr o)
  · exact (stays_setProposal s none fun _ => nofun).trans (stays_pushDecided _ pr o)

theorem stays_agreementCleanup (p : Port) (c : CleanupCause) : Stays s (s.agreementCleanup p c) := by
  unfold State.agreementCleanup
  split
  · exact .refl s
  next pr pending =>
  have legal : SettingsLegal s → pr.Legal := fun h => h.pending pending
  split
  · exact stays_endProposal s pr _ legal
  split
  · split
    · exact stays_endProposal s pr _ legal
    · dsimp only
      split
      · exact stays_endProposal s _ _ legal
      · exact stays_setProposal s _ fun h pr' e => by cases e; exact legal h
  · exact .refl s

theorem stays_cleanup (p : Port) (c : CleanupCause) : Stays s (s.cleanup p c) :=
  (((stays_claimCleanup s p).trans (stays_emptyTable _ p)).trans (stays_dataCleanup _ p)).trans
    (stays_agreementCleanup _ p c)

/-- A HELLO leaves no frame that was not queued, and one entry in the Response Queue (R145, R146). -/
theorem stays_takeHello (p : Port) (tag : Byte) (stay : List Frame) (fewer : stay.length ≤ s.ports[p].link.requests.length) :
    Stays s (s.takeHello p tag stay) := by
  have flushed (a : Attachment → Attachment) : Stays s ((s.flushQueues p tag stay).modAttach p a) := by
    refine (stays_modPort s p _ rfl ?_).trans (stays_modAttach _ p a)
    rintro ⟨requests, -, posts, -⟩
    exact ⟨fewer.trans requests, (by decide : 1 ≤ 4), posts, Nat.zero_le _⟩
  unfold State.takeHello
  dsimp only
  refine Stays.trans ?_ (stays_finishCleanup _ p)
  split
  · exact flushed _
  · exact (flushed _).trans (stays_cleanup _ p _)

theorem stays_arriveHello (p : Port) (tag : Byte) : Stays s (s.arriveHello p tag) := by
  unfold State.arriveHello
  split
  · exact stays_takeHello s p tag [] (Nat.zero_le _)
  · exact stays_modAttach s p _

theorem stays_takePending (p : Port) : Stays s (s.takePending p) := by
  unfold State.takePending
  split
  · exact .refl s
  · exact stays_takeHello s p _ _ (List.drop_sublist _ _).length_le

theorem stays_detachPort (p : Port) : Stays s (s.detachPort p) := by
  have cleaned := (stays_modAttach s p fun a => { a with state := .cleaning }).trans (stays_cleanup _ p .detach)
  unfold State.detachPort
  dsimp only
  refine .trans (.trans (cleaned.trans ?_) (stays_pushPeers _ p _)) (stays_modAttach _ p _)
  exact (stays_modAttach _ p _).trans (stays_modNotices _ p _ (Nat.zero_le _))

theorem stays_openProposal (p : Port) (a : ProposalAction) (legal : ∀ r, a = .settings r → r.legal = true) :
    Stays s (s.openProposal p a).1 := by
  have carried : (s.newProposal p a).Legal := legal
  unfold State.openProposal
  generalize s.newProposal p a = pr at carried ⊢
  have counted : Stays s { s with proposalCounter := pr.id } := .elsewhere
  dsimp only
  split
  · exact counted.trans (stays_endProposal _ pr _ fun _ => carried)
  · exact (counted.trans (stays_setProposal _ (some pr) fun _ pr' e => by cases e; exact carried)).trans
      (stays_pushOpened _ pr)

theorem stays_castVote (p : Port) (pr : Proposal) (accept : Bool) (legal : SettingsLegal s → pr.Legal) :
    Stays s (s.castVote p pr accept).1 := by
  unfold State.castVote
  split
  · dsimp only
    split
    · exact stays_endProposal s _ _ legal
    · exact stays_setProposal s _ fun h pr' e => by cases e; exact legal h
  · exact stays_endProposal s pr _ legal

end Agreement

end Sys2Proof.Machine
end

