-- ==== Sys2Proof/Proofs/StepBounds.lean ====
section
/-! PROOFS. Every step keeps the store canonical, the queues within their places, the generations in range, the settings legal and
the path BUSY exactly with the burst in flight: the services and the commands, those first that begin, complete or lose no burst. -/

namespace Sys2Proof.Machine

/-! ## The services of requests: a check that fails leaves the state as it is -/

section Services

variable (s : State)

theorem stays_serveCreate (p : Port) (body : List Byte) : Stays s (serveCreate p body s).1 := by
  unfold serveCreate
  iterate 8 (split; exact .refl s)
  exact stays_makeShare s p _ _ _

theorem stays_serveAttach (p : Port) (body : List Byte) : Stays s (serveAttach p body s).1 := by
  unfold serveAttach
  iterate 7 (split; exact .refl s)
  exact stays_makeHandle s p _ _

theorem stays_serveGrant (p : Port) (body : List Byte) : Stays s (serveGrant p body s).1 := by
  unfold serveGrant
  iterate 10 (split; exact .refl s)
  exact (stays_makeHandle s _ _ _).trans (stays_push _ _ _)

theorem stays_serveClose (p : Port) (body : List Byte) : Stays s (serveClose p body s).1 := by
  unfold serveClose
  split
  · exact .refl s
  · exact stays_closeShare s p _

theorem stays_serveRevoke (p : Port) (body : List Byte) : Stays s (serveRevoke p body s).1 := by
  unfold serveRevoke
  split
  · exact .refl s
  · exact stays_revokeShare s p _ _

theorem stays_serveDrop (p : Port) (body : List Byte) : Stays s (serveDrop p body s).1 := by
  unfold serveDrop
  iterate 2 (split; exact .refl s)
  split
  · split
    · exact .refl s
    · exact (stays_claimDrop s p _ _).trans (stays_emptyHandle _ p _)
  · exact .refl s

theorem stays_serveClaim (p : Port) (body : List Byte) : Stays s (serveClaim p body s).1 := by
  unfold serveClaim
  split
  · exact .refl s
  · exact stays_claimShare s p _ _ _

theorem stays_serveRelease (p : Port) (body : List Byte) : Stays s (serveRelease p body s).1 := by
  unfold serveRelease
  split
  · exact .refl s
  · exact stays_releaseClaim s p _

theorem stays_serveRenew (p : Port) (body : List Byte) : Stays s (serveRenew p body s).1 := by
  unfold serveRenew
  split
  · exact .refl s
  · exact stays_renewClaim s p _

theorem stays_serveDetach (p : Port) (body : List Byte) : Stays s (serveDetach p body s).1 :=
  StepInvariant.emptyBody (stays_detachPort s p) (.refl s)

theorem stays_serveFlush (p : Port) (body : List Byte) : Stays s (serveFlush p body s).1 :=
  StepInvariant.emptyBody (stays_modPosts s p (fun b => { b with faults := 0 }) le_rfl) (.refl s)

theorem stays_serveNotices (p : Port) (body : List Byte) : Stays s (serveNotices p body s).1 :=
  StepInvariant.emptyBody (stays_modNotices s p (fun nq => nq.collect s.settings.noticeDelay)
    (List.drop_sublist _ _).length_le) (.refl s)

/-- A record that a PROPOSE carries was found legal (R157). -/
theorem legal_of_proposedSettings {bytes : List Byte} {r : Settings} (proposed : proposedSettings bytes = some r) :
    r.legal = true := by
  unfold proposedSettings at proposed
  split at proposed
  · next both =>
    cases proposed
    exact (Bool.and_eq_true_iff.mp both).2
  · cases proposed

theorem stays_servePropose (p : Port) (body : List Byte) : Stays s (servePropose p body s).1 := by
  unfold servePropose
  iterate 3 (split; exact .refl s)
  split
  · exact stays_openProposal s p _ nofun
  split
  · exact .refl s
  · next proposed =>
    exact stays_openProposal s p _ fun r e => by cases e; exact legal_of_proposedSettings proposed

theorem stays_serveVote (p : Port) (body : List Byte) : Stays s (serveVote p body s).1 := by
  unfold serveVote
  iterate 2 (split; exact .refl s)
  split
  · exact .refl s
  next pending =>
  iterate 3 (split; exact .refl s)
  exact stays_castVote s p _ _ fun h => h.pending pending

end Services

/-! ## Commands that begin, complete or lose no burst -/

section Commands

variable {s : State}

theorem stays_took {t : State} (h : Stays s t) : Leads (Stays s) True (took t) := h.trans (stays_settle t)

theorem stays_stay : Leads (Stays s) True (.next s) := Stays.refl s

/-- A request that reserves an entry is taken when there is a place for it (R102). -/
theorem stays_dequeue {p : Port} {f : Frame} (may : s.mayTake p f = true) : Stays s (s.dequeue p f) := by
  obtain ⟨-, -, -, other, -⟩ := (mayTake_iff s p f).mp may
  rw [dequeue_eq]
  refine stays_modPort s p _ rfl ?_
  rintro ⟨requests, responses, rest⟩
  refine ⟨(List.drop_sublist _ _).length_le.trans requests, ?_, rest⟩
  dsimp only
  split
  · exact responses
  · next reserves =>
    rw [List.length_append]
    exact (other reserves).2

theorem stays_takeBy {p : Port} {isKind : Byte → Bool} {act : Frame → State → State}
    (hact : ∀ f t, isKind f.kind = true → (f.kind = kindPost → t.ports[p].posts.posts.length < 8) →
      t.ports[p].stage.stage = .empty → Stays t (act f t)) : Leads (Stays s) True (s.takeBy p isKind act) := by
  unfold State.takeBy
  split
  · next f next =>
    split
    · next kind =>
      have may := ((nextRequest_some_iff s p f).mp next).2
      obtain ⟨-, -, empty, -, post⟩ := (mayTake_iff s p f).mp may
      refine stays_took ((stays_dequeue may).trans (hact f (s.dequeue p f) kind ?_ ?_))
      · rw [dequeue_eq, State.modPort_same]
        exact post
      · rw [dequeue_eq, State.modPort_same]
        exact empty
    · exact stays_stay
  · exact stays_stay

theorem stays_takeAndAnswer {p : Port} {kind : Byte} {serve : Service} (hserve : ∀ t body, Stays t (serve body t).1) :
    Leads (Stays s) True (s.takeAndAnswer p kind serve) :=
  stays_takeBy fun f t _ _ _ => (hserve t f.body).trans (stays_placeResponse _ p kind _)

theorem stays_takeData (p : Port) (kind : Byte) (k : DataKind) : Leads (Stays s) True (s.takeData p kind k) := by
  refine stays_takeBy fun f t _ _ empty => ?_
  split
  · exact stays_placeResponse t p kind _
  · exact stays_startOperation k _ empty

/-- A post is taken when there is a place for it (R93, R102). -/
theorem stays_takePost {p : Port} (body : List Byte) (room : s.ports[p].posts.posts.length < 8) :
    Stays s (s.takePost p body) := by
  unfold State.takePost
  split
  · refine stays_modPort s p _ rfl fun ⟨requests, responses, _, notices⟩ => ⟨requests, responses, ?_, notices⟩
    dsimp only
    rw [(append_kept s.ports[p].posts body s.settings).1, joined_length]
    exact room
  · exact .refl s

theorem stays_execPost (p : Port) : Leads (Stays s) True (execPost p s) :=
  stays_takeBy fun f _ kind room _ => (stays_takePost f.body (room (beq_iff_eq.mp kind))).trans (stays_drainForHead _ p)

theorem stays_execPostRelease (p : Port) : Leads (Stays s) True (execPostRelease p s) := by
  unfold execPostRelease
  split
  · exact stays_stay
  next r next =>
  have released := stays_modPosts s p PostBuffer.release (List.drop_sublist _ _).length_le
  dsimp only
  split
  · exact stays_took (released.trans ((stays_push _ _ _).trans (stays_modPosts _ p _ le_rfl)))
  · refine stays_took (released.trans (stays_startOperation .post _ ?_))
    rw [State.modPosts_eq, State.modPort_same]
    exact stage_empty_of_nextPost next

theorem stays_execUnknownRequest (p : Port) : Leads (Stays s) True (execUnknownRequest p s) :=
  stays_takeBy fun _ t _ _ _ => stays_placeResponse t p _ _

theorem stays_execLeaseExpiry (i : ShareIdx) : Leads (Stays s) True (execLeaseExpiry i s) := by
  unfold execLeaseExpiry
  split
  · split
    · exact stays_took ((stays_push s _ _).trans (stays_handover _ i _))
    · exact stays_stay
  · exact stays_stay

theorem stays_execVoteWindowExpiry : Leads (Stays s) True (execVoteWindowExpiry s) := by
  unfold execVoteWindowExpiry
  split
  · next pr pending =>
    split
    · exact stays_took (stays_endProposal s pr _ fun h => h.pending pending)
    · exact stays_stay
  · exact stays_stay

theorem stays_admitFrame {p : Port} (f : Frame) (room : s.ports[p].link.requests.length < 4) :
    Stays s (s.admitFrame p f) := by
  have queued : Stays s (s.modLink p fun l => { l with requests := l.requests ++ [f] }) := by
    refine stays_modPort s p _ rfl fun ⟨_, rest⟩ => ⟨?_, rest⟩
    rw [List.length_append]
    exact room
  unfold State.admitFrame
  dsimp only
  split
  · exact queued.trans (stays_drainForHead _ p)
  · exact queued

theorem stays_judge (s : State) (p : Port) (kind : Byte) (bytes : List Byte) (bits : Nat) :
    Stays s (s.judge p kind bytes bits) := by
  unfold State.judge
  split
  · exact stays_modLink s p _ le_rfl le_rfl
  split
  · exact stays_arriveHello s p _
  split
  · exact stays_modLink s p _ le_rfl le_rfl
  · next room => exact stays_admitFrame _ (Nat.lt_of_not_le room)

theorem stays_closeTransaction (s : State) (p : Port) (out : List Byte) : Stays s (s.closeTransaction p out) :=
  stays_modLink s p _ le_rfl le_rfl

theorem stays_execRequestFrame (p : Port) (bytes : List Byte) (bits : Nat) :
    Leads (Stays s) True (execRequestFrame p bytes bits s) := by
  unfold execRequestFrame
  split
  · exact stays_took (stays_closeTransaction s p _)
  · exact stays_took ((stays_closeTransaction s p _).trans (stays_judge _ p _ bytes bits))
  · exact stays_stay

theorem stays_execHello (p : Port) (tag : Byte) : Leads (Stays s) True (execHello p tag s) := by
  unfold execHello
  split
  · exact stays_took (stays_closeTransaction s p _)
  · split
    · exact stays_took ((stays_closeTransaction s p _).trans (stays_arriveHello _ p tag))
    · exact stays_stay
  · exact stays_stay

theorem stays_wake (s : State) : Stays s s.wake := by
  unfold State.wake
  split
  · exact .elsewhere
  · exact .refl s

theorem stays_execSelectFallingEdge (p : Port) : Leads (Stays s) True (execSelectFallingEdge p s) := by
  unfold execSelectFallingEdge
  split
  · exact stays_stay
  · exact stays_took (.trans (stays_modLink s p _ le_rfl le_rfl) (stays_wake _))

theorem stays_execFirstByteEnd (p : Port) (first : Byte) : Leads (Stays s) True (execFirstByteEnd p first s) := by
  unfold execFirstByteEnd
  split
  · exact stays_took (stays_modLink s p _ le_rfl le_rfl)
  · exact stays_stay

theorem stays_execPoll (p : Port) (clocks : Nat) : Leads (Stays s) True (execPoll p clocks s) := by
  unfold execPoll
  split
  · exact stays_took (stays_closeTransaction s p _)
  · exact stays_took (stays_closeTransaction s p _)
  · exact stays_stay

theorem stays_removeFetched (s : State) (p : Port) (chosen : Option Response) (clocks : Nat) :
    Stays s (s.modLink p fun l => l.removeFetched chosen clocks) := by
  cases chosen with
  | none => exact stays_modLink s p _ le_rfl le_rfl
  | some r =>
    refine stays_modLink s p _ ?_ ?_
    · rw [removeFetched_some]
    · obtain same | ⟨_, fewer⟩ := removeFetched_responses s.ports[p].link (some r) clocks
      · rw [same]
      · rw [fewer]
        exact Nat.le_succ _

theorem stays_execFetch (p : Port) (clocks : Nat) : Leads (Stays s) True (execFetch p clocks s) := by
  unfold execFetch
  split
  · exact stays_took (stays_closeTransaction s p _)
  · exact stays_took ((stays_removeFetched s p _ clocks).trans (stays_closeTransaction _ p _))
  · exact stays_stay

theorem stays_execPostDelayExpiry (p : Port) : Leads (Stays s) True (execPostDelayExpiry p s) := by
  unfold execPostDelayExpiry
  split
  · exact stays_took (stays_modPosts s p _ (congrArg List.length (drainHeld_kept _).1).le)
  · exact stays_stay

theorem stays_execNoticeDelayExpiry (p : Port) : Leads (Stays s) True (execNoticeDelayExpiry p s) := by
  unfold execNoticeDelayExpiry
  split
  · exact stays_took (stays_modNotices s p _ le_rfl)
  · exact stays_stay

theorem stays_execRestCountdownExpiry : Leads (Stays s) True (execRestCountdownExpiry s) := by
  unfold execRestCountdownExpiry
  split
  · exact stays_took .elsewhere
  · exact stays_stay

theorem stays_execWarmUpExpiry : Leads (Stays s) True (execWarmUpExpiry s) := by
  unfold execWarmUpExpiry
  split
  · exact stays_took (.trans .elsewhere (Stays.foldl stays_takePending allPorts _))
  · exact stays_stay

/-- Every command off the path leaves path, bursts, queues and settings as `Stays` says. -/
theorem stays_exec (c : Instr) (quiet : onPath c = false) : Leads (Stays s) True (exec c s) := by
  cases c with
  | selectFallingEdge p => exact stays_execSelectFallingEdge p
  | poll p clocks => exact stays_execPoll p clocks
  | fetch p clocks => exact stays_execFetch p clocks
  | requestFrame p bytes bits => exact stays_execRequestFrame p bytes bits
  | hello p tag => exact stays_execHello p tag
  | detach p => exact stays_takeAndAnswer (serve := serveDetach p) fun t => stays_serveDetach t p
  | create p => exact stays_takeAndAnswer (serve := serveCreate p) fun t => stays_serveCreate t p
  | attach p => exact stays_takeAndAnswer (serve := serveAttach p) fun t => stays_serveAttach t p
  | close p => exact stays_takeAndAnswer (serve := serveClose p) fun t => stays_serveClose t p
  | revoke p => exact stays_takeAndAnswer (serve := serveRevoke p) fun t => stays_serveRevoke t p
  | info p => exact stays_takeAndAnswer (serve := serveInfo p) fun t body => StepInvariant.serveInfo p body (.refl t)
  | grant p => exact stays_takeAndAnswer (serve := serveGrant p) fun t => stays_serveGrant t p
  | drop p => exact stays_takeAndAnswer (serve := serveDrop p) fun t => stays_serveDrop t p
  | list p => exact stays_takeAndAnswer (serve := serveList p) fun t body => StepInvariant.serveList p body (.refl t)
  | read p => exact stays_takeData p _ _
  | write p => exact stays_takeData p _ _
  | cas p => exact stays_takeData p _ _
  | post p => exact stays_execPost p
  | postRelease p => exact stays_execPostRelease p
  | flush p => exact stays_takeAndAnswer (serve := serveFlush p) fun t => stays_serveFlush t p
  | claim p => exact stays_takeAndAnswer (serve := serveClaim p) fun t => stays_serveClaim t p
  | release p => exact stays_takeAndAnswer (serve := serveRelease p) fun t => stays_serveRelease t p
  | renew p => exact stays_takeAndAnswer (serve := serveRenew p) fun t => stays_serveRenew t p
  | notices p => exact stays_takeAndAnswer (serve := serveNotices p) fun t => stays_serveNotices t p
  | propose p => exact stays_takeAndAnswer (serve := servePropose p) fun t => stays_servePropose t p
  | vote p => exact stays_takeAndAnswer (serve := serveVote p) fun t => stays_serveVote t p
  | settings p => exact stays_takeAndAnswer (serve := serveSettings p) fun t body =>
      StepInvariant.serveSettings p body (.refl t)
  | unknownRequest p => exact stays_execUnknownRequest p
  | leaseExpiry i => exact stays_execLeaseExpiry i
  | postDelayExpiry p => exact stays_execPostDelayExpiry p
  | noticeDelayExpiry p => exact stays_execNoticeDelayExpiry p
  | voteWindowExpiry => exact stays_execVoteWindowExpiry
  | restCountdownExpiry => exact stays_execRestCountdownExpiry
  | warmUpExpiry => exact stays_execWarmUpExpiry
  | firstByteEnd p first => exact stays_execFirstByteEnd p first
  | grantDecision => cases quiet
  | burstCompletion p => cases quiet
  | scrubBurstCompletion => cases quiet
  | resetAssert => cases quiet
  | powerOn => cases quiet

end Commands

/-! ## Commands on the path -/

/-- From `s` to `t` no queue is overfilled, no illegal record taken up, and the path stays BUSY exactly with the burst in
flight. -/
structure StaysSound (s t : State) : Prop where
  queues : QueuesBounded s → QueuesBounded t
  legal : SettingsLegal s → SettingsLegal t
  path : PathMatchesStages s → PathMatchesStages t

section OnPath

variable {s t u : State}

/-- The path and the bursts of `PathMatchesStages`, in terms of `State.bursting`. -/
theorem pathMatchesStages_iff (s : State) : PathMatchesStages s ↔
    (∀ p : Port, s.arbiter.path = .busy (.port p) ↔ s.bursting p = true)
      ∧ (s.arbiter.path = .busy .scrub → s.pool.scrub.isSome = true) := Iff.rfl

theorem StaysSound.trans (a : StaysSound s t) (b : StaysSound t u) : StaysSound s u :=
  ⟨b.queues ∘ a.queues, b.legal ∘ a.legal, b.path ∘ a.path⟩

theorem Stays.sound (h : Stays s t) : StaysSound s t where
  queues := h.queues
  legal := h.legal
  path matched := by
    obtain ⟨bursts, scrub⟩ := (pathMatchesStages_iff s).mp matched
    rw [pathMatchesStages_iff, h.path, h.bursting]
    exact ⟨bursts, h.scrub ∘ scrub⟩

/-- Where the path is FREE no burst is in flight (R111). -/
theorem PathMatchesStages.none_bursting (matched : PathMatchesStages s)
    (others : ∀ p : Port, s.arbiter.path ≠ .busy (.port p)) : s.bursting = fun _ => false :=
  funext fun p => Bool.eq_false_iff.mpr fun bursts => others p ((matched.1 p).mpr bursts)

/-- A FREE path matches stages without a burst. -/
theorem PathMatchesStages.of_free (free : t.arbiter.path = .free) (none : t.bursting = fun _ => false) :
    PathMatchesStages t := by
  rw [pathMatchesStages_iff, free, none]
  exact ⟨fun _ => ⟨nofun, nofun⟩, nofun⟩

theorem sound_took (h : StaysSound s t) : Leads (StaysSound s) True (took t) := h.trans (stays_settle t).sound

theorem sound_stay : Leads (StaysSound s) True (.next s) := (Stays.refl s).sound

/-- State `s` with the path BUSY with this requester's burst. -/
def State.busyWith (s : State) (r : Requester) : State := { s with arbiter := { s.arbiter with path := .busy r } }

theorem sound_grantScrub (free : s.arbiter.path = .free) (present : s.pool.scrub.isSome = true) :
    StaysSound s (s.busyWith .scrub) where
  queues h := h
  legal h := h.same rfl rfl rfl
  path matched := by
    have none := matched.none_bursting (by rw [free]; exact nofun)
    rw [pathMatchesStages_iff, show (s.busyWith .scrub).bursting = s.bursting from rfl, none]
    exact ⟨fun _ => ⟨nofun, nofun⟩, fun _ => present⟩

/-- A burst begins on a FREE path (R118). -/
theorem sound_grantBurst (free : s.arbiter.path = .free) (p : Port) {d : DataStage} (bursting : d.stage.isBursting = true) :
    StaysSound s ((s.busyWith (.port p)).setStage p d) where
  queues := (holds_setStage (s.busyWith (.port p)) p d).queues
  legal h := (holds_setStage (s.busyWith (.port p)) p d).legal (h.same rfl rfl rfl)
  path matched := by
    have none : (s.busyWith (.port p)).bursting = fun _ => false := matched.none_bursting (by rw [free]; exact nofun)
    rw [pathMatchesStages_iff, bursting_setStage, none, bursting]
    refine ⟨fun q => ?_, nofun⟩
    have path : ((s.busyWith (.port p)).setStage p d).arbiter.path = .busy (.port p) := rfl
    rw [path, Function.update_apply]
    by_cases e : q = p
    · simp [e]
    · simp [e, Ne.symm e]

theorem sound_grantPort (free : s.arbiter.path = .free) {p : Port} {op : Operation}
    (stage : s.ports[p].stage.stage = .waiting op) : Leads (StaysSound s) True (s.grantPort p op) := by
  unfold State.grantPort
  split
  · have ended (answer : Option Reply) : Stays s (s.endOperation p op answer) :=
      .of_idle (congrArg Stage.isBursting stage) (holds_endOperation s p op answer)
    exact sound_took ((ended _).trans (stays_finishCleanup _ p)).sound
  split
  · trivial
  · exact sound_took (sound_grantBurst free p rfl)

theorem sound_grantTo (free : s.arbiter.path = .free) {r : Requester} (waits : s.waits r = true) :
    Leads (StaysSound s) True (s.grantTo r) := by
  cases r with
  | scrub =>
    have present : s.pool.scrub.isSome = true := (Bool.and_eq_true_iff.mp waits).1
    exact sound_took (sound_grantScrub free present)
  | port p =>
    obtain ⟨op, stage⟩ := waiting_of_waits waits
    unfold State.grantTo
    dsimp only
    rw [stage]
    exact sound_grantPort free stage

theorem sound_execGrantDecision : Leads (StaysSound s) True (execGrantDecision s) := by
  unfold execGrantDecision
  split
  · next both =>
    have free : s.arbiter.path = .free := beq_iff_eq.mp (Bool.and_eq_true_iff.mp both).2
    split
    · next r pointer decided =>
      have pointed : Stays s { s with arbiter := { s.arbiter with pointer := pointer } } := .elsewhere
      exact (sound_grantTo (s := { s with arbiter := { s.arbiter with pointer := pointer } }) free
        (waits_of_decision decided :)).mono fun _ granted => pointed.sound.trans granted
    · exact sound_stay
  · exact sound_stay

/-- A completed burst frees the path and leaves its data stage without one (R85, R119). -/
theorem sound_completeBurst {p : Port} (op : Operation) (f : FrameNo) (captured : List Byte)
    (busy : s.arbiter.path = .busy (.port p)) : StaysSound s (s.freePath.completeBurst p op f captured) := by
  have completed : Holds s.freePath (s.freePath.completeBurst p op f captured)
      ∧ (s.freePath.completeBurst p op f captured).bursting = Function.update s.bursting p false := by
    unfold State.completeBurst
    dsimp only
    split
    · exact holds_endOperation s.freePath p op none
    have written : Stays s.freePath
        { s.freePath with mem := s.freePath.mem.writeBytes (op.address f) (op.written captured) } := .elsewhere
    split
    · obtain ⟨holds, bursting⟩ := holds_endOperation
        { s.freePath with mem := s.freePath.mem.writeBytes (op.address f) (op.written captured) } p op _
      exact ⟨written.toHolds.trans holds, bursting⟩
    all_goals
      obtain ⟨holds, bursting⟩ := holds_advance
        { s.freePath with mem := s.freePath.mem.writeBytes (op.address f) (op.written captured) } p
        (op.deliver captured op.pieceLength)
      exact ⟨written.toHolds.trans holds, bursting⟩
  obtain ⟨holds, bursting⟩ := completed
  refine ⟨holds.queues, fun h => holds.legal (h.same rfl rfl rfl), fun matched => .of_free holds.path ?_⟩
  rw [bursting]
  funext q
  rw [Function.update_apply]
  split
  · rfl
  · next other =>
    refine Bool.eq_false_iff.mpr fun bursts => other ?_
    have both := busy.symm.trans ((matched.1 q).mpr bursts)
    cases both
    rfl

theorem sound_execBurstCompletion (p : Port) : Leads (StaysSound s) True (execBurstCompletion p s) := by
  unfold execBurstCompletion
  split
  · next op f captured _ =>
    split
    · next both =>
      have busy : s.arbiter.path = .busy (.port p) := beq_iff_eq.mp (Bool.and_eq_true_iff.mp both).2
      exact sound_took ((sound_completeBurst op f captured busy).trans (stays_finishCleanup _ p).sound)
    · exact sound_stay
  · exact sound_stay

/-- A scrub burst that completes frees the path (R51, R119). -/
theorem sound_freeScrub (busy : s.arbiter.path = .busy .scrub) (path : t.arbiter.path = .free)
    (ports : t.ports = s.ports := by rfl) (settings : t.settings = s.settings := by rfl)
    (table : t.arbiter.table = s.arbiter.table := by rfl) (proposal : t.proposal = s.proposal := by rfl) :
    StaysSound s t where
  queues h p := by rw [State.port_eq, ports]; exact h p
  legal h := h.same settings table proposal
  path matched := by
    refine .of_free path ?_
    rw [← matched.none_bursting (by rw [busy]; exact nofun)]
    unfold State.bursting
    rw [ports]

theorem sound_execScrubBurstCompletion : Leads (StaysSound s) True (execScrubBurstCompletion s) := by
  unfold execScrubBurstCompletion
  split
  · next both =>
    have busy : s.arbiter.path = .busy .scrub := beq_iff_eq.mp (Bool.and_eq_true_iff.mp both).2
    split
    · next sf _ =>
      generalize scrubBlock s.mem sf = m
      exact sound_took (sound_freeScrub busy rfl)
    · exact sound_took (sound_freeScrub busy rfl)
  · exact sound_stay

/-- The loss of a burst changes the store alone, and the count of the bytes it set free (R123, R192). -/
theorem loseBurst_eq (s : State) : ∃ m n, s.loseBurst = { s with mem := m, freeCount := n } := by
  have freed (f : FrameNo) (offset : Nat) : ∃ m n, s.freeBlock f offset = { s with mem := m, freeCount := n } := by
    obtain ⟨_, _, freed⟩ := freeBlock_eq s f offset
    exact ⟨_, _, freed⟩
  unfold State.loseBurst
  split
  · exact ⟨_, _, rfl⟩
  · split
    · exact freed _ _
    · exact ⟨_, _, rfl⟩
  · split
    · split
      · exact ⟨_, _, rfl⟩
      · exact freed _ _
    · exact ⟨_, _, rfl⟩
    · exact ⟨_, _, rfl⟩

theorem Stage.isBursting_held (st : Stage) : st.held.isBursting = false := by cases st <;> rfl

/-- While RESET is low no burst is in flight (R192). -/
theorem sound_execResetAssert : Leads (StaysSound s) True (execResetAssert s) := by
  unfold execResetAssert
  split
  · exact sound_stay
  obtain ⟨m, n, lost⟩ := loseBurst_eq s
  rw [lost]
  refine ⟨fun h p => ?_, fun h => ⟨h.1, h.2.1, fun pr r pending action => ?_⟩, fun _ => .of_free rfl (funext fun p => ?_)⟩
  · rw [State.port_eq, State.mapPorts_get]
    exact h p
  · obtain ⟨carried, before, rfl⟩ := Option.map_eq_some_iff.mp pending
    exact h.pending before r action
  · dsimp only [State.bursting]
    rw [State.mapPorts_get]
    exact Stage.isBursting_held _

theorem sound_execPowerOn : Leads (StaysSound s) True (execPowerOn s) := by
  refine ⟨fun _ p => ?_, fun _ => ⟨(by decide : Settings.default.legal = true), rfl, nofun⟩,
    fun _ => .of_free rfl (funext fun p => ?_)⟩
  · rw [State.port_eq, show _ = PortState.reset from reset_ports p]
    decide
  · unfold State.bursting
    rw [show _ = PortState.reset from reset_ports p]
    rfl

/-- Every command keeps the queues, the settings and the path. -/
theorem sound_exec (c : Instr) : Leads (StaysSound s) True (exec c s) := by
  cases on_path : onPath c with
  | false => exact (stays_exec c on_path).mono fun _ stays => stays.sound
  | true =>
    cases c with
    | grantDecision => exact sound_execGrantDecision
    | burstCompletion p => exact sound_execBurstCompletion p
    | scrubBurstCompletion => exact sound_execScrubBurstCompletion
    | resetAssert => exact sound_execResetAssert
    | powerOn => exact sound_execPowerOn
    | _ => cases on_path

theorem sound_step (stepped : step s = .next t) : StaysSound s t := by
  have led : Leads (StaysSound s) True (step s) := by
    unfold step
    split
    · exact sound_stay
    · next c rest _ =>
      have taken : Stays s { s with pending := rest } := .elsewhere
      exact (sound_exec c).mono fun _ sound => taken.sound.trans sound
  rw [stepped] at led
  exact led

end OnPath

/-- Settles O53: `memoryCanonical_step`, `generationsInRange_step`, and `sound_step` for the other three. -/
theorem stepKeepsStoreQueuesRangesAndPath : Obligations.StepKeepsStoreQueuesRangesAndPath :=
  ⟨fun _ _ => memoryCanonical_step, fun _ _ h stepped => (sound_step stepped).queues h,
    ⟨fun _ _ => generationsInRange_step, fun _ _ h stepped => (sound_step stepped).legal h⟩,
    fun _ _ h stepped => (sound_step stepped).path h⟩

end Sys2Proof.Machine
end

