-- ==== Sys2Proof/Proofs/WarmUp.lean ====
section
/-! PROOFS. REST_COUNTDOWN_EXPIRY and WARM_UP_EXPIRY (R189, R190): the pending HELLOs taken in ascending port order (R146). What a
HELLO leaves of a port other than its own is little enough (`GreetedElsewhere`) that each HELLO finds its port as it was at the
return to RUN, and that the ones behind it leave the port as it was welcomed. -/

namespace Sys2Proof.Machine

/-! ## The entry into rest (R189) -/

/-- Out of RUN the close of an event stops the countdown and leaves all else (R176, R188). -/
theorem settle_of_not_running {s : State} (out : s.running = false) : s.settle = { s with restCountdown := none } := by
  have lines : s.driveAttention = s := if_neg (Bool.eq_false_iff.mp out)
  rw [State.settle, lines, State.driveCountdown, out]
  rfl

theorem exec_restCountdownExpiry {s : State} (running : s.running = true) (counting : s.restCountdown.isSome = true) :
    exec .restCountdownExpiry s = .next { s with power := .resting, restCountdown := none } := by
  show execRestCountdownExpiry s = _
  unfold execRestCountdownExpiry
  rw [running, counting, took_eq, settle_of_not_running (not_running_of_resting rfl)]
  rfl

/-! ## A HELLO on another port -/

/-- From `s` to `t` HELLOs were taken on ports other than `p`: what they leave of the port, of the clean list and of claims. -/
structure GreetedElsewhere (s t : State) (p : Port) : Prop where
  link : t.ports[p].link = s.ports[p].link
  attach : t.ports[p].attach = s.ports[p].attach
  posts : t.ports[p].posts = s.ports[p].posts
  idle : t.ports[p].stage.stage = .empty ↔ s.ports[p].stage.stage = .empty
  handles : ∀ k : HandleNo, s.handle p k = none → t.handle p k = none
  clean : t.pool.clean = s.pool.clean
  claims : ∀ (i : ShareIdx) c, t.shares[i].claim = some c →
    ∃ c', s.shares[i].claim = some c' ∧ c.places.Sublist c'.places

theorem takeBack_clean (q : Pool) (s : State) (gone : List ShareIdx) : (q.takeBack s gone).clean = q.clean := by
  induction gone generalizing q with
  | nil => rfl
  | cons i gone ih => rw [Pool.takeBack_cons, ih, giveBack_clean]

theorem Stage.steppedBy_eq_empty_iff (st : Stage) (s : State) (gone : List ShareIdx) :
    st.steppedBy s gone = .empty ↔ st = .empty := by
  cases st <;> simp [Stage.steppedBy]

/-- A cleanup gives no claim record a place (R139). -/
theorem places_leftByCleanup {s : State} {p : Port} {i : ShareIdx} {c : Claim}
    (record : (s.leftByCleanup p i).claim = some c) : ∃ c', s.shares[i].claim = some c' ∧ c.places.Sublist c'.places := by
  obtain ⟨c', before, left⟩ := Option.bind_eq_some_iff.mp (claim_of_leftByTable (claim_of_leftByCleanup record))
  exact ⟨c', before, (places_leftBy left).1⟩

namespace GreetedElsewhere

variable {s t u : State} {p q : Port}

theorem refl (s : State) (p : Port) : GreetedElsewhere s s p :=
  ⟨rfl, rfl, rfl, Iff.rfl, fun _ => id, rfl, fun _ c record => ⟨c, record, .refl _⟩⟩

theorem trans (a : GreetedElsewhere s t p) (b : GreetedElsewhere t u p) : GreetedElsewhere s u p where
  link := b.link.trans a.link
  attach := b.attach.trans a.attach
  posts := b.posts.trans a.posts
  idle := b.idle.trans a.idle
  handles k := b.handles k ∘ a.handles k
  clean := b.clean.trans a.clean
  claims i c record :=
    have ⟨c', middle, sub⟩ := b.claims i c record
    have ⟨c'', before, sub'⟩ := a.claims i c' middle
    ⟨c'', before, sub.trans sub'⟩

/-- Of the port nothing changes but notices and attention line, and the shares and the pool stay. -/
theorem of_port (port : t.ports[p] = { s.ports[p] with notices := t.ports[p].notices, attention := t.ports[p].attention })
    (shares : t.shares = s.shares) (pool : t.pool = s.pool) : GreetedElsewhere s t p where
  link := by rw [port]
  attach := by rw [port]
  posts := by rw [port]
  idle := by rw [port]
  handles k empty := by
    rw [State.handle_eq, port]
    exact empty
  clean := by rw [pool]
  claims i c record := ⟨c, by rw [← shares]; exact record, .refl _⟩

theorem modPort (s : State) (f : PortState → PortState) (other : p ≠ q) : GreetedElsewhere s (s.modPort q f) p :=
  of_port (by rw [State.modPort_other s f other]) rfl rfl

theorem settle (s : State) (p : Port) : GreetedElsewhere s s.settle p :=
  of_port (by rw [State.settle_get]) (State.settle_shares s) (State.settle_pool s)

/-- A port that becomes ATTACHED tells the others of it, and no more (R148). -/
theorem becomeAttached (s : State) (other : p ≠ q) : GreetedElsewhere s (s.becomeAttached q) p := by
  have welcomed := modPort s (PortState.welcomed s.pool.clean.length) other
  have announced := Pushed.announce (s.modPort q (PortState.welcomed s.pool.clean.length)) q s.ports[q].attach
  have told : GreetedElsewhere (s.modPort q (PortState.welcomed s.pool.clean.length)) _ p :=
    of_port (by rw [announced.ports p]) (announce_shares _ q _) (sameTables_announce _ q s.ports[q].attach).pool
  rw [becomeAttached_eq]
  exact (welcomed.trans told).trans (modPort _ _ other)

theorem finishCleanup (s : State) (other : p ≠ q) : GreetedElsewhere s (s.finishCleanup q) p := by
  unfold State.finishCleanup
  split
  · exact becomeAttached s other
  · exact refl s p

theorem of_helloTaken {tag : Byte} {stay : List Frame} (taken : HelloTaken s t q tag stay) (other : p ≠ q) :
    GreetedElsewhere s t p := by
  obtain ⟨n, -, -, others, shares, pool, -, -⟩ := taken
  obtain ⟨-, link, attach, posts, stage, handles⟩ := others p other
  refine ⟨link, attach, posts, ?_, fun k empty => ?_, ?_, fun i c record => ?_⟩
  · rw [← State.port_eq, stage]
    exact Stage.steppedBy_eq_empty_iff ..
  · rw [handles k]
    split
    · rfl
    · exact empty
  · rw [pool, takeBack_clean]
  · exact places_leftByCleanup ((congrArg Share.claim (shares i)).symm.trans record)

theorem takeHello (s : State) (tag : Byte) (stay : List Frame) (other : p ≠ q) :
    GreetedElsewhere s (s.takeHello q tag stay) p := by
  by_cases cleaning : s.ports[q].attach.state = .cleaning
  · unfold State.takeHello
    dsimp only
    rw [State.port_eq, if_pos cleaning, greeted_eq]
    exact (modPort s _ other).trans (finishCleanup _ other)
  · exact of_helloTaken (helloTaken cleaning tag stay) other

theorem takePending (s : State) (other : p ≠ q) : GreetedElsewhere s (s.takePending q) p := by
  unfold State.takePending
  split
  · exact refl s p
  · exact takeHello s _ _ other

theorem takePending_foldl {l : List Port} (apart : p ∉ l) (s : State) : GreetedElsewhere s (l.foldl State.takePending s) p := by
  induction l generalizing s with
  | nil => exact refl s p
  | cons q l ih =>
    obtain ⟨other, apart⟩ := not_or.mp (List.mem_cons.not.mp apart)
    exact (takePending s other).trans (ih apart _)

end GreetedElsewhere

/-! ## The port whose HELLO is taken -/

/-- Port `p` was welcomed by the HELLO with this tag: it is ATTACHED, with the clean-list count in its one response and nothing of
what it held (R145, R147, R148). -/
structure Welcomed (t : State) (p : Port) (tag : Byte) (link : Link) : Prop where
  attach : t.ports[p].attach
    = { state := .attached, pendingHello := none, announcement := .none, emptied := 0, helloTag := tag }
  link : t.ports[p].link = { link with
    responses := [.completed { kind := 0x01, tag := tag, reply := Reply.ok (.hello t.pool.clean.length) }] }
  handles : ∀ k : HandleNo, t.handle p k = none
  unclaimed : ∀ (i : ShareIdx) c, t.shares[i].claim = some c → p ∉ c.places.map Prod.fst
  posts : t.ports[p].posts = { posts := [], mode := .holding, timer := none, ordinal := 0, faults := 0 }
  idle : t.ports[p].stage.stage = .empty

/-- With an EMPTY data stage a HELLO welcomes its port in its own event (R148). -/
theorem HelloTaken.welcomed {s t : State} {p : Port} {tag : Byte} {stay : List Frame} (taken : HelloTaken s t p tag stay)
    (idle : s.ports[p].stage.stage = .empty) : Welcomed t p tag { s.ports[p].link with requests := stay } := by
  obtain ⟨n, -, port, -, shares, -⟩ := taken
  rw [State.port_eq s p, idle, State.port_eq] at port
  refine ⟨?_, ?_, fun k => ?_, fun i c record => ?_, ?_, ?_⟩
  · rw [port]
    rfl
  · rw [port]
    rfl
  · rw [State.handle_eq, port]
    exact Vector.getElem_replicate k.isLt
  · exact no_place_left ((congrArg Share.claim (shares i)).symm.trans record)
  · rw [port]
    rfl
  · rw [port]
    exact idle

/-- The HELLOs of other ports leave a welcomed port so. -/
theorem Welcomed.elsewhere {t u : State} {p : Port} {tag : Byte} {link : Link} (h : Welcomed t p tag link)
    (later : GreetedElsewhere t u p) : Welcomed u p tag link where
  attach := later.attach.trans h.attach
  link := by rw [later.link, later.clean, h.link]
  handles k := later.handles k (h.handles k)
  unclaimed i c record mem :=
    have ⟨c', before, sub⟩ := later.claims i c record
    h.unclaimed i c' before ((sub.map Prod.fst).subset mem)
  posts := later.posts.trans h.posts
  idle := later.idle.mpr h.idle

/-! ## The pending HELLOs in port order (R146) -/

/-- The broker is back in RUN, and no pending HELLO is taken yet (R190). -/
def State.awake (s : State) : State := { s with power := .run, warmUpTimer := none }

/-- The pending HELLOs of the ports below `k` are taken. -/
def State.greeting (s : State) (k : Nat) : State := (allPorts.take k).foldl State.takePending s.awake

theorem takePending_of_none {s : State} {p : Port} (nothing : s.ports[p].attach.pendingHello = none) :
    s.takePending p = s := by
  unfold State.takePending
  rw [State.port_eq, nothing]

theorem takePending_of_some {s : State} {p : Port} {h : PendingHello} (pending : s.ports[p].attach.pendingHello = some h) :
    s.takePending p = s.takeHello p h.tag (s.ports[p].link.requests.drop h.arrival) := by
  unfold State.takePending
  rw [State.port_eq, pending]

theorem takePending_foldl_of_none {s : State} (nothing : ∀ p : Port, s.ports[p].attach.pendingHello = none) (l : List Port) :
    l.foldl State.takePending s = s := by
  induction l with
  | nil => rfl
  | cons p l ih => rw [List.foldl_cons, takePending_of_none (nothing p), ih]

section Greeting

variable (s : State) (p : Port)

/-- Port `p`'s turn comes behind the ports below it. -/
theorem greeting_succ : s.greeting (p.val + 1) = (s.greeting p.val).takePending p := by
  have split : ∀ p : Port, allPorts.take (p.val + 1) = allPorts.take p.val ++ [p] := by decide
  rw [State.greeting, split, List.foldl_append]
  rfl

/-- At its turn port `p` is as it was at the return to RUN. -/
theorem greeting_before : GreetedElsewhere s (s.greeting p.val) p := by
  have apart : ∀ p : Port, p ∉ allPorts.take p.val := by decide
  have awake : GreetedElsewhere s s.awake p := .of_port rfl rfl rfl
  exact awake.trans (.takePending_foldl (apart p) _)

/-- Behind its turn only the other ports' HELLOs are taken. -/
theorem greeting_behind : GreetedElsewhere (s.greeting (p.val + 1)) (s.greeting 4) p := by
  have apart : ∀ p : Port, p ∉ allPorts.drop (p.val + 1) := by decide
  have rest : s.greeting 4 = (allPorts.drop (p.val + 1)).foldl State.takePending (s.greeting (p.val + 1)) := by
    rw [State.greeting, State.greeting, ← List.foldl_append, List.take_append_drop]
    rfl
  rw [rest]
  exact .takePending_foldl (apart p) _

theorem keepsCore_greeting (k : Nat) : KeepsCore s.awake (s.greeting k) := keepsCore_takePending_foldl s.awake _

variable {p} {h : PendingHello} (pending : s.ports[p].attach.pendingHello = some h)

include pending

/-- Port `p`'s pending HELLO is taken in its turn, and the frames that arrived after it stay (R146). -/
theorem greeting_succ_of_pending :
    s.greeting (p.val + 1) = (s.greeting p.val).takeHello p h.tag (s.ports[p].link.requests.drop h.arrival) := by
  have before := greeting_before s p
  rw [greeting_succ, takePending_of_some (by rw [before.attach]; exact pending), before.link]

theorem helloTaken_greeting (state : s.ports[p].attach.state ≠ .cleaning) : HelloTaken (s.greeting p.val)
    (s.greeting (p.val + 1)) p h.tag (s.ports[p].link.requests.drop h.arrival) := by
  rw [greeting_succ_of_pending s pending]
  exact helloTaken (by rw [(greeting_before s p).attach]; exact state) _ _

/-- On a CLEANING port whose operation still runs the flush alone is repeated (R149). -/
theorem helloRepeated_greeting (cleaning : s.ports[p].attach.state = .cleaning)
    (held : s.ports[p].stage.stage ≠ .empty) : HelloRepeated (s.greeting p.val) (s.greeting (p.val + 1)) p h.tag
      (s.ports[p].link.requests.drop h.arrival) := by
  have before := greeting_before s p
  rw [← before.attach] at cleaning
  rw [greeting_succ_of_pending s pending, takeHello_of_cleaning cleaning (fun empty => held (before.idle.mp empty))]
  refine ⟨?_, fun q other => ?_, rfl⟩
  · rw [State.port_eq, State.modPort_same, PortState.greeted, ← cleaning]
    rfl
  · rw [SamePort, State.port_eq, State.modPort_other _ _ fun e => other (List.mem_singleton.mpr e)]
    rfl

theorem welcomed_greeting (state : s.ports[p].attach.state ≠ .cleaning) (idle : s.ports[p].stage.stage = .empty) :
    Welcomed (s.greeting 4).settle p h.tag
      { s.ports[p].link with requests := s.ports[p].link.requests.drop h.arrival } := by
  have before := greeting_before s p
  have welcomed := (helloTaken_greeting s pending state).welcomed (before.idle.mpr idle)
  rw [before.link] at welcomed
  exact (welcomed.elsewhere (greeting_behind s p)).elsewhere (.settle _ p)

end Greeting

/-! ## The return to RUN (R190) -/

theorem exec_warmUpExpiry {s : State} (reset : s.resetLow = false) (power : s.power = .warming)
    (timer : s.warmUpTimer.isSome = true) : exec .warmUpExpiry s = .next (s.greeting 4).settle := by
  show execWarmUpExpiry s = _
  unfold execWarmUpExpiry
  exact if_pos (by rw [reset, power, timer]; rfl)

/-- In RUN the close of an event leaves each port but for its attention line, which follows its conditions (R176). -/
theorem samePort_settle {u : State} (running : u.running = true) (p : Port) :
    SamePort u u.settle p ∧ (u.settle.port p).attention = (u.settle.port p).calls := by
  refine ⟨?_, attentionDriven_settle u (by rw [settle_running]; exact running) p⟩
  rw [SamePort, State.port_eq, State.settle_get]
  rfl

/-- Settles O49: each pending HELLO is a HELLO in RUN on the state the one before it left (`helloTaken_greeting`,
`helloRepeated_greeting`), and those behind it leave its port welcomed (`welcomed_greeting`). -/
theorem restKeepsEveryBlockAndWarmUpReturnsToRun : Obligations.RestKeepsEveryBlockAndWarmUpReturnsToRun := by
  refine ⟨fun s => exec_restCountdownExpiry, fun s reset power timer => ?_⟩
  have core := keepsCore_greeting s 4
  have running : (s.greeting 4).running = true :=
    (running_iff _).mpr ⟨core.resetLow.trans reset, core.power⟩
  refine ⟨_, exec_warmUpExpiry reset power timer, (State.settle_power _).trans core.power,
    (State.settle_warmUpTimer _).trans core.warmUpTimer, ?_, (State.settle_mem _).trans core.mem, fun nothing => ?_,
    fun busy => ?_, fun p h pending state idle => ?_⟩
  · rw [State.settle_arbiter]
    exact core.path
  · have same : s.greeting 4 = s.awake := takePending_foldl_of_none (s := s.awake) nothing _
    rw [same] at running ⊢
    exact ⟨samePort_settle running, settle_eq s.awake⟩
  · refine ⟨fun k => s.greeting k.val, rfl, fun p nothing => ?_, fun p h pending => ⟨fun cleaning => ?_, fun state => ?_⟩,
      samePort_settle running, settle_eq _⟩
    · have before := greeting_before s p
      exact (greeting_succ s p).trans (takePending_of_none (by rw [before.attach]; exact nothing))
    · exact helloRepeated_greeting s pending cleaning (busy p h pending cleaning)
    · exact helloTaken_greeting s pending state
  · obtain ⟨attach, link, handles, unclaimed, posts, empty⟩ := welcomed_greeting s pending state idle
    exact ⟨attach, link, handles, unclaimed, posts, empty⟩

end Sys2Proof.Machine
end

