-- ==== Sys2Proof/Proofs/Reset.lean ====
section
/-! PROOFS. RESET and power (R192, R123): what the fall of RESET loses, the power-on state of every block, and the invariants, which
hold in it. -/

namespace Sys2Proof.Machine

/-! ## The loss of the burst in flight (R123) -/

section Lost

variable {s : State}

theorem loseBurst_of_free (free : s.arbiter.path = .free) : s.loseBurst = s := by
  unfold State.loseBurst
  rw [free]

/-- A READ's burst leaves the store as it was; any other loses its block (R87, log 7). -/
theorem loseBurst_of_port {p : Port} {op : Operation} {f : FrameNo} {bs : List Byte}
    (busy : s.arbiter.path = .busy (.port p)) (stage : s.ports[p].stage.stage = .bursting op f bs) :
    s.loseBurst = if op.kind.isRead then s else s.freeBlock f op.pos := by
  unfold State.loseBurst
  rw [busy]
  dsimp only
  rw [State.port_eq, stage]

theorem loseBurst_of_scrub {sf : ScrubFrame} (busy : s.arbiter.path = .busy .scrub) (present : s.pool.scrub = some sf) :
    s.loseBurst = s.freeBlock sf.frame (sf.progress % 16 * Config.blockBytes) := by
  unfold State.loseBurst
  rw [busy]
  dsimp only
  rw [present]

/-- A block set free is all that changes in the store. -/
theorem read_freeBlock_outside (canonical : MemoryCanonical s) (f : FrameNo) (offset : Nat) {x : Nat}
    (outside : x < f.val * 1024 + offset % 1024 / 64 * 64 ∨ f.val * 1024 + offset % 1024 / 64 * 64 + 64 ≤ x) :
    (s.freeBlock f offset).mem.read x = s.mem.read x := by
  obtain ⟨vs, length, freed⟩ := freeBlock_eq s f offset
  rw [freed]
  refine Memory.read_writeBytes_outside canonical vs ?_ ?_
  · rw [length]
    exact frameAddress_block_le f (by omega)
  · rw [length]
    exact outside

/-- The scrub frame's block at its progress count is where a scrub burst writes (R50). -/
theorem scrub_block_offset {progress : Nat} (few : progress ≤ 15) :
    progress % 16 * Config.blockBytes % 1024 / 64 * 64 = progress * 64 := by
  unfold Config.blockBytes
  omega

end Lost

/-! ## The fall of RESET (R192) -/

/-- The broker while RESET is low: what was in progress is lost, and the rest is held (log 10). -/
def State.underReset (s : State) : State :=
  let t := { s.loseBurst with arbiter := { s.arbiter with path := .free } }.mapPorts fun _ q => q.held
  { t with shares := Vector.ofFn fun i : Fin 64 => t.shares[i].held
           proposal := t.proposal.map fun pr => { pr with timer := none }
           restCountdown := none, warmUpTimer := none, resetLow := true }

section UnderReset

variable (s : State)

theorem exec_resetAssert {s : State} (high : s.resetLow = false) : exec .resetAssert s = .next s.underReset := by
  show execResetAssert s = _
  unfold execResetAssert
  exact if_neg (Bool.eq_false_iff.mp high)

theorem underReset_port (p : Port) : s.underReset.port p = (s.port p).held := by
  refine (State.mapPorts_get _ p _).trans (congrArg PortState.held ?_)
  exact congrArg (·[p]) (loseBurst_ports s)

theorem underReset_share (i : ShareIdx) : s.underReset.share i = (s.share i).held := by
  refine (Vector.getElem_ofFn i.isLt).trans (congrArg Share.held ?_)
  exact congrArg (·[i]) (loseBurst_shares s)

theorem underReset_mem : s.underReset.mem = s.loseBurst.mem := rfl

/-- No lease timer runs while RESET is low (R192). -/
theorem lease_of_underReset {s : State} {i : ShareIdx} {c : Claim} (record : (s.underReset.share i).claim = some c) :
    c.lease = none := by
  rw [underReset_share] at record
  obtain ⟨before, -, rfl⟩ := Option.map_eq_some_iff.mp record
  rfl

/-- No vote window runs while RESET is low (R192). -/
theorem timer_of_underReset {s : State} {pr : Proposal} (pending : s.underReset.proposal = some pr) : pr.timer = none := by
  obtain ⟨before, -, rfl⟩ := Option.map_eq_some_iff.mp pending
  rfl

end UnderReset

/-- Settles O50: the ports and shares are held as `PortState.held` and `Share.held` say, and the store loses at most the block that
`loseBurst_of_port` or `loseBurst_of_scrub` names. -/
theorem resetLosesWhatIsInProgress : Obligations.ResetLosesWhatIsInProgress := by
  intro s high canonical
  refine ⟨s.underReset, exec_resetAssert high, rfl, rfl, rfl, rfl, rfl, fun p => ?_, fun i c => lease_of_underReset,
    fun pr => timer_of_underReset, fun free => ?_, fun p op f bs busy stage => ⟨fun read => ?_, fun x outside => ?_⟩,
    fun sf busy present few x outside => ?_⟩
  · rw [underReset_port]
    exact ⟨rfl, rfl, rfl, rfl, rfl, Stage.isBursting_held _⟩
  · rw [underReset_mem, loseBurst_of_free free]
  · rw [underReset_mem, loseBurst_of_port busy stage, if_pos read]
  · rw [underReset_mem, loseBurst_of_port busy stage]
    split
    · rfl
    · exact read_freeBlock_outside canonical f op.pos outside
  · rw [← scrub_block_offset few] at outside
    rw [underReset_mem, loseBurst_of_scrub busy present]
    exact read_freeBlock_outside canonical sf.frame _ outside

/-! ## The power-on state (R192) -/

/-- Settles O3: every port is `PortState.reset` and every entry `Share.reset`, whose fields are those of the chapters. -/
theorem resetIsThePowerOnState : Obligations.ResetIsThePowerOnState := by
  refine ⟨fun i => ?_, fun p h => ?_, rfl, rfl, rfl, fun p => ?_, by decide, rfl, rfl, rfl, rfl, rfl, rfl, rfl, rfl, rfl, rfl,
    rfl, by decide, rfl, rfl, rfl, rfl, rfl, rfl⟩
  · rw [State.share_eq, reset_shares]
    exact ⟨rfl, rfl, rfl, rfl, rfl, rfl, rfl, fun k => Vector.getElem_replicate k.isLt, rfl, rfl, rfl⟩
  · rw [State.handle_eq, reset_ports]
    exact Vector.getElem_replicate h.isLt
  · rw [State.port_eq, reset_ports]
    exact ⟨rfl, rfl, rfl, rfl, rfl, rfl, rfl, rfl, rfl, rfl, rfl, rfl, rfl⟩

/-- Settles O51: nothing but the store, the count of free bytes and the queue goes into the state at power-on. -/
theorem powerOnTakesThePowerOnState : Obligations.PowerOnTakesThePowerOnState :=
  fun _ => ⟨_, rfl, rfl, fun free => (congrArg State.mem (loseBurst_of_free free) :)⟩

/-! ## The invariants at power-on -/

/-- Power-on at reset leaves the state at reset, so what holds at every power-on holds there. -/
theorem at_reset {P : State → Prop} (led : Leads P True (execPowerOn State.reset)) : P State.reset := led

theorem queuesBounded_reset : QueuesBounded State.reset := fun p => by
  rw [State.port_eq, reset_ports]
  decide

theorem settingsLegal_reset : SettingsLegal State.reset := ⟨(by decide : Settings.default.legal = true), rfl, nofun⟩

theorem pathMatchesStages_reset : PathMatchesStages State.reset := .of_free rfl (funext fun p => by
  rw [State.bursting, reset_ports]
  rfl)

theorem attentionDriven_reset : AttentionDriven State.reset := fun _ p => by
  rw [State.port_eq, reset_ports]
  rfl

/-- Settles O52: the invariants of shares, handles and operations hold at reset as their inductions say, and the others by the
records of `PortState.reset` and `Settings.default`. -/
theorem invariantsHoldAtReset : Obligations.InvariantsHoldAtReset :=
  have clean : CleanAndBound State.reset := .atReset rfl rfl
  ⟨rfl, queuesBounded_reset, generationsInRange_invariant.reset, settingsLegal_reset, pathMatchesStages_reset,
    FramesAccounted.reset, clean.zeros, clean.bound, HandleCountsTrue.reset, DataPathSound.reset,
    (responsesInOrder_iff_exchanges _).mpr (at_reset .execPowerOn), attentionDriven_reset, rfl,
    at_reset .execPowerOn⟩

end Sys2Proof.Machine
end

