-- ==== Sys2Proof/Proofs/ResponseLayout.lean ====
section
/-! PROOFS. The bytes of response frames, bodies and notice records are those that section 11.6 lays out. -/

namespace Sys2Proof.Machine

/-! ## The value of a notice record -/

/-- Bytes are equal when their numbers agree in the low eight bits. -/
theorem byte_congr {m n : Nat} (same : m % 256 = n % 256) : byte m = byte n := by
  apply BitVec.eq_of_toNat_eq
  rw [byte_toNat, byte_toNat, same]

/-- A value of two halves goes out as the bytes of the high half, then those of the low one. -/
theorem bytes32_halves {high low : Nat} (hhigh : high < 65536) (hlow : low < 65536) :
    bytes32 (BitVec.ofNat 32 (high * 65536 + low)) = bytes16 high ++ bytes16 low := by
  have value : (BitVec.ofNat 32 (high * 65536 + low)).toNat = high * 65536 + low := by
    rw [BitVec.toNat_ofNat]
    omega
  rw [bytes32, value]
  simp only [bytes16, List.cons_append, List.nil_append, List.cons.injEq, and_true]
  exact ⟨byte_congr (by omega), byte_congr (by omega), byte_congr (by omega), byte_congr (by omega)⟩

section Notices

variable (k : NoticeKind) (q : Port) {n : Nat}

theorem shareNotice_bytes (peer : Option Port) (h : HandleNo) (i : ShareIdx) (small : n < 65536) :
    (shareNotice k peer h i n).bytes = [k.code, portByte peer, byte h.val, byte i.val, 0, 0, byte (n / 256), byte n] := by
  rw [Notice.bytes, shareNotice, bytes32_ofNat_low n small]
  rfl

theorem peerNotice_bytes (small : n < 65536) :
    (peerNotice k q n).bytes = [k.code, byte q.val, 0xFF, 0xFF, 0, 0, byte (n / 256), byte n] := by
  rw [Notice.bytes, peerNotice, bytes32_ofNat_low n small]
  rfl

/-- A proposal notice has the id in byte 4 and the code in byte 5. -/
theorem proposalNotice_bytes {id code : Nat} (hid : id < 256) (hcode : code < 256) :
    (proposalNotice k q id code).bytes = [k.code, byte q.val, 0xFF, 0xFF, byte id, byte code, 0, 0] := by
  have halves : id * 16777216 + code * 65536 = (id * 256 + code) * 65536 + 0 := by omega
  rw [Notice.bytes, proposalNotice, halves, bytes32_halves (by omega) (by omega), bytes16,
    byte_congr (show (id * 256 + code) / 256 % 256 = id % 256 by omega),
    byte_congr (show (id * 256 + code) % 256 = code % 256 by omega)]
  rfl

/-- A POST_FAULT has the ordinal in bytes 4 and 5 and the code in byte 7 (R98). -/
theorem postFault_bytes (handle : Byte) (ordinal : BitVec 16) (code : Byte) :
    (Notice.mk .postFault none (some handle) none (BitVec.ofNat 32 (ordinal.toNat * 65536 + code.toNat))).bytes
      = [0x20, 0xFF, handle, 0xFF, byte (ordinal.toNat / 256), byte ordinal.toNat, 0, code] := by
  have small := code.isLt
  have none_above : code.toNat / 256 = 0 := Nat.div_eq_of_lt small
  have same : byte code.toNat = code := BitVec.ofNat_toNat ..
  rw [Notice.bytes, bytes32_halves ordinal.isLt (by omega), bytes16, bytes16, none_above, same]
  rfl

end Notices

/-! ## Sets of flags -/

/-- Four flags from bit 0 on, with the weights written first (R186). -/
theorem toByte_eq (r : Rights) :
    r.toByte = byte (r.read.toNat + 2 * r.write.toNat + 4 * r.grant.toNat + 8 * r.admin.toNat) := by
  rw [Rights.toByte, Nat.mul_comm 2, Nat.mul_comm 4, Nat.mul_comm 8]
  rfl

theorem portSetByte_eq (x : PortSet) :
    portSetByte x = byte (x[0].toNat + 2 * x[1].toNat + 4 * x[2].toNat + 8 * x[3].toNat) := by
  rw [portSetByte, Nat.mul_comm 2, Nat.mul_comm 4, Nat.mul_comm 8]

/-! ## The records of bodies -/

/-- The bytes of a LIST record ahead of its origin. -/
def ListRecord.front (r : ListRecord) : List Byte :=
  [byte r.number.val, byte r.handle.share.val, byte (r.handle.generation / 256), byte r.handle.generation,
    byte (r.handle.rights.read.toNat + 2 * r.handle.rights.write.toNat + 4 * r.handle.rights.grant.toNat
      + 8 * r.handle.rights.admin.toNat),
    byte (r.handle.base / 256), byte r.handle.base, byte (r.handle.length / 256), byte r.handle.length]

theorem listRecord_bytes (r : ListRecord) : r.bytes = r.front ++ (match r.handle.origin with
    | .created => [0, 0xFF]
    | .attached => [1, 0xFF]
    | .granted q => [2, byte q.val]) ++ [byte r.current.toNat] := by
  rw [ListRecord.bytes, toByte_eq]
  rfl

/-- The summary of a pending proposal (R165). -/
theorem summaryBytes_some (m : ProposalSummary) : summaryBytes (some m) = [1, byte m.id, byte m.proposer.val,
    byte m.clearAll.toNat, byte (m.voters[0].toNat + 2 * m.voters[1].toNat + 4 * m.voters[2].toNat + 8 * m.voters[3].toNat),
    byte (m.accepted[0].toNat + 2 * m.accepted[1].toNat + 4 * m.accepted[2].toNat + 8 * m.accepted[3].toNat)] := by
  rw [summaryBytes, portSetByte_eq, portSetByte_eq]

/-- Settles O14: the layouts are the definitions' own but for the order of the flags' weights (`listRecord_bytes`,
`summaryBytes_some`) and the values of notices (`bytes32_halves`). -/
theorem responsesAreLaidOut : Obligations.ResponsesAreLaidOut := by
  refine ⟨fun r => rfl, rfl, rfl, rfl, rfl, rfl, fun clean => rfl, fun i h g => ⟨rfl, rfl, rfl, rfl⟩,
    fun i size backed count waiters holder creator => ⟨rfl, rfl⟩, fun rs => rfl,
    fun h i g base length r q => ⟨listRecord_bytes _, listRecord_bytes _, listRecord_bytes _⟩,
    fun bs => ⟨rfl, rfl, rfl⟩, fun n => rfl, rfl, fun holder place => ⟨rfl, rfl⟩, fun ns left => ⟨rfl, rfl⟩,
    fun id o => rfl, fun r id q v a => ⟨rfl, ?_, ?_⟩, fun k peer q h i n id code hn hid hcode => ?_, postFault_bytes⟩
  · exact congrArg (r.bytes ++ ·) (summaryBytes_some ⟨id, q, false, v, a⟩)
  · exact congrArg (r.bytes ++ ·) (summaryBytes_some ⟨id, q, true, v, a⟩)
  · exact ⟨shareNotice_bytes k (some peer) h i hn, shareNotice_bytes k none h i hn, peerNotice_bytes k q hn,
      proposalNotice_bytes k q hid hcode⟩

end Sys2Proof.Machine
end

