-- ==== Sys2Proof/Proofs/Commands.lean ====
section
/-! PROOFS. What every command answers (logs 1, 2, 16): the command at the front of the queue runs on the rest, leaves that rest as
it is, and does nothing where its event cannot take place. -/

namespace Sys2Proof.Machine

/-- Settles O1: the two cases of `step`. -/
theorem stepRunsFrontCommand : Obligations.StepRunsFrontCommand := by
  refine ⟨fun s c rest pending => ?_, fun s pending => ?_⟩
  · unfold step
    rw [pending]
  · unfold step
    rw [pending]

/-! ## Answers -/

/-- `o` answers a next state with the queue of `s`, or a fault where `stops` holds; where the event cannot take place it is `s`. -/
structure Answers (s : State) (stops : Prop) (event : Bool) (o : Out) : Prop where
  queue : Leads (fun t => t.pending = s.pending) stops o
  idle : event = false → o = .next s

section Answers

variable {s t : State} {stops : Prop} {event : Bool} {o : Out}

/-- A command without its event has no effect (log 1). -/
theorem Answers.nothing : Answers s stops event (.next s) := ⟨rfl, fun _ => rfl⟩

theorem Answers.of_event (takesPlace : event = true) (queue : Leads (fun t => t.pending = s.pending) stops o) :
    Answers s stops event o :=
  ⟨queue, fun none => by cases takesPlace.symm.trans none⟩

/-- An event that takes place closes with the queue as it left it. -/
theorem Answers.took (takesPlace : event = true) (kept : t.pending = s.pending) : Answers s stops event (took t) :=
  .of_event takesPlace ((State.settle_pending t).trans kept)

/-- The event takes place exactly where its condition holds. -/
theorem Answers.of_condition (kept : t.pending = s.pending) :
    Answers s stops event (if event then Machine.took t else .next s) := by
  cases event with
  | false => exact nothing
  | true => exact took rfl kept

end Answers

/-! ## The services of requests: a check that fails leaves the state as it is -/

section Services

variable (s : State) (p : Port) (body : List Byte)

theorem pending_serveCreate : (serveCreate p body s).1.pending = s.pending := by
  unfold serveCreate
  iterate 8 (split; rfl)
  exact (keeps_makeShare s p _ _ _).pending

theorem pending_serveAttach : (serveAttach p body s).1.pending = s.pending := by
  unfold serveAttach
  iterate 7 (split; rfl)
  exact (keeps_makeHandle s p _ _).pending

theorem pending_serveGrant : (serveGrant p body s).1.pending = s.pending := by
  unfold serveGrant
  iterate 10 (split; rfl)
  exact ((keeps_makeHandle s _ _ _).trans (keeps_push _ _ _)).pending

theorem pending_serveClose : (serveClose p body s).1.pending = s.pending := by
  unfold serveClose
  split
  · rfl
  · exact (keeps_closeShare s p _).pending

theorem pending_serveRevoke : (serveRevoke p body s).1.pending = s.pending := by
  unfold serveRevoke
  split
  · rfl
  · exact (keeps_revokeShare s p _ _).pending

theorem pending_serveInfo : (serveInfo p body s).1.pending = s.pending :=
  StepInvariant.serveInfo (P := fun t => t.pending = s.pending) p body rfl

theorem pending_serveDrop : (serveDrop p body s).1.pending = s.pending := by
  unfold serveDrop
  iterate 2 (split; rfl)
  split
  · split
    · rfl
    · exact ((keeps_claimDrop s p _ _).trans (keeps_emptyHandle _ p _)).pending
  · rfl

theorem pending_serveClaim : (serveClaim p body s).1.pending = s.pending := by
  unfold serveClaim
  split
  · rfl
  · exact (keeps_claimShare s p _ _ _).pending

theorem pending_serveRelease : (serveRelease p body s).1.pending = s.pending := by
  unfold serveRelease
  split
  · rfl
  · exact (keeps_releaseClaim s p _).pending

theorem pending_serveRenew : (serveRenew p body s).1.pending = s.pending := by
  unfold serveRenew
  split
  · rfl
  · exact (keeps_renewClaim s p _).pending

theorem pending_openProposal (a : ProposalAction) : (s.openProposal p a).1.pending = s.pending := by
  unfold State.openProposal
  dsimp only
  split
  · exact (keepsCore_endProposal _ _ _).pending
  · exact (keeps_pushOpened _ _ _).pending

theorem pending_castVote (pr : Proposal) (accept : Bool) : (s.castVote p pr accept).1.pending = s.pending := by
  unfold State.castVote
  split
  · dsimp only
    split
    · exact (keepsCore_endProposal s _ _).pending
    · rfl
  · exact (keepsCore_endProposal s _ _).pending

theorem pending_servePropose : (servePropose p body s).1.pending = s.pending := by
  unfold servePropose
  iterate 3 (split; rfl)
  split
  · exact pending_openProposal s p _
  split
  · rfl
  · exact pending_openProposal s p _

theorem pending_serveVote : (serveVote p body s).1.pending = s.pending := by
  unfold serveVote
  iterate 6 (split; rfl)
  exact pending_castVote s p _ _

/-- A service of an empty body whose act leaves the queue. -/
theorem pending_emptyBody {act : State × Reply} (kept : act.1.pending = s.pending) :
    (if s.isAttached p = false then refuse .notAttached s
      else if body ≠ [] then refuse .badFrame s else act).1.pending = s.pending :=
  StepInvariant.emptyBody (P := fun t => t.pending = s.pending) kept rfl

theorem pending_serveDetach : (serveDetach p body s).1.pending = s.pending :=
  pending_emptyBody s p body (keepsCore_detachPort s p).pending

theorem pending_serveList : (serveList p body s).1.pending = s.pending := pending_emptyBody s p body rfl

theorem pending_serveSettings : (serveSettings p body s).1.pending = s.pending := pending_emptyBody s p body rfl

theorem pending_serveFlush : (serveFlush p body s).1.pending = s.pending :=
  pending_emptyBody s p body (keeps_modPosts s p _).pending

theorem pending_serveNotices : (serveNotices p body s).1.pending = s.pending :=
  pending_emptyBody s p body (keeps_modNotices s p _).pending

end Services

/-! ## The takes of requests (R102) -/

section Takes

variable {s : State} {stops : Prop} {p : Port}

theorem answers_takeBy {isKind : Byte → Bool} {act : Frame → State → State}
    (kept : ∀ f t, (act f t).pending = t.pending) :
    Answers s stops (s.canTake p isKind) (s.takeBy p isKind act) := by
  unfold State.takeBy
  split
  · next f next =>
    split
    · next kind =>
      refine .took ?_ ((kept f _).trans (keeps_dequeue s p f).pending)
      rw [State.canTake, next]
      exact kind
    · exact .nothing
  · exact .nothing

theorem answers_serve {kind : Byte} {serve : Service} (kept : ∀ t body, (serve body t).1.pending = t.pending) :
    Answers s stops (s.canTake p (· == kind)) (s.takeAndAnswer p kind serve) :=
  answers_takeBy fun f t => (keeps_placeResponse _ p kind _).pending.trans (kept t f.body)

theorem answers_takeData {kind : Byte} {k : DataKind} :
    Answers s stops (s.canTake p (· == kind)) (s.takeData p kind k) := by
  refine answers_takeBy fun f t => ?_
  split
  · exact (keeps_placeResponse t p kind _).pending
  · exact (keeps_admit t p k _).pending

variable (p)

theorem answers_execPost : Answers s stops (s.canTake p (· == kindPost)) (execPost p s) :=
  answers_takeBy fun f t => ((keeps_takePost t p f.body).trans (keeps_drainForHead _ p)).pending

theorem answers_execUnknownRequest :
    Answers s stops (s.canTake p fun k => !definedKinds.contains k) (execUnknownRequest p s) :=
  answers_takeBy fun f t => (keeps_placeResponse t p f.kind _).pending

theorem answers_execPostRelease : Answers s stops (enabled (.postRelease p) s) (execPostRelease p s) := by
  have released := keeps_modPosts s p PostBuffer.release
  unfold execPostRelease
  split
  · exact .nothing
  next r next =>
  have takesPlace : enabled (.postRelease p) s = true := by rw [enabled, next]; rfl
  dsimp only
  split
  · exact .took takesPlace ((released.trans (keeps_push _ _ _)).trans (keeps_modPosts _ p _)).pending
  · exact .took takesPlace (released.trans (keeps_admit _ p _ _)).pending

end Takes

/-! ## The links (R178 to R184) -/

section Links

variable {s : State} {stops : Prop} (p : Port)

theorem phase?_of_open {p : Port} {status : Byte} {phase : Phase}
    (opened : s.openTransaction p = some { status := status, phase := phase }) : s.phase? p = some phase := by
  rw [State.phase?, opened]
  rfl

theorem pending_wake (s : State) : s.wake.pending = s.pending := by
  unfold State.wake
  split <;> rfl

theorem answers_execSelectFallingEdge :
    Answers s stops (enabled (.selectFallingEdge p) s) (execSelectFallingEdge p s) := by
  unfold execSelectFallingEdge
  split
  · exact .nothing
  · next falls =>
    obtain ⟨high, closed⟩ := not_or.mp falls
    refine .took ?_ ((pending_wake _).trans (keeps_modLink s p _).pending)
    rw [enabled, Bool.eq_false_iff.mpr high, ← Option.not_isSome, Bool.eq_false_iff.mpr closed]
    rfl

theorem answers_execFirstByteEnd (first : Byte) :
    Answers s stops (enabled (.firstByteEnd p first) s) (execFirstByteEnd p first s) := by
  unfold execFirstByteEnd
  split
  · next opened => exact .took (by rw [enabled, phase?_of_open opened]; rfl) (keeps_modLink s p _).pending
  · exact .nothing

theorem answers_execPoll (clocks : Nat) : Answers s stops (enabled (.poll p clocks) s) (execPoll p clocks s) := by
  unfold execPoll
  split
  · next opened => exact .took (by rw [enabled, phase?_of_open opened]; rfl) (keeps_modLink s p _).pending
  · next opened => exact .took (by rw [enabled, phase?_of_open opened]; rfl) (keeps_modLink s p _).pending
  · exact .nothing

theorem answers_execFetch (clocks : Nat) : Answers s stops (enabled (.fetch p clocks) s) (execFetch p clocks s) := by
  unfold execFetch
  split
  · next opened => exact .took (by rw [enabled, phase?_of_open opened]) (keeps_modLink s p _).pending
  · next opened =>
    exact .took (by rw [enabled, phase?_of_open opened]) ((keeps_modLink s p _).trans (keeps_modLink _ p _)).pending
  · exact .nothing

theorem answers_execRequestFrame (bytes : List Byte) (bits : Nat) :
    Answers s stops (enabled (.requestFrame p bytes bits) s) (execRequestFrame p bytes bits s) := by
  unfold execRequestFrame
  split
  · next opened => exact .took (by rw [enabled, phase?_of_open opened]) (keeps_modLink s p _).pending
  · next opened =>
    exact .took (by rw [enabled, phase?_of_open opened])
      ((keeps_modLink s p _).toKeepsCore.trans (keepsCore_judge _ p _ bytes bits)).pending
  · exact .nothing

theorem answers_execHello (tag : Byte) : Answers s stops (enabled (.hello p tag) s) (execHello p tag s) := by
  unfold execHello
  split
  · next opened => exact .took (by rw [enabled, phase?_of_open opened]; rfl) (keeps_modLink s p _).pending
  · next opened =>
    split
    · next hello =>
      refine .took ?_ ((keeps_modLink s p _).toKeepsCore.trans (keepsCore_arriveHello _ p tag)).pending
      rw [enabled, phase?_of_open opened, hello]
      rfl
    · exact .nothing
  · exact .nothing

end Links

/-! ## The store path (R85, R116 to R119) -/

section OnPath

variable {s : State} {stops : Prop}

theorem pending_completeBurst (p : Port) (op : Operation) (f : FrameNo) (captured : List Byte) :
    (s.completeBurst p op f captured).pending = s.pending := by
  unfold State.completeBurst
  dsimp only
  split
  · exact (keeps_endOperation s p op none).pending
  split
  · exact (keeps_endOperation _ p op _).pending
  all_goals exact (keeps_advance _ p _).pending

theorem answers_execBurstCompletion (p : Port) :
    Answers s stops (enabled (.burstCompletion p) s) (execBurstCompletion p s) := by
  unfold execBurstCompletion
  split
  · exact .of_condition ((keeps_finishCleanup _ p).pending.trans (pending_completeBurst p _ _ _))
  · exact .nothing

theorem answers_execScrubBurstCompletion :
    Answers s stops (enabled .scrubBurstCompletion s) (execScrubBurstCompletion s) := by
  unfold execScrubBurstCompletion
  split
  · next takesPlace =>
    split
    · exact .took takesPlace rfl
    · exact .took takesPlace rfl
  · exact .nothing

/-- A grant leaves the queue, and stops on a slot without a frame alone (log 16). -/
theorem pending_grantPort (p : Port) (op : Operation) : Leads (fun t => t.pending = s.pending) True (s.grantPort p op) := by
  unfold State.grantPort
  split
  · exact (State.settle_pending _).trans ((keeps_endOperation s p op _).trans (keeps_finishCleanup _ p)).pending
  split
  · trivial
  · exact (State.settle_pending _).trans (keeps_setStage _ p _).pending

theorem pending_grantTo (r : Requester) : Leads (fun t => t.pending = s.pending) True (s.grantTo r) := by
  unfold State.grantTo
  split
  · exact State.settle_pending _
  split
  · exact pending_grantPort _ _
  · exact rfl
  · exact rfl

theorem answers_execGrantDecision : Answers s True (enabled .grantDecision s) (execGrantDecision s) := by
  unfold execGrantDecision
  split
  · next free =>
    split
    · next r pointer decided =>
      exact .of_event (by rw [enabled, free, decided]; rfl)
        (pending_grantTo (s := { s with arbiter := { s.arbiter with pointer := pointer } }) r)
    · exact .nothing
  · exact .nothing

end OnPath

/-! ## Timers, rest and power -/

section Timers

variable {s : State} {stops : Prop}

theorem answers_execLeaseExpiry (i : ShareIdx) : Answers s stops (enabled (.leaseExpiry i) s) (execLeaseExpiry i s) := by
  unfold execLeaseExpiry
  split
  · next c claimed =>
    have event : enabled (.leaseExpiry i) s = (s.running && c.lease.isSome) := by
      rw [enabled, Share.leaseRuns, claimed]
      rfl
    rw [event]
    exact .of_condition ((keeps_push s _ _).trans (keeps_handover _ i _)).pending
  · exact .nothing

theorem answers_execVoteWindowExpiry : Answers s stops (enabled .voteWindowExpiry s) (execVoteWindowExpiry s) := by
  unfold execVoteWindowExpiry
  split
  · next pr pending =>
    have event : enabled .voteWindowExpiry s = (s.running && pr.timer.isSome) := by
      rw [enabled, pending]
      rfl
    rw [event]
    exact .of_condition (keepsCore_endProposal s _ _).pending
  · exact .nothing

theorem answers_execWarmUpExpiry : Answers s stops (enabled .warmUpExpiry s) (execWarmUpExpiry s) :=
  .of_condition (keepsCore_greeting s 4).pending

theorem answers_execResetAssert : Answers s stops (enabled .resetAssert s) (execResetAssert s) := by
  cases low : s.resetLow with
  | true =>
    unfold execResetAssert
    rw [low]
    exact .nothing
  | false =>
    obtain ⟨m, n, lost⟩ := loseBurst_eq s
    have kept : s.loseBurst.pending = s.pending := by rw [lost]
    refine .of_event (by rw [enabled, low]; rfl) ?_
    rw [show execResetAssert s = .next s.underReset from exec_resetAssert low]
    exact kept

end Timers

/-- What each command answers. -/
theorem answers_exec (c : Instr) (s : State) : Answers s (c = .grantDecision) (enabled c s) (exec c s) := by
  cases c with
  | selectFallingEdge p => exact answers_execSelectFallingEdge p
  | poll p clocks => exact answers_execPoll p clocks
  | fetch p clocks => exact answers_execFetch p clocks
  | requestFrame p bytes bits => exact answers_execRequestFrame p bytes bits
  | hello p tag => exact answers_execHello p tag
  | detach p => exact answers_serve (serve := serveDetach p) fun t => pending_serveDetach t p
  | create p => exact answers_serve (serve := serveCreate p) fun t => pending_serveCreate t p
  | attach p => exact answers_serve (serve := serveAttach p) fun t => pending_serveAttach t p
  | close p => exact answers_serve (serve := serveClose p) fun t => pending_serveClose t p
  | revoke p => exact answers_serve (serve := serveRevoke p) fun t => pending_serveRevoke t p
  | info p => exact answers_serve (serve := serveInfo p) fun t => pending_serveInfo t p
  | grant p => exact answers_serve (serve := serveGrant p) fun t => pending_serveGrant t p
  | drop p => exact answers_serve (serve := serveDrop p) fun t => pending_serveDrop t p
  | list p => exact answers_serve (serve := serveList p) fun t => pending_serveList t p
  | read p => exact answers_takeData
  | write p => exact answers_takeData
  | cas p => exact answers_takeData
  | post p => exact answers_execPost p
  | postRelease p => exact answers_execPostRelease p
  | flush p => exact answers_serve (serve := serveFlush p) fun t => pending_serveFlush t p
  | claim p => exact answers_serve (serve := serveClaim p) fun t => pending_serveClaim t p
  | release p => exact answers_serve (serve := serveRelease p) fun t => pending_serveRelease t p
  | renew p => exact answers_serve (serve := serveRenew p) fun t => pending_serveRenew t p
  | notices p => exact answers_serve (serve := serveNotices p) fun t => pending_serveNotices t p
  | propose p => exact answers_serve (serve := servePropose p) fun t => pending_servePropose t p
  | vote p => exact answers_serve (serve := serveVote p) fun t => pending_serveVote t p
  | settings p => exact answers_serve (serve := serveSettings p) fun t => pending_serveSettings t p
  | unknownRequest p => exact answers_execUnknownRequest p
  | grantDecision =>
    rw [eq_self]
    exact answers_execGrantDecision
  | burstCompletion p => exact answers_execBurstCompletion p
  | scrubBurstCompletion => exact answers_execScrubBurstCompletion
  | leaseExpiry i => exact answers_execLeaseExpiry i
  | postDelayExpiry p => exact .of_condition (keeps_modPosts s p _).pending
  | noticeDelayExpiry p => exact .of_condition (keeps_modNotices s p _).pending
  | voteWindowExpiry => exact answers_execVoteWindowExpiry
  | restCountdownExpiry => exact .of_condition rfl
  | warmUpExpiry => exact answers_execWarmUpExpiry
  | resetAssert => exact answers_execResetAssert
  | powerOn => exact .of_event rfl rfl
  | firstByteEnd p first => exact answers_execFirstByteEnd p first

/-- Settles O2: each command answers as `answers_exec` says, and `unbackedBurst` is the one fault there is. -/
theorem commandsAnswerAndKeepTheQueue : Obligations.CommandsAnswerAndKeepTheQueue := by
  refine ⟨fun c s => ?_, fun c s => (answers_exec c s).idle⟩
  have queue := (answers_exec c s).queue
  cases answer : exec c s with
  | next t =>
    rw [answer] at queue
    exact .inl ⟨t, rfl, queue⟩
  | fault r =>
    rw [answer] at queue
    cases r
    exact .inr ⟨queue, rfl⟩
  | refused r =>
    rw [answer] at queue
    exact queue.elim

end Sys2Proof.Machine
end
